-- ==== Sys2Proof/Word.lean ====
section
/-!
DEFINITION. The word types of the ISH-7460 and the pair type of the frame's two sides.
-/
namespace Sys2Proof

/-- One byte of the host line or of the configuration store. -/
abbrev Byte := BitVec 8

/-- A set of the fifteen pending classes: bit n is class n of R185. -/
abbrev ClassSet := BitVec 15

/-- Side A or side B of the frame (1.7 of the scope file). -/
inductive Side where
  | a | b
deriving DecidableEq, Repr

/-- One thing for side A and one for side B. -/
structure Sides (α : Type) where
  a : α
  b : α
deriving DecidableEq, Repr

namespace Sides

/-- The value of one side. -/
def get {α : Type} (p : Sides α) : Side → α
  | .a => p.a
  | .b => p.b

/-- The pair with one side's value replaced. -/
def set {α : Type} (p : Sides α) (i : Side) (v : α) : Sides α :=
  match i with
  | .a => { p with a := v }
  | .b => { p with b := v }

/-- The pair with one side's value changed by a function. -/
def modify {α : Type} (p : Sides α) (i : Side) (f : α → α) : Sides α :=
  p.set i (f (p.get i))

@[simp] theorem get_set_same {α : Type} (p : Sides α) (i : Side) (v : α) :
    (p.set i v).get i = v := by cases i <;> rfl

theorem get_set_other {α : Type} (p : Sides α) (i j : Side) (v : α) (h : j ≠ i) :
    (p.set i v).get j = p.get j := by
  cases i <;> cases j <;> first | rfl | exact absurd rfl h

@[simp] theorem get_modify_same {α : Type} (p : Sides α) (i : Side) (f : α → α) :
    (p.modify i f).get i = f (p.get i) := by cases i <;> rfl

theorem get_modify_other {α : Type} (p : Sides α) (i j : Side) (f : α → α) (h : j ≠ i) :
    (p.modify i f).get j = p.get j := get_set_other p i j _ h

end Sides

end Sys2Proof
end

