-- ==== Sys2Proof/Syntax.lean ====
section
/-!
DEFINITION. The commands of the ISH-7460: one constructor of `Instr` for each row of spec/opcode_table.json, with the
operands that the rule of the row speaks of. A request carries the bytes of its body (R182), so that the judgement of
R180, the length included, is the machine's own.
-/
namespace Sys2Proof

/-- A clamp as commanded (R21), in the order of that rule. -/
inductive Clamp where
  | opened | closed
deriving DecidableEq, Repr

/-- A station of the frame bus (R162). -/
inductive Station where
  | carriage (side : Side)
  | doffer
  | train
  | board (side : Side) (sec : Nat)
deriving DecidableEq, Repr

/-- A byte as the host line delivers it; `stop` says whether its stop bit was received (R176). -/
structure LineByte where
  data : Byte
  stop : Bool := true
deriving DecidableEq, Repr

/-- One item of a section board's answer (R169); the position is counted within the section. -/
inductive BoardItem where
  | yarnLost (pos : Nat)
  | yarnFound (pos : Nat)
  | clampAck (pos : Nat) (clamp : Clamp)
deriving DecidableEq, Repr

/-- A carriage's report (R170). -/
inductive CarriageReport where
  | present
  | homed (pos : Nat)
  | arrived (pos : Nat)
  | pieced (pos : Nat) (ok : Bool)
  | ready
deriving DecidableEq, Repr

/-- The doffer's report (R171); the side of SECTION_DONE is `none` where it is neither A nor B (R97). -/
inductive DofferReport where
  | ready
  | doffBegun
  | sectionDone (side : Option Side) (sec : Nat)
  | doffDone
  | doffFault (code : Nat)
deriving DecidableEq, Repr

/-- The roving train's report (R172). -/
inductive TrainReport where
  | next
  | replaced (side : Side) (pos : Nat)
  | skipped (side : Side) (pos : Nat)
  | present
deriving DecidableEq, Repr

/-- What an answer carries, by the kind of the station it names (R168 to R172). The receipt is the turn of the last
command the station took, `none` where it has taken none since its own start. -/
inductive Payload where
  | carriage (side : Side) (receipt : Option Bool) (report : Option CarriageReport)
  | doffer (receipt : Option Bool) (report : Option DofferReport)
  | train (receipt : Option Bool) (report : Option TrainReport)
  | board (side : Side) (sec : Nat) (items : List BoardItem)
deriving DecidableEq, Repr

/-- A station's answer (R164, R165): whether its check is correct, its turn, its restart mark and its content. -/
structure Answer where
  checkOk : Bool
  turn : Bool
  restart : Bool
  payload : Payload
deriving DecidableEq, Repr

/-- The station that an answer names. -/
def Answer.station (a : Answer) : Station :=
  match a.payload with
  | .carriage side _ _ => .carriage side
  | .doffer _ _ => .doffer
  | .train _ _ => .train
  | .board side sec _ => .board side sec

/-- The commands, in the order of spec/opcode_table.json. -/
inductive Instr where
  | powerOnReset
  /-- The straps BR1 (bit 1) and BR0 (bit 0) as they stand at the release of RESET#. -/
  | resetRelease (straps : BitVec 2)
  /-- `none`: the memory does not acknowledge its device address; otherwise the bytes of the record that it
  acknowledged, 8 of them for a whole record. -/
  | storeRecord (read : Option (List Byte))
  | loadEnd
  | encoderPulse
  | motionWindowExpiry
  /-- The bytes received on HRX, oldest first. -/
  | hostFrame (bytes : List LineByte)
  | frameTimerExpiry
  | replySent
  | unknownKind (kind : Byte) (body : List Byte)
  | identify (body : List Byte)
  | status (body : List Byte)
  | ackEvents (body : List Byte)
  | setMask (body : List Byte)
  | setDoffMask (body : List Byte)
  | configSet (body : List Byte)
  | configSetSections (body : List Byte)
  | configSetEncoder (body : List Byte)
  | configSetLengthTrim (body : List Byte)
  | configSetSpeedTrim (body : List Byte)
  | configSetAttnMask (body : List Byte)
  | configSetDoffMask (body : List Byte)
  | configGet (body : List Byte)
  | articleStage (body : List Byte)
  | articleGet (body : List Byte)
  | articleExchange (body : List Byte)
  | frameRun (body : List Byte)
  | frameHalt (body : List Byte)
  | doffNow (body : List Byte)
  | doffAbort (body : List Byte)
  | doffManualDone (body : List Byte)
  | doffGet (body : List Byte)
  | spindleGet (body : List Byte)
  | spindlePark (body : List Byte)
  | spindleUnpark (body : List Byte)
  | spindleRelease (body : List Byte)
  | setRoving (body : List Byte)
  | breakListGet (body : List Byte)
  | rovingListGet (body : List Byte)
  | carriageGet (body : List Byte)
  | carriageHold (body : List Byte)
  | carriageRelease (body : List Byte)
  | carriageReset (body : List Byte)
  | rovingRunStart (body : List Byte)
  | rovingRunAbort (body : List Byte)
  | rovingRunGet (body : List Byte)
  | trimSpeed (body : List Byte)
  | trimLength (body : List Byte)
  | shiftClose (body : List Byte)
  | shiftGetLive (body : List Byte)
  | shiftGetHistory (body : List Byte)
  | reset (body : List Byte)
  | softReset
  | poll
  | answerWindowExpiry
  | stationAnswer (answer : Answer)
  | homingTimerExpiry (side : Side)
  | pieceTimerExpiry (side : Side)
  | legTimerExpiry (side : Side)
  | returnTimerExpiry (side : Side)
  | dofferTimerExpiry
  | slotTimerExpiry
deriving DecidableEq, Repr

end Sys2Proof
end

