-- ==== Sys2Proof/Config.lean ====
section
/-!
DEFINITION. What an implementation fixes and the spec leaves open: opaque constants, without a body, so that nothing
can be proved of their values. Where they are applied, and the limits the spec sets, stands in the operations that use
them.
-/
namespace Sys2Proof.Config

/-- The silicon revision (R183 gives its range 1..255 only); `Machine.siliconRevision` brings it into the range.
UNVERIFIED, safe: log entry 8. -/
opaque siliconRevision : Nat

/-- The whole seconds left on a running timer at the moment of a read; time is not modelled. Applied to the model's
free counter. UNVERIFIED, safe: log entry 4. -/
opaque secondsLeft : Nat → Nat

/-- Which order the readers of FLmm take an advance in: "The readers take an advance in no fixed order among
themselves" (R3). Applied to the model's free counter. DESIGN CHOICE, safe: log entry 5. -/
opaque readerOrder : Nat → Nat

/-- The value of a 64-bit figure whose exact sum of the two operands does not fit its width. The spec states no
result there. DESIGN CHOICE, safe: log entry 6. -/
opaque overflow64 : Nat → Nat → Nat

/-- The bytes of a reply field of the given width for a figure that does not fit it. The spec states no result there.
DESIGN CHOICE, safe: log entry 7. -/
opaque unfit : Nat → Nat → Nat

end Sys2Proof.Config
end

