-- ==== Sys2Proof/Machine/State.lean ====
section
/-!
DEFINITION. The state of the ISH-7460 as plain data, block by block in the order of 1.4 of the scope file, and the
state that POWER_ON_RESET leaves.
-/
namespace Sys2Proof.Machine

/-! ## Phases of the part (section 11.2) -/

/-- RESET# held low; the Configuration Loader reading the store; supervising. -/
inductive Phase where
  | inReset | loading | running
deriving DecidableEq, Repr

/-! ## Front Roller Counter (R1) -/

/-- FLµm, the remainder accumulator, N, D, the motion window timer (the milliseconds it was started with) and the
winding status. -/
structure Roller where
  flum : Nat
  acc : Nat
  num : Nat
  den : Nat
  window : Option Nat
  winding : Bool
deriving DecidableEq, Repr

/-! ## Speed Program Unit (R9) -/

/-- Fill f, governor step g, governor window count, low streak and set-point. The speed trim is an item. -/
structure Speed where
  fill : Nat
  step : Nat
  winCount : Nat
  lowStreak : Nat
  setPoint : Nat
deriving DecidableEq, Repr

/-! ## Spindle Table (R21) -/

/-- The six states of a spindle, in the order of R21. -/
inductive SpState where
  | running | broken | piecing | waitRoving | locked | parked
deriving DecidableEq, Repr

/-- Break causes, in the order of R21. -/
inductive Cause where
  | endBreak | startUp | rovingOut | rovingChange | release
deriving DecidableEq, Repr

/-- Lock causes, in the order of R21. -/
inductive LockCause where
  | rogue | pieceFail
deriving DecidableEq, Repr

/-- One spindle record (R21). Its name is its side and its place in the side's list, from position 1. -/
structure Spindle where
  state : SpState
  marker : Option Nat
  cop : Nat
  roving : Option Nat
  clamp : Clamp
  seq : Option Nat
  cause : Option Cause
  attempts : Nat
  lockCause : Option LockCause
  stamps : List Nat
  rogueUnlocked : Bool
deriving DecidableEq, Repr

/-- A spindle named by side and position. -/
structure SpRef where
  side : Side
  pos : Nat
deriving DecidableEq, Repr

/-! ## Carriage Controller (R67) -/

/-- Carriage states, in the order of R67. -/
inductive CarState where
  | absent | homing | ready | moving | serving | held | fault
deriving DecidableEq, Repr

/-- Travel direction: +1 toward higher positions, −1 toward lower. -/
inductive Dir where
  | up | down
deriving DecidableEq, Repr

/-- The piece kinds of an order, in the order of R60. -/
inductive PieceKind where
  | endBreak | startUp | rovingChange | release
deriving DecidableEq, Repr

/-- The three kinds of order, in the order of R67, with what each holds. -/
inductive Order where
  | piece (target : Nat) (offset : Int) (kind : PieceKind)
  | overtaken (target : Nat) (offset : Int) (kind : PieceKind)
  | transit (offset : Int)
deriving DecidableEq, Repr

/-- The kinds a carriage timer runs as, in the order of R67. -/
inductive TimerKind where
  | homing | piece | leg | returning
deriving DecidableEq, Repr

/-- A running carriage timer: its kind and the seconds it was started with. -/
structure CarTimer where
  kind : TimerKind
  secs : Nat
deriving DecidableEq, Repr

/-- One carriage record (R67). -/
structure Carriage where
  state : CarState
  x : Option Nat
  d : Dir
  order : Option Order
  returning : Bool
  hostHold : Bool
  doffHold : Bool
  timer : Option CarTimer
  withdrawn : Option Nat
deriving DecidableEq, Repr

/-! ## Doff Controller (R85) -/

/-- The eight frame states, in the order of Section 5.1. -/
inductive FrameState where
  | stopped | startUp | spinning | doffPending | doffStopping | doffing | restartWait | halted
deriving DecidableEq, Repr

/-- Where the current doff stands with the doffer, in the order of R85. -/
inductive GoState where
  | none | waiting | sent
deriving DecidableEq, Repr

/-- Doff kinds, in the order of R92. -/
inductive DoffKind where
  | auto | manual
deriving DecidableEq, Repr

/-- Doff outcomes, in the order of R92. -/
inductive DoffOutcome where
  | done | fault | aborted
deriving DecidableEq, Repr

/-- The last doff record (R92). -/
structure DoffRecord where
  number : Nat
  kind : DoffKind
  fillAtStop : Nat
  doneA : Nat
  doneB : Nat
  outcome : Option DoffOutcome
  faultCode : Option Nat
deriving DecidableEq, Repr

/-- The supervision context: attention mask and governor enable (Section 5.6). -/
structure Context where
  mask : ClassSet
  governor : Bool
deriving DecidableEq, Repr

/-- The Doff Controller's state (R85); `done` holds the sections-done sets. -/
structure Doff where
  frame : FrameState
  watchStart : Option Nat
  copBase : Nat
  number : Nat
  last : Option DoffRecord
  done : Sides (List Nat)
  go : GoState
  ready : Bool
  timer : Option Nat
  effective : Context
  saved : Option Context
  doffMask : ClassSet
deriving DecidableEq, Repr

/-! ## Article Store (R108, R111) -/

/-- An article record (R108). `program` holds the sixteen points p0..p15. -/
structure Article where
  id : Nat
  tex100 : Nat
  draft100 : Nat
  copLength : Nat
  bobbin : Nat
  program : List Nat
  minSpeed : Nat
  maxSpeed : Nat
  approach : Nat
  preDoff : Nat
  watch : Nat
deriving DecidableEq, Repr

/-- The reasons of the last exchange outcome, in the order of R111. -/
inductive ExchangeReason where
  | done | noStaged | rovingMismatch
deriving DecidableEq, Repr

/-- The occasions of the last exchange outcome, in the order of R111. -/
inductive Occasion where
  | request
  | doff (number : Nat)
deriving DecidableEq, Repr

/-- The last exchange outcome (R111). -/
structure ExchangeOutcome where
  reason : ExchangeReason
  occasion : Occasion
  flmm : Nat
deriving DecidableEq, Repr

/-- The Article Store's state (R111). -/
structure ArticleStore where
  active : Article
  staged : Option Article
  request : Bool
  last : Option ExchangeOutcome
deriving DecidableEq, Repr

/-! ## Roving Supply Unit (R124, R130) -/

/-- Roving run states, in the order of R130. -/
inductive RunState where
  | idle | active | ending
deriving DecidableEq, Repr

/-- End reasons of a roving run, in the order of R130. -/
inductive EndReason where
  | empty | count | aborted | timeout
deriving DecidableEq, Repr

/-- The roving change list in its two segments, and the roving run record. -/
structure Roving where
  urgent : List SpRef
  low : List SpRef
  run : RunState
  base : Option Nat
  current : Option Nat
  slot : Option SpRef
  timer : Option Nat
  reason : Option EndReason
deriving DecidableEq, Repr

/-! ## Shift Counter (R145, R155) -/

/-- The nine counts of a side, in the order of R155. -/
structure ShiftCounts where
  endBreaks : Nat
  startUpBreaks : Nat
  rovingOutBreaks : Nat
  carriagePieces : Nat
  manualPieces : Nat
  pieceFailures : Nat
  rogueLocks : Nat
  pieceFailLocks : Nat
  replacements : Nat
deriving DecidableEq, Repr

/-- One side of the live shift record. -/
structure ShiftSide where
  run : Nat
  possible : Nat
  mass : Nat
  counts : ShiftCounts
deriving DecidableEq, Repr

/-- The live shift record; `marker` is the saturation marker. -/
structure ShiftLive where
  sides : Sides ShiftSide
  doffs : Nat
  exchanges : Nat
  marker : Bool
deriving DecidableEq, Repr

/-- One side of a closed record (R155): mass in decigrams, efficiency in thousandths or absent. -/
structure ClosedSide where
  run : Nat
  possible : Nat
  massDg : Nat
  efficiency : Option Nat
  counts : ShiftCounts
deriving DecidableEq, Repr

/-- A closed record (R155). -/
structure ClosedShift where
  seq : Nat
  label : Nat
  stamp : Nat
  flmm : Nat
  sides : Sides ClosedSide
  doffs : Nat
  exchanges : Nat
  marker : Bool
deriving DecidableEq, Repr

/-- The Shift Counter's state; the history stands oldest first (R156). -/
structure Shift where
  live : ShiftLive
  marks : Sides Nat
  history : List ClosedShift
  seq : Nat
deriving DecidableEq, Repr

/-! ## Frame Bus Master (R162) -/

/-- The status of a station entry. -/
inductive LinkStatus where
  | new | answering | silent
deriving DecidableEq, Repr

/-- The four fields every station entry has: status, miss count, answer turn, restart seen. -/
structure Link where
  status : LinkStatus
  miss : Nat
  turn : Option Bool
  restartSeen : Bool
deriving DecidableEq, Repr

/-- The commands to a carriage (R170), the doffer (R171) and the train (R172). -/
inductive Command where
  | home
  | piece (offset : Int) (kind : PieceKind)
  | transit (offset : Int)
  | cancel
  | doffGo (sectionsA sectionsB : Nat)
  | doffStop
  | position (side : Side) (pos : Nat)
  | noPosition
  | wait
deriving DecidableEq, Repr

/-- A queued command with its turn, and whether a poll has carried it (R168, R172). -/
structure QueuedCommand where
  cmd : Command
  turn : Bool
  carried : Bool
deriving DecidableEq, Repr

/-- The entry of a carriage, the doffer or the train. -/
structure MachineEntry where
  link : Link
  carriedTurn : Option Bool
  queue : List QueuedCommand
deriving DecidableEq, Repr

/-- The entry of a section board: 48 places for a held clamp command, and the carry point. -/
structure BoardEntry where
  link : Link
  held : List (Option Clamp)
  carryPoint : Nat
deriving DecidableEq, Repr

/-- What a poll carries (R163): the station, the receipt (`none` is the fresh mark), the head command with its turn,
and the clamp commands by position within the section. -/
structure PollMessage where
  station : Station
  receipt : Option Bool
  command : Option (Command × Bool)
  clamps : List (Nat × Clamp)
deriving DecidableEq, Repr

/-- The station table, the stations still to be polled in this cycle, and the poll whose answer window is open. -/
structure Bus where
  carriages : Sides MachineEntry
  doffer : MachineEntry
  train : MachineEntry
  boards : Sides (List BoardEntry)
  cycle : List Station
  awaiting : Option PollMessage
deriving DecidableEq, Repr

/-! ## Host Line Interface (R174 to R189) -/

/-- The receiver: off (R188), hunting, or collecting a frame with the bytes after its sync byte (R175). -/
inductive Receiver where
  | off
  | hunting
  | collecting (bytes : List Byte)
deriving DecidableEq, Repr

/-- A request in the receive holding. -/
structure HeldRequest where
  kind : Byte
  body : List Byte
deriving DecidableEq, Repr

/-- The result codes of R179. -/
inductive Result where
  | ok | clamped | deferred | refusedState | badValue | unknownKind | badLength | starting | notPresent
deriving DecidableEq, Repr

/-- A reply: its kind, its result code and the bytes of its body after the code. -/
structure Reply where
  kind : Byte
  result : Result
  content : List Byte
deriving DecidableEq, Repr

/-- Discard reasons, in the order of R175. -/
inductive DiscardReason where
  | length | late | crc | overflow
deriving DecidableEq, Repr

/-- The strapped line rates, in the order of R183. -/
inductive LineRate where
  | b57600 | b115200 | b230400 | b460800
deriving DecidableEq, Repr

/-- The Host Line Interface's state. `resetDue` stands from the last byte of a RESET reply to the soft reset. -/
structure HostLine where
  rx : Receiver
  holding : List HeldRequest
  tx : Option Reply
  resetDue : Bool
  pendingSet : ClassSet
  discards : Nat
  lastDiscard : Option DiscardReason
  rate : LineRate
deriving DecidableEq, Repr

/-! ## Configuration Loader (R191 to R195) -/

/-- The value in force of each configuration item of R191 but the two masks, which the Doff Controller holds. -/
structure Items where
  sections : Sides Nat
  encPulses : Nat
  rollerCirc : Nat
  lengthTrim : Int
  motionWindow : Nat
  reach : Nat
  pieceTimeout : Nat
  legTimeout : Nat
  homeTimeout : Nat
  pieceAttempts : Nat
  rogueBreaks : Nat
  rogueSpan : Nat
  lockCeiling : Nat
  rovingThreshold : Nat
  runoutMargin : Nat
  auditStep : Nat
  slotTimeout : Nat
  dofferTimeout : Nat
  govWindow : Nat
  govHigh : Nat
  govLow : Nat
  speedTrim : Int
deriving DecidableEq, Repr

/-- The load outcomes, in the order of R183. -/
inductive LoadOutcome where
  | none | ok | fault
deriving DecidableEq, Repr

/-- Where the reading of the store stands; when it stops, with which outcome and failing index. -/
inductive LoadStage where
  | idle
  | reading
  | stopped (outcome : LoadOutcome) (failIndex : Option Nat)
  | done
deriving DecidableEq, Repr

/-- The Configuration Loader's own state. `applied` holds item code and 32-bit value of each record applied. -/
structure Loader where
  stage : LoadStage
  index : Nat
  lastCode : Option Nat
  applied : List (Nat × Nat)
  outcome : LoadOutcome
  failIndex : Option Nat
  defaulted : Bool
deriving DecidableEq, Repr

/-! ## The whole state -/

/-- The state of the part, and the queue of commands that are waiting, first in first out. -/
structure State where
  pending : List Instr
  freeCount : Nat
  phase : Phase
  loader : Loader
  items : Items
  roller : Roller
  speed : Speed
  spindles : Sides (List Spindle)
  breakList : Sides (List Nat)
  breakSeq : Sides Nat
  carriages : Sides Carriage
  doff : Doff
  articles : ArticleStore
  roving : Roving
  shift : Shift
  bus : Bus
  line : HostLine
deriving DecidableEq, Repr

/-- No command makes the part stop with a fault: the spec has no such event. -/
inductive Fault where
deriving DecidableEq, Repr

/-- Why a command has no meaning. -/
inductive Refusal where
  /-- Raised by an arm of `exec` whose command has no meaning in this model yet; no arm raises it. Safe: nothing
  can be proved of what the command does. -/
  | notModelled (mnemonic : String)
deriving DecidableEq, Repr

/-! ## Reset values -/

/-- The defaults of R191 for the items held in the set. -/
def Items.defaults : Items where
  sections := ⟨20, 20⟩
  encPulses := 400
  rollerCirc := 84823
  lengthTrim := 0
  motionWindow := 250
  reach := 24
  pieceTimeout := 75
  legTimeout := 20
  homeTimeout := 40
  pieceAttempts := 2
  rogueBreaks := 4
  rogueSpan := 400
  lockCeiling := 24
  rovingThreshold := 60
  runoutMargin := 5
  auditStep := 5
  slotTimeout := 600
  dofferTimeout := 360
  govWindow := 100
  govHigh := 20
  govLow := 8
  speedTrim := 0

/-- The built-in default article (R108, R109). -/
def Article.default : Article where
  id := 0
  tex100 := 1476
  draft100 := 3850
  copLength := 4000
  bobbin := 2600
  program := [16000, 16400, 16800, 17200, 17600, 18000, 18400, 18800,
    19200, 19200, 19200, 19200, 19200, 19200, 19200, 19200]
  minSpeed := 8000
  maxSpeed := 21000
  approach := 12000
  preDoff := 1004
  watch := 30

/-- A carriage record after power-on reset (R67). -/
def Carriage.initial : Carriage where
  state := .absent
  x := none
  d := .up
  order := none
  returning := false
  hostHold := false
  doffHold := false
  timer := none
  withdrawn := none

/-- The counts of a cleared live record (R145). -/
def ShiftCounts.zero : ShiftCounts where
  endBreaks := 0
  startUpBreaks := 0
  rovingOutBreaks := 0
  carriagePieces := 0
  manualPieces := 0
  pieceFailures := 0
  rogueLocks := 0
  pieceFailLocks := 0
  replacements := 0

/-- A cleared live shift record (R145). -/
def ShiftLive.cleared : ShiftLive where
  sides := ⟨⟨0, 0, 0, ShiftCounts.zero⟩, ⟨0, 0, 0, ShiftCounts.zero⟩⟩
  doffs := 0
  exchanges := 0
  marker := false

/-- The link fields of an entry as it is formed (R162). -/
def Link.initial : Link where
  status := .new
  miss := 0
  turn := none
  restartSeen := false

/-- The entry of a carriage, the doffer or the train as it is formed (R162). -/
def MachineEntry.initial : MachineEntry where
  link := Link.initial
  carriedTurn := none
  queue := []

/-- The machine right after reset: what POWER_ON_RESET leaves, RESET# held low. Values the spec does not give are
DESIGN CHOICE and named in log entry 2; none of them can be read before loading ends. -/
def State.reset : State where
  pending := []
  freeCount := 0
  phase := .inReset
  loader := {
    stage := .idle, index := 0, lastCode := none, applied := [], outcome := .none, failIndex := none,
    defaulted := false }
  items := Items.defaults
  roller := { flum := 0, acc := 0, num := 0, den := 0, window := none, winding := false }
  speed := { fill := 0, step := 0, winCount := 0, lowStreak := 0, setPoint := 0 }
  spindles := ⟨[], []⟩
  breakList := ⟨[], []⟩
  breakSeq := ⟨0, 0⟩
  carriages := ⟨Carriage.initial, Carriage.initial⟩
  doff := {
    frame := .stopped, watchStart := none, copBase := 0, number := 0, last := none, done := ⟨[], []⟩,
    go := .none, ready := false, timer := none, effective := ⟨0, true⟩, saved := none, doffMask := 0 }
  articles := { active := Article.default, staged := none, request := false, last := none }
  roving := {
    urgent := [], low := [], run := .idle, base := none, current := none, slot := none, timer := none,
    reason := none }
  shift := { live := ShiftLive.cleared, marks := ⟨0, 0⟩, history := [], seq := 1 }
  bus := {
    carriages := ⟨MachineEntry.initial, MachineEntry.initial⟩, doffer := MachineEntry.initial,
    train := MachineEntry.initial, boards := ⟨[], []⟩, cycle := [], awaiting := none }
  line := {
    rx := .off, holding := [], tx := none, resetDue := false, pendingSet := 0, discards := 0,
    lastDiscard := none, rate := .b57600 }

/-! ## One update for each field of the state -/

/-- The state with its `pending` replaced. -/
def State.setPending (s : State) (v : List Instr) : State := { s with pending := v }

/-- The state with its `freeCount` replaced. -/
def State.setFreeCount (s : State) (v : Nat) : State := { s with freeCount := v }

/-- The state with its `phase` replaced. -/
def State.setPhase (s : State) (v : Phase) : State := { s with phase := v }

/-- The state with its `loader` replaced. -/
def State.setLoader (s : State) (v : Loader) : State := { s with loader := v }

/-- The state with its `items` replaced. -/
def State.setItems (s : State) (v : Items) : State := { s with items := v }

/-- The state with its `roller` replaced. -/
def State.setRoller (s : State) (v : Roller) : State := { s with roller := v }

/-- The state with its `speed` replaced. -/
def State.setSpeed (s : State) (v : Speed) : State := { s with speed := v }

/-- The state with its `spindles` replaced. -/
def State.setSpindles (s : State) (v : Sides (List Spindle)) : State := { s with spindles := v }

/-- The state with its `breakList` replaced. -/
def State.setBreakList (s : State) (v : Sides (List Nat)) : State := { s with breakList := v }

/-- The state with its `breakSeq` replaced. -/
def State.setBreakSeq (s : State) (v : Sides Nat) : State := { s with breakSeq := v }

/-- The state with its `carriages` replaced. -/
def State.setCarriages (s : State) (v : Sides Carriage) : State := { s with carriages := v }

/-- The state with its `doff` replaced. -/
def State.setDoff (s : State) (v : Doff) : State := { s with doff := v }

/-- The state with its `articles` replaced. -/
def State.setArticles (s : State) (v : ArticleStore) : State := { s with articles := v }

/-- The state with its `roving` replaced. -/
def State.setRoving (s : State) (v : Roving) : State := { s with roving := v }

/-- The state with its `shift` replaced. -/
def State.setShift (s : State) (v : Shift) : State := { s with shift := v }

/-- The state with its `bus` replaced. -/
def State.setBus (s : State) (v : Bus) : State := { s with bus := v }

/-- The state with its `line` replaced. -/
def State.setLine (s : State) (v : HostLine) : State := { s with line := v }

end Sys2Proof.Machine
end

