-- ==== Sys2Proof/Machine/Flags.lean ====
section
/-!
DEFINITION. The fifteen pending classes (R185), raising and clearing them, the effective mask, and ATTN (R187).
-/
namespace Sys2Proof.Machine

/-- The fifteen pending classes, in the order of their numbers 0..14 (R185). -/
inductive PendClass where
  | config | lineFault | motion | frameState | stopAdvice | speed | rogueLock | pieceFailLock | carriage
  | rovingLow | rovingOut | rovingRunEnd | article | dofferFault | shiftSaturated
deriving DecidableEq, Repr

/-- The number of a class in a class set (R185). -/
def PendClass.number : PendClass → Nat
  | .config => 0
  | .lineFault => 1
  | .motion => 2
  | .frameState => 3
  | .stopAdvice => 4
  | .speed => 5
  | .rogueLock => 6
  | .pieceFailLock => 7
  | .carriage => 8
  | .rovingLow => 9
  | .rovingOut => 10
  | .rovingRunEnd => 11
  | .article => 12
  | .dofferFault => 13
  | .shiftSaturated => 14

/-- The class set that names one class: 2 to the power of its number (R181). -/
def PendClass.bit (c : PendClass) : ClassSet := BitVec.ofNat 15 (2 ^ c.number)

/-- Whether a class set names a class. -/
def hasClass (m : ClassSet) (c : PendClass) : Bool := m &&& c.bit != 0

/-- Raising a class adds it to the pending set; raising one that is pending leaves the set as it is (R185). -/
def raise (c : PendClass) (s : State) : State :=
  s.setLine { s.line with pendingSet := s.line.pendingSet ||| c.bit }

/-- ACK_EVENTS clears every class it names from the pending set (R186). -/
def clearClasses (m : ClassSet) (s : State) : State :=
  s.setLine { s.line with pendingSet := s.line.pendingSet &&& ~~~m }

/-- ATTN is driven low while the pending set and the effective mask have a class in common; it is released while
RESET# is low and until loading ends (R187). -/
def attnLow (s : State) : Bool :=
  s.phase == .running && (s.line.pendingSet &&& s.doff.effective.mask != 0)

/-- Whether the frame state expects motion (R6). -/
def FrameState.motionExpected : FrameState → Bool
  | .startUp | .spinning | .doffPending => true
  | .stopped | .doffStopping | .doffing | .restartWait | .halted => false

/-- Whether the frame state is one that does not expect motion; DOFF_STOPPING accepts either (R6). -/
def FrameState.motionNotExpected : FrameState → Bool
  | .stopped | .doffing | .restartWait | .halted => true
  | .startUp | .spinning | .doffPending | .doffStopping => false

/-- The frame states in which the Dispatcher issues orders (R55). -/
def FrameState.dispatches : FrameState → Bool
  | .startUp | .spinning | .doffPending => true
  | .stopped | .doffStopping | .doffing | .restartWait | .halted => false

/-- The two doff approach states, in which the speed cap acts (R14). -/
def FrameState.capped : FrameState → Bool
  | .doffPending | .doffStopping => true
  | .stopped | .startUp | .spinning | .doffing | .restartWait | .halted => false

end Sys2Proof.Machine
end

