-- ==== Sys2Proof/Machine/Operands.lean ====
section
/-!
DEFINITION. Reading the fields of a request body and forming the fields of a reply body (R181), the CRC and the frame
of the host line (R174), and the place of each value in the list its rule gives.
-/
namespace Sys2Proof.Machine

/-! ## Numbers on the line -/

/-- The unsigned number whose bytes stand most significant first (R181). -/
def fromBytes (bs : List Byte) : Nat := bs.foldl (fun n b => n * 256 + b.toNat) 0

/-- The bytes of a number, most significant first, in a field of `w` bytes. -/
def beBytes : Nat → Nat → List Byte
  | 0, _ => []
  | w + 1, n => BitVec.ofNat 8 (n / 256 ^ w) :: beBytes w n

/-- An unsigned reply field of `w` bytes (R181). For a figure that does not fit its width the spec gives no bytes:
they are free (log entry 7). -/
def field (w n : Nat) : List Byte :=
  if n < 256 ^ w then beBytes w n else beBytes w (Config.unfit w n % 256 ^ w)

/-- A signed reply field of `w` bytes in two's complement (R181). -/
def signedField (w : Nat) (i : Int) : List Byte := beBytes w (i % (256 ^ w : Int)).toNat

/-- An optional field (R181): a presence byte, then the field, or zeros in the absent form. -/
def optField (w : Nat) : Option (List Byte) → List Byte
  | none => List.replicate (w + 1) 0
  | some bs => 1 :: bs

/-- A flag (R181). -/
def flagField (b : Bool) : List Byte := [if b then 1 else 0]

/-- A class set as its 2-byte number (R181). -/
def classField (m : ClassSet) : List Byte := beBytes 2 m.toNat

/-- The signed value of one byte in two's complement (R181). -/
def signedByte (b : Byte) : Int := b.toInt

/-- The signed value of a 32-bit number in two's complement (R190). -/
def signed32 (v : Nat) : Int := (BitVec.ofNat 32 v).toInt

/-- Byte `i` of a body; the length has been judged before a body is read (R180). -/
def byteAt (body : List Byte) (i : Nat) : Byte := body.getD i 0

/-- The unsigned number of the `w` bytes of a body from byte `i`. -/
def numAt (body : List Byte) (i w : Nat) : Nat := fromBytes ((body.drop i).take w)

/-- A side byte: 00h side A, 01h side B, another value is a bad side (R181). -/
def sideAt (body : List Byte) (i : Nat) : Option Side :=
  match (byteAt body i).toNat with
  | 0 => some .a
  | 1 => some .b
  | _ => none

/-- A class set from its 2-byte number; a number above 14 makes it bad (R186). -/
def classSetOf (n : Nat) : Option ClassSet :=
  if n < 2 ^ 15 then some (BitVec.ofNat 15 n) else none

/-! ## Places of values in their lists (R181) -/

def sideCode : Side → Nat
  | .a => 0
  | .b => 1

def SpState.code : SpState → Nat
  | .running => 0
  | .broken => 1
  | .piecing => 2
  | .waitRoving => 3
  | .locked => 4
  | .parked => 5

def Cause.code : Cause → Nat
  | .endBreak => 0
  | .startUp => 1
  | .rovingOut => 2
  | .rovingChange => 3
  | .release => 4

def LockCause.code : LockCause → Nat
  | .rogue => 0
  | .pieceFail => 1

/-- A clamp in a SPINDLE_GET entry, in the order in which R21 names its values (log entry 9). -/
def clampCode : Clamp → Nat
  | .opened => 0
  | .closed => 1

def CarState.code : CarState → Nat
  | .absent => 0
  | .homing => 1
  | .ready => 2
  | .moving => 3
  | .serving => 4
  | .held => 5
  | .fault => 6

def PieceKind.code : PieceKind → Nat
  | .endBreak => 0
  | .startUp => 1
  | .rovingChange => 2
  | .release => 3

def TimerKind.code : TimerKind → Nat
  | .homing => 0
  | .piece => 1
  | .leg => 2
  | .returning => 3

/-- The direction as a signed number, +1 or −1 (R61). -/
def Dir.sign : Dir → Int
  | .up => 1
  | .down => -1

def FrameState.code : FrameState → Nat
  | .stopped => 0
  | .startUp => 1
  | .spinning => 2
  | .doffPending => 3
  | .doffStopping => 4
  | .doffing => 5
  | .restartWait => 6
  | .halted => 7

def GoState.code : GoState → Nat
  | .none => 0
  | .waiting => 1
  | .sent => 2

def DoffKind.code : DoffKind → Nat
  | .auto => 0
  | .manual => 1

def DoffOutcome.code : DoffOutcome → Nat
  | .done => 0
  | .fault => 1
  | .aborted => 2

def ExchangeReason.code : ExchangeReason → Nat
  | .done => 0
  | .noStaged => 1
  | .rovingMismatch => 2

def RunState.code : RunState → Nat
  | .idle => 0
  | .active => 1
  | .ending => 2

def EndReason.code : EndReason → Nat
  | .empty => 0
  | .count => 1
  | .aborted => 2
  | .timeout => 3

def DiscardReason.code : DiscardReason → Nat
  | .length => 0
  | .late => 1
  | .crc => 2
  | .overflow => 3

def LineRate.code : LineRate → Nat
  | .b57600 => 0
  | .b115200 => 1
  | .b230400 => 2
  | .b460800 => 3

def LoadOutcome.code : LoadOutcome → Nat
  | .none => 0
  | .ok => 1
  | .fault => 2

/-- The result codes of R179. -/
def Result.code : Result → Nat
  | .ok => 0x00
  | .clamped => 0x01
  | .deferred => 0x02
  | .refusedState => 0x10
  | .badValue => 0x11
  | .unknownKind => 0x12
  | .badLength => 0x13
  | .starting => 0x14
  | .notPresent => 0x15

/-! ## Frames of the host line (R174) -/

/-- One bit of the CRC: the polynomial is 1021h, most significant bit first. -/
def crcBit (c : BitVec 16) : BitVec 16 :=
  if c.msb then (c <<< 1) ^^^ 0x1021#16 else c <<< 1

/-- The CRC after one more byte. -/
def crcByte (c : BitVec 16) (b : Byte) : BitVec 16 :=
  crcBit (crcBit (crcBit (crcBit (crcBit (crcBit (crcBit (crcBit (c ^^^ ((b.zeroExtend 16) <<< 8)))))))))

/-- CRC-16 over a list of bytes, from the initial value FFFFh (R174). -/
def crc16 (bs : List Byte) : BitVec 16 := bs.foldl crcByte 0xFFFF#16

/-- A frame: sync, length, kind, body, CRC (R174). -/
def frameBytes (kind : Byte) (body : List Byte) : List Byte :=
  let inner := BitVec.ofNat 8 body.length :: kind :: body
  0xA5#8 :: inner ++ beBytes 2 (crc16 inner).toNat

/-- The reply kind: the request's kind with 80h added, FFh for a kind of 80h or above (R179). -/
def replyKind (kind : Byte) : Byte :=
  if kind.toNat < 0x80 then kind + 0x80#8 else 0xFF#8

/-- A reply's body: its result code and what follows it (R179). -/
def Reply.body (r : Reply) : List Byte := BitVec.ofNat 8 r.result.code :: r.content

/-- The bytes of a reply as HTX sends them (R174, R179). -/
def Reply.frame (r : Reply) : List Byte := frameBytes r.kind r.body

/-- The bytes that a page of entries may take after the result code and `head` bytes of heading: at most 239 after
the result code (R181). -/
def entriesThatFit (head entry : Nat) : Nat := (239 - head) / entry

end Sys2Proof.Machine
end

