-- ==== Sys2Proof/Machine/Ops.lean ====
section
/-!
DEFINITION. Shared operations: commands to the stations (R168), clamp holding (R45), shift credits and counts
(R146 to R149), spindle records with their clamps and break lists (R23, R49 to R54), intervals and splits (R25, R26),
and the roving change list (R124 to R128).
-/
namespace Sys2Proof.Machine

/-- FLmm is floor(FLµm / 1000) (R3). -/
def State.flmm (s : State) : Nat := s.roller.flum / 1000

/-- The sum of two 64-bit figures; where it does not fit, the spec states no result and the value is free
(log entry 6). -/
def add64 (x y : Nat) : Nat :=
  if y = 0 ∨ x + y < 2 ^ 64 then x + y else Config.overflow64 x y % 2 ^ 64

/-- Whether an advance from `old` to `new` reaches or crosses a multiple of `step` (1.7, marks on frame length). -/
def passes (step old new : Nat) : Bool := old / step < new / step

/-- The silicon revision, 1..255 (R183; log entry 8). -/
def siliconRevision : Nat := 1 + Config.siliconRevision % 255

/-! ## Station entries (R162) -/

/-- The entry of a machine station; a section board has none of this kind. -/
def Bus.machine (b : Bus) : Station → Option MachineEntry
  | .carriage side => some (b.carriages.get side)
  | .doffer => some b.doffer
  | .train => some b.train
  | .board _ _ => none

/-- The table with the entry of a machine station replaced. -/
def Bus.setMachine (b : Bus) (st : Station) (e : MachineEntry) : Bus :=
  match st with
  | .carriage side => { b with carriages := b.carriages.set side e }
  | .doffer => { b with doffer := e }
  | .train => { b with train := e }
  | .board _ _ => b

/-- The entry of a fitted section board. -/
def Bus.board (b : Bus) (side : Side) (sec : Nat) : Option BoardEntry :=
  if sec = 0 then none else (b.boards.get side)[sec - 1]?

/-- The table with the entry of a section board replaced. -/
def Bus.setBoard (b : Bus) (side : Side) (sec : Nat) (e : BoardEntry) : Bus :=
  { b with boards := b.boards.modify side fun l => l.set (sec - 1) e }

/-- The link fields of a station that has an entry. -/
def Bus.link (b : Bus) : Station → Option Link
  | .board side sec => (b.board side sec).map (·.link)
  | st => (b.machine st).map (·.link)

/-- The table with a station's link fields replaced. -/
def Bus.setLink (b : Bus) (st : Station) (l : Link) : Bus :=
  match st with
  | .board side sec =>
    match b.board side sec with
    | some e => b.setBoard side sec { e with link := l }
    | none => b
  | st =>
    match b.machine st with
    | some e => b.setMachine st { e with link := l }
    | none => b

/-- A section board's entry as it is formed, with a held clamp OPEN for each of its 48 spindles (R162). -/
def BoardEntry.initial : BoardEntry where
  link := Link.initial
  held := List.replicate 48 (some .opened)
  carryPoint := 0

/-- The section of a side position, and its place within the section from 0 (R28). -/
def sectionOf (pos : Nat) : Nat := (pos - 1) / 48 + 1

def placeInSection (pos : Nat) : Nat := (pos - 1) % 48

/-- A station is present while it answers (R162, R171, R172). -/
def Link.present (l : Link) : Bool := l.status == .answering

/-- A section is BLIND while its board is SILENT (R166). -/
def blind (s : State) (side : Side) (pos : Nat) : Bool :=
  match s.bus.board side (sectionOf pos) with
  | some e => e.link.status == .silent
  | none => false

/-! ## Commands to stations (R168) -/

/-- The turn of a command appended now: the other value of the command before it, else the other value of the carried
turn, else 0. -/
def MachineEntry.nextTurn (e : MachineEntry) : Bool :=
  match e.queue.getLast? with
  | some q => !q.turn
  | none => match e.carriedTurn with
    | some t => !t
    | none => false

/-- A command appended to a station's queue. -/
def MachineEntry.append (e : MachineEntry) (c : Command) : MachineEntry :=
  { e with queue := e.queue ++ [⟨c, e.nextTurn, false⟩] }

/-- HOME empties the queue, then is appended. -/
def MachineEntry.appendHome (e : MachineEntry) : MachineEntry :=
  { e with queue := [] }.append .home

/-- Whether a queued command is a DOFF_GO that has not yet been carried. -/
def QueuedCommand.freshDoffGo (q : QueuedCommand) : Bool :=
  match q.cmd with
  | .doffGo _ _ => !q.carried
  | _ => false

/-- DOFF_STOP removes a DOFF_GO not yet carried and is not itself appended; otherwise it is appended. Where more than one
stands uncarried, each is removed (log entry 35). -/
def MachineEntry.appendDoffStop (e : MachineEntry) : MachineEntry :=
  if e.queue.any (·.freshDoffGo) then { e with queue := e.queue.filter (!·.freshDoffGo) } else e.append .doffStop

def sendCarriage (side : Side) (c : Command) (s : State) : State :=
  s.setBus { s.bus with carriages := s.bus.carriages.modify side (·.append c) }

def sendHome (side : Side) (s : State) : State :=
  s.setBus { s.bus with carriages := s.bus.carriages.modify side (·.appendHome) }

/-- DOFF_GO carries the fitted section counts of both sides (R94). -/
def sendDoffGo (s : State) : State :=
  s.setBus { s.bus with doffer := s.bus.doffer.append (.doffGo s.items.sections.a s.items.sections.b) }

def sendDoffStop (s : State) : State :=
  s.setBus { s.bus with doffer := s.bus.doffer.appendDoffStop }

def sendTrain (c : Command) (s : State) : State :=
  s.setBus { s.bus with train := s.bus.train.append c }

/-- A clamp command handed to the Frame Bus Master replaces any it holds for that spindle (R45). -/
def holdClamp (side : Side) (pos : Nat) (c : Clamp) (s : State) : State :=
  match s.bus.board side (sectionOf pos) with
  | some e =>
    s.setBus (s.bus.setBoard side (sectionOf pos) { e with held := e.held.set (placeInSection pos) (some c) })
  | none => s

/-! ## The Shift Counter's credits and counts -/

/-- The nine counts of a side (R145). -/
inductive SideFigure where
  | endBreak | startUpBreak | rovingOutBreak | carriagePiece | manualPiece | pieceFailure | rogueLock
  | pieceFailLock | replacement
deriving DecidableEq, Repr

/-- The two counts of the frame (R145). -/
inductive FrameFigure where
  | doff | exchange
deriving DecidableEq, Repr

def ShiftCounts.get (c : ShiftCounts) : SideFigure → Nat
  | .endBreak => c.endBreaks
  | .startUpBreak => c.startUpBreaks
  | .rovingOutBreak => c.rovingOutBreaks
  | .carriagePiece => c.carriagePieces
  | .manualPiece => c.manualPieces
  | .pieceFailure => c.pieceFailures
  | .rogueLock => c.rogueLocks
  | .pieceFailLock => c.pieceFailLocks
  | .replacement => c.replacements

def ShiftCounts.set (c : ShiftCounts) (f : SideFigure) (n : Nat) : ShiftCounts :=
  match f with
  | .endBreak => { c with endBreaks := n }
  | .startUpBreak => { c with startUpBreaks := n }
  | .rovingOutBreak => { c with rovingOutBreaks := n }
  | .carriagePiece => { c with carriagePieces := n }
  | .manualPiece => { c with manualPieces := n }
  | .pieceFailure => { c with pieceFailures := n }
  | .rogueLock => { c with rogueLocks := n }
  | .pieceFailLock => { c with pieceFailLocks := n }
  | .replacement => { c with replacements := n }

/-- A 16-bit figure that has taken one count: it stays at 65,535 (R146). -/
def bump16 (n : Nat) : Nat := if n < 65535 then n + 1 else n

/-- A count that raises its figure to 65,535 sets the saturation marker, and raises SHIFT_SATURATED if the marker was
clear (R147). `old` is the figure before the count. -/
def markSaturation (old : Nat) (s : State) : State :=
  if old = 65534 then
    let s := if s.shift.live.marker then s else raise .shiftSaturated s
    s.setShift { s.shift with live := { s.shift.live with marker := true } }
  else s

/-- One count of a side figure (R146, R147). -/
def countSide (side : Side) (f : SideFigure) (s : State) : State :=
  let old := (s.shift.live.sides.get side).counts.get f
  markSaturation old (s.setShift { s.shift with live := { s.shift.live with
    sides := s.shift.live.sides.modify side fun r => { r with counts := r.counts.set f (bump16 old) } } })

/-- One count of a frame figure (R146, R147). -/
def countFrame (f : FrameFigure) (s : State) : State :=
  match f with
  | .doff =>
    markSaturation s.shift.live.doffs
      (s.setShift { s.shift with live := { s.shift.live with doffs := bump16 s.shift.live.doffs } })
  | .exchange =>
    markSaturation s.shift.live.exchanges
      (s.setShift { s.shift with live := { s.shift.live with exchanges := bump16 s.shift.live.exchanges } })

/-- The credit of closed intervals of one side (R148): run length, and mass numerator at the active count. -/
def creditRun (side : Side) (dl : Nat) (s : State) : State :=
  s.setShift { s.shift with live := { s.shift.live with
    sides := s.shift.live.sides.modify side fun r =>
      { r with run := add64 r.run dl, mass := add64 r.mass (dl * s.articles.active.tex100) } } }

/-- The in-service count of a side: fitted spindles less PARKED spindles (R149). -/
def inServiceOf (l : List Spindle) : Nat := l.countP (·.state != .parked)

def inService (s : State) (side : Side) : Nat := inServiceOf (s.spindles.get side)

/-- The possible-length credit of a side at the current FLmm (R149). -/
def creditPossible (side : Side) (s : State) : State :=
  s.setShift { s.shift with
    live := { s.shift.live with
      sides := s.shift.live.sides.modify side fun r =>
        { r with possible := add64 r.possible ((s.flmm - s.shift.marks.get side) * inService s side) } }
    marks := s.shift.marks.set side s.flmm }

/-! ## Spindle records -/

/-- A record as it is formed, RUNNING with M at the FLmm of its forming (R22). -/
def Spindle.formed (flmm : Nat) : Spindle where
  state := .running
  marker := some flmm
  cop := 0
  roving := none
  clamp := .opened
  seq := none
  cause := none
  attempts := 0
  lockCause := none
  stamps := []
  rogueUnlocked := false

/-- The record of a fitted position; a position beyond the fitted count has none (R21). -/
def State.spindle (s : State) (side : Side) (pos : Nat) : Option Spindle :=
  if pos = 0 then none else (s.spindles.get side)[pos - 1]?

/-- The number of fitted positions of a side, 48 × its fitted sections (1.7). -/
def State.fitted (s : State) (side : Side) : Nat := 48 * s.items.sections.get side

/-- The clamp that a state commands: OPEN exactly in RUNNING and PIECING (R23). -/
def SpState.clamp : SpState → Clamp
  | .running | .piecing => .opened
  | .broken | .waitRoving | .locked | .parked => .closed

/-- The break sequence of a position, 0 where it holds none. -/
def seqAt (l : List Spindle) (pos : Nat) : Nat :=
  match l[pos - 1]? with
  | some sp => sp.seq.getD 0
  | none => 0

/-- A position put into a list in ascending key: after every entry that is not higher, before every higher one
(R50, R53). -/
def insertByKey (key : Nat → Nat) (pos : Nat) : List Nat → List Nat
  | [] => [pos]
  | q :: qs => if key pos < key q then pos :: q :: qs else q :: insertByKey key pos qs

/-- The break list after a record's change of state: an entry is made where the spindle becomes BROKEN and removed
where it leaves BROKEN, in the same update (R49, R52 to R54). -/
def syncBreakList (recs : List Spindle) (pos : Nat) (old new : SpState) (l : List Nat) : List Nat :=
  if old = new then l
  else if new = .broken then insertByKey (seqAt recs) pos l
  else if old = .broken then l.filter (· != pos)
  else l

/-- The one write of a spindle record: the clamp follows the state (R23), a changed clamp is handed to the Frame Bus
Master (R45), and the side's break list follows the state (R49). A position without a record takes no write. -/
def writeSpindle (side : Side) (pos : Nat) (new : Spindle) (s : State) : State :=
  match s.spindle side pos with
  | none => s
  | some old =>
    let rec' := { new with clamp := new.state.clamp }
    let recs := (s.spindles.get side).set (pos - 1) rec'
    let s1 := s.setSpindles (s.spindles.set side recs)
    let s2 := s1.setBreakList (s1.breakList.modify side (syncBreakList recs pos old.state new.state))
    if old.clamp = rec'.clamp then s2 else holdClamp side pos rec'.clamp s2

/-- The locked count, over both sides (R24). -/
def lockedCount (s : State) : Nat :=
  s.spindles.a.countP (·.state == .locked) + s.spindles.b.countP (·.state == .locked)

/-! ## Run intervals (R25, R26) -/

/-- A quotient rounded up. -/
def ceilDiv (x y : Nat) : Nat := (x + y - 1) / y

/-- The roving figure after the debit of `dl` millimetres of yarn at a draft, floored at 0 (R25). -/
def debit (r dl draft100 : Nat) : Nat := r - ceilDiv (dl * 100) draft100

/-- The length of the open interval at FLmm = X; 0 where no interval is open. -/
def Spindle.openLength (sp : Spindle) (x : Nat) : Nat :=
  match sp.state, sp.marker with
  | .running, some m => x - m
  | _, _ => 0

/-- A RUNNING record with its interval closed at FLmm = X and M at X; the state is not changed (R25). -/
def Spindle.close (art : Article) (x : Nat) (sp : Spindle) : Spindle :=
  if sp.state = .running then
    let dl := sp.openLength x
    { sp with
      marker := some x
      cop := min 4294967295 (sp.cop + dl)
      roving := sp.roving.map fun r => debit r dl art.draft100 }
  else sp

/-- The close of one spindle's interval at the current FLmm, with the credits of R25; the spindle stays RUNNING. -/
def closeInterval (side : Side) (pos : Nat) (s : State) : State :=
  match s.spindle side pos with
  | none => s
  | some sp =>
    if sp.state = .running then
      creditRun side (sp.openLength s.flmm)
        (writeSpindle side pos (sp.close s.articles.active s.flmm) s)
    else s

/-- The sum of the open intervals of a side at FLmm = X. -/
def openSum (l : List Spindle) (x : Nat) : Nat := (l.map (·.openLength x)).sum

/-- The split of one side (R26). -/
def splitSide (side : Side) (s : State) : State :=
  creditRun side (openSum (s.spindles.get side) s.flmm)
    (s.setSpindles (s.spindles.modify side (·.map (·.close s.articles.active s.flmm))))

/-- A split closes the interval of every RUNNING spindle of both sides at the one FLmm in force (R26). -/
def split (s : State) : State := splitSide .b (splitSide .a s)

/-- The projected roving figure Rp (R122). -/
def Spindle.projected (sp : Spindle) (art : Article) (x : Nat) : Option Nat :=
  sp.roving.map fun r => debit r (sp.openLength x) art.draft100

/-! ## Break sequences (R50, R51) -/

/-- The place of a sequence among the sequences that the side's spindles hold, from 1. -/
def rankOf (l : List Spindle) (q : Nat) : Nat :=
  1 + l.countP fun sp => match sp.seq with
    | some r => r < q
    | none => false

/-- The side renumbered from 1 in ascending order of the present sequences, BROKEN and PIECING alike (R51). -/
def renumber (side : Side) (s : State) : State :=
  let l := s.spindles.get side
  let s := s.setSpindles (s.spindles.set side (l.map fun sp => { sp with seq := sp.seq.map (rankOf l) }))
  s.setBreakSeq (s.breakSeq.set side (l.countP (·.seq.isSome)))

/-- The counter advanced for a new break sequence, the side renumbered first where the counter is at its limit. -/
def advanceSeq (side : Side) (s : State) : State :=
  let s := if s.breakSeq.get side = 4294967295 then renumber side s else s
  s.setBreakSeq (s.breakSeq.modify side (· + 1))

/-- A spindle becomes BROKEN with a new break sequence and joins its side's list (R50, R52). `sp` is its record with
every other field as the change leaves it. -/
def joinBreakList (side : Side) (pos : Nat) (cause : Cause) (sp : Spindle) (s : State) : State :=
  let s := advanceSeq side s
  writeSpindle side pos
    { sp with
      state := .broken, marker := none, seq := some (s.breakSeq.get side), cause := some cause, lockCause := none } s

/-- A record made RUNNING by a piece: M = FLmm, attempts 0, no break sequence or cause (R37, R38, R74, R79). -/
def Spindle.pieced (sp : Spindle) (flmm : Nat) : Spindle :=
  { sp with state := .running, marker := some flmm, attempts := 0, seq := none, cause := none }

/-- A record that returns to its place in the break list, unmended: BROKEN with its sequence and cause (R53). -/
def Spindle.returned (sp : Spindle) : Spindle := { sp with state := .broken }

/-! ## The lock operation (R34) -/

/-- The class that a lock cause raises. -/
def LockCause.pendClass : LockCause → PendClass
  | .rogue => .rogueLock
  | .pieceFail => .pieceFailLock

/-- The shift figure that a lock below the ceiling counts. -/
def LockCause.figure : LockCause → SideFigure
  | .rogue => .rogueLock
  | .pieceFail => .pieceFailLock

/-- Whether a lock operation taken now finds room below LOCK_CEILING (R34). -/
def lockRoom (s : State) : Bool := lockedCount s < s.items.lockCeiling

/-- A record made LOCKED (R34). -/
def Spindle.locked (sp : Spindle) (cause : LockCause) : Spindle :=
  { sp with
    state := .locked, marker := none, seq := none, cause := none, lockCause := some cause, rogueUnlocked := false }

/-- The lock operation below the ceiling (R34). -/
def lockSpindle (side : Side) (pos : Nat) (cause : LockCause) (sp : Spindle) (s : State) : State :=
  countSide side cause.figure (raise cause.pendClass (writeSpindle side pos (sp.locked cause) s))

/-! ## The roving change list (R124 to R128) -/

/-- Whether a spindle stands in either segment. -/
def Roving.listed (r : Roving) (x : SpRef) : Bool := r.urgent.contains x || r.low.contains x

/-- A run-out placed at the urgent tail; one in the slot stays there (R125). A spindle in the urgent segment cannot
run out again. -/
def placeRunOut (x : SpRef) (s : State) : State :=
  if s.roving.slot = some x ∨ x ∈ s.roving.urgent then s
  else s.setRoving { s.roving with low := s.roving.low.filter (· != x), urgent := s.roving.urgent ++ [x] }

/-- A spindle removed from both segments. -/
def unlist (x : SpRef) (s : State) : State :=
  s.setRoving { s.roving with urgent := s.roving.urgent.filter (· != x), low := s.roving.low.filter (· != x) }

/-- A slot spindle returned to the head or the tail of the segment that its state gives, or to none where it is PARKED
(R128). -/
def returnToRovingList (atHead : Bool) (x : SpRef) (s : State) : State :=
  match s.spindle x.side x.pos with
  | none => s
  | some sp =>
    match sp.state with
    | .parked => s
    | .waitRoving =>
      s.setRoving { s.roving with urgent := if atHead then x :: s.roving.urgent else s.roving.urgent ++ [x] }
    | .running | .broken | .piecing | .locked =>
      s.setRoving { s.roving with low := if atHead then x :: s.roving.low else s.roving.low ++ [x] }

/-- A run end: the reason, IDLE, and ROVING_RUN_END (R136). -/
def endRun (reason : EndReason) (s : State) : State :=
  raise .rovingRunEnd (s.setRoving { s.roving with run := .idle, reason := some reason })

/-- The ending test of R136, made with the slot just emptied. -/
def endingTest (s : State) : State :=
  match s.roving.run with
  | .idle => s
  | .ending => endRun .aborted s
  | .active => if s.roving.current = some 0 then endRun .count s else s

/-- The slot empties and the slot timer stops. -/
def emptySlot (s : State) : State := s.setRoving { s.roving with slot := none, timer := none }

end Sys2Proof.Machine
end

