-- ==== Sys2Proof/Machine/Piecing.lean ====
section
/-!
DEFINITION. The Dispatcher's choice and orders (R55 to R62), and the Carriage Controller's operations: withdrawal,
outcomes, homing, silence, holds and timers (R69 to R82).
-/
namespace Sys2Proof.Machine

/-- The state with one carriage record changed. -/
def modifyCarriage (side : Side) (f : Carriage → Carriage) (s : State) : State :=
  s.setCarriages (s.carriages.modify side f)

/-! ## Choice of target (R57, R58) -/

/-- An entry's distance ahead in the direction of travel, (p − x) × d (R57). -/
def ahead (x : Nat) (d : Dir) (p : Nat) : Int := ((p : Int) - x) * d.sign

/-- A near candidate lies between 0 and REACH positions ahead (R57). -/
def isNear (x : Nat) (d : Dir) (reach p : Nat) : Bool := 0 ≤ ahead x d p && ahead x d p ≤ reach

/-- The entry least far ahead; the first of two that are equally far. -/
def nearest (x : Nat) (d : Dir) : List Nat → Option Nat
  | [] => none
  | p :: ps =>
    match nearest x d ps with
    | none => some p
    | some q => if ahead x d p ≤ ahead x d q then some p else some q

/-- The chosen target: the nearest near candidate, else the head of the list (R57, R58). -/
def chooseTarget (x : Nat) (d : Dir) (reach : Nat) (l : List Nat) : Option Nat :=
  match nearest x d (l.filter (isNear x d reach)) with
  | some p => some p
  | none => l.head?

/-! ## Orders (R60 to R62) -/

/-- The piece kind of an order, equal to the break cause (R60); ROVING_OUT belongs to no spindle in a break list
(R21). -/
def Cause.pieceKind : Cause → Option PieceKind
  | .endBreak => some .endBreak
  | .startUp => some .startUp
  | .rovingChange => some .rovingChange
  | .release => some .release
  | .rovingOut => none

/-- The direction after a move of an offset: its sign, kept for offset 0 (R61). -/
def Dir.after (d : Dir) (offset : Int) : Dir :=
  if 0 < offset then .up else if offset < 0 then .down else d

/-- A PIECE order (R60, R72): the spindle leaves the list and becomes PIECING with its clamp OPEN, and the carriage is
SERVING under its piece timer. -/
def issuePiece (side : Side) (pos : Nat) (offset : Int) (kind : PieceKind) (sp : Spindle) (s : State) : State :=
  modifyCarriage side
    (fun c => { c with
      state := .serving, d := c.d.after offset, order := some (.piece pos offset kind), withdrawn := none,
      timer := some ⟨.piece, s.items.pieceTimeout⟩ })
    (sendCarriage side (.piece offset kind) (writeSpindle side pos { sp with state := .piecing } s))

/-- A TRANSIT leg (R62, R72): the target is not changed, and the carriage is MOVING under its leg timer. -/
def issueTransit (side : Side) (offset : Int) (s : State) : State :=
  modifyCarriage side
    (fun c => { c with
      state := .moving, d := c.d.after offset, order := some (.transit offset),
      timer := some ⟨.leg, s.items.legTimeout⟩ })
    (sendCarriage side (.transit offset) s)

/-- The conditions of R55 for one side. -/
def canDispatch (side : Side) (s : State) : Bool :=
  let c := s.carriages.get side
  c.state == .ready && !c.hostHold && !c.doffHold && s.doff.frame.dispatches && !(s.breakList.get side).isEmpty

/-- The order for a chosen target from position x (R60, R62). The target is BROKEN by the law of R49, and its cause is
one of the four that have a piece kind. -/
def issueOrder (side : Side) (x pos : Nat) (s : State) : State :=
  let offset : Int := (pos : Int) - x
  if -128 ≤ offset ∧ offset ≤ 127 then
    match s.spindle side pos with
    | some sp => match sp.state, sp.cause.bind Cause.pieceKind with
      | .broken, some kind => issuePiece side pos offset kind sp s
      | _, _ => s
    | none => s
  else issueTransit side (if x < pos then 127 else -127) s

/-- The dispatch test of one side, made at the end of an operation (R56). -/
def dispatchTest (side : Side) (s : State) : State :=
  if canDispatch side s then
    let c := s.carriages.get side
    match c.x with
    | some x => match chooseTarget x c.d s.items.reach (s.breakList.get side) with
      | some pos => issueOrder side x pos s
      | none => s
    | none => s
  else s

/-- The test of both sides, made when the frame state enters a dispatch state (R56). -/
def dispatchBoth (s : State) : State := dispatchTest .b (dispatchTest .a s)

/-- The test of both sides where the frame state has changed from `old`. -/
def dispatchOnEntry (old : FrameState) (s : State) : State :=
  if s.doff.frame = old then s else dispatchBoth s

/-! ## Carriage records -/

/-- READY if neither hold is set, and HELD otherwise. -/
def Carriage.settled (c : Carriage) : CarState := if c.hostHold || c.doffHold then .held else .ready

/-- A position reported by a carriage is judged against the fitted positions of its side (R70, R73). -/
def validPos (side : Side) (pos : Nat) (s : State) : Bool := 1 ≤ pos && pos ≤ s.fitted side

/-- The piece order's target, where the record holds one. -/
def Carriage.pieceTarget (c : Carriage) : Option Nat :=
  match c.order with
  | some (.piece t _ _) => some t
  | _ => none

/-- The overtaken order's target, where the record holds one. -/
def Carriage.overtakenTarget (c : Carriage) : Option Nat :=
  match c.order with
  | some (.overtaken t _ _) => some t
  | _ => none

/-- A PIECING spindle returns to its place in the break list, its attempts not raised (R53). -/
def returnSpindle (side : Side) (pos : Nat) (s : State) : State :=
  match s.spindle side pos with
  | none => s
  | some sp => if sp.state = .piecing then writeSpindle side pos sp.returned s else s

/-- Whatever the carriage holds is dropped without a CANCEL; a piece order's spindle returns and becomes the withdrawn
spindle (R69, R71, R77). -/
def dropWork (side : Side) (s : State) : State :=
  match (s.carriages.get side).pieceTarget with
  | some t =>
    modifyCarriage side (fun c => { c with order := none, returning := false, withdrawn := some t })
      (returnSpindle side t s)
  | none => modifyCarriage side (fun c => { c with order := none, returning := false }) s

/-- HOME is sent: HOMING with x absent and the homing timer started. -/
def startHoming (side : Side) (s : State) : State :=
  sendHome side (modifyCarriage side
    (fun c => { c with
      state := .homing, x := none, order := none, returning := false,
      timer := some ⟨.homing, s.items.homeTimeout⟩ }) s)

/-- The arrival of R69, at PRESENT or at an answer of return (R71). -/
def carriageArrives (side : Side) (s : State) : State :=
  let st := (s.carriages.get side).state
  let s := startHoming side (dropWork side s)
  if st = .absent ∨ st = .homing then s else raise .carriage s

/-- A carriage stopped by a timeout or a bad report: FAULT, the timer stopped, CARRIAGE raised. -/
def carriageFaults (side : Side) (s : State) : State :=
  raise .carriage (modifyCarriage side
    (fun c => { c with state := .fault, timer := none, order := none, returning := false }) s)

/-- A carriage whose work has ended at a position: READY or HELD there, and the dispatch test. -/
def carriageSettles (side : Side) (x : Option Nat) (s : State) : State :=
  modifyCarriage side
    (fun c => { c with state := c.settled, x := x, order := none, returning := false, timer := none }) s

/-- A HOMED report (R70). -/
def carriageHomed (side : Side) (pos : Nat) (s : State) : State :=
  if (s.carriages.get side).state = .homing then
    if validPos side pos s then
      dispatchTest side (carriageSettles side (some pos) (modifyCarriage side (fun c => { c with d := .up }) s))
    else carriageFaults side (modifyCarriage side (fun c => { c with x := none }) s)
  else s

/-- An ARRIVED report (R73). -/
def carriageArrived (side : Side) (pos : Nat) (s : State) : State :=
  match (s.carriages.get side).state, (s.carriages.get side).order with
  | .moving, some (.transit _) =>
    if validPos side pos s then dispatchTest side (carriageSettles side (some pos) s)
    else carriageFaults side (modifyCarriage side (fun c => { c with x := none }) s)
  | _, _ => s

/-- A READY report ends a return (R78); in any other state it is discarded. -/
def carriageReady (side : Side) (s : State) : State :=
  let c := s.carriages.get side
  if c.state = .moving ∧ c.returning then dispatchTest side (carriageSettles side c.x s) else s

/-! ## Outcomes (R74 to R76, R79) -/

/-- A successful piece on the order held (R74); the spindle is PIECING by the law of R68. -/
def pieceSucceeds (side : Side) (pos : Nat) (s : State) : State :=
  let s := match s.spindle side pos with
    | some sp =>
      if sp.state = .piecing then countSide side .carriagePiece (writeSpindle side pos (sp.pieced s.flmm) s) else s
    | none => s
  dispatchTest side (carriageSettles side (some pos) s)

/-- An unmended spindle after a failed piece that has raised its attempts: back to its place in the list, or to the
lock operation at the limit (R75, R34). -/
def judgeAttempts (side : Side) (pos : Nat) (sp : Spindle) (s : State) : State :=
  if sp.attempts < s.items.pieceAttempts then writeSpindle side pos sp.returned s
  else if lockRoom s then lockSpindle side pos .pieceFail sp s
  else raise .pieceFailLock (writeSpindle side pos { sp.returned with rogueUnlocked := true } s)

/-- A failed piece on the order held (R75); the spindle is PIECING by the law of R68. -/
def pieceFails (side : Side) (pos : Nat) (s : State) : State :=
  let s := match s.spindle side pos with
    | some sp =>
      if sp.state = .piecing then
        judgeAttempts side pos { sp with attempts := min 3 (sp.attempts + 1) } (countSide side .pieceFailure s)
      else s
    | none => s
  dispatchTest side (carriageSettles side (some pos) s)

/-- The end of an overtaken order (R76). -/
def overtakenEnds (side : Side) (pos : Nat) (ok : Bool) (s : State) : State :=
  let s := if ok then countSide side .carriagePiece s else s
  dispatchTest side (carriageSettles side (some pos) s)

/-- A late outcome, for the withdrawn spindle (R79). Where a lowering has removed that spindle's record, the report still
clears it (log entry 27). -/
def lateOutcome (side : Side) (pos : Nat) (ok : Bool) (s : State) : State :=
  let s := modifyCarriage side (fun c => { c with withdrawn := none }) s
  if ok then
    match s.spindle side pos with
    | some sp =>
      if sp.state = .broken then countSide side .carriagePiece (writeSpindle side pos (sp.pieced s.flmm) s) else s
    | none => s
  else s

/-- A PIECED report: outcome, late or stray (R74 to R76, R79). -/
def carriagePieced (side : Side) (pos : Nat) (ok : Bool) (s : State) : State :=
  let c := s.carriages.get side
  if c.state = .serving ∧ c.pieceTarget = some pos then
    if ok then pieceSucceeds side pos s else pieceFails side pos s
  else if c.state = .serving ∧ c.overtakenTarget = some pos then overtakenEnds side pos ok s
  else if c.withdrawn = some pos then lateOutcome side pos ok s
  else s

/-- A carriage's report, taken in every carriage state (R170). -/
def carriageReport (side : Side) (r : CarriageReport) (s : State) : State :=
  match r with
  | .present => carriageArrives side s
  | .homed pos => carriageHomed side pos s
  | .arrived pos => carriageArrived side pos s
  | .pieced pos ok => carriagePieced side pos ok s
  | .ready => carriageReady side s

/-- A carriage fallen silent becomes ABSENT from every state (R71). -/
def carriageSilent (side : Side) (s : State) : State :=
  raise .carriage (modifyCarriage side (fun c => { c with state := .absent, x := none, timer := none })
    (dropWork side s))

/-! ## Withdrawal with CANCEL (R78) -/

/-- The carriage abandons its order and returns: CANCEL is sent and the return timer starts. -/
def cancelOrder (side : Side) (withdrawn : Option Nat) (s : State) : State :=
  sendCarriage side .cancel (modifyCarriage side
    (fun c => { c with
      state := .moving, order := none, returning := true, timer := some ⟨.returning, s.items.legTimeout⟩,
      withdrawn := withdrawn }) s)

/-- The withdrawal at entry to DOFFING; a carriage that holds no order is passed by. -/
def withdrawForDoff (side : Side) (s : State) : State :=
  let c := s.carriages.get side
  match c.order with
  | none => s
  | some (.transit _) => cancelOrder side c.withdrawn s
  | some (.overtaken t _ _) => cancelOrder side (some t) s
  | some (.piece t _ _) => cancelOrder side (some t) (returnSpindle side t s)

/-- The withdrawal at a park of the target of the carriage's piece or overtaken order; the caller parks the spindle. An
overtaken order's spindle becomes the withdrawn spindle only at entry to DOFFING (R78, step 2; log entry 14). -/
def withdrawForPark (side : Side) (pos : Nat) (s : State) : State :=
  let c := s.carriages.get side
  if c.pieceTarget = some pos then cancelOrder side (some pos) s
  else if c.overtakenTarget = some pos then cancelOrder side c.withdrawn s
  else s

/-! ## Holds (R80) -/

/-- A hold has been set: a READY carriage becomes HELD. -/
def Carriage.nowHeld (c : Carriage) : Carriage :=
  if c.state = .ready then { c with state := .held } else c

/-- A hold has been cleared: a HELD carriage without a hold becomes READY. -/
def Carriage.nowFree (c : Carriage) : Carriage :=
  if c.state = .held ∧ !c.hostHold ∧ !c.doffHold then { c with state := .ready } else c

def setDoffHold (side : Side) (s : State) : State :=
  modifyCarriage side (fun c => { c with doffHold := true }.nowHeld) s

def clearDoffHold (side : Side) (s : State) : State :=
  modifyCarriage side (fun c => { c with doffHold := false }.nowFree) s

/-- The doff hold of both carriages is cleared (R98 to R100); no order follows, because the frame state then is not a
dispatch state. -/
def clearDoffHolds (s : State) : State := clearDoffHold .b (clearDoffHold .a s)

def setHostHold (side : Side) (s : State) : State :=
  modifyCarriage side (fun c => { c with hostHold := true }.nowHeld) s

/-- CARRIAGE_RELEASE clears the host hold; becoming READY is an event for dispatch. -/
def clearHostHold (side : Side) (s : State) : State :=
  dispatchTest side (modifyCarriage side (fun c => { c with hostHold := false }.nowFree) s)

/-! ## Timers (R70, R73, R76 to R78) -/

/-- Whether the carriage's timer runs as a kind. -/
def timerRuns (side : Side) (k : TimerKind) (s : State) : Bool :=
  match (s.carriages.get side).timer with
  | some t => t.kind == k
  | none => false

/-- The expiry of a carriage timer: a piece order is withdrawn without a CANCEL, any other order is dropped, and the
carriage is FAULT. A timer that does not run as this kind does not expire (log entry 3). -/
def carriageTimeout (side : Side) (k : TimerKind) (s : State) : State :=
  if timerRuns side k s then carriageFaults side (dropWork side s) else s

/-! ## Yarn found on a PIECING spindle (R38) -/

/-- The carriage's order becomes an overtaken order. -/
def overtakeOrder (side : Side) (pos : Nat) (s : State) : State :=
  modifyCarriage side (fun c => match c.order with
    | some (.piece t o k) => if t = pos then { c with order := some (.overtaken t o k) } else c
    | _ => c) s

end Sys2Proof.Machine
end

