-- ==== Sys2Proof/Machine/Supply.lean ====
section
/-!
DEFINITION. Yarn reports (R28 to R39), and the roving train's requests and reports (R132 to R140).
-/
namespace Sys2Proof.Machine

/-! ## Yarn lost (R29 to R36) -/

/-- Whether a figure is run out: known and at or below the run-out margin (R30). -/
def runOut (s : State) (sp : Spindle) : Bool :=
  match sp.roving with
  | some r => r ≤ s.items.runoutMargin * 1000
  | none => false

/-- The stamps after an END break at an FLmm (R32). -/
def addStamp (flmm : Nat) (l : List Nat) : List Nat :=
  if l.getLast? = some flmm then l
  else if 15 ≤ l.length then l.drop (l.length - 14) ++ [flmm]
  else l ++ [flmm]

/-- The rogue test: the stamps at or above FLmm − ROGUE_SPAN_M × 1000, every stamp where that is below 0 (R33). -/
def isRogue (items : Items) (flmm : Nat) (stamps : List Nat) : Bool :=
  items.rogueBreaks ≤ stamps.countP fun t => flmm ≤ t + items.rogueSpan * 1000

/-- One END break for the governor window, where the governor is enabled (R17, R36). -/
def countGovernor (s : State) : State :=
  if s.doff.effective.governor then s.setSpeed { s.speed with winCount := min 65535 (s.speed.winCount + 1) } else s

/-- A run-out (R30): WAIT_ROVING, handed to the Roving Supply Unit, ROVING_OUT raised and counted. -/
def takeRunOut (side : Side) (pos : Nat) (sp : Spindle) (s : State) : State :=
  countSide side .rovingOutBreak (raise .rovingOut (placeRunOut ⟨side, pos⟩
    (writeSpindle side pos
      { sp with state := .waitRoving, marker := none, cause := some .rovingOut, attempts := 0, seq := none } s)))

/-- An END break (R31 to R34, R36): stamp, rogue test, lock or break list, counts. -/
def takeEndBreak (side : Side) (pos : Nat) (sp : Spindle) (s : State) : State :=
  let sp := { sp with attempts := 0, stamps := addStamp s.flmm sp.stamps }
  let s :=
    if isRogue s.items s.flmm sp.stamps then
      if lockRoom s then lockSpindle side pos .rogue sp s
      else raise .rogueLock (joinBreakList side pos .endBreak { sp with rogueUnlocked := true } s)
    else joinBreakList side pos .endBreak sp s
  countGovernor (countSide side .endBreak s)

/-- A START_UP break (R31, R36). -/
def takeStartUpBreak (side : Side) (pos : Nat) (sp : Spindle) (s : State) : State :=
  countSide side .startUpBreak (joinBreakList side pos .startUp { sp with attempts := 0 } s)

/-- YARN_LOST at a side position (R29): a break of a RUNNING spindle, without effect in any other state. A join is an
event for dispatch (R52). -/
def yarnLost (side : Side) (pos : Nat) (s : State) : State :=
  match s.spindle side pos with
  | none => s
  | some sp0 =>
    if sp0.state = .running then
      let s := closeInterval side pos s
      let sp := sp0.close s.articles.active s.flmm
      if runOut s sp then takeRunOut side pos sp s
      else if s.doff.frame = .startUp then dispatchTest side (takeStartUpBreak side pos sp s)
      else dispatchTest side (takeEndBreak side pos sp s)
    else s

/-- YARN_FOUND at a side position (R37 to R39). -/
def yarnFound (side : Side) (pos : Nat) (s : State) : State :=
  match s.spindle side pos with
  | none => s
  | some sp =>
    match sp.state with
    | .broken => countSide side .manualPiece (writeSpindle side pos (sp.pieced s.flmm) s)
    | .piecing => overtakeOrder side pos (writeSpindle side pos (sp.pieced s.flmm) s)
    | .running | .waitRoving | .locked | .parked => s

/-! ## Clamp acknowledgements and the section board's items (R169) -/

/-- The side position of a position within a section (R28). -/
def sidePos (sec pos : Nat) : Nat := 48 * (sec - 1) + pos

/-- A clamp acknowledgement removes the held command of the same value. -/
def clampAck (side : Side) (sec pos : Nat) (c : Clamp) (s : State) : State :=
  match s.bus.board side sec with
  | some e =>
    if e.held[pos - 1]? = some (some c) then
      s.setBus (s.bus.setBoard side sec { e with held := e.held.set (pos - 1) none })
    else s
  | none => s

/-- One item of an accepted section board answer; a position outside 1..48 is discarded (R28). -/
def boardItem (side : Side) (sec : Nat) (s : State) (i : BoardItem) : State :=
  let inside (p : Nat) : Bool := 1 ≤ p && p ≤ 48
  match i with
  | .yarnLost p => if inside p then yarnLost side (sidePos sec p) s else s
  | .yarnFound p => if inside p then yarnFound side (sidePos sec p) s else s
  | .clampAck p c => if inside p then clampAck side sec p c s else s

/-! ## The roving train (R132 to R140) -/

/-- NEXT (R132): the answer is queued for the train. -/
def trainNext (s : State) : State :=
  match s.roving.run with
  | .idle => sendTrain .noPosition s
  | .ending => sendTrain .noPosition s
  | .active =>
    match s.roving.slot with
    | some _ => sendTrain .wait s
    | none =>
      let handOut (x : SpRef) (urgent low : List SpRef) : State :=
        sendTrain (.position x.side x.pos) (s.setRoving { s.roving with
          urgent := urgent, low := low, slot := some x, timer := some s.items.slotTimeout,
          current := s.roving.current.map (· - 1) })
      match s.roving.urgent, s.roving.low with
      | x :: rest, low => handOut x rest low
      | [], x :: rest => handOut x [] rest
      | [], [] => endRun .empty (sendTrain .noPosition s)

/-- Steps 2 to 5 of R133 and the move of R134: a RUNNING spindle makes the split first, the figure becomes a full
bobbin, the state moves, and one replacement is counted. -/
def replaceBobbin (x : SpRef) (s : State) : State :=
  match s.spindle x.side x.pos with
  | none => s
  | some sp0 =>
    let s := if sp0.state = .running then split s else s
    let sp1 := if sp0.state = .running then sp0.close s.articles.active s.flmm else sp0
    let sp := { sp1 with roving := some (s.articles.active.bobbin * 1000) }
    let s := match sp.state with
      | .running | .waitRoving => joinBreakList x.side x.pos .rovingChange { sp with attempts := 0 } s
      | .broken | .piecing | .locked | .parked => writeSpindle x.side x.pos sp s
    countSide x.side .replacement s

/-- REPLACED (R133, R139): of the slot spindle, late for a listed one, and discarded for any other. A join is an event
for dispatch (R134). -/
def trainReplaced (x : SpRef) (s : State) : State :=
  if s.roving.slot = some x then
    dispatchTest x.side (endingTest (replaceBobbin x (emptySlot s)))
  else if s.roving.listed x then
    dispatchTest x.side (replaceBobbin x (unlist x s))
  else s

/-- SKIPPED (R135): the slot spindle returns to the tail of its segment. -/
def trainSkipped (x : SpRef) (s : State) : State :=
  if s.roving.slot = some x then endingTest (returnToRovingList false x (emptySlot s)) else s

/-- PRESENT from the train (R140): the slot spindle is taken back to the head of its segment. -/
def trainPresent (s : State) : State :=
  match s.roving.slot with
  | none => s
  | some x => endingTest (returnToRovingList true x (emptySlot s))

/-- A train report (R172). A position beyond the fitted count is neither in the slot nor listed. -/
def trainReport (r : TrainReport) (s : State) : State :=
  match r with
  | .next => trainNext s
  | .replaced side pos => trainReplaced ⟨side, pos⟩ s
  | .skipped side pos => trainSkipped ⟨side, pos⟩ s
  | .present => trainPresent s

/-- The slot timer's expiry (R137): the slot spindle returns to the head of its segment, and the run ends with reason
TIMEOUT where it is ENDING or its count is 0. -/
def slotTimeout (s : State) : State :=
  match s.roving.slot, s.roving.timer with
  | some x, some _ =>
    let s := returnToRovingList true x (emptySlot s)
    if s.roving.run = .ending ∨ s.roving.current = some 0 then endRun .timeout s else s
  | _, _ => s

/-! ## The roving audit (R126) -/

/-- Whether an audit selects a spindle; its Rp where it does. -/
def auditSelects (s : State) (x : SpRef) (sp : Spindle) : Option Nat :=
  match sp.projected s.articles.active s.flmm with
  | some rp =>
    if sp.state ≠ .parked ∧ ¬ s.roving.listed x ∧ s.roving.slot ≠ some x ∧ rp < s.items.rovingThreshold * 1000
    then some rp else none
  | none => none

/-- The selected spindles of a side from a position on, with their Rp, in ascending position. -/
def auditSide (s : State) (side : Side) : Nat → List Spindle → List (SpRef × Nat)
  | _, [] => []
  | pos, sp :: rest =>
    match auditSelects s ⟨side, pos⟩ sp with
    | some rp => (⟨side, pos⟩, rp) :: auditSide s side (pos + 1) rest
    | none => auditSide s side (pos + 1) rest

/-- An entry put among entries in ascending Rp, after those with an equal one. -/
def insertByRp (e : SpRef × Nat) : List (SpRef × Nat) → List (SpRef × Nat)
  | [] => [e]
  | f :: fs => if e.2 < f.2 then e :: f :: fs else f :: insertByRp e fs

/-- The order of R126: ascending Rp, equal Rp by side then position. -/
def sortByRp (l : List (SpRef × Nat)) : List (SpRef × Nat) := l.foldl (fun acc e => insertByRp e acc) []

/-- The audit (R126). -/
def rovingAudit (s : State) : State :=
  let found := sortByRp (auditSide s .a 1 s.spindles.a ++ auditSide s .b 1 s.spindles.b)
  if found.isEmpty then s
  else raise .rovingLow (s.setRoving { s.roving with low := s.roving.low ++ found.map (·.1) })

end Sys2Proof.Machine
end

