-- ==== Sys2Proof/Machine/FrameOps.lean ====
section
/-!
DEFINITION. The set-point and fill (R10 to R16), governor windows (R17 to R20), frame states and the supervision
context (R86 to R104), article validation and exchange (R110, R116, R117), and the doff (R92 to R100).
-/
namespace Sys2Proof.Machine

/-! ## Set-point (R12 to R16) -/

/-- Point i of the speed program. -/
def Article.point (a : Article) (i : Nat) : Int := a.program.getD i 0

/-- S1, the program speed at fill f (R12). -/
def programSpeed (a : Article) (f : Nat) : Int :=
  let i := f / 64
  if 15 ≤ i then a.point 15
  else a.point i + ((a.point (i + 1) - a.point i) * (f % 64 : Nat) + 32) / 64

/-- S4: the trim (R13), the governor factor and the doff approach cap (R14). -/
def cappedSpeed (a : Article) (f : Nat) (trim : Int) (g : Nat) (frame : FrameState) : Int :=
  let s2 := programSpeed a f + 25 * trim
  let s3 := s2 * (100 - 2 * g) / 100
  if frame.capped then min s3 a.approach else s3

/-- The set-point: S4 clamped to the article's limits and rounded down to a multiple of 10 (R15). -/
def setPointOf (a : Article) (f : Nat) (trim : Int) (g : Nat) (frame : FrameState) : Nat :=
  let s5 := min (max (cappedSpeed a f trim g frame) a.minSpeed) a.maxSpeed
  10 * (s5.toNat / 10)

/-- The set-point of the inputs as they stand (R16). -/
def currentSetPoint (s : State) : Nat :=
  setPointOf s.articles.active s.speed.fill s.items.speedTrim s.speed.step s.doff.frame

/-- A recomputation: a result that differs is kept and raises SPEED (R16). -/
def recomputeSetPoint (s : State) : State :=
  if currentSetPoint s = s.speed.setPoint then s
  else raise .speed (s.setSpeed { s.speed with setPoint := currentSetPoint s })

/-- Fill of the frame cop length FLmm − cop base (R10). -/
def fillOf (s : State) : Nat :=
  min 1024 ((s.flmm - s.doff.copBase) * 1024 / (s.articles.active.copLength * 1000))

/-! ## Frame states and context (R86, R103, R104) -/

/-- A change of the frame state (R86): FRAME_STATE is raised, and the set-point is recomputed where the state enters or
leaves DOFF_PENDING or DOFF_STOPPING. The dispatch tests are made at the end of the operation (R56). -/
def changeFrame (new : FrameState) (s : State) : State :=
  let old := s.doff.frame
  let s := raise .frameState (s.setDoff { s.doff with frame := new })
  if old.capped || new.capped then recomputeSetPoint s else s

/-- The swap (R103). -/
def swapContext (s : State) : State :=
  s.setDoff { s.doff with
    saved := some s.doff.effective
    effective := ⟨s.doff.effective.mask &&& ~~~s.doff.doffMask, false⟩ }

/-- The restore (R104). -/
def restoreContext (s : State) : State :=
  match s.doff.saved with
  | some c => s.setDoff { s.doff with effective := c, saved := none }
  | none => s

/-- The doff number after one more doff: from 65,535 to 1 (R92). -/
def nextDoffNumber (n : Nat) : Nat := if 65535 ≤ n then 1 else n + 1

/-- A doff begins (R92): a new number, a new record, and empty sections-done sets. -/
def beginDoff (kind : DoffKind) (s : State) : State :=
  let n := nextDoffNumber s.doff.number
  s.setDoff { s.doff with
    number := n
    last := some ⟨n, kind, s.speed.fill, 0, 0, none, none⟩
    done := ⟨[], []⟩ }

/-- Entry to DOFF_STOPPING by fill (R91): kind AUTO, and STOP_ADVICE. -/
def stopForFill (s : State) : State :=
  raise .stopAdvice (beginDoff .auto (changeFrame .doffStopping s))

/-- f compared with the pre-doff fill and with 1024 (R91), by the frame state. -/
def judgeFill (s : State) : State :=
  match s.doff.frame with
  | .spinning =>
    if s.articles.active.preDoff ≤ s.speed.fill then
      let s := swapContext (changeFrame .doffPending s)
      if s.speed.fill = 1024 then stopForFill s else s
    else s
  | .doffPending => if s.speed.fill = 1024 then stopForFill s else s
  | .stopped | .startUp | .doffStopping | .doffing | .restartWait | .halted => s

/-- A recomputation of f (R11): a result that differs is kept, handed to the Doff Controller, and the set-point is
recomputed. -/
def recomputeFill (s : State) : State :=
  if fillOf s = s.speed.fill then s
  else recomputeSetPoint (judgeFill (s.setSpeed { s.speed with fill := fillOf s }))

/-! ## Governor windows (R18, R19) -/

/-- g and the low streak after a window with `rate` (R18). -/
def stepGovernor (items : Items) (rate : Nat) (v : Speed) : Speed :=
  if items.govHigh < rate then { v with step := min 8 (v.step + 1), lowStreak := 0 }
  else if rate < items.govLow then
    if 3 ≤ v.lowStreak + 1 then { v with step := v.step - 1, lowStreak := 0 }
    else { v with lowStreak := v.lowStreak + 1 }
  else { v with lowStreak := 0 }

/-- A window close (R18, R19). -/
def closeWindow (s : State) : State :=
  let n := inService s .a + inService s .b
  let v :=
    if s.doff.effective.governor ∧ n ≠ 0 then stepGovernor s.items (s.speed.winCount * 1000 / n) s.speed
    else s.speed
  let s' := s.setSpeed { v with winCount := 0 }
  if v.step = s.speed.step then s' else recomputeSetPoint s'

/-! ## The start-up watch (R90) -/

/-- Whether the start-up watch length has been delivered. -/
def watchDone (s : State) : Bool :=
  s.doff.frame == .startUp &&
    match s.doff.watchStart with
    | some w => s.articles.active.watch * 1000 ≤ s.flmm - w
    | none => false

/-- The end of the start-up watch: SPINNING, the restore, and f compared with the pre-doff fill. -/
def endWatch (s : State) : State :=
  let s := changeFrame .spinning (s.setDoff { s.doff with watchStart := none })
  judgeFill (restoreContext s)

/-- The frame becomes HALTED from a running state (R88, R89). -/
def haltFrame (s : State) : State :=
  changeFrame .halted (s.setDoff { s.doff with watchStart := none })

/-! ## The readers of an advance of FLmm (R3) -/

/-- The readers that may act on one advance. -/
inductive Reader where
  | fill | window | audit | watch
deriving DecidableEq, Repr

/-- Whether a reader has something to do on the advance from `old`. -/
def readerDue (old : Nat) (s : State) : Reader → Bool
  | .fill => true
  | .window => passes (s.items.govWindow * 1000) old s.flmm
  | .audit => passes (s.items.auditStep * 1000) old s.flmm
  | .watch => watchDone s

/-- One reader's action, whole; a frame state that it changes into a dispatch state is tested for dispatch at its end
(R56). -/
def runReader (s : State) (r : Reader) : State :=
  match r with
  | .fill => dispatchOnEntry s.doff.frame (recomputeFill s)
  | .window => closeWindow s
  | .audit => rovingAudit s
  | .watch => dispatchOnEntry s.doff.frame (endWatch s)

/-- A list in the order that a choice number gives: with `fuel` at least its length, every order of the list is given
by some number. -/
def pickOrder {α : Type} : Nat → Nat → List α → List α
  | 0, _, l => l
  | _ + 1, _, [] => []
  | _ + 1, _, [x] => [x]
  | fuel + 1, k, x :: y :: rest =>
    let l := x :: y :: rest
    l.getD (k % l.length) x :: pickOrder fuel (k / l.length) (l.eraseIdx (k % l.length))

/-- An advance of FLmm (R3): the readers that have something to do act in a free order (log entry 5). -/
def advance (old : Nat) (s : State) : State :=
  let due := [Reader.fill, .window, .audit, .watch].filter (readerDue old s)
  let order := pickOrder 4 (Config.readerOrder s.freeCount) due
  order.foldl runReader (s.setFreeCount (s.freeCount + 1))

/-! ## Articles (R108, R110) -/

/-- The fields of an article by number, from 1 (R108). -/
def Article.fields (a : Article) : List Nat :=
  [a.id, a.tex100, a.draft100, a.copLength, a.bobbin] ++ a.program ++
    [a.minSpeed, a.maxSpeed, a.approach, a.preDoff, a.watch]

/-- The article of 26 fields. -/
def Article.ofFields (l : List Nat) : Article where
  id := l.getD 0 0
  tex100 := l.getD 1 0
  draft100 := l.getD 2 0
  copLength := l.getD 3 0
  bobbin := l.getD 4 0
  program := (List.range 16).map fun i => l.getD (5 + i) 0
  minSpeed := l.getD 21 0
  maxSpeed := l.getD 22 0
  approach := l.getD 23 0
  preDoff := l.getD 24 0
  watch := l.getD 25 0

/-- The numeric range of an article field (R108), which the Loader judges too (R192). R108 gives field 24 none, only its
relation to min and max speed (log entry 31). -/
def articleRange (n v : Nat) : Bool :=
  let within (lo hi : Nat) : Bool := lo ≤ v && v ≤ hi
  if n = 1 then within 0 65535
  else if n = 2 then within 300 20000
  else if n = 3 then within 1000 8000
  else if n = 4 then within 500 20000
  else if n = 5 then within 500 6000
  else if n ≤ 21 then within 6000 28000
  else if n = 22 then within 6000 28000
  else if n = 23 then within 6000 28000
  else if n = 24 then true
  else if n = 25 then within 900 1023
  else within 5 200

/-- The checks of one field in R110: its range, the multiple of 10, and the relations to earlier fields. -/
def articleFieldOk (a : Article) (n v : Nat) : Bool :=
  articleRange n v &&
    (if n = 22 then v % 10 == 0
     else if n = 23 then v % 10 == 0 && a.minSpeed ≤ v
     else if n = 24 then a.minSpeed ≤ v && v ≤ a.maxSpeed
     else true)

/-- The first failing field from a number on. -/
def firstFailing (a : Article) : Nat → List Nat → Option Nat
  | _, [] => none
  | n, v :: vs => if articleFieldOk a n v then firstFailing a (n + 1) vs else some n

/-- Validation (R110): the number of the failing field, or none for a valid record. -/
def Article.failingField (a : Article) : Option Nat := firstFailing a 1 a.fields

/-- The roving cross check of an article (R116). -/
def rovingCross (items : Items) (a : Article) : Bool :=
  (items.rovingThreshold + items.runoutMargin) * 1000 < a.bobbin * 1000

/-- The article that an exchange attempt would make active, or the reason of its refusal (R116). -/
def exchangeCheck (s : State) : Except ExchangeReason Article :=
  match s.articles.staged with
  | none => .error .noStaged
  | some a => if rovingCross s.items a then .ok a else .error .rovingMismatch

/-- A refused exchange (R116). -/
def refuseExchange (reason : ExchangeReason) (occ : Occasion) (s : State) : State :=
  raise .article (s.setArticles { s.articles with request := false, last := some ⟨reason, occ, s.flmm⟩ })

/-- The exchange made (R117). -/
def makeExchange (new : Article) (occ : Occasion) (s : State) : State :=
  let s := split s
  let s := s.setArticles { s.articles with active := new, staged := some s.articles.active, request := false }
  let s := s.setSpeed { s.speed with step := 0 }
  let s := recomputeSetPoint (recomputeFill s)
  let s := countFrame .exchange s
  raise .article (s.setArticles { s.articles with last := some ⟨.done, occ, s.flmm⟩ })

/-- An exchange attempt (R115 to R117). -/
def attemptExchange (occ : Occasion) (s : State) : State :=
  match exchangeCheck s with
  | .ok a => makeExchange a occ s
  | .error reason => refuseExchange reason occ s

/-! ## The doff (R94 to R100) -/

/-- DOFF_GO is sent and the doffer timer starts (R94, R96). -/
def startDoffer (s : State) : State :=
  let s := sendDoffGo s
  s.setDoff { s.doff with ready := false, go := .sent, timer := some s.items.dofferTimeout }

/-- Entry to DOFFING (R94). -/
def enterDoffing (s : State) : State :=
  let s := changeFrame .doffing s
  let s := withdrawForDoff .b (withdrawForDoff .a s)
  let s := setDoffHold .b (setDoffHold .a s)
  if s.doff.ready then startDoffer s else s.setDoff { s.doff with go := .waiting }

/-- The doff has ended for the doffer: the timer stops, the go state is NONE and the doffer is not ready. -/
def endDoffer (s : State) : State :=
  s.setDoff { s.doff with timer := none, go := .none, ready := false }

/-- The last doff record takes an outcome and a fault code. -/
def recordOutcome (o : DoffOutcome) (code : Option Nat) (s : State) : State :=
  s.setDoff { s.doff with last := s.doff.last.map fun r => { r with outcome := some o, faultCode := code } }

/-- A doff fails on DOFF_FAULT or on the doffer timer (R98). -/
def failDoff (code : Option Nat) (s : State) : State :=
  raise .dofferFault (changeFrame .halted
    (recordOutcome .fault code (clearDoffHolds (endDoffer s))))

/-- The split and the cop reset, with the cop base at the same FLmm (R27). -/
def resetCops (s : State) : State :=
  let s := split s
  let zero (l : List Spindle) : List Spindle := l.map fun sp => { sp with cop := 0 }
  let s := s.setSpindles ⟨zero s.spindles.a, zero s.spindles.b⟩
  recomputeFill (s.setDoff { s.doff with copBase := s.flmm })

/-- A doff completes (R99). `byHand` is DOFF_MANUAL_DONE, which stops a doffer that has been sent. -/
def completeDoff (byHand : Bool) (s : State) : State :=
  let s := resetCops s
  let s := if s.articles.request then attemptExchange (.doff s.doff.number) s else s
  let s := recordOutcome .done none (clearDoffHolds s)
  let s := countFrame .doff s
  let s := if byHand ∧ s.doff.go = .sent then sendDoffStop s else s
  changeFrame .restartWait (endDoffer s)

/-- A doff is abandoned (R100). -/
def abortDoff (s : State) : State :=
  let s :=
    if s.doff.go = .sent then
      let s := sendDoffStop s
      s.setDoff { s.doff with timer := none, ready := false }
    else s
  let s := s.setDoff { s.doff with go := .none }
  changeFrame .halted (recordOutcome .aborted none (clearDoffHolds s))

/-- The doffer timer restarts with DOFFER_TIMEOUT_S (R97). -/
def restartDofferTimer (s : State) : State := s.setDoff { s.doff with timer := some s.items.dofferTimeout }

/-- SECTION_DONE of a fitted section with the go state SENT (R97). -/
def sectionDone (side : Side) (sec : Nat) (s : State) : State :=
  let old := s.doff.done.get side
  let new := if old.contains sec then old else old ++ [sec]
  let s := restartDofferTimer s
  s.setDoff { s.doff with
    done := s.doff.done.set side new
    last := s.doff.last.map fun r => match side with
      | .a => { r with doneA := new.length }
      | .b => { r with doneB := new.length } }

/-- A doffer report (R95 to R99, R171); a fault code outside 1..15 is not handed on, and section 0 is discarded as one
beyond the fitted count is (log entry 29). -/
def dofferReport (r : DofferReport) (s : State) : State :=
  match s.doff.go with
  | .none => match r with
    | .ready => s.setDoff { s.doff with ready := true }
    | _ => s
  | .waiting => match r with
    | .ready => startDoffer s
    | _ => s
  | .sent => match r with
    | .ready | .doffBegun => restartDofferTimer s
    | .sectionDone (some side) sec =>
      if 1 ≤ sec ∧ sec ≤ s.items.sections.get side then sectionDone side sec s else s
    | .sectionDone none _ => s
    | .doffDone => completeDoff false s
    | .doffFault code => if 1 ≤ code ∧ code ≤ 15 then failDoff (some code) s else s

end Sys2Proof.Machine
end

