-- ==== Sys2Proof/Machine/HostLine.lean ====
section
/-!
DEFINITION. The receiver and the holding (R175 to R177), the taking and the judging of a request (R178 to R180), and
the commands HOST_FRAME, FRAME_TIMER_EXPIRY, REPLY_SENT, UNKNOWN_KIND, IDENTIFY, STATUS, ACK_EVENTS, SET_MASK,
SET_DOFF_MASK and RESET.
-/
namespace Sys2Proof.Machine

/-! ## The catalogue (R182) -/

/-- The body length of each request kind; a kind not listed has none. -/
def bodyLength (kind : Byte) : Option Nat :=
  match kind.toNat with
  | 0x01 => some 0
  | 0x02 => some 0
  | 0x03 => some 2
  | 0x04 => some 2
  | 0x05 => some 2
  | 0x08 => some 5
  | 0x09 => some 1
  | 0x10 => some 52
  | 0x11 => some 1
  | 0x12 => some 0
  | 0x18 => some 0
  | 0x19 => some 0
  | 0x1A => some 0
  | 0x1B => some 0
  | 0x1C => some 0
  | 0x1D => some 0
  | 0x20 => some 4
  | 0x21 => some 3
  | 0x22 => some 3
  | 0x23 => some 3
  | 0x24 => some 7
  | 0x28 => some 3
  | 0x29 => some 2
  | 0x30 => some 1
  | 0x31 => some 1
  | 0x32 => some 1
  | 0x33 => some 1
  | 0x38 => some 1
  | 0x39 => some 0
  | 0x3A => some 0
  | 0x40 => some 1
  | 0x41 => some 1
  | 0x48 => some 6
  | 0x49 => some 2
  | 0x7F => some 0
  | _ => none

/-! ## The receiver (R175) and the holding (R177) -/

/-- A discard: from the end of loading it raises LINE_FAULT, is counted up to 65,535, and its reason is kept (R175,
R177, R188). -/
def discard (reason : DiscardReason) (s : State) : State :=
  if s.phase = .running then
    raise .lineFault (s.setLine { s.line with
      discards := min 65535 (s.line.discards + 1), lastDiscard := some reason })
  else s

/-- A complete frame with a matching CRC is offered to the holding, which keeps up to 2 requests (R177). -/
def offerRequest (r : HeldRequest) (s : State) : State :=
  if s.line.holding.length < 2 then s.setLine { s.line with holding := s.line.holding ++ [r] }
  else discard .overflow s

/-- The request of the bytes collected after the sync byte, where their CRC matches (R174). -/
def frameRequest (bytes : List Byte) : Option HeldRequest :=
  match bytes with
  | len :: kind :: rest =>
    let n := len.toNat
    if numAt rest n 2 = (crc16 (len :: kind :: rest.take n)).toNat then some ⟨kind, rest.take n⟩ else none
  | _ => none

/-- One byte more of a frame being collected: the length is judged when it arrives, and the frame when its last CRC
byte arrives. -/
def collectByte (got : List Byte) (b : Byte) (s : State) : State :=
  let bytes := got ++ [b]
  let hunt := s.setLine { s.line with rx := .hunting }
  match bytes with
  | [len] =>
    if 240 < len.toNat then discard .length hunt
    else s.setLine { s.line with rx := .collecting bytes }
  | len :: _ =>
    if bytes.length < len.toNat + 4 then s.setLine { s.line with rx := .collecting bytes }
    else match frameRequest bytes with
      | some r => offerRequest r hunt
      | none => discard .crc hunt
  | [] => s

/-- One byte of the host line: a byte without its stop bit is dropped (R176). -/
def receiveByte (s : State) (b : LineByte) : State :=
  if b.stop then
    match s.line.rx with
    | .off => s
    | .hunting => if b.data = 0xA5#8 then s.setLine { s.line with rx := .collecting [] } else s
    | .collecting got => collectByte got b.data s
  else s

/-- HOST_FRAME: the bytes of a frame, or of a part of one, in the order received (R175). -/
def execHostFrame (bytes : List LineByte) (s : State) : Host.Outcome State Fault Refusal :=
  .next (bytes.foldl receiveByte s)

/-- FRAME_TIMER_EXPIRY: the frame being collected is discarded with reason LATE (R175). The timer runs exactly while a
frame is being collected (log entry 3). -/
def execFrameTimerExpiry (s : State) : Host.Outcome State Fault Refusal :=
  match s.line.rx with
  | .collecting _ => .next (discard .late (s.setLine { s.line with rx := .hunting }))
  | .off => .next s
  | .hunting => .next s

/-! ## Taking a request (R178 to R180) -/

/-- What an owning block answers: the state it leaves, the result, and the reply's bytes after the code. -/
structure Handled where
  state : State
  result : Result
  content : List Byte

def Handled.ok (s : State) (content : List Byte) : Handled := ⟨s, .ok, content⟩

/-- A refusal: nothing changed, and a detail byte (R179). -/
def Handled.refuse (s : State) (r : Result) (detail : Nat := 0) : Handled := ⟨s, r, field 1 detail⟩

/-- Whether the interface takes this request now: RESET# is not low, no reply is being transmitted, no soft reset is
due (R178, R188, R189), and the request is the oldest in the holding. With the holding empty the command stands for
the acceptance of its frame too (log entry 12). -/
def canTake (r : HeldRequest) (s : State) : Bool :=
  s.phase != .inReset && s.line.tx.isNone && !s.line.resetDue &&
    match s.line.holding with
    | [] => true
    | h :: _ => h == r

/-- The state with the request held. -/
def holdRequest (r : HeldRequest) (s : State) : State :=
  match s.line.holding with
  | [] => s.setLine { s.line with holding := [r] }
  | _ :: _ => s

/-- The transmission of a reply begins (R178). -/
def beginReply (kind : Byte) (h : Handled) : State :=
  h.state.setLine { h.state.line with tx := some ⟨replyKind kind, h.result, h.content⟩ }

/-- The judgement of R180, in its order, for a kind of the catalogue. A CONFIG_SET refused here names no item: its detail
byte is 00h (log entry 34). -/
def judgeRequest (r : HeldRequest) (owner : List Byte → State → Handled) (s : State) : Handled :=
  if s.phase ≠ .running then Handled.refuse s .starting
  else match bodyLength r.kind with
    | none => Handled.refuse s .unknownKind
    | some n => if r.body.length = n then owner r.body s else Handled.refuse s .badLength

/-- A request is taken, carried out whole by its owner, and its reply begins (R178). A request that is not taken now
leaves the state as it is (log entry 12). -/
def takeRequest (kind : Byte) (body : List Byte) (owner : List Byte → State → Handled) (s : State) : State :=
  let r : HeldRequest := ⟨kind, body⟩
  if canTake r s then beginReply kind (judgeRequest r owner (holdRequest r s)) else s

/-- REPLY_SENT: the reply's last byte has gone, and its request leaves the holding (R178). A RESET answered OK makes
the soft reset due (R189). -/
def execReplySent (s : State) : Host.Outcome State Fault Refusal :=
  match s.line.tx with
  | none => .next s
  | some r =>
    .next (s.setLine { s.line with
      tx := none
      holding := s.line.holding.tail
      resetDue := r.kind == replyKind 0x7F#8 && r.result == .ok && (s.line.holding.head?.any (·.kind == 0x7F#8)) })

/-- UNKNOWN_KIND: a request whose kind is not in the catalogue (R179, R180). A kind of the catalogue is another
command's, and is not taken by this one. -/
def execUnknownKind (kind : Byte) (body : List Byte) (s : State) : Host.Outcome State Fault Refusal :=
  if (bodyLength kind).isNone then .next (takeRequest kind body (fun _ s => Handled.refuse s .unknownKind) s)
  else .next s

/-! ## IDENTIFY and STATUS -/

/-- The content of IDENTIFY (R183). -/
def identifyContent (s : State) : List Byte :=
  field 2 7460 ++ field 1 siliconRevision ++ field 1 s.loader.outcome.code ++
    optField 2 (s.loader.failIndex.map (field 2)) ++ flagField s.loader.defaulted ++ field 1 s.line.rate.code ++
    field 4 s.items.sections.a ++ field 4 s.items.sections.b

def execIdentify (body : List Byte) (s : State) : Host.Outcome State Fault Refusal :=
  .next (takeRequest 0x01#8 body (fun _ s => Handled.ok s (identifyContent s)) s)

/-- The content of STATUS, in the order of R184. -/
def statusContent (s : State) : List Byte :=
  field 1 s.doff.frame.code ++ flagField s.roller.winding ++ field 8 s.flmm ++ field 2 s.speed.fill ++
    field 2 s.speed.setPoint ++ field 1 s.speed.step ++ signedField 1 s.items.speedTrim ++
    signedField 1 s.items.lengthTrim ++ classField s.line.pendingSet ++ classField s.doff.effective.mask ++
    flagField s.doff.saved.isSome ++ field 2 (lockedCount s) ++ field 2 s.breakList.a.length ++
    field 2 s.breakList.b.length ++ field 2 (s.roving.urgent.length + s.roving.low.length) ++
    field 1 s.roving.run.code ++ field 2 s.line.discards ++
    optField 1 (s.line.lastDiscard.map fun r => field 1 r.code)

def execStatus (body : List Byte) (s : State) : Host.Outcome State Fault Refusal :=
  .next (takeRequest 0x02#8 body (fun _ s => Handled.ok s (statusContent s)) s)

/-! ## Classes and masks -/

/-- ACK_EVENTS (R186): the reply carries the pending set after the request. -/
def ackEvents (body : List Byte) (s : State) : Handled :=
  match classSetOf (numAt body 0 2) with
  | some m =>
    let s := clearClasses m s
    Handled.ok s (classField s.line.pendingSet)
  | none => Handled.refuse s .badValue

def execAckEvents (body : List Byte) (s : State) : Host.Outcome State Fault Refusal :=
  .next (takeRequest 0x03#8 body ackEvents s)

/-- The normal attention mask is set: deferred to the saved context where one exists (R105). -/
def setNormalMask (m : ClassSet) (s : State) : Handled :=
  match s.doff.saved with
  | some c => ⟨s.setDoff { s.doff with saved := some { c with mask := m } }, .deferred, []⟩
  | none => ⟨s.setDoff { s.doff with effective := { s.doff.effective with mask := m } }, .ok, []⟩

/-- SET_MASK (R105, R186). -/
def setMask (body : List Byte) (s : State) : Handled :=
  match classSetOf (numAt body 0 2) with
  | some m => setNormalMask m s
  | none => Handled.refuse s .badValue

def execSetMask (body : List Byte) (s : State) : Host.Outcome State Fault Refusal :=
  .next (takeRequest 0x04#8 body setMask s)

/-- The doff mask is replaced, and acts at the next swap (R106). -/
def replaceDoffMask (m : ClassSet) (s : State) : Handled :=
  Handled.ok (s.setDoff { s.doff with doffMask := m }) []

/-- SET_DOFF_MASK (R106, R186). -/
def setDoffMask (body : List Byte) (s : State) : Handled :=
  match classSetOf (numAt body 0 2) with
  | some m => replaceDoffMask m s
  | none => Handled.refuse s .badValue

def execSetDoffMask (body : List Byte) (s : State) : Host.Outcome State Fault Refusal :=
  .next (takeRequest 0x05#8 body setDoffMask s)

/-- RESET (R189): answered OK; the soft reset follows the reply. -/
def execReset (body : List Byte) (s : State) : Host.Outcome State Fault Refusal :=
  .next (takeRequest 0x7F#8 body (fun _ s => Handled.ok s []) s)

end Sys2Proof.Machine
end

