-- ==== Sys2Proof/Machine/Items.lean ====
section
/-!
DEFINITION. Configuration items by their codes (R191, R192), CONFIG_SET in its seven rows and CONFIG_GET (R196 to R199),
the section change (R47, R66, R143, R150, R162, R198), and the two trims (R4, R13).
-/
namespace Sys2Proof.Machine

/-! ## Item codes (R191) -/

/-- Whether a 32-bit value lies in the range of a configuration code (R191); the trims are signed, the masks class
sets of classes 0..14 (R190, R194). -/
def configRange (code v : Nat) : Bool :=
  let within (lo hi : Nat) : Bool := lo ≤ v && v ≤ hi
  match code with
  | 0x01 => within 1 20
  | 0x02 => within 1 20
  | 0x03 => within 100 2000
  | 0x04 => within 60000 160000
  | 0x05 => -64 ≤ signed32 v && signed32 v ≤ 63
  | 0x06 => within 50 2000
  | 0x07 => within 1 127
  | 0x08 => within 20 250
  | 0x09 => within 5 60
  | 0x0A => within 5 120
  | 0x0B => within 1 3
  | 0x0C => within 2 15
  | 0x0D => within 50 5000
  | 0x0E => within 0 64
  | 0x0F => within 10 500
  | 0x10 => within 0 20
  | 0x11 => within 1 50
  | 0x12 => within 60 1200
  | 0x13 => within 60 900
  | 0x14 => within 20 1000
  | 0x15 => within 1 250
  | 0x16 => within 0 249
  | 0x17 => -16 ≤ signed32 v && signed32 v ≤ 15
  | 0x18 => within 0 32767
  | 0x19 => within 0 32767
  | _ => false

/-- Whether a code is one of the configuration codes 01h..19h. -/
def isConfigCode (code : Nat) : Bool := 1 ≤ code && code ≤ 0x19

/-- Whether CONFIG_SET changes an item only while STOPPED (R191). -/
def stoppedOnly (code : Nat) : Bool :=
  match code with
  | 0x01 => true
  | 0x02 => true
  | 0x03 => true
  | 0x04 => true
  | 0x06 => true
  | 0x0E => true
  | 0x11 => true
  | 0x14 => true
  | _ => false

/-- A signed value as the 32-bit number that stands for it (R190). -/
def unsigned32 (i : Int) : Nat := (i % 4294967296).toNat

/-- The value of an item of the set, by its code, in store record form (R190, R199). -/
def Items.value (t : Items) (code : Nat) : Nat :=
  match code with
  | 0x01 => t.sections.a
  | 0x02 => t.sections.b
  | 0x03 => t.encPulses
  | 0x04 => t.rollerCirc
  | 0x05 => unsigned32 t.lengthTrim
  | 0x06 => t.motionWindow
  | 0x07 => t.reach
  | 0x08 => t.pieceTimeout
  | 0x09 => t.legTimeout
  | 0x0A => t.homeTimeout
  | 0x0B => t.pieceAttempts
  | 0x0C => t.rogueBreaks
  | 0x0D => t.rogueSpan
  | 0x0E => t.lockCeiling
  | 0x0F => t.rovingThreshold
  | 0x10 => t.runoutMargin
  | 0x11 => t.auditStep
  | 0x12 => t.slotTimeout
  | 0x13 => t.dofferTimeout
  | 0x14 => t.govWindow
  | 0x15 => t.govHigh
  | 0x16 => t.govLow
  | 0x17 => unsigned32 t.speedTrim
  | _ => 0

/-- The set with the item of a code replaced by a 32-bit value. -/
def Items.put (t : Items) (code v : Nat) : Items :=
  match code with
  | 0x01 => { t with sections := { t.sections with a := v } }
  | 0x02 => { t with sections := { t.sections with b := v } }
  | 0x03 => { t with encPulses := v }
  | 0x04 => { t with rollerCirc := v }
  | 0x05 => { t with lengthTrim := signed32 v }
  | 0x06 => { t with motionWindow := v }
  | 0x07 => { t with reach := v }
  | 0x08 => { t with pieceTimeout := v }
  | 0x09 => { t with legTimeout := v }
  | 0x0A => { t with homeTimeout := v }
  | 0x0B => { t with pieceAttempts := v }
  | 0x0C => { t with rogueBreaks := v }
  | 0x0D => { t with rogueSpan := v }
  | 0x0E => { t with lockCeiling := v }
  | 0x0F => { t with rovingThreshold := v }
  | 0x10 => { t with runoutMargin := v }
  | 0x11 => { t with auditStep := v }
  | 0x12 => { t with slotTimeout := v }
  | 0x13 => { t with dofferTimeout := v }
  | 0x14 => { t with govWindow := v }
  | 0x15 => { t with govHigh := v }
  | 0x16 => { t with govLow := v }
  | 0x17 => { t with speedTrim := signed32 v }
  | _ => t

/-- The cross check of R197 for a new value. -/
def crossCheck (code v : Nat) (s : State) : Bool :=
  match code with
  | 0x0E => lockedCount s ≤ v
  | 0x0F => v + s.items.runoutMargin < s.articles.active.bobbin
  | 0x10 => s.items.rovingThreshold + v < s.articles.active.bobbin
  | 0x15 => s.items.govLow < v
  | 0x16 => v < s.items.govHigh
  | _ => true

/-! ## N and D (R1, R4, R5) -/

/-- N = ROLLER_CIRC_UM × (8192 + LENGTH_TRIM) (R1). -/
def numeratorOf (t : Items) : Nat := ((t.rollerCirc : Int) * (8192 + t.lengthTrim)).toNat

/-- D = 8192 × ENC_PULSES (R1). -/
def divisorOf (t : Items) : Nat := 8192 * t.encPulses

/-- LENGTH_TRIM in force, and the new N; acc is kept (R4). -/
def takeLengthTrim (trim : Int) (s : State) : State :=
  let t := { s.items with lengthTrim := trim }
  (s.setItems t).setRoller { s.roller with num := numeratorOf t }

/-- SPEED_TRIM in force, and the set-point recomputed (R13). -/
def takeSpeedTrim (trim : Int) (s : State) : State :=
  recomputeSetPoint (s.setItems { s.items with speedTrim := trim })

/-- A new ENC_PULSES or ROLLER_CIRC_UM: new N and D, and acc 0 (R5). -/
def takeEncoderItems (t : Items) (s : State) : State :=
  (s.setItems t).setRoller { s.roller with num := numeratorOf t, den := divisorOf t, acc := 0 }

/-! ## Section changes (R198) -/

/-- A removed spindle is released from what holds it (R47): its interval is closed, and it leaves the break list (R66)
and the roving change list (R143). -/
def releaseRemoved (side : Side) (keep : Nat) (s : State) : State :=
  let removed := (s.spindles.get side).drop keep
  let s := creditRun side (openSum removed s.flmm) s
  let s := s.setBreakList (s.breakList.modify side (·.filter (· ≤ keep)))
  let stays (x : SpRef) : Bool := !(x.side == side && decide (keep < x.pos))
  s.setRoving { s.roving with urgent := s.roving.urgent.filter stays, low := s.roving.low.filter stays }

/-- A removed spindle leaves the slot, and the ending test is made (R143). -/
def releaseSlot (side : Side) (keep : Nat) (s : State) : State :=
  match s.roving.slot with
  | some x => if x.side = side ∧ keep < x.pos then endingTest (emptySlot s) else s
  | none => s

/-- The side's carriage where its x lies beyond the new last position (R66). -/
def recallCarriage (side : Side) (keep : Nat) (s : State) : State :=
  let c := s.carriages.get side
  match c.x with
  | none => s
  | some x =>
    if x ≤ keep then s
    else match c.state with
      | .ready | .held => startHoming side s
      | .fault => modifyCarriage side (fun c => { c with x := none }) s
      | .absent | .homing | .moving | .serving => s

/-- The side's records and section board entries cut or formed for a new fitted count (R22, R47, R162). The entries of
new boards hold the clamp OPEN of each new record. A removed board leaves the cycle in progress; a new one is polled
from the next cycle (R163). An answer window that is open stays open (log entries 25 and 32). -/
def resizeSide (side : Side) (n : Nat) (s : State) : State :=
  let old := s.spindles.get side
  let s := s.setSpindles (s.spindles.set side
    (old.take (48 * n) ++ List.replicate (48 * n - old.length) (Spindle.formed s.flmm)))
  let boards := s.bus.boards.get side
  let inTable (st : Station) : Bool := match st with
    | .board sd sec => !(sd == side && decide (n < sec))
    | .carriage _ => true
    | .doffer => true
    | .train => true
  s.setBus { s.bus with
    boards := s.bus.boards.set side (boards.take n ++ List.replicate (n - boards.length) BoardEntry.initial)
    cycle := s.bus.cycle.filter inTable }

/-- A change of the fitted sections of a side (R198), at the current FLmm. -/
def changeSections (side : Side) (n : Nat) (s : State) : State :=
  let s := creditPossible side s
  let s := releaseSlot side (48 * n) (releaseRemoved side (48 * n) s)
  let s := resizeSide side n s
  let s := s.setItems { s.items with sections := s.items.sections.set side n }
  recallCarriage side (48 * n) s

/-! ## CONFIG_SET (R196) -/

/-- The block's action on an accepted new value, the item put into the set (R196). -/
def takeItem (code v : Nat) (s : State) : Handled :=
  match code with
  | 0x01 => Handled.ok (changeSections .a v s) []
  | 0x02 => Handled.ok (changeSections .b v s) []
  | 0x03 => Handled.ok (takeEncoderItems (s.items.put code v) s) []
  | 0x04 => Handled.ok (takeEncoderItems (s.items.put code v) s) []
  | 0x05 => Handled.ok (takeLengthTrim (signed32 v) s) []
  | 0x17 => Handled.ok (takeSpeedTrim (signed32 v) s) []
  | _ => Handled.ok (s.setItems (s.items.put code v)) []

/-- CONFIG_SET judged in the order of R196. A value equal to the one in force changes nothing; the two masks are not
held in the set, and are taken as SET_MASK and SET_DOFF_MASK (R105, R106). -/
def configSet (body : List Byte) (s : State) : Handled :=
  let code := (byteAt body 0).toNat
  let v := numAt body 1 4
  if !isConfigCode code then Handled.refuse s .badValue code
  else if stoppedOnly code && s.doff.frame != .stopped then Handled.refuse s .refusedState code
  else if !configRange code v then Handled.refuse s .badValue code
  else if !crossCheck code v s then Handled.refuse s .badValue code
  else if code = 0x18 then setNormalMask (BitVec.ofNat 15 v) s
  else if code = 0x19 then replaceDoffMask (BitVec.ofNat 15 v) s
  else if s.items.value code = v then Handled.ok s []
  else takeItem code v s

/-- CONFIG_SET of an item without behaviour beyond its value (R196). The seven rows of CONFIG_SET are one request on the
line; each is judged by the item code that its body carries. -/
def execConfigSet (body : List Byte) (s : State) : Host.Outcome State Fault Refusal :=
  .next (takeRequest 0x08#8 body configSet s)

/-- CONFIG_SET of SECTIONS_A or SECTIONS_B (R198). -/
def execConfigSetSections (body : List Byte) (s : State) : Host.Outcome State Fault Refusal :=
  .next (takeRequest 0x08#8 body configSet s)

/-- CONFIG_SET of ENC_PULSES or ROLLER_CIRC_UM (R5). -/
def execConfigSetEncoder (body : List Byte) (s : State) : Host.Outcome State Fault Refusal :=
  .next (takeRequest 0x08#8 body configSet s)

/-- CONFIG_SET of LENGTH_TRIM (R4). -/
def execConfigSetLengthTrim (body : List Byte) (s : State) : Host.Outcome State Fault Refusal :=
  .next (takeRequest 0x08#8 body configSet s)

/-- CONFIG_SET of SPEED_TRIM (R13). -/
def execConfigSetSpeedTrim (body : List Byte) (s : State) : Host.Outcome State Fault Refusal :=
  .next (takeRequest 0x08#8 body configSet s)

/-- CONFIG_SET of ATTN_MASK (R105). -/
def execConfigSetAttnMask (body : List Byte) (s : State) : Host.Outcome State Fault Refusal :=
  .next (takeRequest 0x08#8 body configSet s)

/-- CONFIG_SET of DOFF_MASK (R106). -/
def execConfigSetDoffMask (body : List Byte) (s : State) : Host.Outcome State Fault Refusal :=
  .next (takeRequest 0x08#8 body configSet s)

/-! ## CONFIG_GET (R199) -/

/-- A field of the active article by its number (R108). -/
def Article.field (a : Article) (n : Nat) : Nat := a.fields.getD (n - 1) 0

/-- The value of an article code, single or paired (R192). -/
def articleCodeValue (a : Article) (code : Nat) : Option Nat :=
  match code with
  | 0x40 => some (a.field 1)
  | 0x41 => some (a.field 2)
  | 0x42 => some (a.field 3)
  | 0x43 => some (a.field 4)
  | 0x44 => some (a.field 5)
  | 0x45 => some (a.field 22 * 65536 + a.field 23)
  | 0x46 => some (a.field 24)
  | 0x47 => some (a.field 25 * 65536 + a.field 26)
  | _ => if 0x48 ≤ code ∧ code ≤ 0x57 then some (a.field (code - 0x48 + 6)) else none

/-- The value that CONFIG_GET returns for a code (R199, R105, R106). -/
def configValue (code : Nat) (s : State) : Option Nat :=
  if code = 0x18 then some (match s.doff.saved with
    | some c => c.mask.toNat
    | none => s.doff.effective.mask.toNat)
  else if code = 0x19 then some s.doff.doffMask.toNat
  else if isConfigCode code then some (s.items.value code)
  else articleCodeValue s.articles.active code

/-- CONFIG_GET: the item code and the value in the form of a store record (R190, R199). -/
def configGet (body : List Byte) (s : State) : Handled :=
  match configValue (byteAt body 0).toNat s with
  | some v => Handled.ok s ([byteAt body 0] ++ field 4 v)
  | none => Handled.refuse s .badValue

def execConfigGet (body : List Byte) (s : State) : Host.Outcome State Fault Refusal :=
  .next (takeRequest 0x09#8 body configGet s)

/-! ## The trims (R4, R13) -/

/-- A trim brought to the nearest limit, and whether it was outside. -/
def clampTrim (lo hi v : Int) : Int × Result :=
  if v < lo then (lo, .clamped) else if hi < v then (hi, .clamped) else (v, .ok)

/-- TRIM_SPEED (R13). -/
def trimSpeed (body : List Byte) (s : State) : Handled :=
  let (v, r) := clampTrim (-16) 15 (signedByte (byteAt body 0))
  ⟨takeSpeedTrim v s, r, signedField 1 v⟩

def execTrimSpeed (body : List Byte) (s : State) : Host.Outcome State Fault Refusal :=
  .next (takeRequest 0x40#8 body trimSpeed s)

/-- TRIM_LENGTH (R4). -/
def trimLength (body : List Byte) (s : State) : Handled :=
  let (v, r) := clampTrim (-64) 63 (signedByte (byteAt body 0))
  ⟨takeLengthTrim v s, r, signedField 1 v⟩

def execTrimLength (body : List Byte) (s : State) : Host.Outcome State Fault Refusal :=
  .next (takeRequest 0x41#8 body trimLength s)

end Sys2Proof.Machine
end

