-- ==== Sys2Proof/Machine/Articles.lean ====
section
/-!
DEFINITION. ARTICLE_STAGE, ARTICLE_GET and ARTICLE_EXCHANGE (R113 to R115).
-/
namespace Sys2Proof.Machine

/-- The article whose 26 fields of 2 bytes a body carries (R182). -/
def articleOfBody (body : List Byte) : Article :=
  Article.ofFields ((List.range 26).map fun i => numAt body (2 * i) 2)

/-- ARTICLE_STAGE (R113). -/
def articleStage (body : List Byte) (s : State) : Handled :=
  let a := articleOfBody body
  match a.failingField with
  | none => Handled.ok (s.setArticles { s.articles with staged := some a }) []
  | some n => Handled.refuse s .badValue n

def execArticleStage (body : List Byte) (s : State) : Host.Outcome State Fault Refusal :=
  .next (takeRequest 0x10#8 body articleStage s)

/-- The bytes of an article record (R114). -/
def articleBytes (a : Article) : List Byte := a.fields.flatMap (field 2)

/-- The bytes of the last exchange outcome (R111; log entry 9). -/
def outcomeBytes (o : ExchangeOutcome) : List Byte :=
  field 1 o.reason.code ++
    (match o.occasion with
      | .request => field 1 0 ++ optField 2 none
      | .doff n => field 1 1 ++ optField 2 (some (field 2 n))) ++
    field 8 o.flmm

/-- The content of ARTICLE_GET for one of the two records (R114), either behind a presence byte (log entry 9). -/
def articleGetContent (a : Option Article) (s : State) : List Byte :=
  optField 52 (a.map articleBytes) ++ flagField s.articles.request ++
    optField 13 (s.articles.last.map outcomeBytes)

/-- ARTICLE_GET (R114). -/
def articleGet (body : List Byte) (s : State) : Handled :=
  match (byteAt body 0).toNat with
  | 0 => Handled.ok s (articleGetContent (some s.articles.active) s)
  | 1 => Handled.ok s (articleGetContent s.articles.staged s)
  | _ => Handled.refuse s .badValue

def execArticleGet (body : List Byte) (s : State) : Host.Outcome State Fault Refusal :=
  .next (takeRequest 0x11#8 body articleGet s)

/-- ARTICLE_EXCHANGE (R115): attempted at once while STOPPED, with the reply of R179; else pending. The
indication is one byte (log entry 9). -/
def articleExchange (_ : List Byte) (s : State) : Handled :=
  if s.doff.frame = .stopped then
    match exchangeCheck s with
    | .ok a => Handled.ok (makeExchange a .request s) (field 1 0)
    | .error .noStaged => Handled.refuse (refuseExchange .noStaged .request s) .refusedState 1
    | .error reason => Handled.refuse (refuseExchange reason .request s) .badValue 2
  else Handled.ok (s.setArticles { s.articles with request := true }) (field 1 1)

def execArticleExchange (body : List Byte) (s : State) : Host.Outcome State Fault Refusal :=
  .next (takeRequest 0x12#8 body articleExchange s)

end Sys2Proof.Machine
end

