-- ==== Sys2Proof/Machine/FrameBus.lean ====
section
/-!
DEFINITION. POLL, ANSWER_WINDOW_EXPIRY and STATION_ANSWER (R163 to R172).
-/
namespace Sys2Proof.Machine

/-! ## Polling (R163, R168, R169) -/

/-- The section boards of a side in ascending section. -/
def boardStations (side : Side) (n : Nat) : List Station := (List.range n).map fun i => .board side (i + 1)

/-- The fixed cycle of R163. -/
def fullCycle (s : State) : List Station :=
  [.carriage .a, .carriage .b, .doffer, .train] ++ boardStations .a s.bus.boards.a.length ++
    boardStations .b s.bus.boards.b.length

/-- The held positions of a board, of a list of places from a position on. -/
def heldFrom : Nat → List (Option Clamp) → List (Nat × Clamp)
  | _, [] => []
  | pos, none :: rest => heldFrom (pos + 1) rest
  | pos, some c :: rest => (pos, c) :: heldFrom (pos + 1) rest

/-- Up to 8 held commands in ascending position from the first held position above the carry point, wrapping from 48 to
1 (R169). -/
def clampsToCarry (e : BoardEntry) : List (Nat × Clamp) :=
  let l := heldFrom 1 e.held
  (l.filter (fun p => e.carryPoint < p.1) ++ l.filter (fun p => p.1 ≤ e.carryPoint)).take 8

/-- A machine station's entry after its head command has been carried: the carried turn becomes that command's turn
(R168). -/
def MachineEntry.carry (e : MachineEntry) : MachineEntry :=
  match e.queue with
  | [] => e
  | q :: rest => { e with carriedTurn := some q.turn, queue := { q with carried := true } :: rest }

/-- The poll of a machine station: its entry afterwards, and what the poll carries. -/
def pollMachine (st : Station) (e : MachineEntry) : MachineEntry × PollMessage :=
  (e.carry, ⟨st, e.link.turn, e.queue.head?.map fun q => (q.cmd, q.turn), []⟩)

/-- The poll of a section board: no clamp command is carried to a SILENT one, and its carry point does not move
(R169). -/
def pollBoard (st : Station) (e : BoardEntry) : BoardEntry × PollMessage :=
  let clamps := if e.link.status = .silent then [] else clampsToCarry e
  ({ e with carryPoint := (clamps.getLast?.map (·.1)).getD e.carryPoint }, ⟨st, e.link.turn, none, clamps⟩)

/-- One station polled. -/
def pollStation (st : Station) (s : State) : State :=
  match st with
  | .board side sec =>
    match s.bus.board side sec with
    | some e =>
      let (e', m) := pollBoard st e
      s.setBus { s.bus.setBoard side sec e' with awaiting := some m }
    | none => s
  | st =>
    match s.bus.machine st with
    | some e =>
      let (e', m) := pollMachine st e
      s.setBus { s.bus.setMachine st e' with awaiting := some m }
    | none => s

/-- POLL (R163): the next station of the cycle; after the last one the next cycle begins with carriage A. No poll is
sent before loading ends (R162) or while an answer window is open (R164; log entry 3). -/
def execPoll (s : State) : Host.Outcome State Fault Refusal :=
  if s.phase = .running ∧ s.bus.awaiting.isNone then
    let cycle := if s.bus.cycle.isEmpty then fullCycle s else s.bus.cycle
    match cycle with
    | st :: rest => .next (pollStation st (s.setBus { s.bus with cycle := rest }))
    | [] => .next s
  else .next s

/-! ## Missed polls and silence (R164, R166) -/

/-- What the owner of a station that falls silent is told (R166). A BLIND section and an absent train are read from
the status itself. -/
def ownerToldSilent (st : Station) (s : State) : State :=
  match st with
  | .carriage side =>
    carriageSilent side (s.setBus { s.bus with carriages := s.bus.carriages.modify side fun e => { e with queue := [] } })
  | .doffer => s.setDoff { s.doff with ready := false }
  | .train => s
  | .board _ _ => s

/-- A missed poll (R164); at 3 the station becomes SILENT (R166). A station already SILENT keeps its count. -/
def missPoll (st : Station) (s : State) : State :=
  match s.bus.link st with
  | none => s
  | some l =>
    if l.status = .silent then s
    else if l.miss + 1 < 3 then s.setBus (s.bus.setLink st { l with miss := l.miss + 1 })
    else
      ownerToldSilent st (raise .lineFault
        (s.setBus (s.bus.setLink st { l with miss := 3, status := .silent, turn := none })))

/-- The answer window of the poll closes. -/
def closeAnswerWindow (s : State) : State := s.setBus { s.bus with awaiting := none }

/-- ANSWER_WINDOW_EXPIRY (R164); without an open window nothing expires (log entry 3). -/
def execAnswerWindowExpiry (s : State) : Host.Outcome State Fault Refusal :=
  match s.bus.awaiting with
  | none => .next s
  | some m => .next (missPoll m.station (closeAnswerWindow s))

/-! ## Answers (R164, R165, R167, R168) -/

/-- Whether an answered poll's answer is accepted (R165, steps 1 to 4). -/
def Link.accepts (l : Link) (turn restart : Bool) : Bool :=
  (restart && !(l.restartSeen && l.turn == some turn)) || l.turn != some turn

/-- The link fields after an answered poll (R164, R165, R167). -/
def Link.answered (l : Link) (turn restart : Bool) : Link :=
  if l.accepts turn restart then ⟨.answering, 0, some turn, restart⟩
  else { l with status := .answering, miss := 0 }

/-- The queue after a command receipt, judged whether or not the answer is a repeat (R168). -/
def takeReceipt (receipt : Option Bool) (q : List QueuedCommand) : List QueuedCommand :=
  match q with
  | [] => []
  | h :: rest => if receipt = some h.turn then rest else h :: rest

/-- A machine station's entry after an answer: link, receipt, and the queue emptied at an accepted restart (R165). -/
def MachineEntry.answered (e : MachineEntry) (turn restart : Bool) (receipt : Option Bool) : MachineEntry :=
  { e with
    link := e.link.answered turn restart
    queue := if restart && e.link.accepts turn restart then [] else takeReceipt receipt e.queue }

/-- A carriage's answer (R170); at an answer of return, a carriage still ABSENT after its reports arrives (R71). -/
def carriageAnswer (side : Side) (a : Answer) (receipt : Option Bool) (report : Option CarriageReport) (s : State) :
    State :=
  let e := s.bus.carriages.get side
  let s := s.setBus { s.bus with carriages := s.bus.carriages.set side (e.answered a.turn a.restart receipt) }
  let s := match report with
    | some r => if e.link.accepts a.turn a.restart then carriageReport side r s else s
    | none => s
  if e.link.status ≠ .answering ∧ (s.carriages.get side).state = .absent then carriageArrives side s else s

/-- The doffer's answer (R171). -/
def dofferAnswer (a : Answer) (receipt : Option Bool) (report : Option DofferReport) (s : State) : State :=
  let e := s.bus.doffer
  let s := s.setBus { s.bus with doffer := e.answered a.turn a.restart receipt }
  match report with
  | some r => if e.link.accepts a.turn a.restart then dofferReport r s else s
  | none => s

/-- The roving train's answer (R172). -/
def trainAnswer (a : Answer) (receipt : Option Bool) (report : Option TrainReport) (s : State) : State :=
  let e := s.bus.train
  let s := s.setBus { s.bus with train := e.answered a.turn a.restart receipt }
  match report with
  | some r => if e.link.accepts a.turn a.restart then trainReport r s else s
  | none => s

/-- The clamps of a section's records, held anew after the board's restart (R169). -/
def sectionClamps (s : State) (side : Side) (sec : Nat) : List (Option Clamp) :=
  (List.range 48).map fun i => (s.spindle side (sidePos sec (i + 1))).map (·.clamp)

/-- A section board's entry after an answer; an accepted restart holds the clamp of every spindle again and sets the
carry point to 0 (R169). -/
def BoardEntry.answered (e : BoardEntry) (a : Answer) (clamps : List (Option Clamp)) : BoardEntry :=
  let e' := { e with link := e.link.answered a.turn a.restart }
  if a.restart && e.link.accepts a.turn a.restart then { e' with held := clamps, carryPoint := 0 } else e'

/-- A section board's answer (R169): its items are handed on in the order it gives them (R165), at an accepted restart
after the section's commands are held anew (log entry 33). -/
def boardAnswer (side : Side) (sec : Nat) (a : Answer) (items : List BoardItem) (s : State) : State :=
  match s.bus.board side sec with
  | none => s
  | some e =>
    let s' := s.setBus (s.bus.setBoard side sec (e.answered a (sectionClamps s side sec)))
    if e.link.accepts a.turn a.restart then items.foldl (boardItem side sec) s' else s'

/-- An answered poll (R164). -/
def takeAnswer (a : Answer) (s : State) : State :=
  match a.payload with
  | .carriage side receipt report => carriageAnswer side a receipt report s
  | .doffer receipt report => dofferAnswer a receipt report s
  | .train receipt report => trainAnswer a receipt report s
  | .board side sec items => boardAnswer side sec a items s

/-- STATION_ANSWER (R164, R165): an answer outside an open window is not taken; one that fails its check or names
another station leaves the poll missed. -/
def execStationAnswer (a : Answer) (s : State) : Host.Outcome State Fault Refusal :=
  match s.bus.awaiting with
  | none => .next s
  | some m =>
    let s := closeAnswerWindow s
    .next (if a.checkOk ∧ a.station = m.station then takeAnswer a s else missPoll m.station s)

end Sys2Proof.Machine
end

