-- ==== Sys2Proof/Machine/Frames.lean ====
section
/-!
DEFINITION. ENCODER_PULSE and MOTION_WINDOW_EXPIRY (R2, R6, R7), FRAME_RUN and FRAME_HALT (R87, R88), the doff requests
(R93, R99, R100, R102) and DOFFER_TIMER_EXPIRY (R98).
-/
namespace Sys2Proof.Machine

/-! ## The front rollers -/

/-- The pulse counted (R2), the motion window restarted and winding made true (R6). -/
def countPulse (s : State) : State :=
  let acc := s.roller.acc + s.roller.num
  s.setRoller { s.roller with
    flum := add64 s.roller.flum (acc / s.roller.den)
    acc := acc % s.roller.den
    window := some s.items.motionWindow
    winding := true }

/-- ENCODER_PULSE (R2, R3, R6). Pulses before loading ends are not counted (R1). -/
def execEncoderPulse (s : State) : Host.Outcome State Fault Refusal :=
  if s.phase = .running then
    let moved := !s.roller.winding && s.doff.frame.motionNotExpected
    let old := s.flmm
    let s := countPulse s
    let s := if moved then raise .motion s else s
    .next (if old < s.flmm then advance old s else s)
  else .next s

/-- MOTION_WINDOW_EXPIRY (R7, R89). A window that does not run does not expire (log entry 3). -/
def execMotionWindowExpiry (s : State) : Host.Outcome State Fault Refusal :=
  match s.roller.window with
  | none => .next s
  | some _ =>
    let s := s.setRoller { s.roller with window := none, winding := false }
    .next (if s.doff.frame.motionExpected then haltFrame (raise .motion s) else s)

/-! ## Drive reports (R87, R88) -/

/-- The reply content that is the frame state after the request (R182). -/
def frameContent (s : State) : List Byte := field 1 s.doff.frame.code

/-- FRAME_RUN (R87). -/
def frameRun (_ : List Byte) (s : State) : Handled :=
  match s.doff.frame with
  | .stopped | .halted | .restartWait =>
    let s := changeFrame .startUp (s.setDoff { s.doff with watchStart := some s.flmm })
    let s := dispatchBoth s
    Handled.ok s (frameContent s)
  | .startUp | .spinning | .doffPending => Handled.ok s (frameContent s)
  | .doffStopping | .doffing => Handled.refuse s .refusedState

def execFrameRun (body : List Byte) (s : State) : Host.Outcome State Fault Refusal :=
  .next (takeRequest 0x18#8 body frameRun s)

/-- FRAME_HALT (R88, R94). -/
def frameHalt (_ : List Byte) (s : State) : Handled :=
  match s.doff.frame with
  | .startUp | .spinning | .doffPending => let s := haltFrame s; Handled.ok s (frameContent s)
  | .doffStopping => let s := enterDoffing s; Handled.ok s (frameContent s)
  | .stopped | .halted | .doffing | .restartWait => Handled.ok s (frameContent s)

def execFrameHalt (body : List Byte) (s : State) : Host.Outcome State Fault Refusal :=
  .next (takeRequest 0x19#8 body frameHalt s)

/-! ## The doff requests -/

/-- Entry to DOFF_STOPPING by DOFF_NOW (R93): the context is swapped where no saved context exists. -/
def stopByRequest (s : State) : State :=
  let s := beginDoff .manual (changeFrame .doffStopping s)
  if s.doff.saved.isNone then swapContext s else s

/-- DOFF_NOW (R93). -/
def doffNow (_ : List Byte) (s : State) : Handled :=
  match s.doff.frame with
  | .spinning | .doffPending | .halted => let s := stopByRequest s; Handled.ok s (field 2 s.doff.number)
  | .stopped | .startUp | .doffStopping | .doffing | .restartWait => Handled.refuse s .refusedState

def execDoffNow (body : List Byte) (s : State) : Host.Outcome State Fault Refusal :=
  .next (takeRequest 0x1A#8 body doffNow s)

/-- DOFF_ABORT (R100). -/
def doffAbort (_ : List Byte) (s : State) : Handled :=
  match s.doff.frame with
  | .doffStopping | .doffing => let s := abortDoff s; Handled.ok s (frameContent s)
  | .stopped | .startUp | .spinning | .doffPending | .restartWait | .halted => Handled.refuse s .refusedState

def execDoffAbort (body : List Byte) (s : State) : Host.Outcome State Fault Refusal :=
  .next (takeRequest 0x1B#8 body doffAbort s)

/-- DOFF_MANUAL_DONE (R99). -/
def doffManualDone (_ : List Byte) (s : State) : Handled :=
  match s.doff.frame with
  | .doffing => let s := completeDoff true s; Handled.ok s (frameContent s)
  | .stopped | .startUp | .spinning | .doffPending | .doffStopping | .restartWait | .halted =>
    Handled.refuse s .refusedState

def execDoffManualDone (body : List Byte) (s : State) : Host.Outcome State Fault Refusal :=
  .next (takeRequest 0x1C#8 body doffManualDone s)

/-- The whole seconds left on a timer started with `secs`: a free value of 1..secs, or stopped (log entry 4). -/
def secondsLeft (s : State) (timer : Option Nat) : Option (List Byte) :=
  timer.map fun secs => field 2 (1 + Config.secondsLeft s.freeCount % secs)

/-- The bytes of the last doff record (R92, R102), with the counts that the record holds (log entry 30). -/
def doffRecordBytes (r : DoffRecord) : List Byte :=
  field 2 r.number ++ field 1 r.kind.code ++ field 2 r.fillAtStop ++ field 1 r.doneA ++ field 1 r.doneB ++
    optField 1 (r.outcome.map fun o => field 1 o.code) ++ optField 1 (r.faultCode.map (field 1))

/-- The content of DOFF_GET (R102). -/
def doffGetContent (s : State) : List Byte :=
  optField 11 (s.doff.last.map doffRecordBytes) ++ field 1 s.doff.frame.code ++ field 1 s.doff.go.code ++
    flagField s.doff.ready ++ optField 2 (secondsLeft s s.doff.timer) ++ field 8 s.doff.copBase ++
    flagField s.doff.saved.isSome ++ classField s.doff.doffMask

/-- DOFF_GET (R102). -/
def doffGet (_ : List Byte) (s : State) : Handled :=
  Handled.ok (s.setFreeCount (s.freeCount + 1)) (doffGetContent s)

def execDoffGet (body : List Byte) (s : State) : Host.Outcome State Fault Refusal :=
  .next (takeRequest 0x1D#8 body doffGet s)

/-- DOFFER_TIMER_EXPIRY (R98). A timer that does not run does not expire (log entry 3). -/
def execDofferTimerExpiry (s : State) : Host.Outcome State Fault Refusal :=
  if s.doff.go = .sent ∧ s.doff.timer.isSome then .next (failDoff none s) else .next s

end Sys2Proof.Machine
end

