-- ==== Sys2Proof/Machine/Carriages.lean ====
section
/-!
DEFINITION. The host's requests on carriages (R81 to R83) and the expiries of the carriages' timers (R70, R73, R76 to
R78).
-/
namespace Sys2Proof.Machine

/-- The reply content that is a carriage's state after the request (R182). -/
def carriageStateContent (side : Side) (s : State) : List Byte := field 1 (s.carriages.get side).state.code

/-- CARRIAGE_HOLD (R81). -/
def carriageHold (body : List Byte) (s : State) : Handled :=
  match sideAt body 0 with
  | some side =>
    let s := setHostHold side s
    Handled.ok s (carriageStateContent side s)
  | none => Handled.refuse s .badValue

def execCarriageHold (body : List Byte) (s : State) : Host.Outcome State Fault Refusal :=
  .next (takeRequest 0x31#8 body carriageHold s)

/-- CARRIAGE_RELEASE (R81). The reply shows the state after the dispatch test that the release leads to (log entry
28). -/
def carriageRelease (body : List Byte) (s : State) : Handled :=
  match sideAt body 0 with
  | some side =>
    let s := clearHostHold side s
    Handled.ok s (carriageStateContent side s)
  | none => Handled.refuse s .badValue

def execCarriageRelease (body : List Byte) (s : State) : Host.Outcome State Fault Refusal :=
  .next (takeRequest 0x32#8 body carriageRelease s)

/-- CARRIAGE_RESET (R82). -/
def carriageReset (body : List Byte) (s : State) : Handled :=
  match sideAt body 0 with
  | some side =>
    match (s.carriages.get side).state with
    | .fault | .held => Handled.ok (startHoming side s) []
    | .absent => Handled.refuse s .notPresent
    | .homing | .ready | .moving | .serving => Handled.refuse s .refusedState
  | none => Handled.refuse s .badValue

def execCarriageReset (body : List Byte) (s : State) : Host.Outcome State Fault Refusal :=
  .next (takeRequest 0x33#8 body carriageReset s)

/-- The bytes of an order (R83): kind, offset, and for a piece or overtaken order the target, the piece kind and the
target's break sequence where it holds one (log entry 9). -/
def orderBytes (side : Side) (s : State) (o : Order) : List Byte :=
  let target (t : Nat) (k : PieceKind) : List Byte :=
    optField 2 (some (field 2 t)) ++ optField 1 (some (field 1 k.code)) ++
      optField 4 (((s.spindle side t).bind (·.seq)).map (field 4))
  match o with
  | .piece t off k => field 1 0 ++ signedField 1 off ++ target t k
  | .overtaken t off k => field 1 1 ++ signedField 1 off ++ target t k
  | .transit off => field 1 2 ++ signedField 1 off ++ optField 2 none ++ optField 1 none ++ optField 4 none

/-- The content of CARRIAGE_GET (R83); the withdrawn spindle is shown by its position, and the timer
is one optional field of its kind and seconds (log entry 9). -/
def carriageContent (side : Side) (s : State) : List Byte :=
  let c := s.carriages.get side
  field 1 c.state.code ++ optField 2 (c.x.map (field 2)) ++ signedField 1 c.d.sign ++
    optField 12 (c.order.map (orderBytes side s)) ++ flagField c.returning ++ flagField c.hostHold ++
    flagField c.doffHold ++
    optField 3 (c.timer.map fun t => field 1 t.kind.code ++ (secondsLeft s (some t.secs)).getD []) ++
    optField 2 (c.withdrawn.map (field 2))

/-- CARRIAGE_GET (R83). -/
def carriageGet (body : List Byte) (s : State) : Handled :=
  match sideAt body 0 with
  | some side => Handled.ok (s.setFreeCount (s.freeCount + 1)) (carriageContent side s)
  | none => Handled.refuse s .badValue

def execCarriageGet (body : List Byte) (s : State) : Host.Outcome State Fault Refusal :=
  .next (takeRequest 0x30#8 body carriageGet s)

/-- HOMING_TIMER_EXPIRY: FAULT and CARRIAGE (R70). -/
def execHomingTimerExpiry (side : Side) (s : State) : Host.Outcome State Fault Refusal :=
  .next (carriageTimeout side .homing s)

/-- PIECE_TIMER_EXPIRY: a piece order is withdrawn to the list, an overtaken order is dropped (R76, R77). -/
def execPieceTimerExpiry (side : Side) (s : State) : Host.Outcome State Fault Refusal :=
  .next (carriageTimeout side .piece s)

/-- LEG_TIMER_EXPIRY: the leg is dropped (R73). -/
def execLegTimerExpiry (side : Side) (s : State) : Host.Outcome State Fault Refusal :=
  .next (carriageTimeout side .leg s)

/-- RETURN_TIMER_EXPIRY (R78). -/
def execReturnTimerExpiry (side : Side) (s : State) : Host.Outcome State Fault Refusal :=
  .next (carriageTimeout side .returning s)

end Sys2Proof.Machine
end

