-- ==== Sys2Proof/Machine/Spindles.lean ====
section
/-!
DEFINITION. The host's requests on spindles (R40 to R44, R123) and on the break lists (R64).
-/
namespace Sys2Proof.Machine

/-- The side and the record named by a body of side and position; a bad side or a position that is not fitted gives
none (R21). -/
def namedSpindle (body : List Byte) (s : State) : Option (Side × Nat × Spindle) :=
  match sideAt body 0 with
  | some side => (s.spindle side (numAt body 1 2)).map fun sp => (side, numAt body 1 2, sp)
  | none => none

/-- The reply content that is a spindle's state after the request (R182). -/
def spindleStateContent (side : Side) (pos : Nat) (s : State) : List Byte :=
  match s.spindle side pos with
  | some sp => field 1 sp.state.code
  | none => []

/-- A record made PARKED (R41). -/
def Spindle.parked (sp : Spindle) : Spindle :=
  { sp with
    state := .parked, marker := none, seq := none, cause := none, lockCause := none, attempts := 0,
    rogueUnlocked := false }

/-- A park of a spindle that is not PARKED, in the order of R41. -/
def parkSpindle (side : Side) (pos : Nat) (s : State) : State :=
  let s := closeInterval side pos (creditPossible side s)
  let s := unlist ⟨side, pos⟩ (withdrawForPark side pos s)
  match s.spindle side pos with
  | some sp => writeSpindle side pos sp.parked s
  | none => s

/-- SPINDLE_PARK (R41). -/
def spindlePark (body : List Byte) (s : State) : Handled :=
  match namedSpindle body s with
  | none => Handled.refuse s .badValue
  | some (side, pos, sp) =>
    let s := if sp.state = .parked then s else parkSpindle side pos s
    Handled.ok s (spindleStateContent side pos s)

def execSpindlePark (body : List Byte) (s : State) : Host.Outcome State Fault Refusal :=
  .next (takeRequest 0x21#8 body spindlePark s)

/-- SPINDLE_UNPARK (R42); the join is an event for dispatch, and the reply follows it (log entry 28). -/
def spindleUnpark (body : List Byte) (s : State) : Handled :=
  match namedSpindle body s with
  | none => Handled.refuse s .badValue
  | some (side, pos, sp) =>
    if sp.state = .parked then
      let s := joinBreakList side pos .release { sp with attempts := 0 } (creditPossible side s)
      let s := dispatchTest side s
      Handled.ok s (spindleStateContent side pos s)
    else Handled.refuse s .refusedState

def execSpindleUnpark (body : List Byte) (s : State) : Host.Outcome State Fault Refusal :=
  .next (takeRequest 0x22#8 body spindleUnpark s)

/-- SPINDLE_RELEASE (R43); the join is an event for dispatch, and the reply follows it (log entry 28). -/
def spindleRelease (body : List Byte) (s : State) : Handled :=
  match namedSpindle body s with
  | none => Handled.refuse s .badValue
  | some (side, pos, sp) =>
    if sp.state = .locked then
      let s := joinBreakList side pos .release { sp with attempts := 0, stamps := [], rogueUnlocked := false } s
      let s := dispatchTest side s
      Handled.ok s (spindleStateContent side pos s)
    else Handled.refuse s .refusedState

def execSpindleRelease (body : List Byte) (s : State) : Host.Outcome State Fault Refusal :=
  .next (takeRequest 0x23#8 body spindleRelease s)

/-- The entry of one spindle, 44 bytes (R44). -/
def spindleEntry (side : Side) (pos : Nat) (s : State) : List Byte :=
  match s.spindle side pos with
  | none => []
  | some sp =>
    field 2 pos ++ field 1 sp.state.code ++ optField 8 (sp.marker.map (field 8)) ++
      field 4 (min 4294967295 (sp.cop + sp.openLength s.flmm)) ++
      optField 4 ((sp.projected s.articles.active s.flmm).map (field 4)) ++ field 1 (clampCode sp.clamp) ++
      optField 4 (sp.seq.map (field 4)) ++ optField 1 (sp.cause.map fun c => field 1 c.code) ++
      optField 1 (sp.lockCause.map fun c => field 1 c.code) ++ field 1 sp.attempts ++
      field 1 sp.stamps.length ++ optField 8 (sp.stamps.getLast?.map (field 8)) ++ flagField sp.rogueUnlocked ++
      flagField (blind s side pos)

/-- How many entries a SPINDLE_GET reply carries (R44). -/
def spindlePage (first count : Nat) (fitted : Nat) : Nat :=
  min (fitted + 1 - first) (min count (entriesThatFit 2 44))

/-- SPINDLE_GET (R44); the number of entries stands before them (log entry 9). -/
def spindleGet (body : List Byte) (s : State) : Handled :=
  let first := numAt body 1 2
  let count := (byteAt body 3).toNat
  match sideAt body 0 with
  | none => Handled.refuse s .badValue
  | some side =>
    if 1 ≤ count ∧ count ≤ 40 ∧ (s.spindle side first).isSome then
      let n := spindlePage first count (s.spindles.get side).length
      Handled.ok s (field 2 n ++ (List.range n).flatMap fun i => spindleEntry side (first + i) s)
    else Handled.refuse s .badValue

def execSpindleGet (body : List Byte) (s : State) : Host.Outcome State Fault Refusal :=
  .next (takeRequest 0x20#8 body spindleGet s)

/-- One spindle seeded: a RUNNING interval is closed and the figure is replaced (R123). -/
def seedRoving (side : Side) (metres : Nat) (s : State) (pos : Nat) : State :=
  let s := closeInterval side pos s
  match s.spindle side pos with
  | some sp => writeSpindle side pos { sp with roving := some (metres * 1000) } s
  | none => s

/-- SET_ROVING (R123); the number seeded is 2 bytes in the reply (log entry 9). -/
def setRoving (body : List Byte) (s : State) : Handled :=
  let first := numAt body 1 2
  let last := numAt body 3 2
  let metres := numAt body 5 2
  match sideAt body 0 with
  | none => Handled.refuse s .badValue
  | some side =>
    if (s.spindle side first).isSome ∧ (s.spindle side last).isSome ∧ first ≤ last ∧
        metres ≤ s.articles.active.bobbin then
      let n := last + 1 - first
      Handled.ok ((List.range' first n).foldl (seedRoving side metres) s) (field 2 n)
    else Handled.refuse s .badValue

def execSetRoving (body : List Byte) (s : State) : Host.Outcome State Fault Refusal :=
  .next (takeRequest 0x24#8 body setRoving s)

/-- The entry of a spindle in a break list, 9 bytes (R64). -/
def breakEntry (side : Side) (s : State) (pos : Nat) : List Byte :=
  match s.spindle side pos with
  | none => []
  | some sp =>
    field 2 pos ++ field 4 (sp.seq.getD 0) ++ field 1 ((sp.cause.map Cause.code).getD 0) ++ field 1 sp.attempts ++
      flagField sp.rogueUnlocked

/-- The entries of a page: from a start index, up to 40, as many as fit (R64, R129). -/
def page {α : Type} (l : List α) (start fits : Nat) : List α := (l.drop start).take (min 40 fits)

/-- BREAK_LIST_GET (R64). -/
def breakListGet (body : List Byte) (s : State) : Handled :=
  match sideAt body 0 with
  | none => Handled.refuse s .badValue
  | some side =>
    let l := s.breakList.get side
    let start := numAt body 1 2
    if start ≤ l.length then
      let p := page l start (entriesThatFit 4 9)
      Handled.ok s (field 2 l.length ++ field 2 p.length ++ p.flatMap (breakEntry side s))
    else Handled.refuse s .badValue

def execBreakListGet (body : List Byte) (s : State) : Host.Outcome State Fault Refusal :=
  .next (takeRequest 0x28#8 body breakListGet s)

end Sys2Proof.Machine
end

