-- ==== Sys2Proof/Machine/RovingRun.lean ====
section
/-!
DEFINITION. The roving run requests (R131, R138, R141), ROVING_LIST_GET (R129) and SLOT_TIMER_EXPIRY (R137).
-/
namespace Sys2Proof.Machine

/-- Each entry of the roving change list with its segment, the urgent segment first (R124, R129). -/
def rovingEntries (s : State) : List (SpRef × Nat) :=
  s.roving.urgent.map (·, 0) ++ s.roving.low.map (·, 1)

/-- Rp of a named spindle at the current FLmm (R122). -/
def projectedAt (s : State) (x : SpRef) : Option Nat :=
  (s.spindle x.side x.pos).bind fun sp => sp.projected s.articles.active s.flmm

/-- The state code of a named spindle. -/
def stateCodeAt (s : State) (x : SpRef) : Nat := ((s.spindle x.side x.pos).map fun sp => sp.state.code).getD 0

/-- One entry of the list, 10 bytes (R129), with the segment in one byte (log entry 9). -/
def rovingEntry (s : State) (e : SpRef × Nat) : List Byte :=
  field 1 (sideCode e.1.side) ++ field 2 e.1.pos ++ field 1 e.2 ++ field 1 (stateCodeAt s e.1) ++
    optField 4 ((projectedAt s e.1).map (field 4))

/-- ROVING_LIST_GET (R129). -/
def rovingListGet (body : List Byte) (s : State) : Handled :=
  let l := rovingEntries s
  let start := numAt body 0 2
  if start ≤ l.length then
    let p := page l start (entriesThatFit 6 10)
    Handled.ok s (field 2 l.length ++ field 2 s.roving.urgent.length ++ field 2 p.length ++ p.flatMap (rovingEntry s))
  else Handled.refuse s .badValue

def execRovingListGet (body : List Byte) (s : State) : Host.Outcome State Fault Refusal :=
  .next (takeRequest 0x29#8 body rovingListGet s)

/-- The reply content that is the run state after the request (R182). -/
def runContent (s : State) : List Byte := field 1 s.roving.run.code

/-- ROVING_RUN_START, judged in the order of R131. -/
def rovingRunStart (body : List Byte) (s : State) : Handled :=
  let n := (byteAt body 0).toNat
  if n < 1 ∨ 240 < n then Handled.refuse s .badValue
  else if s.roving.run ≠ .idle then Handled.refuse s .refusedState
  else if !s.bus.train.link.present then Handled.refuse s .notPresent
  else
    let s := s.setRoving { s.roving with run := .active, base := some n, current := some n, reason := none }
    Handled.ok s (runContent s)

def execRovingRunStart (body : List Byte) (s : State) : Host.Outcome State Fault Refusal :=
  .next (takeRequest 0x38#8 body rovingRunStart s)

/-- ROVING_RUN_ABORT (R138). -/
def rovingRunAbort (_ : List Byte) (s : State) : Handled :=
  match s.roving.run with
  | .idle => Handled.refuse s .refusedState
  | .ending => Handled.ok s (runContent s)
  | .active =>
    let s := if s.roving.slot.isSome then s.setRoving { s.roving with run := .ending } else endRun .aborted s
    Handled.ok s (runContent s)

def execRovingRunAbort (body : List Byte) (s : State) : Host.Outcome State Fault Refusal :=
  .next (takeRequest 0x39#8 body rovingRunAbort s)

/-- The bytes of the slot spindle: side, position, state and Rp (R141). -/
def slotBytes (s : State) (x : SpRef) : List Byte :=
  field 1 (sideCode x.side) ++ field 2 x.pos ++ field 1 (stateCodeAt s x) ++
    optField 4 ((projectedAt s x).map (field 4))

/-- The content of ROVING_RUN_GET (R141), with each count behind a presence byte of its own (log entry 9). -/
def rovingRunContent (s : State) : List Byte :=
  runContent s ++ optField 1 (s.roving.base.map (field 1)) ++ optField 1 (s.roving.current.map (field 1)) ++
    optField 9 (s.roving.slot.map (slotBytes s)) ++ optField 2 (secondsLeft s s.roving.timer) ++
    optField 1 (s.roving.reason.map fun r => field 1 r.code) ++ flagField s.bus.train.link.present

/-- ROVING_RUN_GET (R141). -/
def rovingRunGet (_ : List Byte) (s : State) : Handled :=
  Handled.ok (s.setFreeCount (s.freeCount + 1)) (rovingRunContent s)

def execRovingRunGet (body : List Byte) (s : State) : Host.Outcome State Fault Refusal :=
  .next (takeRequest 0x3A#8 body rovingRunGet s)

/-- SLOT_TIMER_EXPIRY (R137). A timer that does not run does not expire (log entry 3). -/
def execSlotTimerExpiry (s : State) : Host.Outcome State Fault Refusal := .next (slotTimeout s)

end Sys2Proof.Machine
end

