-- ==== Sys2Proof/Machine/Shifts.lean ====
section
/-!
DEFINITION. SHIFT_CLOSE (R152 to R157) and the two readings SHIFT_GET (R158, R159).
-/
namespace Sys2Proof.Machine

/-- Mass in decigrams: the numerator over 10,000,000, to nearest, a half rounded up (R153). -/
def massDg (numerator : Nat) : Nat := (numerator + 5000000) / 10000000

/-- Efficiency in thousandths, absent where the possible length is 0 (R154). -/
def efficiencyOf (run possible : Nat) : Option Nat := if possible = 0 then none else some (run * 1000 / possible)

/-- One side of a closed record, from the side's live figures (R155). -/
def closedSide (r : ShiftSide) : ClosedSide where
  run := r.run
  possible := r.possible
  massDg := massDg r.mass
  efficiency := efficiencyOf r.run r.possible
  counts := r.counts

/-- The closed record of the live figures as they stand (R155). -/
def closedRecord (label stamp : Nat) (s : State) : ClosedShift where
  seq := s.shift.seq
  label := label
  stamp := stamp
  flmm := s.flmm
  sides := ⟨closedSide s.shift.live.sides.a, closedSide s.shift.live.sides.b⟩
  doffs := s.shift.live.doffs
  exchanges := s.shift.live.exchanges
  marker := s.shift.live.marker

/-- The history with a new record as the newest; the oldest is removed first where it holds 8 (R156). -/
def appendHistory (l : List ClosedShift) (r : ClosedShift) : List ClosedShift := l.drop (l.length - 7) ++ [r]

/-- The sequence number after a close: from 4,294,967,295 to 1 (R157). -/
def nextShiftSeq (n : Nat) : Nat := if 4294967295 ≤ n then 1 else n + 1

/-- The close of R152, in its order. -/
def closeShift (label stamp : Nat) (s : State) : State :=
  let s := split s
  let s := creditPossible .b (creditPossible .a s)
  s.setShift { s.shift with
    history := appendHistory s.shift.history (closedRecord label stamp s)
    live := ShiftLive.cleared
    seq := nextShiftSeq s.shift.seq }

/-- SHIFT_CLOSE (R152): the reply carries the sequence of the closed record. -/
def shiftClose (body : List Byte) (s : State) : Handled :=
  Handled.ok (closeShift (numAt body 0 2) (numAt body 2 4) s) (field 4 s.shift.seq)

def execShiftClose (body : List Byte) (s : State) : Host.Outcome State Fault Refusal :=
  .next (takeRequest 0x48#8 body shiftClose s)

/-- The nine counts as bytes, in the order of R155. -/
def countBytes (c : ShiftCounts) : List Byte :=
  field 2 c.endBreaks ++ field 2 c.startUpBreaks ++ field 2 c.rovingOutBreaks ++ field 2 c.carriagePieces ++
    field 2 c.manualPieces ++ field 2 c.pieceFailures ++ field 2 c.rogueLocks ++ field 2 c.pieceFailLocks ++
    field 2 c.replacements

/-- The lengths, mass and efficiency of a side as bytes. -/
def lengthBytes (c : ClosedSide) : List Byte :=
  field 8 c.run ++ field 8 c.possible ++ field 4 c.massDg ++ optField 2 (c.efficiency.map (field 2))

/-- The live figures of a side as a close at the current FLmm would leave them (R158). -/
def liveSide (s : State) (side : Side) : ClosedSide :=
  let r := s.shift.live.sides.get side
  let dl := openSum (s.spindles.get side) s.flmm
  closedSide { r with
    run := add64 r.run dl
    mass := add64 r.mass (dl * s.articles.active.tex100)
    possible := add64 r.possible ((s.flmm - s.shift.marks.get side) * inService s side) }

/-- The content of SHIFT_GET(live) (R158). -/
def liveContent (s : State) : List Byte :=
  let one (side : Side) : List Byte := lengthBytes (liveSide s side) ++ countBytes (liveSide s side).counts
  field 4 s.shift.seq ++ field 8 s.flmm ++ one .a ++ one .b ++ field 2 s.shift.live.doffs ++
    field 2 s.shift.live.exchanges ++ flagField s.shift.live.marker

/-- A closed record as bytes, in the order of R155. -/
def closedBytes (r : ClosedShift) : List Byte :=
  field 4 r.seq ++ field 2 r.label ++ field 4 r.stamp ++ field 8 r.flmm ++ lengthBytes r.sides.a ++
    lengthBytes r.sides.b ++ countBytes r.sides.a.counts ++ countBytes r.sides.b.counts ++ field 2 r.doffs ++
    field 2 r.exchanges ++ flagField r.marker

/-- SHIFT_GET (R158, R159): selector 0 is live, and its index byte is not read; selector 1 is history, index 0 the
newest record. -/
def shiftGet (body : List Byte) (s : State) : Handled :=
  match (byteAt body 0).toNat with
  | 0 => Handled.ok s (liveContent s)
  | 1 => match s.shift.history.reverse[(byteAt body 1).toNat]? with
    | some r => Handled.ok s (closedBytes r)
    | none => Handled.refuse s .badValue
  | _ => Handled.refuse s .badValue

/-- SHIFT_GET of the live shift (R158). The two rows of SHIFT_GET are one request on the line; each is judged by the
selector that its body carries. -/
def execShiftGetLive (body : List Byte) (s : State) : Host.Outcome State Fault Refusal :=
  .next (takeRequest 0x49#8 body shiftGet s)

/-- SHIFT_GET of the history (R159). -/
def execShiftGetHistory (body : List Byte) (s : State) : Host.Outcome State Fault Refusal :=
  .next (takeRequest 0x49#8 body shiftGet s)

end Sys2Proof.Machine
end

