-- ==== Sys2Proof/Machine/Startup.lean ====
section
/-!
DEFINITION. POWER_ON_RESET, RESET_RELEASE, STORE_RECORD and LOAD_END (R188 to R195), and SOFT_RESET (R200) with each
block's part in it.
-/
namespace Sys2Proof.Machine

/-- POWER_ON_RESET: every block into its reset state (R188, R193). The queue of commands and the model's free counter
are not the part's and stand. -/
def execPowerOnReset (s : State) : Host.Outcome State Fault Refusal :=
  .next ((State.reset.setPending s.pending).setFreeCount s.freeCount)

/-- The strapped rate: 00b 57,600; 01b 115,200; 10b 230,400; 11b 460,800 (1.9, R176). -/
def strappedRate (straps : BitVec 2) : LineRate :=
  match straps.toNat with
  | 0 => .b57600
  | 1 => .b115200
  | 2 => .b230400
  | _ => .b460800

/-- RESET_RELEASE: the straps are sampled, the receiver starts hunting and the Loader starts reading from record index
0 (R176, R188, R193). With RESET# not low there is no release (log entry 3). -/
def execResetRelease (straps : BitVec 2) (s : State) : Host.Outcome State Fault Refusal :=
  if s.phase = .inReset then
    .next (((s.setPhase .loading).setLine { s.line with rx := .hunting, rate := strappedRate straps }).setLoader
      { s.loader with stage := .reading, index := 0, lastCode := none, applied := [] })
  else .next s

/-! ## Reading the store (R190, R192 to R194) -/

/-- The last value applied for a code. -/
def appliedValue (l : List (Nat × Nat)) (code : Nat) : Option Nat :=
  (l.reverse.find? (·.1 == code)).map (·.2)

/-- The range check of an article code's value, field by field (R192). -/
def articleCodeRange (code v : Nat) : Bool :=
  match code with
  | 0x40 => articleRange 1 v
  | 0x41 => articleRange 2 v
  | 0x42 => articleRange 3 v
  | 0x43 => articleRange 4 v
  | 0x44 => articleRange 5 v
  | 0x45 => articleRange 22 (v / 65536) && articleRange 23 (v % 65536)
  | 0x46 => articleRange 24 v
  | 0x47 => articleRange 25 (v / 65536) && articleRange 26 (v % 65536)
  | _ => decide (0x48 ≤ code ∧ code ≤ 0x57) && articleRange (code - 0x48 + 6) v

/-- Whether a whole record's code and value pass (R194): an assigned code, above the code before it, its value in
range, and GOV_LOW below GOV_HIGH as it then stands in the set, loaded or default. -/
def recordPasses (t : Loader) (code v : Nat) : Bool :=
  (match t.lastCode with
    | some c => c < code
    | none => true) &&
  (if isConfigCode code then configRange code v else articleCodeRange code v) &&
  (code != 0x16 || v < (appliedValue t.applied 0x15).getD Items.defaults.govHigh)

/-- The reading stops with an outcome. -/
def Loader.stop (t : Loader) (o : LoadOutcome) (failIndex : Option Nat) : Loader :=
  { t with stage := .stopped o failIndex }

/-- A record applied: its code and value are kept, and the index moves on; index 63 passing without an end record ends
the loading (R194). -/
def Loader.apply (t : Loader) (code v : Nat) : Loader :=
  let t' := { t with applied := t.applied ++ [(code, v)], lastCode := some code, index := t.index + 1 }
  if 64 ≤ t'.index then t'.stop .fault (some 64) else t'

/-- One record as the memory gives it (R194). -/
def Loader.take (t : Loader) (read : Option (List Byte)) : Loader :=
  match read with
  | none => if t.index = 0 then t.stop .none none else t.stop .fault (some t.index)
  | some [] => t.stop .fault (some t.index)
  | some (code :: rest) =>
    if code = 0xFF#8 then t.stop .ok none
    else if rest.length < 7 then t.stop .fault (some t.index)
    else if recordPasses t code.toNat (numAt rest 0 4) then t.apply code.toNat (numAt rest 0 4)
    else t.stop .fault (some t.index)

/-- STORE_RECORD: a record is read only while the Loader is reading (log entry 3). -/
def execStoreRecord (read : Option (List Byte)) (s : State) : Host.Outcome State Fault Refusal :=
  if s.phase = .loading ∧ s.loader.stage = .reading then .next (s.setLoader (s.loader.take read)) else .next s

/-! ## Load end (R195) -/

/-- The item set completed: each item applied, the others at their defaults; an unapplied GOV_LOW whose default is not
below GOV_HIGH takes GOV_HIGH − 1 (R195). -/
def completeItems (l : List (Nat × Nat)) : Items :=
  let t := l.foldl (fun t e => t.put e.1 e.2) Items.defaults
  if (appliedValue l 0x16).isNone ∧ ¬ t.govLow < t.govHigh then { t with govLow := t.govHigh - 1 } else t

/-- The stored value of an article field by its number (R192). -/
def storedField (l : List (Nat × Nat)) (n : Nat) : Option Nat :=
  if n ≤ 5 then appliedValue l (0x40 + (n - 1))
  else if n ≤ 21 then appliedValue l (0x48 + (n - 6))
  else if n = 22 then (appliedValue l 0x45).map (· / 65536)
  else if n = 23 then (appliedValue l 0x45).map (· % 65536)
  else if n = 24 then appliedValue l 0x46
  else if n = 25 then (appliedValue l 0x47).map (· / 65536)
  else (appliedValue l 0x47).map (· % 65536)

/-- The article of the stored fields, each unsupplied field at its default (R112). -/
def storedArticle (l : List (Nat × Nat)) : Article :=
  Article.ofFields ((List.range 26).map fun i => (storedField l (i + 1)).getD (Article.default.field (i + 1)))

/-- Whether an article passes validation and the roving cross check (R112). -/
def articlePasses (t : Items) (a : Article) : Bool := a.failingField.isNone && rovingCross t a

/-- The load outcome that the reading stopped with. -/
def LoadStage.outcome : LoadStage → LoadOutcome × Option Nat
  | .stopped o i => (o, i)
  | .idle => (.none, none)
  | .reading => (.none, none)
  | .done => (.none, none)

/-- The state that load end forms (R195): item set, active article, and each block's state from them. The set-point is
computed from the state formed, without SPEED (R9); CONFIG alone is pending. -/
def formedState (s : State) : State :=
  let t := completeItems s.loader.applied
  let stored := storedArticle s.loader.applied
  let good := articlePasses t stored
  let art := if good then stored else Article.default
  let attn := (appliedValue s.loader.applied 0x18).getD 0x7FFF
  let dmask := (appliedValue s.loader.applied 0x19).getD 0x0220
  let records (n : Nat) : List Spindle := List.replicate (48 * n) (Spindle.formed 0)
  let boards (n : Nat) : List BoardEntry := List.replicate n BoardEntry.initial
  { State.reset with
    pending := s.pending
    freeCount := s.freeCount
    phase := .running
    loader := { s.loader with
      stage := .done, outcome := s.loader.stage.outcome.1, failIndex := s.loader.stage.outcome.2,
      defaulted := !good }
    items := t
    roller := { State.reset.roller with num := numeratorOf t, den := divisorOf t }
    speed := { State.reset.speed with setPoint := setPointOf art 0 t.speedTrim 0 .stopped }
    spindles := ⟨records t.sections.a, records t.sections.b⟩
    doff := { State.reset.doff with
      effective := ⟨BitVec.ofNat 15 attn, true⟩, doffMask := BitVec.ofNat 15 dmask }
    articles := { State.reset.articles with active := art }
    bus := { State.reset.bus with boards := ⟨boards t.sections.a, boards t.sections.b⟩ }
    line := { s.line with pendingSet := PendClass.config.bit } }

/-- LOAD_END, taken when the reading has stopped (R195; log entry 3). -/
def execLoadEnd (s : State) : Host.Outcome State Fault Refusal :=
  match s.phase, s.loader.stage with
  | .loading, .stopped _ _ => .next (formedState s)
  | _, _ => .next s

/-! ## The soft reset (R200) -/

/-- The Carriage Controller's part for one side (R84): orders and returns dropped, a present carriage sent HOME, the
doff hold cleared. The spindle of a piece order becomes the withdrawn spindle and is treated by the Spindle Table. -/
def softResetCarriage (side : Side) (s : State) : State :=
  let s := modifyCarriage side
    (fun c => { c with
      order := none, returning := false, doffHold := false,
      withdrawn := match c.pieceTarget with
        | some t => some t
        | none => c.withdrawn }) s
  if (s.carriages.get side).state = .absent then s else startHoming side s

/-- One record through a soft reset (R48). -/
def Spindle.softReset (sp : Spindle) : Spindle :=
  if sp.state = .piecing then { sp with state := .broken, clamp := .closed } else sp

/-- The clamp CLOSED commands of the PIECING spindles of a side, from a position on (R48). -/
def closePiecing (side : Side) : Nat → List Spindle → State → State
  | _, [], s => s
  | pos, sp :: rest, s =>
    closePiecing side (pos + 1) rest (if sp.state = .piecing then holdClamp side pos .closed s else s)

/-- The positions of the BROKEN records of a list, ascending from a position on. -/
def brokenFrom : Nat → List Spindle → List Nat
  | _, [] => []
  | pos, sp :: rest => if sp.state = .broken then pos :: brokenFrom (pos + 1) rest else brokenFrom (pos + 1) rest

/-- The BROKEN records of a list given the sequences after `n`, in ascending position. -/
def renumberByPosition : Nat → List Spindle → List Spindle
  | _, [] => []
  | n, sp :: rest =>
    if sp.state = .broken then { sp with seq := some (n + 1) } :: renumberByPosition (n + 1) rest
    else sp :: renumberByPosition n rest

/-- The Spindle Table's and the Dispatcher's part for one side (R48, R65). -/
def softResetSpindles (side : Side) (s : State) : State :=
  let old := s.spindles.get side
  let s := closePiecing side 1 old s
  let recs := renumberByPosition 0 (old.map (·.softReset))
  let list := brokenFrom 1 recs
  ((s.setSpindles (s.spindles.set side recs)).setBreakList (s.breakList.set side list)).setBreakSeq
    (s.breakSeq.set side list.length)

/-- The WAIT_ROVING spindles of a side, ascending from a position on. -/
def waitingFrom (side : Side) : Nat → List Spindle → List SpRef
  | _, [] => []
  | pos, sp :: rest =>
    if sp.state = .waitRoving then ⟨side, pos⟩ :: waitingFrom side (pos + 1) rest
    else waitingFrom side (pos + 1) rest

/-- The Roving Supply Unit's part (R144). -/
def softResetRoving (s : State) : State :=
  let ended := s.roving.run ≠ .idle
  let s := s.setRoving { s.roving with
    urgent := waitingFrom .a 1 s.spindles.a ++ waitingFrom .b 1 s.spindles.b, low := [] }
  if ended then endRun .aborted (emptySlot s) else s

/-- The Doff Controller's part (R107). The set-point is recomputed by the Speed Program Unit's own part. The record keeps
its counts while the sets are emptied (log entry 30). -/
def softResetDoff (s : State) : State :=
  let s := if s.doff.go = .sent then
      let s := sendDoffStop s
      s.setDoff { s.doff with timer := none, ready := false }
    else s
  let was := s.doff.frame
  let s := s.setDoff { s.doff with
    go := .none
    last := s.doff.last.map fun r => if r.outcome.isNone then { r with outcome := some .aborted } else r
    done := ⟨[], []⟩
    watchStart := none
    frame := .stopped }
  let s := restoreContext s
  if was = .stopped then s else raise .frameState s

/-- The Speed Program Unit's part (R9, R20). -/
def softResetSpeed (s : State) : State :=
  recomputeSetPoint (s.setSpeed { s.speed with step := 0, winCount := 0, lowStreak := 0 })

/-- A POSITION or WAIT in the train's queue becomes NONE: with the turn it held where it has not been carried, the
other turn where it has (R172). -/
def QueuedCommand.toNone (q : QueuedCommand) : QueuedCommand :=
  match q.cmd with
  | .position _ _ => ⟨.noPosition, if q.carried then !q.turn else q.turn, false⟩
  | .wait => ⟨.noPosition, if q.carried then !q.turn else q.turn, false⟩
  | _ => q

/-- The Frame Bus Master's part (R172). -/
def softResetTrain (s : State) : State :=
  s.setBus { s.bus with train := { s.bus.train with queue := s.bus.train.queue.map (·.toNone) } }

/-- The soft reset as one operation of the blocks (R189, R200). -/
def softReset (s : State) : State :=
  let s := softResetCarriage .b (softResetCarriage .a s)
  let s := softResetSpindles .b (softResetSpindles .a s)
  let s := softResetDoff s
  let s := s.setArticles { s.articles with request := false }
  let s := softResetRoving s
  let s := softResetTrain s
  let s := softResetSpeed s
  s.setLine { s.line with resetDue := false }

/-- SOFT_RESET, once the RESET reply has gone out (R189, R200; log entry 3). -/
def execSoftReset (s : State) : Host.Outcome State Fault Refusal :=
  if s.line.resetDue then .next (softReset s) else .next s

end Sys2Proof.Machine
end

