-- ==== Sys2Proof/Machine/Dispatch.lean ====
section
/-!
DEFINITION. One arm for each command: its meaning.
-/
namespace Sys2Proof.Machine

def exec (i : Instr) (s : State) : Host.Outcome State Fault Refusal :=
  match i with
  | .powerOnReset => Sys2Proof.Machine.execPowerOnReset s
  | .resetRelease straps => Sys2Proof.Machine.execResetRelease straps s
  | .storeRecord read => Sys2Proof.Machine.execStoreRecord read s
  | .loadEnd => Sys2Proof.Machine.execLoadEnd s
  | .encoderPulse => Sys2Proof.Machine.execEncoderPulse s
  | .motionWindowExpiry => Sys2Proof.Machine.execMotionWindowExpiry s
  | .hostFrame bytes => Sys2Proof.Machine.execHostFrame bytes s
  | .frameTimerExpiry => Sys2Proof.Machine.execFrameTimerExpiry s
  | .replySent => Sys2Proof.Machine.execReplySent s
  | .unknownKind kind body => Sys2Proof.Machine.execUnknownKind kind body s
  | .identify body => Sys2Proof.Machine.execIdentify body s
  | .status body => Sys2Proof.Machine.execStatus body s
  | .ackEvents body => Sys2Proof.Machine.execAckEvents body s
  | .setMask body => Sys2Proof.Machine.execSetMask body s
  | .setDoffMask body => Sys2Proof.Machine.execSetDoffMask body s
  | .configSet body => Sys2Proof.Machine.execConfigSet body s
  | .configSetSections body => Sys2Proof.Machine.execConfigSetSections body s
  | .configSetEncoder body => Sys2Proof.Machine.execConfigSetEncoder body s
  | .configSetLengthTrim body => Sys2Proof.Machine.execConfigSetLengthTrim body s
  | .configSetSpeedTrim body => Sys2Proof.Machine.execConfigSetSpeedTrim body s
  | .configSetAttnMask body => Sys2Proof.Machine.execConfigSetAttnMask body s
  | .configSetDoffMask body => Sys2Proof.Machine.execConfigSetDoffMask body s
  | .configGet body => Sys2Proof.Machine.execConfigGet body s
  | .articleStage body => Sys2Proof.Machine.execArticleStage body s
  | .articleGet body => Sys2Proof.Machine.execArticleGet body s
  | .articleExchange body => Sys2Proof.Machine.execArticleExchange body s
  | .frameRun body => Sys2Proof.Machine.execFrameRun body s
  | .frameHalt body => Sys2Proof.Machine.execFrameHalt body s
  | .doffNow body => Sys2Proof.Machine.execDoffNow body s
  | .doffAbort body => Sys2Proof.Machine.execDoffAbort body s
  | .doffManualDone body => Sys2Proof.Machine.execDoffManualDone body s
  | .doffGet body => Sys2Proof.Machine.execDoffGet body s
  | .spindleGet body => Sys2Proof.Machine.execSpindleGet body s
  | .spindlePark body => Sys2Proof.Machine.execSpindlePark body s
  | .spindleUnpark body => Sys2Proof.Machine.execSpindleUnpark body s
  | .spindleRelease body => Sys2Proof.Machine.execSpindleRelease body s
  | .setRoving body => Sys2Proof.Machine.execSetRoving body s
  | .breakListGet body => Sys2Proof.Machine.execBreakListGet body s
  | .rovingListGet body => Sys2Proof.Machine.execRovingListGet body s
  | .carriageGet body => Sys2Proof.Machine.execCarriageGet body s
  | .carriageHold body => Sys2Proof.Machine.execCarriageHold body s
  | .carriageRelease body => Sys2Proof.Machine.execCarriageRelease body s
  | .carriageReset body => Sys2Proof.Machine.execCarriageReset body s
  | .rovingRunStart body => Sys2Proof.Machine.execRovingRunStart body s
  | .rovingRunAbort body => Sys2Proof.Machine.execRovingRunAbort body s
  | .rovingRunGet body => Sys2Proof.Machine.execRovingRunGet body s
  | .trimSpeed body => Sys2Proof.Machine.execTrimSpeed body s
  | .trimLength body => Sys2Proof.Machine.execTrimLength body s
  | .shiftClose body => Sys2Proof.Machine.execShiftClose body s
  | .shiftGetLive body => Sys2Proof.Machine.execShiftGetLive body s
  | .shiftGetHistory body => Sys2Proof.Machine.execShiftGetHistory body s
  | .reset body => Sys2Proof.Machine.execReset body s
  | .softReset => Sys2Proof.Machine.execSoftReset s
  | .poll => Sys2Proof.Machine.execPoll s
  | .answerWindowExpiry => Sys2Proof.Machine.execAnswerWindowExpiry s
  | .stationAnswer answer => Sys2Proof.Machine.execStationAnswer answer s
  | .homingTimerExpiry side => Sys2Proof.Machine.execHomingTimerExpiry side s
  | .pieceTimerExpiry side => Sys2Proof.Machine.execPieceTimerExpiry side s
  | .legTimerExpiry side => Sys2Proof.Machine.execLegTimerExpiry side s
  | .returnTimerExpiry side => Sys2Proof.Machine.execReturnTimerExpiry side s
  | .dofferTimerExpiry => Sys2Proof.Machine.execDofferTimerExpiry s
  | .slotTimerExpiry => Sys2Proof.Machine.execSlotTimerExpiry s

end Sys2Proof.Machine
end

