-- ==== Sys2Proof/Safety.lean ====
section
/-!
DEFINITION. The terms that the statements use: which parts of the state a command may change, when a request is taken,
and the laws of the device, each a property of one state that can be decided.
-/
namespace Sys2Proof.Machine

/-! ## What a command leaves unchanged -/

/-- The parts of the state, one for each of its fields. -/
inductive Part where
  | pending | freeCount | phase | loader | items | roller | speed | spindles | breakList | breakSeq | carriages | doff
  | articles | roving | shift | bus | line
deriving DecidableEq, Repr

/-- Two states agree on a part. -/
def Part.same (p : Part) (s t : State) : Prop :=
  match p with
  | .pending => t.pending = s.pending
  | .freeCount => t.freeCount = s.freeCount
  | .phase => t.phase = s.phase
  | .loader => t.loader = s.loader
  | .items => t.items = s.items
  | .roller => t.roller = s.roller
  | .speed => t.speed = s.speed
  | .spindles => t.spindles = s.spindles
  | .breakList => t.breakList = s.breakList
  | .breakSeq => t.breakSeq = s.breakSeq
  | .carriages => t.carriages = s.carriages
  | .doff => t.doff = s.doff
  | .articles => t.articles = s.articles
  | .roving => t.roving = s.roving
  | .shift => t.shift = s.shift
  | .bus => t.bus = s.bus
  | .line => t.line = s.line

/-- Every part but those named is the same in `t` as in `s`. -/
def OnlyChanges (ps : List Part) (s t : State) : Prop := ∀ p, p ∉ ps → p.same s t

/-- Every spindle record but one is the same in `t` as in `s`. -/
def OtherSpindlesSame (side : Side) (pos : Nat) (s t : State) : Prop :=
  ∀ sd p, ¬(sd = side ∧ p = pos) → t.spindle sd p = s.spindle sd p

/-- What belongs to the other side of the frame is the same in `t` as in `s`. -/
def OtherSideSame (side : Side) (s t : State) : Prop :=
  ∀ sd, sd ≠ side →
    t.spindles.get sd = s.spindles.get sd ∧ t.breakList.get sd = s.breakList.get sd ∧
      t.breakSeq.get sd = s.breakSeq.get sd ∧ t.carriages.get sd = s.carriages.get sd ∧
      t.bus.carriages.get sd = s.bus.carriages.get sd ∧ t.bus.boards.get sd = s.bus.boards.get sd ∧
      t.shift.live.sides.get sd = s.shift.live.sides.get sd ∧ t.shift.marks.get sd = s.shift.marks.get sd

/-- The pending set after some classes have been raised (R185). -/
def withClasses (cs : List PendClass) (m : ClassSet) : ClassSet := cs.foldl (fun m c => m ||| c.bit) m

/-- The part `line` changes only by the raising of some classes. -/
def LineRaises (cs : List PendClass) (s t : State) : Prop :=
  t.line = { s.line with pendingSet := withClasses cs s.line.pendingSet }

/-! ## The host line -/

/-- Bytes on the wire, each with its stop bit. -/
def onWire (bs : List Byte) : List LineByte := bs.map fun b => ⟨b, true⟩

/-- A frame is discarded: the receiver hunts again, and from load end the discard is counted and reported (R175,
R188). -/
def Discarded (reason : DiscardReason) (s t : State) : Prop :=
  OnlyChanges [.line] s t ∧
    t.line = if s.phase = .running then
        { s.line with
          rx := .hunting
          pendingSet := withClasses [.lineFault] s.line.pendingSet
          discards := min 65535 (s.line.discards + 1)
          lastDiscard := some reason }
      else { s.line with rx := .hunting }

/-! ## Requests -/

/-- A request is taken now: no reply is in transmission, no soft reset is due, and the request is the oldest in the
holding (R178, R189). An empty holding is the model's own case (log entry 12): the command stands for the acceptance of
its frame too. -/
abbrev Reaches (r : HeldRequest) (s : State) : Prop :=
  s.line.tx = none ∧ s.line.resetDue = false ∧ (s.line.holding = [] ∨ s.line.holding.head? = some r)

/-- A state from which the transmission of a reply has begun (R178, R179). -/
def answered (kind : Byte) (res : Result) (content : List Byte) (u : State) : State :=
  u.setLine { u.line with tx := some ⟨replyKind kind, res, content⟩ }

/-- The request that a command stands for. UNKNOWN_KIND stands for none of a kind of the catalogue. -/
def requestOf : Instr → Option HeldRequest
  | .powerOnReset => none
  | .resetRelease _ => none
  | .storeRecord _ => none
  | .loadEnd => none
  | .encoderPulse => none
  | .motionWindowExpiry => none
  | .hostFrame _ => none
  | .frameTimerExpiry => none
  | .replySent => none
  | .unknownKind kind body => if (bodyLength kind).isNone then some ⟨kind, body⟩ else none
  | .identify body => some ⟨0x01#8, body⟩
  | .status body => some ⟨0x02#8, body⟩
  | .ackEvents body => some ⟨0x03#8, body⟩
  | .setMask body => some ⟨0x04#8, body⟩
  | .setDoffMask body => some ⟨0x05#8, body⟩
  | .configSet body => some ⟨0x08#8, body⟩
  | .configSetSections body => some ⟨0x08#8, body⟩
  | .configSetEncoder body => some ⟨0x08#8, body⟩
  | .configSetLengthTrim body => some ⟨0x08#8, body⟩
  | .configSetSpeedTrim body => some ⟨0x08#8, body⟩
  | .configSetAttnMask body => some ⟨0x08#8, body⟩
  | .configSetDoffMask body => some ⟨0x08#8, body⟩
  | .configGet body => some ⟨0x09#8, body⟩
  | .articleStage body => some ⟨0x10#8, body⟩
  | .articleGet body => some ⟨0x11#8, body⟩
  | .articleExchange body => some ⟨0x12#8, body⟩
  | .frameRun body => some ⟨0x18#8, body⟩
  | .frameHalt body => some ⟨0x19#8, body⟩
  | .doffNow body => some ⟨0x1A#8, body⟩
  | .doffAbort body => some ⟨0x1B#8, body⟩
  | .doffManualDone body => some ⟨0x1C#8, body⟩
  | .doffGet body => some ⟨0x1D#8, body⟩
  | .spindleGet body => some ⟨0x20#8, body⟩
  | .spindlePark body => some ⟨0x21#8, body⟩
  | .spindleUnpark body => some ⟨0x22#8, body⟩
  | .spindleRelease body => some ⟨0x23#8, body⟩
  | .setRoving body => some ⟨0x24#8, body⟩
  | .breakListGet body => some ⟨0x28#8, body⟩
  | .rovingListGet body => some ⟨0x29#8, body⟩
  | .carriageGet body => some ⟨0x30#8, body⟩
  | .carriageHold body => some ⟨0x31#8, body⟩
  | .carriageRelease body => some ⟨0x32#8, body⟩
  | .carriageReset body => some ⟨0x33#8, body⟩
  | .rovingRunStart body => some ⟨0x38#8, body⟩
  | .rovingRunAbort body => some ⟨0x39#8, body⟩
  | .rovingRunGet body => some ⟨0x3A#8, body⟩
  | .trimSpeed body => some ⟨0x40#8, body⟩
  | .trimLength body => some ⟨0x41#8, body⟩
  | .shiftClose body => some ⟨0x48#8, body⟩
  | .shiftGetLive body => some ⟨0x49#8, body⟩
  | .shiftGetHistory body => some ⟨0x49#8, body⟩
  | .reset body => some ⟨0x7F#8, body⟩
  | .softReset => none
  | .poll => none
  | .answerWindowExpiry => none
  | .stationAnswer _ => none
  | .homingTimerExpiry _ => none
  | .pieceTimerExpiry _ => none
  | .legTimerExpiry _ => none
  | .returnTimerExpiry _ => none
  | .dofferTimerExpiry => none
  | .slotTimerExpiry => none

/-- The command is a request that is taken now, after load end, with the body length of its kind: it passes to its owner
(R180). -/
abbrev Served (i : Instr) (s : State) : Prop :=
  s.phase = .running ∧ ∃ r ∈ requestOf i, Reaches r s ∧ bodyLength r.kind = some r.body.length

/-- The command ends in a next state: the transmission of a reply with this result and content has begun, and `P` holds
between the state with the request held and the state that the owner leaves. -/
def Replies (i : Instr) (s : State) (res : Result) (content : State → List Byte) (P : State → State → Prop) : Prop :=
  ∃ r ∈ requestOf i, ∃ u, exec i s = .next (answered r.kind res (content u) u) ∧ P (holdRequest r s) u

/-- The command ends in a next state with a refusal: nothing but the line's reply changes (R179, R180). -/
def Refuses (i : Instr) (s : State) (res : Result) (detail : Nat) : Prop :=
  Replies i s res (fun _ => [BitVec.ofNat 8 detail]) fun s' u => u = s'

/-- For a command that reads, whether its body names something that can be read; `none` for every other command. -/
def readable (i : Instr) (s : State) : Option Bool :=
  match i with
  | .identify _ => some true
  | .status _ => some true
  | .configGet body => some (let c := (byteAt body 0).toNat; (1 ≤ c && c ≤ 0x19) || (0x40 ≤ c && c ≤ 0x57))
  | .articleGet body => some ((byteAt body 0).toNat ≤ 1)
  | .doffGet _ => some true
  | .spindleGet body =>
    some (match sideAt body 0 with
      | some side => (s.spindle side (numAt body 1 2)).isSome && 1 ≤ (byteAt body 3).toNat && (byteAt body 3).toNat ≤ 40
      | none => false)
  | .breakListGet body =>
    some (match sideAt body 0 with
      | some side => numAt body 1 2 ≤ (s.breakList.get side).length
      | none => false)
  | .rovingListGet body => some (numAt body 0 2 ≤ s.roving.urgent.length + s.roving.low.length)
  | .carriageGet body => some (sideAt body 0).isSome
  | .rovingRunGet _ => some true
  | .shiftGetLive body | .shiftGetHistory body =>
    some ((byteAt body 0).toNat = 0 ||
      ((byteAt body 0).toNat = 1 && (byteAt body 1).toNat < s.shift.history.length))
  | _ => none

/-- An optional number of `w` bytes in a reply (R181). -/
def optNumber (w : Nat) (x : Option Nat) : List Byte :=
  match x with
  | none => List.replicate (w + 1) 0
  | some n => 1 :: field w n

/-- The roving figure of a record as read, debited for its open interval (R122). -/
def rovingAsRead (s : State) (sp : Spindle) : Option Nat :=
  sp.roving.map fun r =>
    r - (sp.openLength s.flmm * 100 + s.articles.active.draft100 - 1) / s.articles.active.draft100

/-- The entry of a spindle in SPINDLE_GET (R44), with the clamp's code of log entry 9. -/
def shownSpindle (s : State) (side : Side) (pos : Nat) (sp : Spindle) : List Byte :=
  field 2 pos ++ field 1 sp.state.code ++ optNumber 8 sp.marker ++
    field 4 (min 4294967295 (sp.cop + sp.openLength s.flmm)) ++ optNumber 4 (rovingAsRead s sp) ++
    field 1 (if sp.clamp = .opened then 0 else 1) ++ optNumber 4 sp.seq ++ optNumber 1 (sp.cause.map (·.code)) ++
    optNumber 1 (sp.lockCause.map (·.code)) ++ field 1 sp.attempts ++ field 1 sp.stamps.length ++
    optNumber 8 sp.stamps.getLast? ++ flagField sp.rogueUnlocked ++
    flagField ((s.bus.board side ((pos - 1) / 48 + 1)).any (·.link.status == .silent))

/-- A spindle of the roving list or slot in a reply: side, position, what `mid` adds, state and figure (R129, R141). -/
def shownRoving (s : State) (x : SpRef) (mid : List Byte) : List Byte :=
  let sp := s.spindle x.side x.pos
  field 1 (sideCode x.side) ++ field 2 x.pos ++ mid ++ field 1 ((sp.map (·.state.code)).getD 0) ++
    optNumber 4 (sp.bind (rovingAsRead s))

/-- An order in CARRIAGE_GET (R83), in the layout of log entry 9. -/
def shownOrder (s : State) (side : Side) (o : Order) : List Byte :=
  let work (place target : Nat) (offset : Int) (kind : PieceKind) : List Byte :=
    field 1 place ++ signedField 1 offset ++ optNumber 2 (some target) ++ optNumber 1 (some kind.code) ++
      optNumber 4 ((s.spindle side target).bind (·.seq))
  match o with
  | .piece target offset kind => work 0 target offset kind
  | .overtaken target offset kind => work 1 target offset kind
  | .transit offset => field 1 2 ++ signedField 1 offset ++ optNumber 2 none ++ optNumber 1 none ++ optNumber 4 none

/-- The nine counts of a side in the order of R155. -/
def ShiftCounts.list (c : ShiftCounts) : List Nat :=
  [c.endBreaks, c.startUpBreaks, c.rovingOutBreaks, c.carriagePieces, c.manualPieces, c.pieceFailures, c.rogueLocks,
    c.pieceFailLocks, c.replacements]

/-- A closed record in a reply, in the order of R155. -/
def shownClosed (r : ClosedShift) : List Byte :=
  let lengths (c : ClosedSide) : List Byte :=
    field 8 c.run ++ field 8 c.possible ++ field 4 c.massDg ++ optNumber 2 c.efficiency
  field 4 r.seq ++ field 2 r.label ++ field 4 r.stamp ++ field 8 r.flmm ++ lengths r.sides.a ++ lengths r.sides.b ++
    (r.sides.a.counts.list ++ r.sides.b.counts.list ++ [r.doffs, r.exchanges]).flatMap (field 2) ++ flagField r.marker

/-- An article record and the last exchange outcome in ARTICLE_GET (R114), in the layout of log entry 9. -/
def shownArticles (a : Option Article) (t : ArticleStore) : List Byte :=
  (match a with
    | none => List.replicate 53 0
    | some a => 1 :: a.fields.flatMap (field 2)) ++
  flagField t.request ++
  match t.last with
  | none => List.replicate 14 0
  | some o =>
    let occasion : List Byte := match o.occasion with
      | .request => field 1 0 ++ optNumber 2 none
      | .doff n => field 1 1 ++ optNumber 2 (some n)
    1 :: field 1 o.reason.code ++ occasion ++ field 8 o.flmm

/-- The value that CONFIG_GET shows for a readable code (R199, R192). -/
def shownConfig (s : State) (code : Nat) : Nat :=
  let f (n : Nat) : Nat := s.articles.active.field n
  if code = 0x18 then (s.doff.saved.getD s.doff.effective).mask.toNat
  else if code = 0x19 then s.doff.doffMask.toNat
  else if code ≤ 0x17 then s.items.value code
  else if code ≤ 0x44 then f (code - 0x3F)
  else if code = 0x45 then f 22 * 65536 + f 23
  else if code = 0x46 then f 24
  else if code = 0x47 then f 25 * 65536 + f 26
  else f (code - 0x42)

/-- The seconds with which the timer that a reading shows was started, where it runs. -/
def timerShown (i : Instr) (s : State) : Option Nat :=
  match i with
  | .doffGet _ => s.doff.timer
  | .carriageGet body => (sideAt body 0).bind fun side => (s.carriages.get side).timer.map (·.secs)
  | .rovingRunGet _ => s.roving.timer
  | _ => none

/-- The content of the reply to a reading that is answered OK, with `left` the seconds left on the timer it shows; `none`
for STATUS, IDENTIFY and the live shift, and for every command that does not read. -/
def shown (i : Instr) (s : State) (left : Nat) : Option (List Byte) :=
  match i with
  | .configGet body => some (byteAt body 0 :: field 4 (shownConfig s (byteAt body 0).toNat))
  | .articleGet body =>
    some (shownArticles (if byteAt body 0 = 0#8 then some s.articles.active else s.articles.staged) s.articles)
  | .doffGet _ =>
    some ((match s.doff.last with
        | none => List.replicate 12 0
        | some r => 1 :: field 2 r.number ++ field 1 r.kind.code ++ field 2 r.fillAtStop ++ field 1 r.doneA ++
            field 1 r.doneB ++ optNumber 1 (r.outcome.map (·.code)) ++ optNumber 1 r.faultCode) ++
      field 1 s.doff.frame.code ++ field 1 s.doff.go.code ++ flagField s.doff.ready ++
      optNumber 2 (s.doff.timer.map fun _ => left) ++ field 8 s.doff.copBase ++ flagField s.doff.saved.isSome ++
      beBytes 2 s.doff.doffMask.toNat)
  | .spindleGet body => (sideAt body 0).map fun side =>
      let first := numAt body 1 2
      let n := min (min (byteAt body 3).toNat 5) ((s.spindles.get side).length + 1 - first)
      field 2 n ++ (List.range' first n).flatMap fun pos =>
        ((s.spindle side pos).map (shownSpindle s side pos)).getD []
  | .breakListGet body => (sideAt body 0).map fun side =>
      let l := s.breakList.get side
      let page := (l.drop (numAt body 1 2)).take 26
      field 2 l.length ++ field 2 page.length ++ page.flatMap fun pos =>
        ((s.spindle side pos).map fun sp => field 2 pos ++ field 4 (sp.seq.getD 0) ++
          field 1 ((sp.cause.map (·.code)).getD 0) ++ field 1 sp.attempts ++ flagField sp.rogueUnlocked).getD []
  | .rovingListGet body =>
    let l := s.roving.urgent.map (fun x => (x, 0)) ++ s.roving.low.map (fun x => (x, 1))
    let page := (l.drop (numAt body 0 2)).take 23
    some (field 2 l.length ++ field 2 s.roving.urgent.length ++ field 2 page.length ++
      page.flatMap fun e => shownRoving s e.1 (field 1 e.2))
  | .carriageGet body => (sideAt body 0).map fun side =>
      let c := s.carriages.get side
      field 1 c.state.code ++ optNumber 2 c.x ++ signedField 1 c.d.sign ++
        (match c.order with
          | none => List.replicate 13 0
          | some o => 1 :: shownOrder s side o) ++
        flagField c.returning ++ flagField c.hostHold ++ flagField c.doffHold ++
        (match c.timer with
          | none => List.replicate 4 0
          | some t => 1 :: field 1 t.kind.code ++ field 2 left) ++
        optNumber 2 c.withdrawn
  | .rovingRunGet _ =>
    some (field 1 s.roving.run.code ++ optNumber 1 s.roving.base ++ optNumber 1 s.roving.current ++
      (match s.roving.slot with
        | none => List.replicate 10 0
        | some x => 1 :: shownRoving s x []) ++
      optNumber 2 (s.roving.timer.map fun _ => left) ++ optNumber 1 (s.roving.reason.map (·.code)) ++
      flagField (s.bus.train.link.status == .answering))
  | .shiftGetLive body | .shiftGetHistory body =>
    if byteAt body 0 = 1#8 then (s.shift.history.reverse[(byteAt body 1).toNat]?).map shownClosed else none
  | _ => none

/-- The state after a number of pulses, each taken as ENCODER_PULSE. -/
def afterPulses : Nat → State → State
  | 0, s => s
  | k + 1, s =>
    match exec .encoderPulse s with
    | .next t => afterPulses k t
    | .fault _ => s
    | .refused _ => s

/-! ## The laws of the device -/

/-- A property of both sides. -/
abbrev BothSides (P : Side → Prop) : Prop := P .a ∧ P .b

/-- A property of every spindle record, with its side and position. -/
abbrev EverySpindle (s : State) (P : Side → Nat → Spindle → Prop) : Prop :=
  BothSides fun side =>
    ∀ pos ∈ List.range' 1 (s.spindles.get side).length, ∀ sp ∈ s.spindle side pos, P side pos sp

/-- A clamp is commanded OPEN exactly in RUNNING and PIECING (R23). -/
abbrev ClampLaw (s : State) : Prop :=
  EverySpindle s fun _ _ sp => sp.clamp = .opened ↔ sp.state = .running ∨ sp.state = .piecing

/-- The locked count never exceeds LOCK_CEILING (R24). -/
abbrev LockLaw (s : State) : Prop := lockedCount s ≤ s.items.lockCeiling

/-- What the Loader has applied: codes rising, each value in its range, GOV_LOW below the GOV_HIGH that then stood
(R194); and the stage belongs to the phase. -/
abbrev LoaderLaw (s : State) : Prop :=
  s.loader.applied.Pairwise (fun x y => x.1 < y.1) ∧
  s.loader.lastCode = s.loader.applied.getLast?.map (·.1) ∧
  s.loader.index = s.loader.applied.length ∧ s.loader.index ≤ 64 ∧
  (∀ e ∈ s.loader.applied,
    (if isConfigCode e.1 then configRange e.1 e.2 else articleCodeRange e.1 e.2) = true ∧
      (e.1 = 0x16 → e.2 < (appliedValue s.loader.applied 0x15).getD 20)) ∧
  (s.phase = .inReset ↔ s.loader.stage = .idle) ∧ (s.phase = .running ↔ s.loader.stage = .done)

/-- Each item of the set lies in its range of R191, and GOV_LOW below GOV_HIGH (R197). -/
abbrev ItemsLaw (s : State) : Prop :=
  (∀ code ∈ List.range' 1 0x17, configRange code (s.items.value code) = true) ∧
  (-64 ≤ s.items.lengthTrim ∧ s.items.lengthTrim ≤ 63) ∧ (-16 ≤ s.items.speedTrim ∧ s.items.speedTrim ≤ 15) ∧
  s.items.govLow < s.items.govHigh

/-- From load end, N and D stand for the items in force, and the remainder is below D (R1, R2). -/
abbrev RollerLaw (s : State) : Prop :=
  s.phase = .running →
    s.roller.num = numeratorOf s.items ∧ s.roller.den = divisorOf s.items ∧ s.roller.acc < s.roller.den

/-- An article record of sixteen points that passes every check of validation (R110). -/
abbrev Article.Valid (a : Article) : Prop := a.program.length = 16 ∧ a.failingField = none

/-- The active article, and a staged one, satisfy every check of validation (R111, R113). -/
abbrev ArticleLaw (s : State) : Prop :=
  s.articles.active.Valid ∧ ∀ a ∈ s.articles.staged, a.Valid

/-- From load end the set-point is the one of the inputs as they stand (R16), a multiple of 10 within the active
article's limits, and not above the approach speed in the two doff approach states (R15); the other figures lie in
their ranges (R9). -/
abbrev SpeedLaw (s : State) : Prop :=
  (s.phase = .running →
    s.speed.setPoint = currentSetPoint s ∧ s.speed.setPoint % 10 = 0 ∧
      s.articles.active.minSpeed ≤ s.speed.setPoint ∧ s.speed.setPoint ≤ s.articles.active.maxSpeed ∧
      (s.doff.frame.capped = true → s.speed.setPoint ≤ s.articles.active.approach)) ∧
  s.speed.fill ≤ 1024 ∧ s.speed.step ≤ 8 ∧ s.speed.lowStreak ≤ 2 ∧ s.speed.winCount ≤ 65535

/-- The fields that a record holds in each state, and their widths (R21). -/
abbrev RecordLaw (s : State) : Prop :=
  EverySpindle s fun _ _ sp =>
    (sp.marker.isSome ↔ sp.state = .running) ∧
    (sp.seq.isSome ↔ sp.state = .broken ∨ sp.state = .piecing) ∧
    (sp.cause.isSome ↔ sp.state = .broken ∨ sp.state = .piecing ∨ sp.state = .waitRoving) ∧
    (sp.cause = some .rovingOut ↔ sp.state = .waitRoving) ∧
    (sp.lockCause.isSome ↔ sp.state = .locked) ∧
    sp.attempts ≤ 3 ∧ sp.stamps.length ≤ 15 ∧ sp.cop ≤ 4294967295 ∧ (∀ r ∈ sp.roving, r ≤ 6000000)

/-- The cop length never exceeds the frame cop length, a marker lies from the cop base to FLmm, and stamps rise up to
FLmm (R27, R32). -/
abbrev CopLaw (s : State) : Prop :=
  s.doff.copBase ≤ s.flmm ∧
  EverySpindle s fun _ _ sp =>
    (∀ m ∈ sp.marker, s.doff.copBase + sp.cop ≤ m ∧ m ≤ s.flmm) ∧
    sp.cop ≤ s.flmm - s.doff.copBase ∧
    sp.stamps.Pairwise (· < ·) ∧ (∀ x ∈ sp.stamps, x ≤ s.flmm)

/-- A break list holds each BROKEN spindle of its side once and stands in ascending break sequence; the sequences of a
side are unique and not above the counter, which is 32-bit (R49, R50). -/
abbrev BreakLaw (s : State) : Prop :=
  BothSides fun side =>
    (s.breakList.get side).Pairwise
      (fun p q => seqAt (s.spindles.get side) p < seqAt (s.spindles.get side) q) ∧
    (∀ pos ∈ s.breakList.get side, ∃ sp ∈ s.spindle side pos, sp.state = .broken) ∧
    (∀ pos ∈ List.range' 1 (s.spindles.get side).length, ∀ sp ∈ s.spindle side pos,
      (sp.state = .broken → pos ∈ s.breakList.get side) ∧
      (sp.seq.isSome ↔ sp.state = .broken ∨ sp.state = .piecing)) ∧
    ((s.spindles.get side).filterMap (·.seq)).Nodup ∧
    (∀ q ∈ (s.spindles.get side).filterMap (·.seq), 1 ≤ q ∧ q ≤ s.breakSeq.get side) ∧
    s.breakSeq.get side ≤ 4294967295

/-- The kind of timer that a carriage runs in each state (R68 to R78). -/
def Carriage.timerKind (c : Carriage) : Option TimerKind :=
  match c.state with
  | .homing => some .homing
  | .serving => some .piece
  | .moving => if c.returning then some .returning else some .leg
  | .absent => none
  | .ready => none
  | .held => none
  | .fault => none

/-- The carriage holds a transit leg. -/
def Carriage.onLeg (c : Carriage) : Bool :=
  match c.order with
  | some (.transit _) => true
  | _ => false

/-- The order and the returning flag of a carriage in each state (R68). -/
def Carriage.orderFits (c : Carriage) : Bool :=
  match c.state with
  | .moving => if c.returning then c.order.isNone else c.onLeg
  | .serving => !c.returning && (c.pieceTarget.isSome || c.overtakenTarget.isSome)
  | .absent | .homing | .ready | .held | .fault => !c.returning && c.order.isNone

/-- The carriage's state, order, timer, position and holds go together (R67, R68, R80). -/
abbrev Carriage.Fits (c : Carriage) : Prop :=
  c.orderFits = true ∧ c.timer.map (·.kind) = c.timerKind ∧
  (c.state = .ready → c.hostHold = false ∧ c.doffHold = false) ∧
  (c.state = .held → c.hostHold = true ∨ c.doffHold = true) ∧
  (c.state = .absent ∨ c.state = .homing → c.x = none) ∧
  (c.state = .ready ∨ c.state = .held ∨ c.state = .moving ∨ c.state = .serving → c.x.isSome)

/-- A spindle is PIECING exactly when the carriage of its side holds a piece order for it, and each carriage record is
one that R68 allows. -/
abbrev CarriageLaw (s : State) : Prop :=
  BothSides fun side =>
    (∀ pos ∈ List.range' 1 (s.spindles.get side).length, ∀ sp ∈ s.spindle side pos,
      (sp.state = .piecing ↔ (s.carriages.get side).pieceTarget = some pos)) ∧
    (∀ pos ∈ (s.carriages.get side).pieceTarget, (s.spindle side pos).isSome) ∧
    (s.carriages.get side).Fits

/-- A doff is in progress (R92). -/
abbrev Doff.inProgress (d : Doff) : Prop := ∃ r ∈ d.last, r.outcome = none

/-- The Doff Controller's state by the frame state: watch start (R85), saved context (R104), go state and doffer timer
(R94 to R100), the last doff record (R92), and no order where the frame does not move (R78, R94). -/
abbrev DoffLaw (s : State) : Prop :=
  (s.doff.watchStart.isSome ↔ s.doff.frame = .startUp) ∧
  (s.doff.frame = .doffPending ∨ s.doff.frame = .doffStopping ∨ s.doff.frame = .doffing ∨
    s.doff.frame = .restartWait → s.doff.saved.isSome) ∧
  (s.doff.frame = .stopped ∨ s.doff.frame = .spinning → s.doff.saved = none) ∧
  (s.doff.go ≠ .none ↔ s.doff.frame = .doffing) ∧
  (s.doff.go = .sent ↔ s.doff.timer.isSome) ∧
  (s.doff.inProgress ↔ s.doff.frame = .doffStopping ∨ s.doff.frame = .doffing) ∧
  (s.doff.number ≤ 65535 ∧ (s.doff.last.isSome ↔ 1 ≤ s.doff.number) ∧ ∀ r ∈ s.doff.last, r.number = s.doff.number) ∧
  (s.doff.frame = .stopped ∨ s.doff.frame = .doffing ∨ s.doff.frame = .restartWait →
    BothSides fun side => (s.carriages.get side).order = none)

/-- The in-transit slot, its timer and the counts by the run state (R130, R132). -/
abbrev RunLaw (s : State) : Prop :=
  (s.roving.slot.isSome ↔ s.roving.timer.isSome) ∧
  (s.roving.slot.isSome → s.roving.run ≠ .idle) ∧
  (s.roving.run = .ending → s.roving.slot.isSome) ∧
  (s.roving.run = .active → s.roving.slot = none → s.roving.current ≠ some 0) ∧
  (s.roving.run ≠ .idle → s.roving.base.isSome) ∧
  (s.roving.base.isSome ↔ s.roving.current.isSome) ∧
  (∀ b ∈ s.roving.base, 1 ≤ b ∧ b ≤ 240 ∧ ∀ c ∈ s.roving.current, c ≤ b)

/-- The slot as a list. -/
abbrev Roving.inSlot (r : Roving) : List SpRef := r.slot.toList

/-- The roving change list and the slot together hold each spindle at most once; the urgent segment holds WAIT_ROVING
spindles and the low segment others that are not PARKED; every WAIT_ROVING spindle is in the urgent segment or the slot
(R124, R128). -/
abbrev RovingListLaw (s : State) : Prop :=
  (s.roving.urgent ++ s.roving.low ++ s.roving.inSlot).Nodup ∧
  (∀ x ∈ s.roving.urgent, ∃ sp ∈ s.spindle x.side x.pos, sp.state = .waitRoving) ∧
  (∀ x ∈ s.roving.low, ∃ sp ∈ s.spindle x.side x.pos, sp.state ≠ .waitRoving ∧ sp.state ≠ .parked) ∧
  (∀ x ∈ s.roving.slot, (s.spindle x.side x.pos).isSome) ∧
  EverySpindle s fun side pos sp =>
    sp.state = .waitRoving → ⟨side, pos⟩ ∈ s.roving.urgent ∨ s.roving.slot = some ⟨side, pos⟩

/-- The history holds at most 8 records, each with the sequence after the one before it, the newest before the number
in force (R156, R157). -/
abbrev HistoryLaw (s : State) : Prop :=
  s.shift.history.length ≤ 8 ∧
  (1 ≤ s.shift.seq ∧ s.shift.seq ≤ 4294967295) ∧
  (∀ r ∈ s.shift.history, 1 ≤ r.seq ∧ r.seq ≤ 4294967295) ∧
  (s.shift.history.map (·.seq) ++ [s.shift.seq]).IsChain (fun q r => r = nextShiftSeq q)

/-- The counts of the live record, side A, side B, then the frame's. -/
def liveCounts (s : State) : List Nat :=
  s.shift.live.sides.a.counts.list ++ s.shift.live.sides.b.counts.list ++ [s.shift.live.doffs, s.shift.live.exchanges]

/-- Each count stays within 16 bits, and the saturation marker is set exactly while one stands at its limit (R146,
R147). -/
abbrev CountsLaw (s : State) : Prop :=
  (∀ n ∈ liveCounts s, n ≤ 65535) ∧ (s.shift.live.marker = true ↔ 65535 ∈ liveCounts s)

/-- The possible length of a side as a credit now would leave it, counted exactly (R149). -/
def possibleNow (s : State) (side : Side) : Nat :=
  (s.shift.live.sides.get side).possible + (s.flmm - s.shift.marks.get side) * inService s side

/-- The run length of a side with the open intervals credited as if split, counted exactly (R158). -/
def runNow (s : State) (side : Side) : Nat :=
  (s.shift.live.sides.get side).run + openSum (s.spindles.get side) s.flmm

/-- The live run length never exceeds the live possible length, and a mark lies at or below FLmm (R151). -/
abbrev ShiftLaw (s : State) : Prop :=
  BothSides fun side => runNow s side ≤ possibleNow s side ∧ s.shift.marks.get side ≤ s.flmm

/-- One entry's four link fields: the miss count by status, and no turn while NEW or SILENT (R162, R164, R166). -/
abbrev Link.Fits (l : Link) : Prop :=
  (l.status = .silent ↔ l.miss = 3) ∧ l.miss ≤ 3 ∧ (l.turn.isSome ↔ l.status = .answering)

/-- The spindle table and the station table have the shape of the fitted sections, and no record or board before load
end (R21, R22, R162). -/
abbrev TableLaw (s : State) : Prop :=
  BothSides fun side =>
    (s.spindles.get side).length = (if s.phase = .running then 48 * s.items.sections.get side else 0) ∧
    (s.bus.boards.get side).length = (if s.phase = .running then s.items.sections.get side else 0) ∧
    (∀ e ∈ s.bus.boards.get side, e.held.length = 48 ∧ e.carryPoint ≤ 48 ∧ e.link.Fits) ∧
    (s.bus.carriages.get side).link.Fits ∧ s.bus.doffer.link.Fits ∧ s.bus.train.link.Fits

/-- A receiver that collects a frame has a body length within 240 and not yet the last byte (R175). -/
def Receiver.fits : Receiver → Bool
  | .off => true
  | .hunting => true
  | .collecting [] => true
  | .collecting (len :: rest) => len.toNat ≤ 240 && rest.length < len.toNat + 3

/-- The holding keeps at most 2 requests, and the request of a reply in transmission is still held (R177, R178); the
receiver is off exactly in reset (R188); before load end every reply is STARTING (R180). -/
abbrev LineLaw (s : State) : Prop :=
  s.line.holding.length ≤ 2 ∧
  (s.line.tx.isSome → s.line.holding ≠ []) ∧
  (s.line.rx = .off ↔ s.phase = .inReset) ∧
  (∀ r ∈ s.line.tx, s.phase ≠ .inReset ∧ (s.phase = .loading → r.result = .starting)) ∧
  (s.line.resetDue = true → s.phase = .running ∧ s.line.tx = none) ∧
  s.line.discards ≤ 65535 ∧
  s.line.rx.fits = true

/-- One more pulse does not carry FLµm past its 64 bits. -/
abbrev LengthHasRoom (s : State) : Prop := s.roller.flum + (s.roller.acc + s.roller.num) / s.roller.den < 2 ^ 64

/-- No credit that can be made now carries a possible length past its 64 bits. -/
abbrev ShiftHasRoom (s : State) : Prop := BothSides fun side => possibleNow s side < 2 ^ 64

/-! ## What an operation does to the tables -/

/-- The spindle of the side's piece order, where it is PIECING (R68). -/
def State.pieceSpindle (s : State) (side : Side) : Option (Nat × Spindle) :=
  match (s.carriages.get side).pieceTarget with
  | some pos =>
    match s.spindle side pos with
    | some sp => if sp.state = .piecing then some (pos, sp) else none
    | none => none
  | none => none

/-- On one side, the record of a position becomes `new`, a changed clamp is held for the board (R45), and no other
record and no other held clamp command changes. -/
def RecordBecomes (side : Side) (pos : Nat) (new : Spindle) (s t : State) : Prop :=
  t.spindle side pos = some new ∧ (∀ p, p ≠ pos → t.spindle side p = s.spindle side p) ∧
  t.bus.boards.get side =
    if (s.spindle side pos).any (·.clamp = new.clamp) then s.bus.boards.get side
    else (holdClamp side pos new.clamp s).bus.boards.get side

/-- On one side, the records, the break list and the clamp commands held are as they were. -/
def TableSame (side : Side) (s t : State) : Prop :=
  t.spindles.get side = s.spindles.get side ∧ t.breakList.get side = s.breakList.get side ∧
    t.bus.boards.get side = s.bus.boards.get side

/-- The spindle of the side's piece order becomes BROKEN with its clamp CLOSED and returns to its place in the list with
the sequence it holds (R53); with no such spindle, nothing of the side changes. -/
def ReturnsToList (side : Side) (s t : State) : Prop :=
  match s.pieceSpindle side with
  | some (pos, sp) =>
    RecordBecomes side pos { sp with state := .broken, clamp := .closed } s t ∧
      t.breakList.get side = insertByKey (seqAt (t.spindles.get side)) pos (s.breakList.get side)
  | none => TableSame side s t

/-- The counter that a join finds: where it stands at its limit, the side is renumbered first (R50, R51). -/
def counterFound (s : State) (side : Side) : Nat :=
  if s.breakSeq.get side = 4294967295 then (s.spindles.get side).countP (·.seq.isSome) else s.breakSeq.get side

/-- A record as a join finds it: where the side is renumbered, its sequence is its place among those of the side, from 1
(R51). -/
def asFound (s : State) (side : Side) (sp : Spindle) : Spindle :=
  if s.breakSeq.get side = 4294967295 then
    { sp with seq := sp.seq.map fun q => (s.spindles.get side).countP fun r => r.seq.any (· ≤ q) }
  else sp

/-- A spindle becomes BROKEN with the next sequence of its side and is appended to the side's list (R50 to R52); `new`
gives its other fields. -/
def JoinsList (side : Side) (pos : Nat) (new : Spindle) (s t : State) : Prop :=
  t.breakSeq.get side = counterFound s side + 1 ∧ t.breakList.get side = s.breakList.get side ++ [pos] ∧
  t.spindle side pos = some { new with
    state := .broken, marker := none, clamp := .closed, seq := some (counterFound s side + 1), lockCause := none } ∧
  (∀ p, p ≠ pos → t.spindle side p = (s.spindle side p).map (asFound s side)) ∧
  t.bus.boards.get side =
    if (s.spindle side pos).any (·.clamp = .closed) then s.bus.boards.get side
    else (holdClamp side pos .closed s).bus.boards.get side

/-- A 16-bit figure after one count (R146). -/
def oneMore (n : Nat) : Nat := if n < 65535 then n + 1 else n

/-- The counts of a side's figures, one for each figure named, and the saturation marker (R146, R147); nothing else of
the shift changes but run length and mass. -/
def Counted (side : Side) (fs : List SideFigure) (s t : State) : Prop :=
  let old := (s.shift.live.sides.get side).counts
  (∀ f, (t.shift.live.sides.get side).counts.get f = if f ∈ fs then oneMore (old.get f) else old.get f) ∧
  t.shift.live.marker = (s.shift.live.marker || fs.any fun f => old.get f == 65534) ∧
  (t.shift.live.sides.get side).possible = (s.shift.live.sides.get side).possible ∧
  t.shift.live.doffs = s.shift.live.doffs ∧ t.shift.live.exchanges = s.shift.live.exchanges ∧
  t.shift.marks = s.shift.marks ∧ t.shift.history = s.shift.history ∧ t.shift.seq = s.shift.seq

/-- SHIFT_SATURATED, where counts of these figures set the marker (R147). -/
def saturates (side : Side) (fs : List SideFigure) (s : State) : List PendClass :=
  if s.shift.live.marker = false ∧ fs.any (fun f => (s.shift.live.sides.get side).counts.get f == 65534) = true then
    [.shiftSaturated]
  else []

/-- A length is credited to a side's run length, and at the active count to its mass (R148). -/
def Credited (side : Side) (dl : Nat) (s t : State) : Prop :=
  (t.shift.live.sides.get side).run = (s.shift.live.sides.get side).run + dl ∧
  (t.shift.live.sides.get side).mass = (s.shift.live.sides.get side).mass + dl * s.articles.active.tex100

/-- The credits that can be made now fit their 64 bits. -/
abbrev CreditsFit (s : State) : Prop :=
  BothSides fun side => possibleNow s side < 2 ^ 64 ∧ runNow s side < 2 ^ 64 ∧
    (s.shift.live.sides.get side).mass + openSum (s.spindles.get side) s.flmm * s.articles.active.tex100 < 2 ^ 64

/-- The set-point of the inputs as they stand, in a frame state (R12 to R15). -/
def setPointIn (s : State) (frame : FrameState) : Nat :=
  setPointOf s.articles.active s.speed.fill s.items.speedTrim s.speed.step frame

/-- SPEED, where two set-points differ (R16). -/
def speedRaised (old new : Nat) : List PendClass := if old = new then [] else [.speed]

/-- The carriage after a withdrawal with CANCEL (R78). -/
def Carriage.cancelled (c : Carriage) (s : State) (withdrawn : Option Nat) : Carriage :=
  { c with
    state := .moving, order := none, returning := true, timer := some ⟨.returning, s.items.legTimeout⟩,
    withdrawn := withdrawn }

/-- The carriage with its work ended at a position: READY if neither hold is set, and HELD otherwise (R70, R73, R74). -/
def Carriage.endsAt (c : Carriage) (x : Option Nat) : Carriage :=
  { c with
    state := if c.hostHold = false ∧ c.doffHold = false then .ready else .held
    x := x, order := none, returning := false, timer := none }

/-- The carriage sent home, HOMING under its homing timer (R69, R82, R84). -/
def Carriage.sentHome (c : Carriage) (s : State) : Carriage :=
  { c with
    state := .homing, x := none, order := none, returning := false, timer := some ⟨.homing, s.items.homeTimeout⟩ }

/-- The carriage with its doff hold cleared (R80). -/
def Carriage.freedFromDoff (c : Carriage) : Carriage :=
  { c with
    doffHold := false
    state := if c.state = .held ∧ c.hostHold = false then .ready else c.state }

end Sys2Proof.Machine
end

