-- ==== Sys2Proof/Certificates/Slice0/Obligations.lean ====
section
/-!
DEFINITION. The statements for the provers.
-/
open Sys2Proof Sys2Proof.Machine

/-! ## The machine as a whole -/

/-- A step takes the command at the front of the queue and runs it with the queue's rest. On an empty queue the block
idles: that clause is the model's choice (log entry 11). -/
def Obligations.StepRunsFrontCommand : Prop :=
  (∀ s c rest, s.pending = c :: rest → step s = exec c (s.setPending rest)) ∧
  (∀ s, s.pending = [] → step s = .next s)

/-- No command stops the part: each ends in a next state, and leaves the queue of waiting commands as it was. Three
clauses of this are the model's choice: the queue is the model's own and POWER_ON_RESET keeps it too (log entry 11), a
command whose event has no occasion changes nothing (log entry 3), and so does a request that is not taken now (log
entry 12). -/
def Obligations.EveryCommandEndsInANextState : Prop :=
  ∀ c s, ∃ t, exec c s = .next t ∧ t.pending = s.pending

/-- The state after reset meets every law. That it meets the items law and the article law is the model's choice: the
spec gives no item set and no active article before load end, and the model holds the defaults there (log entry 2). -/
def Obligations.ResetStateMeetsEveryLaw : Prop :=
  let s := State.reset
  ClampLaw s ∧ LockLaw s ∧ LoaderLaw s ∧ ItemsLaw s ∧ RollerLaw s ∧ ArticleLaw s ∧ SpeedLaw s ∧ RecordLaw s ∧
  CopLaw s ∧ BreakLaw s ∧ CarriageLaw s ∧ DoffLaw s ∧ RunLaw s ∧ RovingListLaw s ∧ HistoryLaw s ∧ CountsLaw s ∧
  ShiftLaw s ∧ TableLaw s ∧ LineLaw s

/-! ## Laws that every step keeps -/

/-- R24: no step brings the locked count above LOCK_CEILING. -/
def Obligations.LockCeilingIsKept : Prop :=
  ∀ s t, LockLaw s → step s = .next t → LockLaw t

/-- R191, R194, R1, R2: the items in force keep their ranges, what the Loader applies keeps its order and ranges, and N,
D and the remainder follow the items. -/
def Obligations.ItemsAndRollerLawsAreKept : Prop :=
  ∀ s t, LoaderLaw s → ItemsLaw s → RollerLaw s → step s = .next t → LoaderLaw t ∧ ItemsLaw t ∧ RollerLaw t

/-- R111, R15, R16: the active article stays valid, and the set-point stays the one of its inputs within the article's
limits. -/
def Obligations.ArticleAndSpeedLawsAreKept : Prop :=
  ∀ s t, ArticleLaw s → SpeedLaw s → step s = .next t → ArticleLaw t ∧ SpeedLaw t

/-- R21, R23: each record keeps the fields that its state gives it, within their widths, and its clamp is OPEN exactly in
RUNNING and PIECING. The roving figure's bound rests on the active article's bobbin length, so the article law is a
premise. -/
def Obligations.RecordAndClampLawsAreKept : Prop :=
  ∀ s t, ArticleLaw s → RecordLaw s → ClampLaw s → step s = .next t → RecordLaw t ∧ ClampLaw t

/-- R27, R32: a cop length never exceeds the frame cop length, and markers and stamps never pass FLmm. The premise on
FLµm leaves out only a pulse that would pass its 64 bits, where the spec states no result (log entry 6). -/
def Obligations.CopLawIsKept : Prop :=
  ∀ s t, LengthHasRoom s → RecordLaw s → CopLaw s → step s = .next t → CopLaw t

/-- R49, R50, R51: each break list holds the BROKEN spindles of its side once, in ascending sequence, and the sequences
stay unique and not above the counter. -/
def Obligations.BreakListLawIsKept : Prop :=
  ∀ s t, ItemsLaw s → TableLaw s → BreakLaw s → step s = .next t → BreakLaw t

/-- R68: a spindle is PIECING exactly when the carriage of its side holds a piece order for it, and the carriage's state,
order, timer, position and holds go together. R78, R85, R92, R94, R104: what the Doff Controller holds in each frame
state, and no carriage with an order while the frame is STOPPED, DOFFING or RESTART_WAIT. -/
def Obligations.CarriageAndDoffLawsAreKept : Prop :=
  ∀ s t, DoffLaw s → CarriageLaw s → step s = .next t → DoffLaw t ∧ CarriageLaw t

/-- R124, R130, R132: the roving change list and the slot hold each spindle at most once, every WAIT_ROVING spindle is in
one of them, and the slot holds a spindle only in a run, with its timer running exactly then. -/
def Obligations.RovingLawsAreKept : Prop :=
  ∀ s t, RunLaw s → RovingListLaw s → step s = .next t → RunLaw t ∧ RovingListLaw t

/-- R146, R147, R156, R157: the shift counts stay within 16 bits with the marker set exactly at the limit, and the history
holds at most 8 records whose sequences follow one another. -/
def Obligations.ShiftRecordLawsAreKept : Prop :=
  ∀ s t, HistoryLaw s → CountsLaw s → step s = .next t → HistoryLaw t ∧ CountsLaw t

/-- R151: on each side the live run length never exceeds the live possible length. The premises leave out only steps at
which a 64-bit figure could pass its width, where the spec states no result (log entry 6). -/
def Obligations.RunNeverExceedsPossible : Prop :=
  ∀ s t, LengthHasRoom s → ShiftHasRoom s → ShiftLaw s → step s = .next t → ShiftLaw t

/-- R21, R22, R162, R164, R166: the spindle and station tables keep the shape of the fitted sections, and a station is
SILENT exactly at 3 missed polls. R175, R177, R178, R180: the receiver, the holding and the reply in transmission go
together. -/
def Obligations.TableAndLineLawsAreKept : Prop :=
  (∀ s t, TableLaw s → step s = .next t → TableLaw t) ∧ (∀ s t, LineLaw s → step s = .next t → LineLaw t)

/-! ## Reset, loading and the front rollers -/

/-- POWER_ON_RESET and the RESET_RELEASE that follows complete from every state. R1, R9, R49, R50, R67, R85, R111, R124,
R130, R145, R162, R175, R177, R188: the values that the spec gives for reset; R176, R193: what the release starts.
RESET_RELEASE is stated from the state that POWER_ON_RESET leaves. The rows that the spec gives no value for are in log
entry 2 and are not stated. That the waiting commands stand through both is the model's choice (log entry 11). -/
def Obligations.PowerOnResetAndReleaseComplete : Prop :=
  ∀ s straps, ∃ t u, exec .powerOnReset s = .next t ∧ exec (.resetRelease straps) t = .next u ∧
    t.phase = .inReset ∧ t.pending = s.pending ∧
    t.roller.flum = 0 ∧ t.roller.acc = 0 ∧ t.roller.window = none ∧ t.roller.winding = false ∧
    t.speed.fill = 0 ∧ t.speed.step = 0 ∧ t.speed.winCount = 0 ∧ t.speed.lowStreak = 0 ∧
    BothSides (fun side => t.spindles.get side = [] ∧ t.breakList.get side = [] ∧ t.breakSeq.get side = 0 ∧
      (t.carriages.get side) = ⟨.absent, none, .up, none, false, false, false, none, none⟩ ∧
      t.doff.done.get side = [] ∧ t.shift.marks.get side = 0 ∧ (t.shift.live.sides.get side).run = 0 ∧
      (t.shift.live.sides.get side).possible = 0 ∧ (t.shift.live.sides.get side).mass = 0) ∧
    t.doff.frame = .stopped ∧ t.doff.watchStart = none ∧ t.doff.copBase = 0 ∧ t.doff.number = 0 ∧
    t.doff.last = none ∧ t.doff.go = .none ∧ t.doff.ready = false ∧ t.doff.timer = none ∧ t.doff.saved = none ∧
    t.doff.effective.governor = true ∧
    t.articles.staged = none ∧ t.articles.request = false ∧ t.articles.last = none ∧
    t.roving = ⟨[], [], .idle, none, none, none, none, none⟩ ∧
    (∀ n ∈ liveCounts t, n = 0) ∧ t.shift.live.marker = false ∧ t.shift.history = [] ∧ t.shift.seq = 1 ∧
    t.line.rx = .off ∧ t.line.holding = [] ∧ t.line.pendingSet = 0 ∧ t.line.discards = 0 ∧
    t.line.lastDiscard = none ∧ attnLow t = false ∧
    OnlyChanges [.phase, .line, .loader] t u ∧ u.phase = .loading ∧
    u.line = { t.line with
      rx := .hunting
      rate := if straps = 0 then .b57600 else if straps = 1 then .b115200 else if straps = 2 then .b230400
        else .b460800 } ∧
    u.loader.stage = .reading ∧ u.loader.index = 0 ∧ u.loader.applied = [] ∧ attnLow u = false

/-- STORE_RECORD completes while the Loader reads (R194): the record ends the loading, is applied, or fails it. What the
operand stands for is the model's choice (log entry 22): none and a record of fewer than 8 bytes are a lost acknowledge,
and a first byte FFh ends the reading even where the rest breaks off. That field 24 of R108 has no numeric range of its
own, so that code 46h passes with any value, is DEDUCED (log entry 31). -/
def Obligations.StoreRecordIsJudged : Prop :=
  ∀ s read, s.phase = .loading → s.loader.stage = .reading → ∃ t, exec (.storeRecord read) s = .next t ∧
    OnlyChanges [.loader] s t ∧
    match read with
    | none =>
      t.loader = { s.loader with
        stage := if s.loader.index = 0 then .stopped .none none else .stopped .fault (some s.loader.index) }
    | some [] => t.loader = { s.loader with stage := .stopped .fault (some s.loader.index) }
    | some (code :: rest) =>
      let c := code.toNat
      let v := numAt rest 0 4
      if c = 0xFF then t.loader = { s.loader with stage := .stopped .ok none }
      else if 7 ≤ rest.length ∧ (∀ b ∈ s.loader.lastCode, b < c) ∧
          (if isConfigCode c then configRange c v else articleCodeRange c v) = true ∧
          (c = 0x16 → v < (appliedValue s.loader.applied 0x15).getD 20) then
        t.loader = { s.loader with
          applied := s.loader.applied ++ [(c, v)]
          lastCode := some c
          index := s.loader.index + 1
          stage := if s.loader.index + 1 < 64 then .reading else .stopped .fault (some 64) }
      else t.loader = { s.loader with stage := .stopped .fault (some s.loader.index) }

/-- LOAD_END completes when the reading has stopped (R195): the items, the active article (R112) and each block's state
formed from them, with CONFIG alone pending. That a stored field 24 of any size is first judged here is DEDUCED (log
entry 31). -/
def Obligations.LoadEndFormsTheState : Prop :=
  ∀ s o i, s.phase = .loading → s.loader.stage = .stopped o i → ∃ t, exec .loadEnd s = .next t ∧
    t.pending = s.pending ∧ t.phase = .running ∧
    t.loader = { s.loader with stage := .done, outcome := o, failIndex := i, defaulted := t.loader.defaulted } ∧
    (∀ code ∈ [0x01, 0x02, 0x03, 0x04, 0x06, 0x07, 0x08, 0x09, 0x0A, 0x0B, 0x0C, 0x0D, 0x0E, 0x0F, 0x10, 0x11, 0x12,
        0x13, 0x14, 0x15],
      t.items.value code = (appliedValue s.loader.applied code).getD (Items.defaults.value code)) ∧
    t.items.lengthTrim = ((appliedValue s.loader.applied 0x05).map signed32).getD 0 ∧
    t.items.speedTrim = ((appliedValue s.loader.applied 0x17).map signed32).getD 0 ∧
    t.items.govLow =
      (appliedValue s.loader.applied 0x16).getD (if 8 < t.items.govHigh then 8 else t.items.govHigh - 1) ∧
    (let stored := Article.ofFields ((List.range 26).map fun n =>
        (storedField s.loader.applied (n + 1)).getD (Article.default.field (n + 1)))
      if stored.failingField = none ∧ t.items.rovingThreshold + t.items.runoutMargin < stored.bobbin then
        t.articles = ⟨stored, none, false, none⟩ ∧ t.loader.defaulted = false
      else t.articles = ⟨Article.default, none, false, none⟩ ∧ t.loader.defaulted = true) ∧
    t.roller.flum = 0 ∧ t.roller.acc = 0 ∧ t.roller.window = none ∧ t.roller.winding = false ∧
    t.roller.num = ((t.items.rollerCirc : Int) * (8192 + t.items.lengthTrim)).toNat ∧
    t.roller.den = 8192 * t.items.encPulses ∧
    t.speed = ⟨0, 0, 0, 0, currentSetPoint t⟩ ∧
    BothSides (fun side =>
      t.spindles.get side = List.replicate (48 * t.items.sections.get side)
        ⟨.running, some 0, 0, none, .opened, none, none, 0, none, [], false⟩ ∧
      t.breakList.get side = [] ∧ t.breakSeq.get side = 0 ∧
      t.carriages.get side = ⟨.absent, none, .up, none, false, false, false, none, none⟩ ∧
      t.bus.boards.get side = List.replicate (t.items.sections.get side)
        ⟨⟨.new, 0, none, false⟩, List.replicate 48 (some .opened), 0⟩ ∧
      t.bus.carriages.get side = ⟨⟨.new, 0, none, false⟩, none, []⟩) ∧
    t.bus.doffer = ⟨⟨.new, 0, none, false⟩, none, []⟩ ∧ t.bus.train = ⟨⟨.new, 0, none, false⟩, none, []⟩ ∧
    t.doff = { State.reset.doff with
      effective := ⟨BitVec.ofNat 15 ((appliedValue s.loader.applied 0x18).getD 0x7FFF), true⟩
      doffMask := BitVec.ofNat 15 ((appliedValue s.loader.applied 0x19).getD 0x0220) } ∧
    t.roving = ⟨[], [], .idle, none, none, none, none, none⟩ ∧
    t.shift = State.reset.shift ∧
    t.line = { s.line with pendingSet := PendClass.config.bit } ∧
    attnLow t = hasClass t.doff.effective.mask .config

/-- ENCODER_PULSE completes (R2, R3, R6, R11): the length, the remainder, the motion window, MOTION, and what a pulse
leaves alone. Where FLmm advances, each reader that has something to do acts once, whole, one after another in some
order: the fill is recomputed (R10, R11), and one that differs is judged by the Doff Controller (R91) and moves the
set-point (R16); the governor window closes at a multiple of GOV_WINDOW_M (R17); the audit runs at a multiple of
AUDIT_STEP_M (R126); START_UP ends at the watch length (R90); a change of the frame state is tested for dispatch (R56).
That the readers act whole, one after another, is the model's choice (log entry 5). Before load end a pulse changes
nothing (R1). -/
def Obligations.EncoderPulseCompletes : Prop :=
  ∀ s,
    (s.phase ≠ .running → exec .encoderPulse s = .next s) ∧
    (s.phase = .running → LengthHasRoom s → ∃ t, exec .encoderPulse s = .next t ∧
      t.roller = { s.roller with
        flum := s.roller.flum + (s.roller.acc + s.roller.num) / s.roller.den
        acc := (s.roller.acc + s.roller.num) % s.roller.den
        window := some s.items.motionWindow
        winding := true } ∧
      OnlyChanges [.freeCount, .roller, .speed, .spindles, .breakList, .carriages, .doff, .roving, .bus, .line] s t ∧
      (s.roller.winding = false ∧ s.doff.frame.motionNotExpected = true →
        hasClass t.line.pendingSet .motion = true) ∧
      (s.flmm = t.flmm → OnlyChanges [.roller, .line] s t ∧
        LineRaises (if s.roller.winding = false ∧ s.doff.frame.motionNotExpected = true then [.motion] else []) s t) ∧
      (s.flmm < t.flmm →
        t.speed.fill = min 1024 ((t.flmm - s.doff.copBase) * 1024 / (s.articles.active.copLength * 1000)) ∧
        let reaches (metres : Nat) : Prop := ∃ k, s.flmm < k * (metres * 1000) ∧ k * (metres * 1000) ≤ t.flmm
        let due (r : Reader) : Prop := match r with
          | .fill => True
          | .window => reaches s.items.govWindow
          | .audit => reaches s.items.auditStep
          | .watch => s.doff.frame = .startUp ∧
              ∃ w ∈ s.doff.watchStart, s.articles.active.watch * 1000 ≤ t.flmm - w
        let tested (v w : State) : State :=
          if w.doff.frame = v.doff.frame then w else dispatchTest .b (dispatchTest .a w)
        let act (v : State) (r : Reader) : State := match r with
          | .fill =>
            let f := min 1024 ((v.flmm - v.doff.copBase) * 1024 / (v.articles.active.copLength * 1000))
            let w := judgeFill (v.setSpeed { v.speed with fill := f })
            tested v (if f = v.speed.fill then v
              else if currentSetPoint w = w.speed.setPoint then w
              else raise .speed (w.setSpeed { w.speed with setPoint := currentSetPoint w }))
          | .window => closeWindow v
          | .audit => rovingAudit v
          | .watch => tested v (endWatch v)
        ∃ (v : State) (order : List Reader), OnlyChanges [.freeCount, .roller, .line] s v ∧ v.roller = t.roller ∧
          v.freeCount = s.freeCount + 1 ∧
          LineRaises (if s.roller.winding = false ∧ s.doff.frame.motionNotExpected = true then [.motion] else []) s v ∧
          order.Nodup ∧ (∀ r, r ∈ order ↔ due r) ∧ t = order.foldl act v))

/-- R2: a pulse adds N to acc, floor(acc / D) to FLµm and keeps acc mod D, in every frame state; a run of pulses with
unchanged N and D credits what they would credit all at once; one pulse adds at most 1,613 µm. -/
def Obligations.PulsesCreditTheExactLength : Prop :=
  (∀ s, s.phase = .running → LengthHasRoom s →
    (afterPulses 1 s).roller.flum = s.roller.flum + (s.roller.acc + s.roller.num) / s.roller.den ∧
    (afterPulses 1 s).roller.acc = (s.roller.acc + s.roller.num) % s.roller.den) ∧
  (∀ s k, s.phase = .running → s.roller.acc < s.roller.den →
    s.roller.flum + (s.roller.acc + k * s.roller.num) / s.roller.den < 2 ^ 64 →
    (afterPulses k s).roller.flum = s.roller.flum + (s.roller.acc + k * s.roller.num) / s.roller.den ∧
    (afterPulses k s).roller.acc < s.roller.den) ∧
  (∀ s, s.phase = .running → ItemsLaw s → RollerLaw s →
    s.roller.num ≤ 1320800000 ∧ 819200 ≤ s.roller.den ∧
      (s.roller.acc + s.roller.num) / s.roller.den ≤ 1613)

/-- MOTION_WINDOW_EXPIRY completes (R7, R89, R16): winding is false; in a state that expects motion the frame becomes
HALTED with MOTION and FRAME_STATE raised, and in any other no class is raised. Leaving DOFF_PENDING lifts the approach
cap, so the set-point is recomputed there. A window that does not run does not expire: the model's choice (log entry
3). -/
def Obligations.MotionWindowExpiryCompletes : Prop :=
  ∀ s,
    (s.roller.window = none → exec .motionWindowExpiry s = .next s) ∧
    (s.roller.window.isSome → ∃ t, exec .motionWindowExpiry s = .next t ∧
      t.roller = { s.roller with window := none, winding := false } ∧
      if s.doff.frame = .startUp ∨ s.doff.frame = .spinning ∨ s.doff.frame = .doffPending then
        let sp := if s.doff.frame = .doffPending then
            setPointOf s.articles.active s.speed.fill s.items.speedTrim s.speed.step .halted
          else s.speed.setPoint
        OnlyChanges [.roller, .doff, .speed, .line] s t ∧
          t.doff = { s.doff with frame := .halted, watchStart := none } ∧
          t.speed = { s.speed with setPoint := sp } ∧
          LineRaises ([.motion, .frameState] ++ if sp = s.speed.setPoint then [] else [.speed]) s t
      else OnlyChanges [.roller] s t)

/-! ## The host line -/

/-- HOST_FRAME completes with a whole frame (R174, R175, R177): a request of any kind and body of up to 240 bytes, sent
in the format of R174 to a hunting receiver, joins the holding; with 2 requests held it is discarded with reason
OVERFLOW. -/
def Obligations.HostFrameIsAccepted : Prop :=
  ∀ kind body s, body.length ≤ 240 → s.line.rx = .hunting →
    ∃ t, exec (.hostFrame (onWire (frameBytes kind body))) s = .next t ∧
      if s.line.holding.length < 2 then
        OnlyChanges [.line] s t ∧ t.line = { s.line with holding := s.line.holding ++ [⟨kind, body⟩] }
      else Discarded .overflow s t

/-- R175, R176, R188: a body length above 240 and a CRC that does not match end in a discard of their reason, and
FRAME_TIMER_EXPIRY completes with a discard as LATE. A byte other than A5h while hunting, and a byte without its stop bit,
change nothing. With no frame collected no frame timer runs, and its expiry changes nothing: the model's choice (log
entry 3). -/
def Obligations.FramesAreDiscarded : Prop :=
  (∀ s len, s.line.rx = .hunting → 240 < len.toNat →
    ∃ t, exec (.hostFrame (onWire [0xA5#8, len])) s = .next t ∧ Discarded .length s t) ∧
  (∀ s kind body c1 c2, s.line.rx = .hunting → body.length ≤ 240 →
    [c1, c2] ≠ beBytes 2 (crc16 (BitVec.ofNat 8 body.length :: kind :: body)).toNat →
    ∃ t, exec (.hostFrame (onWire (0xA5#8 :: BitVec.ofNat 8 body.length :: kind :: body ++ [c1, c2]))) s = .next t ∧
      Discarded .crc s t) ∧
  (∀ s bytes, s.line.rx = .collecting bytes →
    ∃ t, exec .frameTimerExpiry s = .next t ∧ Discarded .late s t) ∧
  (∀ s, (∀ bytes, s.line.rx ≠ .collecting bytes) → exec .frameTimerExpiry s = .next s) ∧
  (∀ s b, s.line.rx = .hunting → b ≠ 0xA5#8 → exec (.hostFrame (onWire [b])) s = .next s) ∧
  (∀ s b, exec (.hostFrame [⟨b, false⟩]) s = .next s)

/-- REPLY_SENT completes (R178, R189): the reply's request leaves the holding, and the soft reset becomes due exactly
after a RESET that was answered OK. With no reply in transmission nothing changes: the model's choice (log entry 3). -/
def Obligations.ReplySentCompletes : Prop :=
  ∀ s,
    (s.line.tx = none → exec .replySent s = .next s) ∧
    (∀ r held rest, s.line.tx = some r → s.line.holding = held :: rest → r.kind = replyKind held.kind →
      ∃ t, exec .replySent s = .next t ∧ OnlyChanges [.line] s t ∧
        t.line = { s.line with
          tx := none
          holding := rest
          resetDue := decide (held.kind = 0x7F#8 ∧ r.result = .ok) })

/-- R178, R179, R180, R182, R188: every request that is taken before load end is answered STARTING; after it, one whose
kind is not in the catalogue is answered UNKNOWN_KIND, with reply kind FFh for a kind of 80h or above, and one with
another body length BAD_LENGTH. Nothing else changes. UNKNOWN_KIND completes so. A command that is not the oldest request
held, or comes while a reply is in transmission, changes nothing: the model's choice (log entry 12). So is the detail
byte 00h of a CONFIG_SET answered STARTING or BAD_LENGTH (log entry 34). -/
def Obligations.RequestsAreJudgedInOrder : Prop :=
  (∀ i s r, requestOf i = some r → s.phase ≠ .inReset → Reaches r s →
    (s.phase = .loading → Refuses i s .starting 0) ∧
    (s.phase = .running → bodyLength r.kind = none → Refuses i s .unknownKind 0) ∧
    (s.phase = .running → ∀ n, bodyLength r.kind = some n → r.body.length ≠ n → Refuses i s .badLength 0)) ∧
  (∀ i s r, requestOf i = some r →
    s.phase = .inReset ∨ s.line.tx.isSome ∨ s.line.resetDue = true ∨
      (∃ h ∈ s.line.holding.head?, h ≠ r) → exec i s = .next s) ∧
  (∀ kind : Byte, (kind.toNat < 0x80 → (replyKind kind).toNat = kind.toNat + 0x80) ∧
    (0x80 ≤ kind.toNat → replyKind kind = 0xFF#8 ∧ bodyLength kind = none))

/-- IDENTIFY, STATUS, CONFIG_GET, ARTICLE_GET, DOFF_GET, SPINDLE_GET, BREAK_LIST_GET, ROVING_LIST_GET, CARRIAGE_GET,
ROVING_RUN_GET and both SHIFT_GET complete (R44, R64, R83, R102, R114, R129, R141, R158, R159, R183, R184, R199): a
reading is answered OK, shows the figures of its rule in that rule's order and changes nothing; one that names nothing
readable is refused with BAD_VALUE. A figure that fits its field stands there most significant byte first (R181). The
seconds left on a timer are free within the bounds of log entry 4, the layouts that R181 does not spell out are DEDUCED
(log entries 9 and 30), and the counter of free values is the model's own field (log entry 1). STATUS, IDENTIFY and the
live shift have statements of their own. -/
def Obligations.ReadingsChangeNothing : Prop :=
  (∀ i s b, readable i s = some b → Served i s →
    if b = true then ∃ left content, Replies i s .ok (fun _ => content) (OnlyChanges [.freeCount]) ∧
      (∀ secs ∈ timerShown i s, 1 ≤ left ∧ (1 ≤ secs → left ≤ secs)) ∧ (∀ c ∈ shown i s left, content = c)
    else Refuses i s .badValue 0) ∧
  (∀ i s left, readable i s = some true → shown i s left = none → ∃ body,
    i = .status body ∨ i = .identify body ∨
      (byteAt body 0 = 0#8 ∧ (i = .shiftGetLive body ∨ i = .shiftGetHistory body))) ∧
  (∀ w n, n < 256 ^ w → (field w n).length = w ∧ fromBytes (field w n) = n)

/-- STATUS completes, and its reply carries its figures in the order and widths of R184 and R181, each where it fits
its width. IDENTIFY completes with the part code, load outcome, line rate and section counts of R183. The width of the
two section counts in IDENTIFY is DEDUCED (log entry 9). -/
def Obligations.StatusAndIdentifyShowTheState : Prop :=
  (∀ s, Served (.status []) s →
    ∃ c, Replies (.status []) s .ok (fun _ => c) (fun s' u => u = s') ∧
      c.length = 35 ∧ (byteAt c 0).toNat = s.doff.frame.code ∧ (byteAt c 1 = 1#8 ↔ s.roller.winding = true) ∧
      (s.flmm < 2 ^ 64 → numAt c 2 8 = s.flmm) ∧ (s.speed.fill < 65536 → numAt c 10 2 = s.speed.fill) ∧
      (s.speed.setPoint < 65536 → numAt c 12 2 = s.speed.setPoint) ∧
      (s.speed.step < 256 → (byteAt c 14).toNat = s.speed.step) ∧
      (-128 ≤ s.items.speedTrim ∧ s.items.speedTrim ≤ 127 → (byteAt c 15).toInt = s.items.speedTrim) ∧
      (-128 ≤ s.items.lengthTrim ∧ s.items.lengthTrim ≤ 127 → (byteAt c 16).toInt = s.items.lengthTrim) ∧
      numAt c 17 2 = s.line.pendingSet.toNat ∧ numAt c 19 2 = s.doff.effective.mask.toNat ∧
      (byteAt c 21 = 1#8 ↔ s.doff.saved.isSome) ∧ (lockedCount s < 65536 → numAt c 22 2 = lockedCount s) ∧
      (s.breakList.a.length < 65536 → numAt c 24 2 = s.breakList.a.length) ∧
      (s.breakList.b.length < 65536 → numAt c 26 2 = s.breakList.b.length) ∧
      (s.roving.urgent.length + s.roving.low.length < 65536 →
        numAt c 28 2 = s.roving.urgent.length + s.roving.low.length) ∧
      (byteAt c 30).toNat = s.roving.run.code ∧ (s.line.discards < 65536 → numAt c 31 2 = s.line.discards) ∧
      ((byteAt c 33 = 1#8 ↔ s.line.lastDiscard.isSome) ∧
        ∀ r ∈ s.line.lastDiscard, (byteAt c 34).toNat = r.code)) ∧
  (∀ s, Served (.identify []) s →
    ∃ c, Replies (.identify []) s .ok (fun _ => c) (fun s' u => u = s') ∧
      numAt c 0 2 = 7460 ∧ 1 ≤ (byteAt c 2).toNat ∧ (byteAt c 3).toNat = s.loader.outcome.code ∧
      (byteAt c 4 = 1#8 ↔ s.loader.failIndex.isSome) ∧
      (∀ n ∈ s.loader.failIndex, n < 65536 → numAt c 5 2 = n) ∧
      (byteAt c 7 = 1#8 ↔ s.loader.defaulted = true) ∧ (byteAt c 8).toNat = s.line.rate.code ∧
      (s.items.sections.a < 2 ^ 32 → numAt c 9 4 = s.items.sections.a) ∧
      (s.items.sections.b < 2 ^ 32 → numAt c 13 4 = s.items.sections.b))

/-- ACK_EVENTS, SET_MASK, CONFIG_SET of ATTN_MASK, SET_DOFF_MASK and CONFIG_SET of DOFF_MASK complete (R105, R106,
R186, R187): what each class set does, the refusal of a number above 14 with the item code, or 00h, in the detail byte, and ATTN.
That a CONFIG_SET of a mask equal to the one in force is judged as any other is DEDUCED (log entry 17). -/
def Obligations.ClassSetsAreTaken : Prop :=
  (∀ s body, Served (.ackEvents body) s →
    if numAt body 0 2 < 2 ^ 15 then
      Replies (.ackEvents body) s .ok (fun u => beBytes 2 u.line.pendingSet.toNat) fun s' u =>
        OnlyChanges [.line] s' u ∧
        u.line = { s'.line with pendingSet := s'.line.pendingSet &&& ~~~(BitVec.ofNat 15 (numAt body 0 2)) }
    else Refuses (.ackEvents body) s .badValue 0) ∧
  (∀ s i (v detail : Nat), Served i s →
    (∃ body, i = .setMask body ∧ v = numAt body 0 2 ∧ detail = 0) ∨
      (∃ body, i = .configSetAttnMask body ∧ byteAt body 0 = 0x18#8 ∧ v = numAt body 1 4 ∧ detail = 0x18) →
    if v < 2 ^ 15 then
      Replies i s (if s.doff.saved.isSome then .deferred else .ok) (fun _ => []) fun s' u =>
        OnlyChanges [.doff] s' u ∧
        u.doff = match s.doff.saved with
          | some c => { s.doff with saved := some { c with mask := BitVec.ofNat 15 v } }
          | none => { s.doff with effective := { s.doff.effective with mask := BitVec.ofNat 15 v } }
    else Refuses i s .badValue detail) ∧
  (∀ s i (v detail : Nat), Served i s →
    (∃ body, i = .setDoffMask body ∧ v = numAt body 0 2 ∧ detail = 0) ∨
      (∃ body, i = .configSetDoffMask body ∧ byteAt body 0 = 0x19#8 ∧ v = numAt body 1 4 ∧ detail = 0x19) →
    if v < 2 ^ 15 then
      Replies i s .ok (fun _ => []) fun s' u =>
        OnlyChanges [.doff] s' u ∧ u.doff = { s.doff with doffMask := BitVec.ofNat 15 v }
    else Refuses i s .badValue detail) ∧
  (∀ s, attnLow s = true ↔
    s.phase = .running ∧ ∃ c, hasClass s.line.pendingSet c = true ∧ hasClass s.doff.effective.mask c = true)

/-! ## The configuration -/

/-- CONFIG_SET of an item that has no behaviour beyond its value completes (R191, R196, R197): the value in force is the
new one, and every other item and everything else is as it was. A value equal to the one in force is answered OK and
changes nothing. -/
def Obligations.ConfigSetPutsTheItem : Prop :=
  ∀ s body, Served (.configSet body) s →
    (byteAt body 0).toNat ∈ [0x06, 0x07, 0x08, 0x09, 0x0A, 0x0B, 0x0C, 0x0D, 0x0E, 0x0F, 0x10, 0x11, 0x12, 0x13, 0x14,
      0x15, 0x16] →
    (stoppedOnly (byteAt body 0).toNat = true → s.doff.frame = .stopped) →
    configRange (byteAt body 0).toNat (numAt body 1 4) = true →
    ((byteAt body 0).toNat = 0x0E → lockedCount s ≤ numAt body 1 4) →
    ((byteAt body 0).toNat = 0x0F → numAt body 1 4 + s.items.runoutMargin < s.articles.active.bobbin) →
    ((byteAt body 0).toNat = 0x10 → s.items.rovingThreshold + numAt body 1 4 < s.articles.active.bobbin) →
    ((byteAt body 0).toNat = 0x15 → s.items.govLow < numAt body 1 4) →
    ((byteAt body 0).toNat = 0x16 → numAt body 1 4 < s.items.govHigh) →
    Replies (.configSet body) s .ok (fun _ => []) fun s' u =>
      OnlyChanges [.items] s' u ∧ u.items.value (byteAt body 0).toNat = numAt body 1 4 ∧
      (∀ code ∈ List.range' 1 0x17, code ≠ (byteAt body 0).toNat → u.items.value code = s.items.value code) ∧
      u.items.lengthTrim = s.items.lengthTrim ∧ u.items.speedTrim = s.items.speedTrim ∧
      (s.items.value (byteAt body 0).toNat = numAt body 1 4 → u.items = s.items)

/-- R191, R196, R197: each of the seven CONFIG_SET commands is refused in the order of R196, with the item code in the
detail byte, and changes nothing. The two masks stand outside the last clause (log entry 17). -/
def Obligations.ConfigSetIsRefusedInOrder : Prop :=
  ∀ s body i, i ∈ [Instr.configSet body, .configSetSections body, .configSetEncoder body, .configSetLengthTrim body,
      .configSetSpeedTrim body, .configSetAttnMask body, .configSetDoffMask body] →
    Served i s →
    let code := (byteAt body 0).toNat
    let v := numAt body 1 4
    if ¬(1 ≤ code ∧ code ≤ 0x19) then Refuses i s .badValue code
    else if stoppedOnly code = true ∧ s.doff.frame ≠ .stopped then Refuses i s .refusedState code
    else if configRange code v = false then Refuses i s .badValue code
    else if (code = 0x0E ∧ v < lockedCount s) ∨
        (code = 0x0F ∧ s.articles.active.bobbin ≤ v + s.items.runoutMargin) ∨
        (code = 0x10 ∧ s.articles.active.bobbin ≤ s.items.rovingThreshold + v) ∨
        (code = 0x15 ∧ v ≤ s.items.govLow) ∨ (code = 0x16 ∧ s.items.govHigh ≤ v) then Refuses i s .badValue code
    else code ∉ [0x18, 0x19] → s.items.value code = v →
      Replies i s .ok (fun _ => []) fun s' u => u = s'

/-- CONFIG_SET of SECTIONS_A or SECTIONS_B completes (R198, with R47, R66, R143, R150, R162): the credit at the old
in-service count, the lengths and mass of the removed spindles, the records, lists, slot, boards and carriage of the
changed side, the removed boards out of the poll cycle (R163), and nothing of the other side. That a poll on its way
stays awaited is the model's choice (log entries 25 and 32). -/
def Obligations.SectionChangeCompletes : Prop :=
  ∀ s body side, Served (.configSetSections body) s →
    (byteAt body 0).toNat = (match side with | .a => 0x01 | .b => 0x02) →
    1 ≤ numAt body 1 4 → numAt body 1 4 ≤ 20 → s.items.sections.get side ≠ numAt body 1 4 →
    s.doff.frame = .stopped → CreditsFit s →
    let n := numAt body 1 4
    let keep := 48 * n
    let old := s.spindles.get side
    let stays (x : SpRef) : Bool := x.side != side || x.pos ≤ keep
    let emptied : Bool := s.roving.slot.any fun x => !stays x
    let ended : Bool := emptied &&
      (s.roving.run == .ending || (s.roving.run == .active && s.roving.current == some 0))
    Replies (.configSetSections body) s .ok (fun _ => []) fun s' u =>
      OnlyChanges [.items, .spindles, .breakList, .carriages, .roving, .shift, .bus, .line] s' u ∧
      OtherSideSame side s' u ∧
      u.items = { s.items with sections := s.items.sections.set side n } ∧
      u.spindles.get side = old.take keep ++ List.replicate (keep - old.length)
        ⟨.running, some s.flmm, 0, none, .opened, none, none, 0, none, [], false⟩ ∧
      u.breakList.get side = (s.breakList.get side).filter (· ≤ keep) ∧
      (u.shift.live.sides.get side).possible = possibleNow s side ∧ u.shift.marks.get side = s.flmm ∧
      Credited side (openSum (old.drop keep) s.flmm) s' u ∧ u.shift.live.doffs = s.shift.live.doffs ∧
      u.shift.live.exchanges = s.shift.live.exchanges ∧ u.shift.live.marker = s.shift.live.marker ∧
      u.shift.history = s.shift.history ∧ u.shift.seq = s.shift.seq ∧
      (u.shift.live.sides.get side).counts = (s.shift.live.sides.get side).counts ∧
      u.roving.urgent = s.roving.urgent.filter stays ∧ u.roving.low = s.roving.low.filter stays ∧
      (u.roving.slot = if emptied then none else s.roving.slot) ∧
      (u.roving.timer = if emptied then none else s.roving.timer) ∧
      (u.roving.run = if ended then .idle else s.roving.run) ∧
      (u.roving.reason = if ended then some (if s.roving.run = .ending then .aborted else .count)
        else s.roving.reason) ∧
      u.roving.base = s.roving.base ∧ u.roving.current = s.roving.current ∧
      LineRaises (if ended then [.rovingRunEnd] else []) s' u ∧
      u.bus.boards.get side = (s.bus.boards.get side).take n ++
        List.replicate (n - (s.bus.boards.get side).length)
          ⟨⟨.new, 0, none, false⟩, List.replicate 48 (some .opened), 0⟩ ∧
      u.bus.doffer = s.bus.doffer ∧ u.bus.train = s.bus.train ∧ u.bus.awaiting = s.bus.awaiting ∧
      u.bus.cycle = s.bus.cycle.filter (fun st => match st with
        | .board sd sec => sd != side || sec ≤ n
        | _ => true) ∧
      (let c := s.carriages.get side
        if c.x.any (keep < ·) ∧ (c.state = .ready ∨ c.state = .held) then
          u.carriages.get side = { c with
            state := .homing, x := none, order := none, returning := false
            timer := some ⟨.homing, s.items.homeTimeout⟩ } ∧
          u.bus.carriages.get side = (s.bus.carriages.get side).appendHome
        else
          (u.carriages.get side = if c.x.any (keep < ·) ∧ c.state = .fault then { c with x := none } else c) ∧
          u.bus.carriages.get side = s.bus.carriages.get side)

/-- CONFIG_SET of ENC_PULSES or ROLLER_CIRC_UM completes (R5, R1, R2): new N and D, the remainder 0, the length kept. In
any other frame state it is refused. -/
def Obligations.EncoderItemsFormNewConstants : Prop :=
  ∀ s body, Served (.configSetEncoder body) s →
    (byteAt body 0).toNat = 0x03 ∨ (byteAt body 0).toNat = 0x04 →
    (s.doff.frame ≠ .stopped → Refuses (.configSetEncoder body) s .refusedState (byteAt body 0).toNat) ∧
    (s.doff.frame = .stopped → configRange (byteAt body 0).toNat (numAt body 1 4) = true →
      s.items.value (byteAt body 0).toNat ≠ numAt body 1 4 →
      Replies (.configSetEncoder body) s .ok (fun _ => []) fun s' u =>
        OnlyChanges [.items, .roller] s' u ∧
        (u.items = if (byteAt body 0).toNat = 0x03 then { s.items with encPulses := numAt body 1 4 }
          else { s.items with rollerCirc := numAt body 1 4 }) ∧
        u.roller = { s.roller with
          num := ((u.items.rollerCirc : Int) * (8192 + s.items.lengthTrim)).toNat
          den := 8192 * u.items.encPulses
          acc := 0 })

/-- TRIM_LENGTH, TRIM_SPEED and the CONFIG_SET of LENGTH_TRIM and SPEED_TRIM complete in every frame state (R4, R13, R16):
the trim in force, brought to the nearest limit by the two trim requests only; the new N with the remainder kept; the
set-point recomputed, with SPEED raised where it differs. -/
def Obligations.TrimsAreTaken : Prop :=
  (∀ s i (v : Int) (res : Result) (content : List Byte), Served i s →
    (∃ b : Byte, i = .trimLength [b] ∧ v = max (-64) (min 63 b.toInt) ∧
      (res = if b.toInt = v then .ok else .clamped) ∧ content = [BitVec.ofInt 8 v]) ∨
    (∃ body, i = .configSetLengthTrim body ∧ byteAt body 0 = 0x05#8 ∧ -64 ≤ signed32 (numAt body 1 4) ∧
      signed32 (numAt body 1 4) ≤ 63 ∧ s.items.value 0x05 ≠ numAt body 1 4 ∧ v = signed32 (numAt body 1 4) ∧
      res = .ok ∧ content = []) →
    Replies i s res (fun _ => content) fun s' u =>
      OnlyChanges [.items, .roller] s' u ∧ u.items = { s.items with lengthTrim := v } ∧
      u.roller = { s.roller with num := ((s.items.rollerCirc : Int) * (8192 + v)).toNat }) ∧
  (∀ s i (v : Int) (res : Result) (content : List Byte), Served i s →
    (∃ b : Byte, i = .trimSpeed [b] ∧ v = max (-16) (min 15 b.toInt) ∧
      (res = if b.toInt = v then .ok else .clamped) ∧ content = [BitVec.ofInt 8 v]) ∨
    (∃ body, i = .configSetSpeedTrim body ∧ byteAt body 0 = 0x17#8 ∧ -16 ≤ signed32 (numAt body 1 4) ∧
      signed32 (numAt body 1 4) ≤ 15 ∧ s.items.value 0x17 ≠ numAt body 1 4 ∧ v = signed32 (numAt body 1 4) ∧
      res = .ok ∧ content = []) →
    let sp := setPointOf s.articles.active s.speed.fill v s.speed.step s.doff.frame
    Replies i s res (fun _ => content) fun s' u =>
      OnlyChanges [.items, .speed, .line] s' u ∧ u.items = { s.items with speedTrim := v } ∧
      u.speed = { s.speed with setPoint := sp } ∧
      LineRaises (if sp = s.speed.setPoint then [] else [.speed]) s' u)

/-! ## Articles -/

/-- ARTICLE_STAGE completes (R110, R113): a valid record replaces the staged article whole and nothing else changes; a
record that is not valid is refused with the number of the first field that fails one of the checks of R108. -/
def Obligations.ArticlesAreStaged : Prop :=
  (∀ s (a : Article), a.program.length = 16 → (∀ v ∈ a.fields, v < 65536) →
    Served (.articleStage (a.fields.flatMap (beBytes 2))) s →
    match a.failingField with
    | none => Replies (.articleStage (a.fields.flatMap (beBytes 2))) s .ok (fun _ => []) fun s' u =>
        OnlyChanges [.articles] s' u ∧ u.articles = { s.articles with staged := some a }
    | some n => Refuses (.articleStage (a.fields.flatMap (beBytes 2))) s .badValue n) ∧
  (∀ (a : Article), a.program.length = 16 →
    let v (n : Nat) : Nat := a.field n
    let passes (n : Nat) : Prop :=
      if n = 1 then v n ≤ 65535
      else if n = 2 then 300 ≤ v n ∧ v n ≤ 20000
      else if n = 3 then 1000 ≤ v n ∧ v n ≤ 8000
      else if n = 4 then 500 ≤ v n ∧ v n ≤ 20000
      else if n = 5 then 500 ≤ v n ∧ v n ≤ 6000
      else if n = 22 then 6000 ≤ v n ∧ v n ≤ 28000 ∧ v n % 10 = 0
      else if n = 23 then 6000 ≤ v n ∧ v n ≤ 28000 ∧ v n % 10 = 0 ∧ v 22 ≤ v n
      else if n = 24 then v 22 ≤ v n ∧ v n ≤ v 23
      else if n = 25 then 900 ≤ v n ∧ v n ≤ 1023
      else if n = 26 then 5 ≤ v n ∧ v n ≤ 200
      else 6000 ≤ v n ∧ v n ≤ 28000
    (a.failingField = none ↔ ∀ n ∈ List.range' 1 26, passes n) ∧
    (∀ n ∈ List.range' 1 26, a.failingField = some n ↔ ¬passes n ∧ ∀ m ∈ List.range' 1 (n - 1), passes m))

/-- ARTICLE_EXCHANGE completes outside STOPPED, where the request becomes pending (R115). While STOPPED a failed cross
check refuses it with its reason and both articles stay (R116); otherwise the exchange is made (R117, R118, R20): every
open interval is credited at the outgoing article and split, the two articles change places, g returns to 0, fill and
set-point follow the new article, and one exchange is counted. That the indication is one byte is DEDUCED (log entry
9). -/
def Obligations.ExchangeIsAttempted : Prop :=
  ∀ s, Served (.articleExchange []) s →
    (s.doff.frame ≠ .stopped →
      Replies (.articleExchange []) s .ok (fun _ => [1#8]) fun s' u =>
        OnlyChanges [.articles] s' u ∧ u.articles = { s.articles with request := true }) ∧
    (s.doff.frame = .stopped → s.articles.staged = none →
      Replies (.articleExchange []) s .refusedState (fun _ => [1#8]) fun s' u =>
        OnlyChanges [.articles, .line] s' u ∧ LineRaises [.article] s' u ∧
        u.articles = { s.articles with request := false, last := some ⟨.noStaged, .request, s.flmm⟩ }) ∧
    (∀ a, s.doff.frame = .stopped → s.articles.staged = some a →
      a.bobbin ≤ s.items.rovingThreshold + s.items.runoutMargin →
      Replies (.articleExchange []) s .badValue (fun _ => [2#8]) fun s' u =>
        OnlyChanges [.articles, .line] s' u ∧ LineRaises [.article] s' u ∧
        u.articles = { s.articles with request := false, last := some ⟨.rovingMismatch, .request, s.flmm⟩ }) ∧
    (∀ a, s.doff.frame = .stopped → s.articles.staged = some a →
      s.items.rovingThreshold + s.items.runoutMargin < a.bobbin → CreditsFit s →
      let f := min 1024 ((s.flmm - s.doff.copBase) * 1024 / (a.copLength * 1000))
      let sp := setPointOf a f s.items.speedTrim 0 .stopped
      Replies (.articleExchange []) s .ok (fun _ => [0#8]) fun s' u =>
        OnlyChanges [.spindles, .speed, .articles, .shift, .line] s' u ∧
        u.articles = ⟨a, some s.articles.active, false, some ⟨.done, .request, s.flmm⟩⟩ ∧
        u.speed = { s.speed with fill := f, step := 0, setPoint := sp } ∧
        BothSides (fun side =>
          u.spindles.get side = (s.spindles.get side).map (·.close s.articles.active s.flmm) ∧
          Credited side (openSum (s.spindles.get side) s.flmm) s u ∧
          (u.shift.live.sides.get side).possible = (s.shift.live.sides.get side).possible ∧
          (u.shift.live.sides.get side).counts = (s.shift.live.sides.get side).counts) ∧
        u.shift.live.exchanges = oneMore s.shift.live.exchanges ∧ u.shift.live.doffs = s.shift.live.doffs ∧
        u.shift.live.marker = (s.shift.live.marker || s.shift.live.exchanges == 65534) ∧
        u.shift.marks = s.shift.marks ∧ u.shift.history = s.shift.history ∧ u.shift.seq = s.shift.seq ∧
        LineRaises (speedRaised s.speed.setPoint sp ++ [.article] ++
          if s.shift.live.exchanges = 65534 ∧ s.shift.live.marker = false then [.shiftSaturated] else []) s' u)

/-! ## Frame states and the doff -/

/-- FRAME_RUN completes (R87, R86, R56): from STOPPED, HALTED or RESTART_WAIT the frame enters START_UP with its watch
start, and both sides are then tested for dispatch; in the other states it is answered OK without change, or refused in a
doff. FRAME_HALT completes (R88, R16) in every state but DOFF_STOPPING: a running frame becomes HALTED, and a frame that
stands is answered OK without change. -/
def Obligations.DriveReportsAreTaken : Prop :=
  (∀ s, Served (.frameRun []) s →
    (s.doff.frame = .stopped ∨ s.doff.frame = .halted ∨ s.doff.frame = .restartWait →
      Replies (.frameRun []) s .ok (fun _ => [1#8]) fun s' u =>
        u.doff = { s.doff with frame := .startUp, watchStart := some s.flmm } ∧
        ∃ v, u = dispatchTest .b (dispatchTest .a v) ∧ OnlyChanges [.doff, .line] s' v ∧ v.doff = u.doff ∧
          LineRaises [.frameState] s' v) ∧
    (s.doff.frame = .startUp ∨ s.doff.frame = .spinning ∨ s.doff.frame = .doffPending →
      Replies (.frameRun []) s .ok (fun u => [BitVec.ofNat 8 u.doff.frame.code]) fun s' u => u = s') ∧
    (s.doff.frame = .doffStopping ∨ s.doff.frame = .doffing → Refuses (.frameRun []) s .refusedState 0)) ∧
  (∀ s, Served (.frameHalt []) s →
    (s.doff.frame = .startUp ∨ s.doff.frame = .spinning ∨ s.doff.frame = .doffPending →
      let sp := if s.doff.frame = .doffPending then setPointIn s .halted else s.speed.setPoint
      Replies (.frameHalt []) s .ok (fun _ => [7#8]) fun s' u =>
        OnlyChanges [.doff, .speed, .line] s' u ∧
        u.doff = { s.doff with frame := .halted, watchStart := none } ∧
        u.speed = { s.speed with setPoint := sp } ∧
        LineRaises (.frameState :: speedRaised s.speed.setPoint sp) s' u) ∧
    (s.doff.frame = .stopped ∨ s.doff.frame = .halted ∨ s.doff.frame = .doffing ∨ s.doff.frame = .restartWait →
      Replies (.frameHalt []) s .ok (fun u => [BitVec.ofNat 8 u.doff.frame.code]) fun s' u => u = s'))

/-- FRAME_HALT in DOFF_STOPPING completes with the entry to DOFFING (R94, R78, R80, R53, R168): each order is withdrawn
with CANCEL, a PIECING spindle returns to its place in the list, both doff holds are set, and DOFF_GO is sent if the
doffer is ready. -/
def Obligations.HaltInDoffStoppingEntersDoffing : Prop :=
  ∀ s, Served (.frameHalt []) s → s.doff.frame = .doffStopping →
    let sp := setPointIn s .doffing
    Replies (.frameHalt []) s .ok (fun _ => [5#8]) fun s' u =>
      OnlyChanges [.spindles, .breakList, .carriages, .doff, .speed, .bus, .line] s' u ∧
      (u.doff = if s.doff.ready = true then
          { s.doff with frame := .doffing, go := .sent, ready := false, timer := some s.items.dofferTimeout }
        else { s.doff with frame := .doffing, go := .waiting }) ∧
      u.speed = { s.speed with setPoint := sp } ∧
      LineRaises (.frameState :: speedRaised s.speed.setPoint sp) s' u ∧
      BothSides (fun side =>
        let c := s.carriages.get side
        let left : Carriage := match c.order with
          | none => { c with state := if c.state = .ready then .held else c.state }
          | some (.transit _) => c.cancelled s c.withdrawn
          | some (.piece t _ _) => c.cancelled s (some t)
          | some (.overtaken t _ _) => c.cancelled s (some t)
        u.carriages.get side = { left with doffHold := true } ∧
        (u.bus.carriages.get side =
          if c.order = none then s.bus.carriages.get side else (s.bus.carriages.get side).append .cancel) ∧
        ReturnsToList side s u) ∧
      (u.bus.doffer = if s.doff.ready = true then
          s.bus.doffer.append (.doffGo s.items.sections.a s.items.sections.b)
        else s.bus.doffer) ∧
      u.bus.train = s.bus.train ∧ u.bus.cycle = s.bus.cycle ∧ u.bus.awaiting = s.bus.awaiting

/-- DOFF_NOW completes (R93, R92, R103): a new doff of kind MANUAL is begun with the next number, the context is
swapped where none is saved, and the approach cap acts; in the other states it is refused. DOFF_ABORT completes (R100,
R95, R168): the doff ends ABORTED and the frame is HALTED; in the other states it is refused. That doffer ready falls
only where DOFF_STOP is sent is DEDUCED (log entry 19). That a DOFF_STOP removes every DOFF_GO not yet carried is the
model's choice (log entry 35). -/
def Obligations.DoffIsBegunAndAbandoned : Prop :=
  (∀ s, Served (.doffNow []) s →
    if s.doff.frame = .spinning ∨ s.doff.frame = .doffPending ∨ s.doff.frame = .halted then
      let n := if 65535 ≤ s.doff.number then 1 else s.doff.number + 1
      let sp := setPointIn s .doffStopping
      Replies (.doffNow []) s .ok (fun _ => beBytes 2 n) fun s' u =>
        OnlyChanges [.doff, .speed, .line] s' u ∧
        u.doff = { s.doff with
          frame := .doffStopping
          number := n
          last := some ⟨n, .manual, s.speed.fill, 0, 0, none, none⟩
          done := ⟨[], []⟩
          effective := if s.doff.saved = none then ⟨s.doff.effective.mask &&& ~~~s.doff.doffMask, false⟩
            else s.doff.effective
          saved := if s.doff.saved = none then some s.doff.effective else s.doff.saved } ∧
        u.speed = { s.speed with setPoint := sp } ∧
        LineRaises (.frameState :: speedRaised s.speed.setPoint sp) s' u
    else Refuses (.doffNow []) s .refusedState 0) ∧
  (∀ s, Served (.doffAbort []) s →
    if s.doff.frame = .doffStopping ∨ s.doff.frame = .doffing then
      let sp := if s.doff.frame = .doffStopping then setPointIn s .halted else s.speed.setPoint
      Replies (.doffAbort []) s .ok (fun _ => [7#8]) fun s' u =>
        OnlyChanges [.carriages, .doff, .speed, .bus, .line] s' u ∧
        u.doff = { s.doff with
          frame := .halted
          go := .none
          timer := if s.doff.go = .sent then none else s.doff.timer
          ready := if s.doff.go = .sent then false else s.doff.ready
          last := s.doff.last.map fun r => { r with outcome := some .aborted, faultCode := none } } ∧
        BothSides (fun side => u.carriages.get side = (s.carriages.get side).freedFromDoff) ∧
        u.bus = { s.bus with doffer := if s.doff.go = .sent then s.bus.doffer.appendDoffStop else s.bus.doffer } ∧
        u.speed = { s.speed with setPoint := sp } ∧
        LineRaises (.frameState :: speedRaised s.speed.setPoint sp) s' u
    else Refuses (.doffAbort []) s .refusedState 0)

/-- DOFF_MANUAL_DONE completes while DOFFING, and a DOFF_DONE report is taken the same way with the go state SENT
(R99, R27, R115, R116, R117): the cops and the cop base, the pending exchange, the record, the holds, and
RESTART_WAIT. In any other frame state DOFF_MANUAL_DONE is refused. Where the exchange follows, the set-point is
computed for the cop reset and again for the exchange. That first computation is DEDUCED (log entry 18), and that
a DOFF_STOP removes every DOFF_GO not yet carried is the model's choice (log entry 35). -/
def Obligations.DoffIsCompleted : Prop :=
  let completed (byHand : Bool) (s u : State) : Prop :=
    let new : Option Article := if s.articles.request = true then
        s.articles.staged.filter fun a => s.items.rovingThreshold + s.items.runoutMargin < a.bobbin
      else none
    let sp1 := setPointOf s.articles.active 0 s.items.speedTrim s.speed.step .doffing
    let sp2 := match new with
      | some a => setPointOf a 0 s.items.speedTrim 0 .doffing
      | none => sp1
    OnlyChanges [.spindles, .speed, .carriages, .doff, .articles, .shift, .bus, .line] s u ∧
    u.doff = { s.doff with
      frame := .restartWait, copBase := s.flmm, go := .none, ready := false, timer := none
      last := s.doff.last.map fun r => { r with outcome := some .done, faultCode := none } } ∧
    u.speed = { s.speed with
      fill := 0, step := if new.isSome then 0 else s.speed.step, setPoint := sp2 } ∧
    (u.articles = match s.articles.request, new with
      | false, _ => s.articles
      | true, some a => ⟨a, some s.articles.active, false, some ⟨.done, .doff s.doff.number, s.flmm⟩⟩
      | true, none => { s.articles with
          request := false
          last := some ⟨if s.articles.staged = none then .noStaged else .rovingMismatch, .doff s.doff.number,
            s.flmm⟩ }) ∧
    BothSides (fun side =>
      u.spindles.get side =
        (s.spindles.get side).map (fun sp => { sp.close s.articles.active s.flmm with cop := 0 }) ∧
      Credited side (openSum (s.spindles.get side) s.flmm) s u ∧
      (u.shift.live.sides.get side).possible = (s.shift.live.sides.get side).possible ∧
      (u.shift.live.sides.get side).counts = (s.shift.live.sides.get side).counts ∧
      u.carriages.get side = (s.carriages.get side).freedFromDoff) ∧
    u.shift.live.doffs = oneMore s.shift.live.doffs ∧
    (u.shift.live.exchanges = if new.isSome then oneMore s.shift.live.exchanges else s.shift.live.exchanges) ∧
    u.shift.live.marker =
      (s.shift.live.marker || s.shift.live.doffs == 65534 || (new.isSome && s.shift.live.exchanges == 65534)) ∧
    u.shift.marks = s.shift.marks ∧ u.shift.history = s.shift.history ∧ u.shift.seq = s.shift.seq ∧
    u.bus = { s.bus with
      doffer := if byHand = true ∧ s.doff.go = .sent then s.bus.doffer.appendDoffStop else s.bus.doffer } ∧
    LineRaises (.frameState :: speedRaised s.speed.setPoint sp1 ++ speedRaised sp1 sp2 ++
      (if s.articles.request = true then [.article] else []) ++
      if s.shift.live.marker = false ∧
          (s.shift.live.doffs = 65534 ∨ (new.isSome ∧ s.shift.live.exchanges = 65534)) then [.shiftSaturated]
      else []) s u
  (∀ s, Served (.doffManualDone []) s →
    (s.doff.frame ≠ .doffing → Refuses (.doffManualDone []) s .refusedState 0) ∧
    (s.doff.frame = .doffing → CreditsFit s → SpeedLaw s →
      Replies (.doffManualDone []) s .ok (fun _ => [6#8]) (completed true))) ∧
  (∀ s, s.phase = .running → s.doff.frame = .doffing → s.doff.go = .sent → CreditsFit s → SpeedLaw s →
    completed false s (dofferReport .doffDone s))

/-- DOFFER_TIMER_EXPIRY completes, and a DOFF_FAULT report is taken the same way with the go state SENT (R98): the doff
fails and the frame is HALTED. R95, R96, R97, R171: what the other reports of the doffer do by the go state. A timer that
does not run does not expire: the model's choice (log entry 3). That a SECTION_DONE of section 0 restarts no timer is
DEDUCED (log entry 29). -/
def Obligations.DofferTimerAndReportsAreTaken : Prop :=
  let failed (code : Option Nat) (s t : State) : Prop :=
    OnlyChanges [.carriages, .doff, .line] s t ∧
    t.doff = { s.doff with
      frame := .halted, go := .none, timer := none, ready := false
      last := s.doff.last.map fun r => { r with outcome := some .fault, faultCode := code } } ∧
    BothSides (fun side => t.carriages.get side = (s.carriages.get side).freedFromDoff) ∧
    LineRaises [.frameState, .dofferFault] s t
  (∀ s, s.doff.frame = .doffing → s.doff.go = .sent → s.doff.timer.isSome →
    ∃ t, exec .dofferTimerExpiry s = .next t ∧ failed none s t) ∧
  (∀ s, s.doff.go ≠ .sent ∨ s.doff.timer = none → exec .dofferTimerExpiry s = .next s) ∧
  (∀ s code, s.doff.frame = .doffing → s.doff.go = .sent →
    if 1 ≤ code ∧ code ≤ 15 then failed (some code) s (dofferReport (.doffFault code) s)
    else dofferReport (.doffFault code) s = s) ∧
  (∀ s r, s.doff.go ≠ .sent → r ≠ .ready → dofferReport r s = s) ∧
  (∀ s, s.doff.go = .none → dofferReport .ready s = s.setDoff { s.doff with ready := true }) ∧
  (∀ s, s.doff.go = .waiting →
    OnlyChanges [.doff, .bus] s (dofferReport .ready s) ∧
    (dofferReport .ready s).doff = { s.doff with
      ready := false, go := .sent, timer := some s.items.dofferTimeout } ∧
    (dofferReport .ready s).bus = { s.bus with
      doffer := s.bus.doffer.append (.doffGo s.items.sections.a s.items.sections.b) }) ∧
  (∀ s r, s.doff.go = .sent → r = .ready ∨ r = .doffBegun →
    dofferReport r s = s.setDoff { s.doff with timer := some s.items.dofferTimeout }) ∧
  (∀ s side sec, s.doff.go = .sent →
    dofferReport (.sectionDone none sec) s = s ∧
    if 1 ≤ sec ∧ sec ≤ s.items.sections.get side then
      let old := s.doff.done.get side
      let new := if sec ∈ old then old else old ++ [sec]
      dofferReport (.sectionDone (some side) sec) s = s.setDoff { s.doff with
        timer := some s.items.dofferTimeout
        done := s.doff.done.set side new
        last := s.doff.last.map fun r => match side with
          | .a => { r with doneA := new.length }
          | .b => { r with doneB := new.length } }
    else dofferReport (.sectionDone (some side) sec) s = s)

/-- The start-up watch and the fill move the frame (R90, R91, R92, R103, R104): at the watch length a START_UP frame
enters SPINNING with the saved context restored; a SPINNING frame whose fill has reached the pre-doff fill enters
DOFF_PENDING with the context swapped, and at fill 1024 a new doff of kind AUTO is begun with STOP_ADVICE. In the other
frame states a fill has no effect. Each change of the frame state raises FRAME_STATE (R86), and the set-point is the one
of the inputs where a doff approach state is entered, with SPEED where it differs (R86, R16). -/
def Obligations.WatchAndFillMoveTheFrame : Prop :=
  let restored (d : Doff) : Doff := match d.saved with
    | some c => { d with frame := .spinning, watchStart := none, effective := c, saved := none }
    | none => { d with frame := .spinning, watchStart := none }
  let pending (d : Doff) : Doff := { d with
    frame := .doffPending, saved := some d.effective, effective := ⟨d.effective.mask &&& ~~~d.doffMask, false⟩ }
  let stopping (f : Nat) (d : Doff) : Doff :=
    let n := if 65535 ≤ d.number then 1 else d.number + 1
    { d with frame := .doffStopping, number := n, last := some ⟨n, .auto, f, 0, 0, none, none⟩, done := ⟨[], []⟩ }
  let judged (s : State) (d : Doff) : Doff :=
    if d.frame = .spinning ∧ s.articles.active.preDoff ≤ s.speed.fill then
      if s.speed.fill = 1024 then stopping s.speed.fill (pending d) else pending d
    else if d.frame = .doffPending ∧ s.speed.fill = 1024 then stopping s.speed.fill d
    else d
  let judgedSpeed (s : State) (d : Doff) : Speed :=
    let frame := (judged s d).frame
    { s.speed with setPoint := if frame = d.frame then s.speed.setPoint else setPointIn s frame }
  let judgedClasses (s : State) (d : Doff) : List PendClass :=
    if (judged s d).frame = d.frame then []
    else .frameState :: speedRaised s.speed.setPoint (judgedSpeed s d).setPoint ++
      if (judged s d).frame = .doffStopping then [.stopAdvice] else []
  (∀ s, OnlyChanges [.doff, .speed, .line] s (judgeFill s) ∧ (judgeFill s).doff = judged s s.doff ∧
    (judgeFill s).speed = judgedSpeed s s.doff ∧ LineRaises (judgedClasses s s.doff) s (judgeFill s)) ∧
  (∀ s, watchDone s = true ↔ s.doff.frame = .startUp ∧
    ∃ w ∈ s.doff.watchStart, s.articles.active.watch * 1000 ≤ s.flmm - w) ∧
  (∀ s, s.doff.frame = .startUp → OnlyChanges [.doff, .speed, .line] s (endWatch s) ∧
    (endWatch s).doff = judged s (restored s.doff) ∧ (endWatch s).speed = judgedSpeed s (restored s.doff) ∧
    LineRaises (.frameState :: judgedClasses s (restored s.doff)) s (endWatch s))

/-! ## Spindles -/

/-- SPINDLE_PARK completes (R41, R40, R25, R78, R149): the possible length is credited first, the spindle is released
from what holds it and becomes PARKED, and a carriage that holds a piece or overtaken order for it is withdrawn with
CANCEL; a PARKED spindle is answered OK without change, and one that is not fitted is refused. That the withdrawn
spindle stands where the order was overtaken is DEDUCED (log entry 14). -/
def Obligations.SpindleParkCompletes : Prop :=
  ∀ s body, Served (.spindlePark body) s →
    let pos := numAt body 1 2
    (sideAt body 0 = none → Refuses (.spindlePark body) s .badValue 0) ∧
    (∀ side, sideAt body 0 = some side → s.spindle side pos = none → Refuses (.spindlePark body) s .badValue 0) ∧
    (∀ side sp, sideAt body 0 = some side → s.spindle side pos = some sp → sp.state = .parked →
      Replies (.spindlePark body) s .ok (fun _ => [5#8]) fun s' u => u = s') ∧
    (∀ side sp, sideAt body 0 = some side → s.spindle side pos = some sp → sp.state ≠ .parked →
      ClampLaw s → BreakLaw s → CreditsFit s →
      Replies (.spindlePark body) s .ok (fun _ => [5#8]) fun s' u =>
        OnlyChanges [.spindles, .breakList, .carriages, .roving, .shift, .bus] s' u ∧ OtherSideSame side s' u ∧
        RecordBecomes side pos { sp.close s.articles.active s.flmm with
          state := .parked, marker := none, clamp := .closed, seq := none, cause := none, lockCause := none
          attempts := 0, rogueUnlocked := false } s' u ∧
        u.breakList.get side = (s.breakList.get side).filter (· ≠ pos) ∧
        (u.shift.live.sides.get side).possible = possibleNow s side ∧ u.shift.marks.get side = s.flmm ∧
        Credited side (sp.openLength s.flmm) s' u ∧
        (u.shift.live.sides.get side).counts = (s.shift.live.sides.get side).counts ∧
        u.shift.live.doffs = s.shift.live.doffs ∧ u.shift.live.exchanges = s.shift.live.exchanges ∧
        u.shift.live.marker = s.shift.live.marker ∧ u.shift.history = s.shift.history ∧ u.shift.seq = s.shift.seq ∧
        u.roving = { s.roving with
          urgent := s.roving.urgent.filter (· ≠ ⟨side, pos⟩), low := s.roving.low.filter (· ≠ ⟨side, pos⟩) } ∧
        (if (s.carriages.get side).pieceTarget = some pos then
          u.carriages.get side = (s.carriages.get side).cancelled s (some pos) ∧
          u.bus.carriages.get side = (s.bus.carriages.get side).append .cancel
        else if (s.carriages.get side).overtakenTarget = some pos then
          u.carriages.get side = (s.carriages.get side).cancelled s (s.carriages.get side).withdrawn ∧
          u.bus.carriages.get side = (s.bus.carriages.get side).append .cancel
        else u.carriages.get side = s.carriages.get side ∧ u.bus.carriages.get side = s.bus.carriages.get side) ∧
        u.bus.doffer = s.bus.doffer ∧ u.bus.train = s.bus.train ∧ u.bus.cycle = s.bus.cycle ∧
        u.bus.awaiting = s.bus.awaiting)

/-- SPINDLE_UNPARK and SPINDLE_RELEASE complete (R42, R43, R50, R51, R52, R56, R149): a PARKED or a LOCKED spindle joins
the tail of its side's list with cause RELEASE, and the side is then tested for dispatch; a spindle in any other state is
refused. The break law is a premise: it makes the tail the place of the highest sequence. That the reply shows the state
after the dispatch test is DEDUCED (log entry 28). -/
def Obligations.UnparkAndReleaseJoinTheList : Prop :=
  (∀ s body side sp, Served (.spindleUnpark body) s → sideAt body 0 = some side →
    s.spindle side (numAt body 1 2) = some sp →
    (sp.state ≠ .parked → Refuses (.spindleUnpark body) s .refusedState 0) ∧
    (sp.state = .parked → BreakLaw s → CreditsFit s →
      Replies (.spindleUnpark body) s .ok (fun u => [BitVec.ofNat 8 (stateCodeAt u ⟨side, numAt body 1 2⟩)])
        fun s' u => ∃ v, u = dispatchTest side v ∧
          OnlyChanges [.spindles, .breakList, .breakSeq, .shift, .bus] s' v ∧ OtherSideSame side s' v ∧
          JoinsList side (numAt body 1 2) { sp with cause := some .release, attempts := 0 } s' v ∧
          v.shift = { s.shift with
            marks := s.shift.marks.set side s.flmm
            live := { s.shift.live with
              sides := s.shift.live.sides.modify side fun r => { r with possible := possibleNow s side } } })) ∧
  (∀ s body side sp, Served (.spindleRelease body) s → sideAt body 0 = some side →
    s.spindle side (numAt body 1 2) = some sp →
    (sp.state ≠ .locked → Refuses (.spindleRelease body) s .refusedState 0) ∧
    (sp.state = .locked → BreakLaw s →
      Replies (.spindleRelease body) s .ok (fun u => [BitVec.ofNat 8 (stateCodeAt u ⟨side, numAt body 1 2⟩)])
        fun s' u => ∃ v, u = dispatchTest side v ∧
          OnlyChanges [.spindles, .breakList, .breakSeq, .bus] s' v ∧ OtherSideSame side s' v ∧
          JoinsList side (numAt body 1 2)
            { sp with cause := some .release, attempts := 0, stamps := [], rogueUnlocked := false } s' v)) ∧
  (∀ s body i, i = Instr.spindleUnpark body ∨ i = .spindleRelease body → Served i s →
    (∀ side, sideAt body 0 = some side → s.spindle side (numAt body 1 2) = none) → Refuses i s .badValue 0)

/-- SET_ROVING completes (R123, R25): each spindle of the range takes the figure, a RUNNING one after its interval has
been closed; a range or a figure out of bounds is refused and changes nothing. That the number seeded has 2 bytes in the
reply is DEDUCED (log entry 9). -/
def Obligations.SetRovingSeedsTheRange : Prop :=
  ∀ s body, Served (.setRoving body) s →
    let first := numAt body 1 2
    let last := numAt body 3 2
    let metres := numAt body 5 2
    (sideAt body 0 = none → Refuses (.setRoving body) s .badValue 0) ∧
    (∀ side, sideAt body 0 = some side →
      s.spindle side first = none ∨ s.spindle side last = none ∨ last < first ∨ s.articles.active.bobbin < metres →
      Refuses (.setRoving body) s .badValue 0) ∧
    (∀ side, sideAt body 0 = some side → (s.spindle side first).isSome → (s.spindle side last).isSome →
      first ≤ last → metres ≤ s.articles.active.bobbin → ClampLaw s → CreditsFit s →
      Replies (.setRoving body) s .ok (fun _ => beBytes 2 (last + 1 - first)) fun s' u =>
        OnlyChanges [.spindles, .shift] s' u ∧ OtherSideSame side s' u ∧
        (∀ p, u.spindle side p =
          if first ≤ p ∧ p ≤ last then
            (s.spindle side p).map fun sp =>
              { sp.close s.articles.active s.flmm with roving := some (metres * 1000) }
          else s.spindle side p) ∧
        Credited side (openSum (((s.spindles.get side).drop (first - 1)).take (last + 1 - first)) s.flmm) s' u ∧
        (u.shift.live.sides.get side).possible = (s.shift.live.sides.get side).possible ∧
        (u.shift.live.sides.get side).counts = (s.shift.live.sides.get side).counts ∧
        u.shift.live.doffs = s.shift.live.doffs ∧ u.shift.live.exchanges = s.shift.live.exchanges ∧
        u.shift.live.marker = s.shift.live.marker ∧ u.shift.marks = s.shift.marks ∧
        u.shift.history = s.shift.history ∧ u.shift.seq = s.shift.seq)

/-- R29 to R36, R17, R125: what YARN_LOST does to a RUNNING spindle: the interval is closed; run out, the spindle waits
for roving at the urgent tail; else it is a START_UP break or an END break with its stamp, its rogue test and the lock
ceiling; and the side is then tested for dispatch (R52), after each report of an answer: that is DEDUCED (log entry 23). On a
spindle in any other state it has no effect. -/
def Obligations.YarnLostIsABreak : Prop :=
  (∀ s side pos, (∀ sp ∈ s.spindle side pos, sp.state ≠ .running) → yarnLost side pos s = s) ∧
  (∀ s side pos sp, s.spindle side pos = some sp → sp.state = .running → ClampLaw s → BreakLaw s → CreditsFit s →
    let c := sp.close s.articles.active s.flmm
    let ref : SpRef := ⟨side, pos⟩
    let stamps := if sp.stamps.getLast? = some s.flmm then sp.stamps
      else (if sp.stamps.length < 15 then sp.stamps else sp.stamps.drop (sp.stamps.length - 14)) ++ [s.flmm]
    let rogue : Prop :=
      s.items.rogueBreaks ≤ stamps.countP fun x => s.flmm ≤ x + s.items.rogueSpan * 1000
    let changed (fs : List SideFigure) (cs : List PendClass) (v : State) : Prop :=
      OnlyChanges [.spindles, .breakList, .breakSeq, .speed, .roving, .shift, .bus, .line] s v ∧
      OtherSideSame side s v ∧ Credited side (sp.openLength s.flmm) s v ∧ Counted side fs s v ∧
      LineRaises (cs ++ saturates side fs s) s v ∧ v.bus.carriages = s.bus.carriages ∧
      v.bus.doffer = s.bus.doffer ∧ v.bus.train = s.bus.train ∧ v.bus.cycle = s.bus.cycle ∧
      v.bus.awaiting = s.bus.awaiting
    let governor (v : State) : Prop := v.speed = if s.doff.effective.governor = true then
        { s.speed with winCount := min 65535 (s.speed.winCount + 1) } else s.speed
    if ∃ r ∈ c.roving, r ≤ s.items.runoutMargin * 1000 then
      changed [.rovingOutBreak] [.rovingOut] (yarnLost side pos s) ∧
      RecordBecomes side pos { c with
        state := .waitRoving, marker := none, clamp := .closed, cause := some .rovingOut, attempts := 0, seq := none }
        s (yarnLost side pos s) ∧
      (yarnLost side pos s).breakList = s.breakList ∧ (yarnLost side pos s).breakSeq = s.breakSeq ∧
      (yarnLost side pos s).speed = s.speed ∧
      (yarnLost side pos s).roving =
        if s.roving.slot = some ref ∨ ref ∈ s.roving.urgent then s.roving
        else { s.roving with low := s.roving.low.filter (· ≠ ref), urgent := s.roving.urgent ++ [ref] }
    else
      ∃ v, yarnLost side pos s = dispatchTest side v ∧ v.roving = s.roving ∧
        if s.doff.frame = .startUp then
          changed [.startUpBreak] [] v ∧ v.speed = s.speed ∧
          JoinsList side pos { c with cause := some .startUp, attempts := 0 } s v
        else if rogue ∧ lockedCount s < s.items.lockCeiling then
          changed [.endBreak, .rogueLock] [.rogueLock] v ∧ governor v ∧
          v.breakList = s.breakList ∧ v.breakSeq = s.breakSeq ∧
          RecordBecomes side pos { c with
            state := .locked, marker := none, clamp := .closed, seq := none, cause := none
            lockCause := some .rogue, attempts := 0, stamps := stamps, rogueUnlocked := false } s v
        else if rogue then
          changed [.endBreak] [.rogueLock] v ∧ governor v ∧
          JoinsList side pos { c with
            cause := some .endBreak, attempts := 0, stamps := stamps, rogueUnlocked := true } s v
        else
          changed [.endBreak] [] v ∧ governor v ∧
          JoinsList side pos { c with cause := some .endBreak, attempts := 0, stamps := stamps } s v)

/-- R37 to R39: YARN_FOUND makes a BROKEN spindle RUNNING, takes it from the list and counts one manual piece; it makes a
PIECING spindle RUNNING without a count, its order kept as an overtaken order; in the other states it has no effect. -/
def Obligations.YarnFoundIsAPieceByHand : Prop :=
  ∀ s side pos,
    ((∀ sp ∈ s.spindle side pos, sp.state ≠ .broken ∧ sp.state ≠ .piecing) → yarnFound side pos s = s) ∧
    (∀ sp, s.spindle side pos = some sp → sp.state = .broken →
      OnlyChanges [.spindles, .breakList, .shift, .bus, .line] s (yarnFound side pos s) ∧
      OtherSideSame side s (yarnFound side pos s) ∧
      RecordBecomes side pos { sp with
        state := .running, marker := some s.flmm, clamp := .opened, attempts := 0, seq := none, cause := none }
        s (yarnFound side pos s) ∧
      (yarnFound side pos s).breakList.get side = (s.breakList.get side).filter (· ≠ pos) ∧
      Counted side [.manualPiece] s (yarnFound side pos s) ∧ Credited side 0 s (yarnFound side pos s) ∧
      LineRaises (saturates side [.manualPiece] s) s (yarnFound side pos s)) ∧
    (∀ sp, s.spindle side pos = some sp → sp.state = .piecing →
      OnlyChanges [.spindles, .carriages, .bus] s (yarnFound side pos s) ∧
      OtherSideSame side s (yarnFound side pos s) ∧
      RecordBecomes side pos { sp with
        state := .running, marker := some s.flmm, clamp := .opened, attempts := 0, seq := none, cause := none }
        s (yarnFound side pos s) ∧
      (yarnFound side pos s).carriages.get side =
        match (s.carriages.get side).order with
        | some (.piece t o k) => if t = pos then { s.carriages.get side with order := some (.overtaken t o k) }
          else s.carriages.get side
        | _ => s.carriages.get side)

/-! ## Dispatch and the carriages -/

/-- R57: a near candidate lies between 0 and REACH positions ahead of the carriage in its direction; the nearest near
candidate is chosen, whatever its age, and an entry at the carriage's own position before any other. Where there is no
near candidate, the head of the list is chosen. -/
def Obligations.DispatchChoosesTheTarget : Prop :=
  ∀ (x reach : Nat) (d : Dir) (l : List Nat),
    let near (p : Nat) : Prop := 0 ≤ ((p : Int) - x) * d.sign ∧ ((p : Int) - x) * d.sign ≤ reach
    (∀ p, chooseTarget x d reach l = some p → (∃ q ∈ l, near q) →
      p ∈ l ∧ near p ∧ ∀ q ∈ l, near q → ((p : Int) - x).natAbs ≤ ((q : Int) - x).natAbs ∧
        (((p : Int) - x).natAbs = ((q : Int) - x).natAbs → p = q)) ∧
    ((∀ q ∈ l, ¬near q) → chooseTarget x d reach l = l.head?) ∧
    (x ∈ l → chooseTarget x d reach l = some x) ∧
    (l ≠ [] → ∃ p ∈ l, chooseTarget x d reach l = some p)

/-- R55, R56, R60, R61, R62, R72: a dispatch test that finds its conditions met issues exactly one order for the chosen
target, a PIECE order within −128..+127 of the carriage and a TRANSIT leg otherwise; where a condition fails nothing
changes. That the target is BROKEN, as the break law has it, is a premise. -/
def Obligations.DispatchIssuesOneOrder : Prop :=
  ∀ s side,
    let c := s.carriages.get side
    let ready : Prop := c.state = .ready ∧ c.hostHold = false ∧ c.doffHold = false ∧
      (s.doff.frame = .spinning ∨ s.doff.frame = .doffPending ∨ s.doff.frame = .startUp) ∧ s.breakList.get side ≠ []
    (¬ready → dispatchTest side s = s) ∧
    (∀ x p sp, ready → c.x = some x → chooseTarget x c.d s.items.reach (s.breakList.get side) = some p →
      s.spindle side p = some sp → sp.state = .broken →
      let off : Int := (p : Int) - x
      OtherSideSame side s (dispatchTest side s) ∧
      (∀ kind, off < -128 ∨ 127 < off → (kind = if x < p then 127 else -127) →
        OnlyChanges [.carriages, .bus] s (dispatchTest side s) ∧
        (dispatchTest side s).carriages.get side = { c with
          state := .moving, d := if 0 < kind then .up else .down, order := some (.transit kind)
          timer := some ⟨.leg, s.items.legTimeout⟩ } ∧
        (dispatchTest side s).bus = { s.bus with
          carriages := s.bus.carriages.modify side (·.append (.transit kind)) }) ∧
      (∀ kind, -128 ≤ off → off ≤ 127 → sp.cause.bind Cause.pieceKind = some kind →
        OnlyChanges [.spindles, .breakList, .carriages, .bus] s (dispatchTest side s) ∧
        RecordBecomes side p { sp with state := .piecing, clamp := .opened } s (dispatchTest side s) ∧
        (dispatchTest side s).breakList.get side = (s.breakList.get side).filter (· ≠ p) ∧
        (dispatchTest side s).carriages.get side = { c with
          state := .serving, d := if 0 < off then .up else if off < 0 then .down else c.d
          order := some (.piece p off kind), withdrawn := none, timer := some ⟨.piece, s.items.pieceTimeout⟩ } ∧
        (dispatchTest side s).bus.carriages.get side = (s.bus.carriages.get side).append (.piece off kind) ∧
        (dispatchTest side s).bus.doffer = s.bus.doffer ∧ (dispatchTest side s).bus.train = s.bus.train ∧
        (dispatchTest side s).bus.cycle = s.bus.cycle ∧ (dispatchTest side s).bus.awaiting = s.bus.awaiting))

/-- CARRIAGE_HOLD, CARRIAGE_RELEASE and CARRIAGE_RESET complete (R80, R81, R82, R56): the host hold with its effect on a
READY or HELD carriage, and the homing of a FAULT or HELD one; a reset in another state and a bad side are refused. That
the reply to a release shows the state after the dispatch test is DEDUCED (log entry 28). -/
def Obligations.CarriageRequestsAreTaken : Prop :=
  (∀ s body i, i = Instr.carriageHold body ∨ i = .carriageRelease body ∨ i = .carriageReset body → Served i s →
    sideAt body 0 = none → Refuses i s .badValue 0) ∧
  (∀ s body side, Served (.carriageHold body) s → sideAt body 0 = some side →
    let c := s.carriages.get side
    let new := { c with hostHold := true, state := if c.state = .ready then CarState.held else c.state }
    Replies (.carriageHold body) s .ok (fun _ => [BitVec.ofNat 8 new.state.code]) fun s' u =>
      OnlyChanges [.carriages] s' u ∧ u.carriages = s.carriages.set side new) ∧
  (∀ s body side, Served (.carriageRelease body) s → sideAt body 0 = some side →
    let c := s.carriages.get side
    Replies (.carriageRelease body) s .ok (fun u => [BitVec.ofNat 8 (u.carriages.get side).state.code]) fun s' u =>
      ∃ v, u = dispatchTest side v ∧ OnlyChanges [.carriages] s' v ∧
        v.carriages = s.carriages.set side { c with
          hostHold := false, state := if c.state = .held ∧ c.doffHold = false then CarState.ready else c.state }) ∧
  (∀ s body side, Served (.carriageReset body) s → sideAt body 0 = some side →
    let c := s.carriages.get side
    (c.state = .fault ∨ c.state = .held →
      Replies (.carriageReset body) s .ok (fun _ => []) fun s' u =>
        OnlyChanges [.carriages, .bus] s' u ∧ u.carriages = s.carriages.set side (c.sentHome s) ∧
        u.bus = { s.bus with carriages := s.bus.carriages.modify side (·.appendHome) }) ∧
    (c.state = .absent → Refuses (.carriageReset body) s .notPresent 0) ∧
    (c.state = .homing ∨ c.state = .ready ∨ c.state = .moving ∨ c.state = .serving →
      Refuses (.carriageReset body) s .refusedState 0))

/-- HOMING_TIMER_EXPIRY, PIECE_TIMER_EXPIRY, LEG_TIMER_EXPIRY and RETURN_TIMER_EXPIRY complete (R70, R73, R76, R77, R78):
the carriage is FAULT with CARRIAGE raised, and a piece order's spindle returns to its place in the list and becomes the
withdrawn spindle, without a CANCEL. A timer that does not run as this kind does not expire: the model's choice (log
entry 3). -/
def Obligations.CarriageTimersExpire : Prop :=
  ∀ s i side kind,
    (i = Instr.homingTimerExpiry side ∧ kind = TimerKind.homing) ∨ (i = .pieceTimerExpiry side ∧ kind = .piece) ∨
      (i = .legTimerExpiry side ∧ kind = .leg) ∨ (i = .returnTimerExpiry side ∧ kind = .returning) →
    let c := s.carriages.get side
    (c.timer.map (·.kind) ≠ some kind → exec i s = .next s) ∧
    (c.timer.map (·.kind) = some kind → ∃ t, exec i s = .next t ∧
      OnlyChanges [.spindles, .breakList, .carriages, .bus, .line] s t ∧ OtherSideSame side s t ∧
      LineRaises [.carriage] s t ∧ ReturnsToList side s t ∧
      t.carriages.get side = { c with
        state := .fault, order := none, returning := false, timer := none
        withdrawn := match c.order with
          | some (.piece target _ _) => some target
          | _ => c.withdrawn } ∧
      t.bus.carriages = s.bus.carriages ∧ t.bus.doffer = s.bus.doffer ∧ t.bus.train = s.bus.train)

/-- R69, R70, R71, R73, R78: the reports PRESENT, HOMED, ARRIVED and READY and the silence of a carriage: homing, the
position taken, READY or HELD with a dispatch test, FAULT for a position that is not fitted, and no effect in the
states that discard the report. That a position that is not fitted stops the timer too is DEDUCED (log entry 15). -/
def Obligations.CarriageReportsAreTaken : Prop :=
  let dropped (side : Side) (s : State) : Option Nat := match (s.carriages.get side).order with
    | some (.piece t _ _) => some t
    | _ => (s.carriages.get side).withdrawn
  let ends (side : Side) (x : Option Nat) (d : Dir) (s t : State) : Prop :=
    t = dispatchTest side (s.setCarriages (s.carriages.set side
      { (s.carriages.get side).endsAt x with d := d }))
  let faults (side : Side) (s t : State) : Prop :=
    OnlyChanges [.carriages, .line] s t ∧ LineRaises [.carriage] s t ∧
    t.carriages = s.carriages.set side { s.carriages.get side with
      state := .fault, x := none, order := none, returning := false, timer := none }
  (∀ s side,
    let c := s.carriages.get side
    let t := carriageReport side .present s
    OnlyChanges [.spindles, .breakList, .carriages, .bus, .line] s t ∧ OtherSideSame side s t ∧
    ReturnsToList side s t ∧ t.carriages.get side = { c.sentHome s with withdrawn := dropped side s } ∧
    t.bus.carriages.get side = (s.bus.carriages.get side).appendHome ∧
    LineRaises (if c.state = .absent ∨ c.state = .homing then [] else [.carriage]) s t) ∧
  (∀ s side pos,
    let c := s.carriages.get side
    let t := carriageReport side (.homed pos) s
    (c.state ≠ .homing → t = s) ∧
    (c.state = .homing → 1 ≤ pos → pos ≤ 48 * s.items.sections.get side → ends side (some pos) .up s t) ∧
    (c.state = .homing → ¬(1 ≤ pos ∧ pos ≤ 48 * s.items.sections.get side) → faults side s t)) ∧
  (∀ s side pos,
    let c := s.carriages.get side
    let t := carriageReport side (.arrived pos) s
    let onLeg : Prop := c.state = .moving ∧ ∃ o, c.order = some (.transit o)
    (¬onLeg → t = s) ∧
    (onLeg → 1 ≤ pos → pos ≤ 48 * s.items.sections.get side → ends side (some pos) c.d s t) ∧
    (onLeg → ¬(1 ≤ pos ∧ pos ≤ 48 * s.items.sections.get side) → faults side s t)) ∧
  (∀ s side,
    let c := s.carriages.get side
    let t := carriageReport side .ready s
    (c.state = .moving ∧ c.returning = true → ends side c.x c.d s t) ∧
    (¬(c.state = .moving ∧ c.returning = true) → t = s)) ∧
  (∀ s side,
    let c := s.carriages.get side
    let t := carriageSilent side s
    OnlyChanges [.spindles, .breakList, .carriages, .bus, .line] s t ∧ OtherSideSame side s t ∧
    ReturnsToList side s t ∧ t.bus.carriages = s.bus.carriages ∧ LineRaises [.carriage] s t ∧
    t.carriages.get side = { c with
      state := .absent, x := none, order := none, returning := false, timer := none
      withdrawn := dropped side s })

/-- R74, R75, R76, R79, R34, R53: a PIECED report as the outcome of the piece order held, of an overtaken order, as a late
outcome of the withdrawn spindle, and as a stray report, which has no effect. That the report clears a withdrawn
spindle whose record a lowering has removed is the model's choice (log entry 27). -/
def Obligations.PieceOutcomesAreTaken : Prop :=
  ∀ s side pos,
    let c := s.carriages.get side
    let mine : Prop := c.state = .serving ∧ ∃ o k, c.order = some (.piece pos o k)
    let overtaken : Prop := c.state = .serving ∧ ∃ o k, c.order = some (.overtaken pos o k)
    let frame (fs : List SideFigure) (cs : List PendClass) (v : State) : Prop :=
      OnlyChanges [.spindles, .breakList, .carriages, .shift, .bus, .line] s v ∧ OtherSideSame side s v ∧
      Credited side 0 s v ∧ Counted side fs s v ∧ LineRaises (cs ++ saturates side fs s) s v ∧
      v.bus.carriages = s.bus.carriages ∧ v.bus.doffer = s.bus.doffer ∧ v.bus.train = s.bus.train
    let running (sp : Spindle) : Spindle := { sp with
      state := .running, marker := some s.flmm, clamp := .opened, attempts := 0, seq := none, cause := none }
    (∀ sp, mine → s.spindle side pos = some sp → sp.state = .piecing →
      ∃ v, carriageReport side (.pieced pos true) s = dispatchTest side v ∧ frame [.carriagePiece] [] v ∧
        RecordBecomes side pos (running sp) s v ∧ v.breakList = s.breakList ∧
        v.carriages.get side = c.endsAt (some pos)) ∧
    (∀ sp, mine → s.spindle side pos = some sp → sp.state = .piecing →
      ∃ v, carriageReport side (.pieced pos false) s = dispatchTest side v ∧
        v.carriages.get side = c.endsAt (some pos) ∧
        let failed := { sp with clamp := .closed, attempts := min 3 (sp.attempts + 1) }
        if failed.attempts < s.items.pieceAttempts then
          frame [.pieceFailure] [] v ∧ RecordBecomes side pos { failed with state := .broken } s v ∧
          v.breakList.get side = insertByKey (seqAt (v.spindles.get side)) pos (s.breakList.get side)
        else if lockedCount s < s.items.lockCeiling then
          frame [.pieceFailure, .pieceFailLock] [.pieceFailLock] v ∧ v.breakList = s.breakList ∧
          RecordBecomes side pos { failed with
            state := .locked, marker := none, seq := none, cause := none, lockCause := some .pieceFail
            rogueUnlocked := false } s v
        else
          frame [.pieceFailure] [.pieceFailLock] v ∧
          RecordBecomes side pos { failed with state := .broken, rogueUnlocked := true } s v ∧
          v.breakList.get side = insertByKey (seqAt (v.spindles.get side)) pos (s.breakList.get side)) ∧
    (∀ ok, overtaken →
      ∃ v, carriageReport side (.pieced pos ok) s = dispatchTest side v ∧ v.spindles = s.spindles ∧
        v.breakList = s.breakList ∧ v.bus = s.bus ∧ v.carriages.get side = c.endsAt (some pos) ∧
        frame (if ok = true then [.carriagePiece] else []) [] v) ∧
    (∀ ok, ¬mine → ¬overtaken → c.withdrawn = some pos →
      let t := carriageReport side (.pieced pos ok) s
      t.carriages.get side = { c with withdrawn := none } ∧
      if ok = true ∧ ∃ sp ∈ s.spindle side pos, sp.state = .broken then
        frame [.carriagePiece] [] t ∧ t.breakList.get side = (s.breakList.get side).filter (· ≠ pos) ∧
        ∀ sp ∈ s.spindle side pos, RecordBecomes side pos (running sp) s t
      else OnlyChanges [.carriages] s t ∧ OtherSideSame side s t) ∧
    (∀ ok, ¬mine → ¬overtaken → c.withdrawn ≠ some pos → carriageReport side (.pieced pos ok) s = s)

/-! ## Roving supply -/

/-- ROVING_RUN_START and ROVING_RUN_ABORT complete (R131, R136, R138), with their refusals in order; SLOT_TIMER_EXPIRY
completes (R137, R128). A slot timer that does not run does not expire: the model's choice (log entry 3). -/
def Obligations.RovingRunIsStartedAndEnded : Prop :=
  (∀ s (b : Byte), Served (.rovingRunStart [b]) s →
    if b.toNat < 1 ∨ 240 < b.toNat then Refuses (.rovingRunStart [b]) s .badValue 0
    else if s.roving.run ≠ .idle then Refuses (.rovingRunStart [b]) s .refusedState 0
    else if s.bus.train.link.status ≠ .answering then Refuses (.rovingRunStart [b]) s .notPresent 0
    else Replies (.rovingRunStart [b]) s .ok (fun _ => [1#8]) fun s' u =>
      OnlyChanges [.roving] s' u ∧
      u.roving = { s.roving with run := .active, base := some b.toNat, current := some b.toNat, reason := none }) ∧
  (∀ s, Served (.rovingRunAbort []) s →
    match s.roving.run with
    | .idle => Refuses (.rovingRunAbort []) s .refusedState 0
    | .ending => Replies (.rovingRunAbort []) s .ok (fun _ => [2#8]) fun s' u => u = s'
    | .active =>
      if s.roving.slot = none then
        Replies (.rovingRunAbort []) s .ok (fun _ => [0#8]) fun s' u =>
          OnlyChanges [.roving, .line] s' u ∧ LineRaises [.rovingRunEnd] s' u ∧
          u.roving = { s.roving with run := .idle, reason := some .aborted }
      else Replies (.rovingRunAbort []) s .ok (fun _ => [2#8]) fun s' u =>
        OnlyChanges [.roving] s' u ∧ u.roving = { s.roving with run := .ending }) ∧
  (∀ s, s.roving.slot = none ∨ s.roving.timer = none → exec .slotTimerExpiry s = .next s) ∧
  (∀ s x secs, s.roving.slot = some x → s.roving.timer = some secs → ∃ t, exec .slotTimerExpiry s = .next t ∧
    OnlyChanges [.roving, .line] s t ∧
    let ended : Bool := s.roving.run == .ending || s.roving.current == some 0
    LineRaises (if ended = true then [.rovingRunEnd] else []) s t ∧
    t.roving = { s.roving with
      slot := none
      timer := none
      run := if ended = true then .idle else s.roving.run
      reason := if ended = true then some .timeout else s.roving.reason
      urgent := if (s.spindle x.side x.pos).any (·.state = .waitRoving) then x :: s.roving.urgent
        else s.roving.urgent
      low := if (s.spindle x.side x.pos).any (fun sp => sp.state ≠ .waitRoving ∧ sp.state ≠ .parked) then x :: s.roving.low
        else s.roving.low })

/-- R132, R135, R136, R140: what NEXT, SKIPPED and PRESENT from the train do in each state of the run: a position handed
out from the head of the list with the count lowered and the slot timer started, WAIT, NONE, and the slot spindle taken
back with the ending test. -/
def Obligations.TrainIsAnswered : Prop :=
  let sent (c : Command) (s t : State) : Prop := t.bus = { s.bus with train := s.bus.train.append c }
  let emptied (atHead : Bool) (x : SpRef) (s t : State) : Prop :=
    let put (l : List SpRef) : List SpRef := if atHead = true then x :: l else l ++ [x]
    let ended : Bool := s.roving.run == .ending || (s.roving.run == .active && s.roving.current == some 0)
    OnlyChanges [.roving, .line] s t ∧ LineRaises (if ended = true then [.rovingRunEnd] else []) s t ∧
    t.roving = { s.roving with
      slot := none
      timer := none
      run := if ended = true then .idle else s.roving.run
      reason := if s.roving.run = .ending then some .aborted else if ended = true then some .count
        else s.roving.reason
      urgent := if (s.spindle x.side x.pos).any (·.state = .waitRoving) then put s.roving.urgent
        else s.roving.urgent
      low := if (s.spindle x.side x.pos).any (fun sp => sp.state ≠ .waitRoving ∧ sp.state ≠ .parked) then put s.roving.low
        else s.roving.low }
  (∀ s,
    let t := trainReport .next s
    OnlyChanges [.roving, .bus, .line] s t ∧
    (s.roving.run ≠ .active → sent .noPosition s t ∧ t.roving = s.roving ∧ LineRaises [] s t) ∧
    (s.roving.run = .active → s.roving.slot.isSome → sent .wait s t ∧ t.roving = s.roving ∧ LineRaises [] s t) ∧
    (s.roving.run = .active → s.roving.slot = none → s.roving.urgent ++ s.roving.low = [] →
      sent .noPosition s t ∧ LineRaises [.rovingRunEnd] s t ∧
      t.roving = { s.roving with run := .idle, reason := some .empty }) ∧
    (∀ x rest, s.roving.run = .active → s.roving.slot = none → s.roving.urgent ++ s.roving.low = x :: rest →
      sent (.position x.side x.pos) s t ∧ LineRaises [] s t ∧ t.roving.slot = some x ∧
      t.roving.urgent ++ t.roving.low = rest ∧ t.roving.urgent = s.roving.urgent.tail ∧
      t.roving.timer = some s.items.slotTimeout ∧ t.roving.current = s.roving.current.map (· - 1) ∧
      t.roving.run = .active ∧ t.roving.base = s.roving.base ∧ t.roving.reason = s.roving.reason)) ∧
  (∀ s side pos,
    (s.roving.slot = some ⟨side, pos⟩ → emptied false ⟨side, pos⟩ s (trainReport (.skipped side pos) s)) ∧
    (s.roving.slot ≠ some ⟨side, pos⟩ → trainReport (.skipped side pos) s = s)) ∧
  (∀ s, (s.roving.slot = none → trainReport .present s = s) ∧
    ∀ x, s.roving.slot = some x → emptied true x s (trainReport .present s))

/-- R133, R134, R139, R26: a REPLACED report of the slot spindle or of a listed one: a RUNNING spindle makes the split
first, the figure becomes a full bobbin of the active article, a RUNNING or WAIT_ROVING spindle joins the break list with
cause ROVING_CHANGE, and one replacement is counted; a report of any other spindle has no effect. -/
def Obligations.ReplacementsAreTaken : Prop :=
  ∀ s side pos,
    let x : SpRef := ⟨side, pos⟩
    (s.roving.slot ≠ some x → x ∉ s.roving.urgent → x ∉ s.roving.low →
      trainReport (.replaced side pos) s = s) ∧
    (∀ sp, s.roving.slot = some x ∨ x ∈ s.roving.urgent ∨ x ∈ s.roving.low → s.spindle side pos = some sp →
      BreakLaw s → CreditsFit s → ClampLaw s →
      ∃ v, trainReport (.replaced side pos) s = dispatchTest side v ∧
        OnlyChanges [.spindles, .breakList, .breakSeq, .roving, .shift, .bus, .line] s v ∧
        let full := s.articles.active.bobbin * 1000
        let art := s.articles.active
        let ended : Bool := decide (s.roving.slot = some x) &&
          (s.roving.run == .ending || (s.roving.run == .active && s.roving.current == some 0))
        (v.roving = if s.roving.slot = some x then
            { s.roving with
              slot := none
              timer := none
              run := if ended = true then .idle else s.roving.run
              reason := if ended = true then some (if s.roving.run = .ending then .aborted else .count)
                else s.roving.reason }
          else { s.roving with
            urgent := s.roving.urgent.filter (· ≠ x), low := s.roving.low.filter (· ≠ x) }) ∧
        LineRaises ((if ended = true then [.rovingRunEnd] else []) ++ saturates side [.replacement] s) s v ∧
        Counted side [.replacement] s v ∧
        (if sp.state = .running then
          BothSides (fun sd => Credited sd (openSum (s.spindles.get sd) s.flmm) s v) ∧
          (∀ sd p, ¬(sd = side ∧ p = pos) → v.spindle sd p =
            (s.spindle sd p).map fun r => (if sd = side then asFound s side r else r).close art s.flmm) ∧
          v.spindle side pos = some { sp.close art s.flmm with
            state := .broken, marker := none, clamp := .closed, roving := some full, attempts := 0
            seq := some (counterFound s side + 1), cause := some .rovingChange, lockCause := none } ∧
          v.breakList = s.breakList.set side (s.breakList.get side ++ [pos]) ∧
          v.breakSeq = s.breakSeq.set side (counterFound s side + 1) ∧
          v.bus = (holdClamp side pos .closed s).bus
        else BothSides (fun sd => Credited sd 0 s v) ∧ OtherSideSame side s v ∧
          if sp.state = .waitRoving then
            JoinsList side pos { sp with roving := some full, cause := some .rovingChange, attempts := 0 } s v
          else RecordBecomes side pos { sp with roving := some full } s v ∧ v.breakList = s.breakList ∧
            v.breakSeq = s.breakSeq))

/-- R126, R122, R18, R19: the audit appends to the low segment the spindles that it selects, in ascending projected
figure, and raises ROVING_LOW exactly when it selects one; a window close moves g and the low streak by the rate where
the governor is enabled, and sets the window count to 0. -/
def Obligations.AuditAndWindowAct : Prop :=
  (∀ s,
    let rp (x : SpRef) : Option Nat := (s.spindle x.side x.pos).bind fun sp => sp.roving.map fun r =>
      r - (sp.openLength s.flmm * 100 + s.articles.active.draft100 - 1) / s.articles.active.draft100
    let selected (x : SpRef) : Prop := ∃ sp ∈ s.spindle x.side x.pos, sp.state ≠ .parked ∧
      x ∉ s.roving.urgent ∧ x ∉ s.roving.low ∧ s.roving.slot ≠ some x ∧
      ∃ r ∈ rp x, r < s.items.rovingThreshold * 1000
    ∃ added, OnlyChanges [.roving, .line] s (rovingAudit s) ∧
      (rovingAudit s).roving = { s.roving with low := s.roving.low ++ added } ∧
      LineRaises (if added = [] then [] else [.rovingLow]) s (rovingAudit s) ∧
      added.Nodup ∧ (∀ x, x ∈ added ↔ selected x) ∧
      added.Pairwise (fun x y => (rp x).getD 0 < (rp y).getD 0 ∨ ((rp x).getD 0 = (rp y).getD 0 ∧
        (x.side = y.side → x.pos < y.pos) ∧ ¬(x.side = .b ∧ y.side = .a)))) ∧
  (∀ s,
    let n := inService s .a + inService s .b
    let rate := s.speed.winCount * 1000 / n
    let judged : Prop := s.doff.effective.governor = true ∧ n ≠ 0
    let t := closeWindow s
    OnlyChanges [.speed, .line] s t ∧ t.speed.winCount = 0 ∧ t.speed.fill = s.speed.fill ∧
    (¬judged → t.speed = { s.speed with winCount := 0 }) ∧
    (judged → s.items.govHigh < rate → t.speed.step = min 8 (s.speed.step + 1) ∧ t.speed.lowStreak = 0) ∧
    (judged → s.items.govLow ≤ rate → rate ≤ s.items.govHigh →
      t.speed.step = s.speed.step ∧ t.speed.lowStreak = 0) ∧
    (judged → rate ≤ s.items.govHigh → rate < s.items.govLow →
      if s.speed.lowStreak < 2 then t.speed.step = s.speed.step ∧ t.speed.lowStreak = s.speed.lowStreak + 1
      else t.speed.step = s.speed.step - 1 ∧ t.speed.lowStreak = 0) ∧
    (t.speed.setPoint = if t.speed.step = s.speed.step then s.speed.setPoint else currentSetPoint t) ∧
    LineRaises (speedRaised s.speed.setPoint t.speed.setPoint) s t)

/-! ## The shift -/

/-- SHIFT_CLOSE completes (R152, R149, R153 to R157, R26), and the reading of the live shift by SHIFT_GET shows the
figures that a close at the same FLmm records (R158). The order of the sides in that reply is DEDUCED (log entry 9). -/
def Obligations.ShiftIsClosed : Prop :=
  (∀ s body, Served (.shiftClose body) s → CreditsFit s → HistoryLaw s →
    let side (sd : Side) : ClosedSide :=
      ⟨runNow s sd, possibleNow s sd,
        ((s.shift.live.sides.get sd).mass + openSum (s.spindles.get sd) s.flmm * s.articles.active.tex100 + 5000000) /
          10000000,
        if possibleNow s sd = 0 then none else some (runNow s sd * 1000 / possibleNow s sd),
        (s.shift.live.sides.get sd).counts⟩
    Replies (.shiftClose body) s .ok (fun _ => beBytes 4 s.shift.seq) fun s' u =>
      OnlyChanges [.spindles, .shift] s' u ∧
      BothSides (fun sd => u.spindles.get sd = (s.spindles.get sd).map (·.close s.articles.active s.flmm)) ∧
      u.shift.history =
        (if s.shift.history.length < 8 then s.shift.history else s.shift.history.tail) ++
          [⟨s.shift.seq, numAt body 0 2, numAt body 2 4, s.flmm, ⟨side .a, side .b⟩, s.shift.live.doffs,
            s.shift.live.exchanges, s.shift.live.marker⟩] ∧
      u.shift.live = State.reset.shift.live ∧ u.shift.marks = ⟨s.flmm, s.flmm⟩ ∧
      u.shift.seq = if 4294967295 ≤ s.shift.seq then 1 else s.shift.seq + 1) ∧
  (∀ s body label stamp r, Served (.shiftGetLive body) s → byteAt body 0 = 0#8 →
    (closeShift label stamp s).shift.history.getLast? = some r →
    Replies (.shiftGetLive body) s .ok
      (fun _ => field 4 r.seq ++ field 8 r.flmm ++ lengthBytes r.sides.a ++ countBytes r.sides.a.counts ++
        lengthBytes r.sides.b ++ countBytes r.sides.b.counts ++ field 2 r.doffs ++ field 2 r.exchanges ++
        flagField r.marker)
      fun s' u => u = s')

/-! ## The soft reset -/

/-- RESET is answered OK and changes nothing else, and SOFT_RESET completes once its reply has gone (R189, R200) with
each block's part: R9, R20, R48, R65, R84, R107, R120, R144, R161, R172. Without a RESET answered OK there is no soft
reset: the model's choice (log entry 3). That an open answer window and the cycle stand is DEDUCED (log entry 26), and
that a DOFF_STOP removes every DOFF_GO not yet carried is the model's choice (log entry 35). -/
def Obligations.SoftResetCompletes : Prop :=
  (∀ s, Served (.reset []) s → Replies (.reset []) s .ok (fun _ => []) fun s' u => u = s') ∧
  (∀ s, s.line.resetDue = false → exec .softReset s = .next s) ∧
  (∀ s, s.line.resetDue = true →
    let joins : Spindle → Bool := fun sp => sp.state == .broken || sp.state == .piecing
    let dropped : Carriage → Carriage := fun c => { c with
      order := none, returning := false, doffHold := false
      withdrawn := match c.order with
        | some (.piece target _ _) => some target
        | _ => c.withdrawn };
    let waiting : Side → List SpRef := fun side =>
      ((List.range' 1 (s.spindles.get side).length).filter fun pos =>
        (s.spindle side pos).any (·.state == .waitRoving)).map fun pos => ⟨side, pos⟩;
    ∃ t, exec .softReset s = .next t ∧
    OnlyChanges [.speed, .spindles, .breakList, .breakSeq, .carriages, .doff, .articles, .roving, .bus, .line] s t ∧
    BothSides (fun side =>
        let l := s.spindles.get side;
        let c := s.carriages.get side;
        t.breakSeq.get side = l.countP joins ∧ (t.spindles.get side).length = l.length ∧
        (∀ pos ∈ List.range' 1 l.length, t.spindle side pos = (s.spindle side pos).map fun sp =>
          if joins sp then { sp with
            state := .broken
            clamp := if sp.state = .piecing then .closed else sp.clamp
            seq := some ((l.take pos).countP joins) }
          else sp) ∧
        t.breakList.get side = (List.range' 1 l.length).filter (fun pos => (s.spindle side pos).any joins) ∧
        (t.carriages.get side = if c.state = .absent then dropped c else (dropped c).sentHome s) ∧
        (t.bus.carriages.get side =
          if c.state = .absent then s.bus.carriages.get side else (s.bus.carriages.get side).appendHome) ∧
        (t.bus.boards.get side).length = (s.bus.boards.get side).length ∧
        (∀ sec, ∀ e ∈ s.bus.board side sec, ∃ e' ∈ t.bus.board side sec,
          e'.link = e.link ∧ e'.carryPoint = e.carryPoint ∧ e'.held.length = e.held.length ∧
          ∀ p ∈ List.range' 1 48, p ≤ e.held.length → e'.held[p - 1]? =
            if (s.spindle side (48 * (sec - 1) + p)).any (·.state == .piecing) then some (some .closed)
            else e.held[p - 1]?)) ∧
    t.doff = { s.doff with
      frame := .stopped, watchStart := none, go := .none, done := ⟨[], []⟩
      timer := if s.doff.go = .sent then none else s.doff.timer
      ready := if s.doff.go = .sent then false else s.doff.ready
      last := s.doff.last.map fun r => if r.outcome = none then { r with outcome := some .aborted } else r
      effective := s.doff.saved.getD s.doff.effective
      saved := none } ∧
    t.articles = { s.articles with request := false } ∧
    t.speed = { s.speed with
      step := 0, winCount := 0, lowStreak := 0
      setPoint := setPointOf s.articles.active s.speed.fill s.items.speedTrim 0 .stopped } ∧
    (t.roving = { s.roving with
        urgent := waiting .a ++ waiting .b
        low := []
        slot := if s.roving.run = .idle then s.roving.slot else none
        timer := if s.roving.run = .idle then s.roving.timer else none
        run := .idle
        reason := if s.roving.run = .idle then s.roving.reason else some .aborted }) ∧
    (t.bus.doffer = if s.doff.go = .sent then s.bus.doffer.appendDoffStop else s.bus.doffer) ∧
    t.bus.train = { s.bus.train with queue := s.bus.train.queue.map fun q =>
      match q.cmd with
      | .position _ _ => ⟨.noPosition, if q.carried = true then !q.turn else q.turn, false⟩
      | .wait => ⟨.noPosition, if q.carried = true then !q.turn else q.turn, false⟩
      | _ => q } ∧
    t.bus.cycle = s.bus.cycle ∧ t.bus.awaiting = s.bus.awaiting ∧
    t.line = { s.line with
      resetDue := false
      pendingSet := withClasses
        ((if s.doff.frame = .stopped then [] else [.frameState]) ++
          (if s.roving.run = .idle then [] else [.rovingRunEnd]) ++ speedRaised s.speed.setPoint t.speed.setPoint)
        s.line.pendingSet })

/-! ## The frame bus -/

/-- POLL completes (R162, R163, R168, R169): the next station of the fixed cycle is polled with its receipt, a machine
station's head command with its turn, and up to 8 of a board's held clamp commands from above its carry point. Before
load end and while an answer window is open nothing is polled; the second clause is the model's choice (log entry 3).
That a command is carried to a SILENT machine station too is DEDUCED (log entry 16). A board of the cycle that has no
entry is passed without a poll; a lowering takes removed boards out of the cycle, so this is the model's own case (log
entry 25). -/
def Obligations.PollCarriesWhatIsHeld : Prop :=
  ∀ s,
    (s.phase ≠ .running ∨ s.bus.awaiting.isSome → exec .poll s = .next s) ∧
    (s.phase = .running → s.bus.awaiting = none → ∃ t, exec .poll s = .next t ∧ OnlyChanges [.bus] s t ∧
      let boards (side : Side) : List Station :=
        (List.range' 1 (s.bus.boards.get side).length).map fun sec => .board side sec
      let cycle := if s.bus.cycle = [] then
          [.carriage .a, .carriage .b, .doffer, .train] ++ boards .a ++ boards .b
        else s.bus.cycle
      ∀ st rest, cycle = st :: rest →
        (∀ e, s.bus.machine st = some e →
          let carried : MachineEntry := match e.queue with
            | [] => e
            | q :: qs => { e with carriedTurn := some q.turn, queue := { q with carried := true } :: qs }
          t.bus = { s.bus.setMachine st carried with
            cycle := rest
            awaiting := some ⟨st, e.link.turn, e.queue.head?.map fun q => (q.cmd, q.turn), []⟩ }) ∧
        (∀ side sec e, st = .board side sec → s.bus.board side sec = some e →
          let held : List (Nat × Clamp) := (List.range' 1 e.held.length).filterMap fun p =>
            (e.held[p - 1]?).join.map fun c => (p, c)
          let clamps := if e.link.status = .silent then []
            else (held.filter (fun h => e.carryPoint < h.1) ++ held.filter (fun h => h.1 ≤ e.carryPoint)).take 8
          t.bus = { s.bus.setBoard side sec { e with
              carryPoint := match clamps.getLast? with
                | some c => c.1
                | none => e.carryPoint } with
            cycle := rest
            awaiting := some ⟨st, e.link.turn, none, clamps⟩ }) ∧
        (∀ side sec, st = .board side sec → s.bus.board side sec = none → t.bus = { s.bus with cycle := rest }))

/-- ANSWER_WINDOW_EXPIRY completes (R164, R166, R71, R95): the miss count rises, a SILENT station keeps it, and at the
third miss the station becomes SILENT with LINE_FAULT and its owner is told. With no window open nothing expires: the
model's choice (log entry 3). For a board that a section change has removed only the window closes, which is DEDUCED (log
entry 25); one formed anew in its place takes the miss, which is the model's choice (log entry 32). -/
def Obligations.MissedPollsEndInSilence : Prop :=
  ∀ s,
    (s.bus.awaiting = none → exec .answerWindowExpiry s = .next s) ∧
    (∀ m, s.bus.awaiting = some m → s.bus.link m.station = none →
      exec .answerWindowExpiry s = .next (s.setBus { s.bus with awaiting := none })) ∧
    (∀ m l, s.bus.awaiting = some m → s.bus.link m.station = some l →
      let open' : Bus := { s.bus with awaiting := none }
      (l.status = .silent → exec .answerWindowExpiry s = .next (s.setBus open')) ∧
      (l.status ≠ .silent → l.miss + 1 < 3 →
        exec .answerWindowExpiry s = .next (s.setBus (open'.setLink m.station { l with miss := l.miss + 1 }))) ∧
      (l.status ≠ .silent → 3 ≤ l.miss + 1 → ∃ v t, exec .answerWindowExpiry s = .next t ∧
        OnlyChanges [.bus, .line] s v ∧ LineRaises [.lineFault] s v ∧
        v.bus = open'.setLink m.station { l with status := .silent, miss := 3, turn := none } ∧
        match m.station with
        | .carriage side => t = carriageSilent side (v.setBus { v.bus with
            carriages := v.bus.carriages.modify side fun e => { e with queue := [] } })
        | .doffer => t = v.setDoff { v.doff with ready := false }
        | .train => t = v
        | .board _ _ => t = v))

/-- STATION_ANSWER completes (R164, R165, R167, R168, R169): an answer that fails its check or names another station
leaves the poll missed; another is judged by its turn and restart mark, its receipt takes the head command from the
queue before its reports, and an accepted answer's reports go to their owners in order; a carriage still ABSENT at its
answer of return arrives (R71). With no window open no answer is taken: the model's choice (log entry 3). DEDUCED are
that arrival (log entry 13), the dispatch test after each report (log entry 23), that the answer of a removed board only
closes the window (log entry 25), and that acknowledgements act after a restart has the commands held anew (log entry
33); that a board formed anew takes the answer to the poll of the removed one is the model's choice (log entry 32). -/
def Obligations.AnswersAreJudged : Prop :=
  let accepted (l : Link) (a : Answer) : Bool :=
    if a.restart = true ∧ ¬(l.restartSeen = true ∧ l.turn = some a.turn) then true
    else if l.turn = none then true
    else decide (l.turn ≠ some a.turn)
  let link (l : Link) (a : Answer) : Link :=
    if accepted l a then ⟨.answering, 0, some a.turn, a.restart⟩ else { l with status := .answering, miss := 0 }
  let entry (e : MachineEntry) (a : Answer) (receipt : Option Bool) : MachineEntry := { e with
    link := link e.link a
    queue := if a.restart = true ∧ accepted e.link a = true then []
      else if e.queue.head?.any (fun q => receipt = some q.turn) then e.queue.tail else e.queue }
  (∀ s a, s.bus.awaiting = none → exec (.stationAnswer a) s = .next s) ∧
  (∀ s a m, s.bus.awaiting = some m → ¬(a.checkOk = true ∧ a.station = m.station) →
    exec (.stationAnswer a) s = exec .answerWindowExpiry s) ∧
  (∀ s a m receipt report, s.bus.awaiting = some m → a.checkOk = true → m.station = .train →
    a.payload = .train receipt report →
    let v := s.setBus { s.bus with awaiting := none, train := entry s.bus.train a receipt }
    exec (.stationAnswer a) s = .next (match report with
      | some r => if accepted s.bus.train.link a then trainReport r v else v
      | none => v)) ∧
  (∀ s a m receipt report, s.bus.awaiting = some m → a.checkOk = true → m.station = .doffer →
    a.payload = .doffer receipt report →
    let v := s.setBus { s.bus with awaiting := none, doffer := entry s.bus.doffer a receipt }
    exec (.stationAnswer a) s = .next (match report with
      | some r => if accepted s.bus.doffer.link a then dofferReport r v else v
      | none => v)) ∧
  (∀ (s : State) (a : Answer) (m : PollMessage) (side : Side) receipt report, s.bus.awaiting = some m → a.checkOk = true → m.station = .carriage side →
    a.payload = .carriage side receipt report →
    let e := s.bus.carriages.get side
    let v := s.setBus { s.bus with
      awaiting := none, carriages := s.bus.carriages.set side (entry e a receipt) }
    let w : State := match report with
      | some r => if accepted e.link a then carriageReport side r v else v
      | none => v
    exec (.stationAnswer a) s = .next
      (if e.link.status ≠ .answering ∧ (w.carriages.get side).state = .absent then carriageReport side .present w
      else w)) ∧
  (∀ s a m side sec items e, s.bus.awaiting = some m → a.checkOk = true → m.station = .board side sec →
    a.payload = .board side sec items → s.bus.board side sec = some e →
    let e' : BoardEntry := if a.restart = true ∧ accepted e.link a = true then
        ⟨link e.link a, (List.range 48).map fun i => (s.spindle side (48 * (sec - 1) + (i + 1))).map (·.clamp), 0⟩
      else { e with link := link e.link a }
    let v := s.setBus ({ s.bus with awaiting := none }.setBoard side sec e')
    exec (.stationAnswer a) s = .next
      (if accepted e.link a then items.foldl (boardItem side sec) v else v)) ∧
  (∀ s a m side sec items, s.bus.awaiting = some m → a.checkOk = true → m.station = .board side sec →
    a.payload = .board side sec items → s.bus.board side sec = none →
    exec (.stationAnswer a) s = .next (s.setBus { s.bus with awaiting := none })) ∧
  (∀ s side sec p c, ¬(1 ≤ p ∧ p ≤ 48) → boardItem side sec s (.yarnLost p) = s ∧
    boardItem side sec s (.yarnFound p) = s ∧ boardItem side sec s (.clampAck p c) = s) ∧
  (∀ s side sec p c e, 1 ≤ p → p ≤ 48 →
    boardItem side sec s (.yarnLost p) = yarnLost side (48 * (sec - 1) + p) s ∧
    boardItem side sec s (.yarnFound p) = yarnFound side (48 * (sec - 1) + p) s ∧
    (s.bus.board side sec = some e → boardItem side sec s (.clampAck p c) =
      if e.held[p - 1]? = some (some c) then
        s.setBus (s.bus.setBoard side sec { e with held := e.held.set (p - 1) none })
      else s))
end

