-- ==== Sys2Proof/Laws/State.lean ====
section
/-!
SUPPORT. One lemma for each field of the state under each of its updates, and the reading of a side.
-/
namespace Sys2Proof.Machine

@[simp] theorem State.setPending_pending (s : State) (v : List Instr) : (s.setPending v).pending = v := rfl
@[simp] theorem State.setPending_freeCount (s : State) (v : List Instr) : (s.setPending v).freeCount = s.freeCount := rfl
@[simp] theorem State.setPending_phase (s : State) (v : List Instr) : (s.setPending v).phase = s.phase := rfl
@[simp] theorem State.setPending_loader (s : State) (v : List Instr) : (s.setPending v).loader = s.loader := rfl
@[simp] theorem State.setPending_items (s : State) (v : List Instr) : (s.setPending v).items = s.items := rfl
@[simp] theorem State.setPending_roller (s : State) (v : List Instr) : (s.setPending v).roller = s.roller := rfl
@[simp] theorem State.setPending_speed (s : State) (v : List Instr) : (s.setPending v).speed = s.speed := rfl
@[simp] theorem State.setPending_spindles (s : State) (v : List Instr) : (s.setPending v).spindles = s.spindles := rfl
@[simp] theorem State.setPending_breakList (s : State) (v : List Instr) : (s.setPending v).breakList = s.breakList := rfl
@[simp] theorem State.setPending_breakSeq (s : State) (v : List Instr) : (s.setPending v).breakSeq = s.breakSeq := rfl
@[simp] theorem State.setPending_carriages (s : State) (v : List Instr) : (s.setPending v).carriages = s.carriages := rfl
@[simp] theorem State.setPending_doff (s : State) (v : List Instr) : (s.setPending v).doff = s.doff := rfl
@[simp] theorem State.setPending_articles (s : State) (v : List Instr) : (s.setPending v).articles = s.articles := rfl
@[simp] theorem State.setPending_roving (s : State) (v : List Instr) : (s.setPending v).roving = s.roving := rfl
@[simp] theorem State.setPending_shift (s : State) (v : List Instr) : (s.setPending v).shift = s.shift := rfl
@[simp] theorem State.setPending_bus (s : State) (v : List Instr) : (s.setPending v).bus = s.bus := rfl
@[simp] theorem State.setPending_line (s : State) (v : List Instr) : (s.setPending v).line = s.line := rfl

@[simp] theorem State.setFreeCount_pending (s : State) (v : Nat) : (s.setFreeCount v).pending = s.pending := rfl
@[simp] theorem State.setFreeCount_freeCount (s : State) (v : Nat) : (s.setFreeCount v).freeCount = v := rfl
@[simp] theorem State.setFreeCount_phase (s : State) (v : Nat) : (s.setFreeCount v).phase = s.phase := rfl
@[simp] theorem State.setFreeCount_loader (s : State) (v : Nat) : (s.setFreeCount v).loader = s.loader := rfl
@[simp] theorem State.setFreeCount_items (s : State) (v : Nat) : (s.setFreeCount v).items = s.items := rfl
@[simp] theorem State.setFreeCount_roller (s : State) (v : Nat) : (s.setFreeCount v).roller = s.roller := rfl
@[simp] theorem State.setFreeCount_speed (s : State) (v : Nat) : (s.setFreeCount v).speed = s.speed := rfl
@[simp] theorem State.setFreeCount_spindles (s : State) (v : Nat) : (s.setFreeCount v).spindles = s.spindles := rfl
@[simp] theorem State.setFreeCount_breakList (s : State) (v : Nat) : (s.setFreeCount v).breakList = s.breakList := rfl
@[simp] theorem State.setFreeCount_breakSeq (s : State) (v : Nat) : (s.setFreeCount v).breakSeq = s.breakSeq := rfl
@[simp] theorem State.setFreeCount_carriages (s : State) (v : Nat) : (s.setFreeCount v).carriages = s.carriages := rfl
@[simp] theorem State.setFreeCount_doff (s : State) (v : Nat) : (s.setFreeCount v).doff = s.doff := rfl
@[simp] theorem State.setFreeCount_articles (s : State) (v : Nat) : (s.setFreeCount v).articles = s.articles := rfl
@[simp] theorem State.setFreeCount_roving (s : State) (v : Nat) : (s.setFreeCount v).roving = s.roving := rfl
@[simp] theorem State.setFreeCount_shift (s : State) (v : Nat) : (s.setFreeCount v).shift = s.shift := rfl
@[simp] theorem State.setFreeCount_bus (s : State) (v : Nat) : (s.setFreeCount v).bus = s.bus := rfl
@[simp] theorem State.setFreeCount_line (s : State) (v : Nat) : (s.setFreeCount v).line = s.line := rfl

@[simp] theorem State.setPhase_pending (s : State) (v : Phase) : (s.setPhase v).pending = s.pending := rfl
@[simp] theorem State.setPhase_freeCount (s : State) (v : Phase) : (s.setPhase v).freeCount = s.freeCount := rfl
@[simp] theorem State.setPhase_phase (s : State) (v : Phase) : (s.setPhase v).phase = v := rfl
@[simp] theorem State.setPhase_loader (s : State) (v : Phase) : (s.setPhase v).loader = s.loader := rfl
@[simp] theorem State.setPhase_items (s : State) (v : Phase) : (s.setPhase v).items = s.items := rfl
@[simp] theorem State.setPhase_roller (s : State) (v : Phase) : (s.setPhase v).roller = s.roller := rfl
@[simp] theorem State.setPhase_speed (s : State) (v : Phase) : (s.setPhase v).speed = s.speed := rfl
@[simp] theorem State.setPhase_spindles (s : State) (v : Phase) : (s.setPhase v).spindles = s.spindles := rfl
@[simp] theorem State.setPhase_breakList (s : State) (v : Phase) : (s.setPhase v).breakList = s.breakList := rfl
@[simp] theorem State.setPhase_breakSeq (s : State) (v : Phase) : (s.setPhase v).breakSeq = s.breakSeq := rfl
@[simp] theorem State.setPhase_carriages (s : State) (v : Phase) : (s.setPhase v).carriages = s.carriages := rfl
@[simp] theorem State.setPhase_doff (s : State) (v : Phase) : (s.setPhase v).doff = s.doff := rfl
@[simp] theorem State.setPhase_articles (s : State) (v : Phase) : (s.setPhase v).articles = s.articles := rfl
@[simp] theorem State.setPhase_roving (s : State) (v : Phase) : (s.setPhase v).roving = s.roving := rfl
@[simp] theorem State.setPhase_shift (s : State) (v : Phase) : (s.setPhase v).shift = s.shift := rfl
@[simp] theorem State.setPhase_bus (s : State) (v : Phase) : (s.setPhase v).bus = s.bus := rfl
@[simp] theorem State.setPhase_line (s : State) (v : Phase) : (s.setPhase v).line = s.line := rfl

@[simp] theorem State.setLoader_pending (s : State) (v : Loader) : (s.setLoader v).pending = s.pending := rfl
@[simp] theorem State.setLoader_freeCount (s : State) (v : Loader) : (s.setLoader v).freeCount = s.freeCount := rfl
@[simp] theorem State.setLoader_phase (s : State) (v : Loader) : (s.setLoader v).phase = s.phase := rfl
@[simp] theorem State.setLoader_loader (s : State) (v : Loader) : (s.setLoader v).loader = v := rfl
@[simp] theorem State.setLoader_items (s : State) (v : Loader) : (s.setLoader v).items = s.items := rfl
@[simp] theorem State.setLoader_roller (s : State) (v : Loader) : (s.setLoader v).roller = s.roller := rfl
@[simp] theorem State.setLoader_speed (s : State) (v : Loader) : (s.setLoader v).speed = s.speed := rfl
@[simp] theorem State.setLoader_spindles (s : State) (v : Loader) : (s.setLoader v).spindles = s.spindles := rfl
@[simp] theorem State.setLoader_breakList (s : State) (v : Loader) : (s.setLoader v).breakList = s.breakList := rfl
@[simp] theorem State.setLoader_breakSeq (s : State) (v : Loader) : (s.setLoader v).breakSeq = s.breakSeq := rfl
@[simp] theorem State.setLoader_carriages (s : State) (v : Loader) : (s.setLoader v).carriages = s.carriages := rfl
@[simp] theorem State.setLoader_doff (s : State) (v : Loader) : (s.setLoader v).doff = s.doff := rfl
@[simp] theorem State.setLoader_articles (s : State) (v : Loader) : (s.setLoader v).articles = s.articles := rfl
@[simp] theorem State.setLoader_roving (s : State) (v : Loader) : (s.setLoader v).roving = s.roving := rfl
@[simp] theorem State.setLoader_shift (s : State) (v : Loader) : (s.setLoader v).shift = s.shift := rfl
@[simp] theorem State.setLoader_bus (s : State) (v : Loader) : (s.setLoader v).bus = s.bus := rfl
@[simp] theorem State.setLoader_line (s : State) (v : Loader) : (s.setLoader v).line = s.line := rfl

@[simp] theorem State.setItems_pending (s : State) (v : Items) : (s.setItems v).pending = s.pending := rfl
@[simp] theorem State.setItems_freeCount (s : State) (v : Items) : (s.setItems v).freeCount = s.freeCount := rfl
@[simp] theorem State.setItems_phase (s : State) (v : Items) : (s.setItems v).phase = s.phase := rfl
@[simp] theorem State.setItems_loader (s : State) (v : Items) : (s.setItems v).loader = s.loader := rfl
@[simp] theorem State.setItems_items (s : State) (v : Items) : (s.setItems v).items = v := rfl
@[simp] theorem State.setItems_roller (s : State) (v : Items) : (s.setItems v).roller = s.roller := rfl
@[simp] theorem State.setItems_speed (s : State) (v : Items) : (s.setItems v).speed = s.speed := rfl
@[simp] theorem State.setItems_spindles (s : State) (v : Items) : (s.setItems v).spindles = s.spindles := rfl
@[simp] theorem State.setItems_breakList (s : State) (v : Items) : (s.setItems v).breakList = s.breakList := rfl
@[simp] theorem State.setItems_breakSeq (s : State) (v : Items) : (s.setItems v).breakSeq = s.breakSeq := rfl
@[simp] theorem State.setItems_carriages (s : State) (v : Items) : (s.setItems v).carriages = s.carriages := rfl
@[simp] theorem State.setItems_doff (s : State) (v : Items) : (s.setItems v).doff = s.doff := rfl
@[simp] theorem State.setItems_articles (s : State) (v : Items) : (s.setItems v).articles = s.articles := rfl
@[simp] theorem State.setItems_roving (s : State) (v : Items) : (s.setItems v).roving = s.roving := rfl
@[simp] theorem State.setItems_shift (s : State) (v : Items) : (s.setItems v).shift = s.shift := rfl
@[simp] theorem State.setItems_bus (s : State) (v : Items) : (s.setItems v).bus = s.bus := rfl
@[simp] theorem State.setItems_line (s : State) (v : Items) : (s.setItems v).line = s.line := rfl

@[simp] theorem State.setRoller_pending (s : State) (v : Roller) : (s.setRoller v).pending = s.pending := rfl
@[simp] theorem State.setRoller_freeCount (s : State) (v : Roller) : (s.setRoller v).freeCount = s.freeCount := rfl
@[simp] theorem State.setRoller_phase (s : State) (v : Roller) : (s.setRoller v).phase = s.phase := rfl
@[simp] theorem State.setRoller_loader (s : State) (v : Roller) : (s.setRoller v).loader = s.loader := rfl
@[simp] theorem State.setRoller_items (s : State) (v : Roller) : (s.setRoller v).items = s.items := rfl
@[simp] theorem State.setRoller_roller (s : State) (v : Roller) : (s.setRoller v).roller = v := rfl
@[simp] theorem State.setRoller_speed (s : State) (v : Roller) : (s.setRoller v).speed = s.speed := rfl
@[simp] theorem State.setRoller_spindles (s : State) (v : Roller) : (s.setRoller v).spindles = s.spindles := rfl
@[simp] theorem State.setRoller_breakList (s : State) (v : Roller) : (s.setRoller v).breakList = s.breakList := rfl
@[simp] theorem State.setRoller_breakSeq (s : State) (v : Roller) : (s.setRoller v).breakSeq = s.breakSeq := rfl
@[simp] theorem State.setRoller_carriages (s : State) (v : Roller) : (s.setRoller v).carriages = s.carriages := rfl
@[simp] theorem State.setRoller_doff (s : State) (v : Roller) : (s.setRoller v).doff = s.doff := rfl
@[simp] theorem State.setRoller_articles (s : State) (v : Roller) : (s.setRoller v).articles = s.articles := rfl
@[simp] theorem State.setRoller_roving (s : State) (v : Roller) : (s.setRoller v).roving = s.roving := rfl
@[simp] theorem State.setRoller_shift (s : State) (v : Roller) : (s.setRoller v).shift = s.shift := rfl
@[simp] theorem State.setRoller_bus (s : State) (v : Roller) : (s.setRoller v).bus = s.bus := rfl
@[simp] theorem State.setRoller_line (s : State) (v : Roller) : (s.setRoller v).line = s.line := rfl

@[simp] theorem State.setSpeed_pending (s : State) (v : Speed) : (s.setSpeed v).pending = s.pending := rfl
@[simp] theorem State.setSpeed_freeCount (s : State) (v : Speed) : (s.setSpeed v).freeCount = s.freeCount := rfl
@[simp] theorem State.setSpeed_phase (s : State) (v : Speed) : (s.setSpeed v).phase = s.phase := rfl
@[simp] theorem State.setSpeed_loader (s : State) (v : Speed) : (s.setSpeed v).loader = s.loader := rfl
@[simp] theorem State.setSpeed_items (s : State) (v : Speed) : (s.setSpeed v).items = s.items := rfl
@[simp] theorem State.setSpeed_roller (s : State) (v : Speed) : (s.setSpeed v).roller = s.roller := rfl
@[simp] theorem State.setSpeed_speed (s : State) (v : Speed) : (s.setSpeed v).speed = v := rfl
@[simp] theorem State.setSpeed_spindles (s : State) (v : Speed) : (s.setSpeed v).spindles = s.spindles := rfl
@[simp] theorem State.setSpeed_breakList (s : State) (v : Speed) : (s.setSpeed v).breakList = s.breakList := rfl
@[simp] theorem State.setSpeed_breakSeq (s : State) (v : Speed) : (s.setSpeed v).breakSeq = s.breakSeq := rfl
@[simp] theorem State.setSpeed_carriages (s : State) (v : Speed) : (s.setSpeed v).carriages = s.carriages := rfl
@[simp] theorem State.setSpeed_doff (s : State) (v : Speed) : (s.setSpeed v).doff = s.doff := rfl
@[simp] theorem State.setSpeed_articles (s : State) (v : Speed) : (s.setSpeed v).articles = s.articles := rfl
@[simp] theorem State.setSpeed_roving (s : State) (v : Speed) : (s.setSpeed v).roving = s.roving := rfl
@[simp] theorem State.setSpeed_shift (s : State) (v : Speed) : (s.setSpeed v).shift = s.shift := rfl
@[simp] theorem State.setSpeed_bus (s : State) (v : Speed) : (s.setSpeed v).bus = s.bus := rfl
@[simp] theorem State.setSpeed_line (s : State) (v : Speed) : (s.setSpeed v).line = s.line := rfl

@[simp] theorem State.setSpindles_pending (s : State) (v : Sides (List Spindle)) : (s.setSpindles v).pending = s.pending := rfl
@[simp] theorem State.setSpindles_freeCount (s : State) (v : Sides (List Spindle)) : (s.setSpindles v).freeCount = s.freeCount := rfl
@[simp] theorem State.setSpindles_phase (s : State) (v : Sides (List Spindle)) : (s.setSpindles v).phase = s.phase := rfl
@[simp] theorem State.setSpindles_loader (s : State) (v : Sides (List Spindle)) : (s.setSpindles v).loader = s.loader := rfl
@[simp] theorem State.setSpindles_items (s : State) (v : Sides (List Spindle)) : (s.setSpindles v).items = s.items := rfl
@[simp] theorem State.setSpindles_roller (s : State) (v : Sides (List Spindle)) : (s.setSpindles v).roller = s.roller := rfl
@[simp] theorem State.setSpindles_speed (s : State) (v : Sides (List Spindle)) : (s.setSpindles v).speed = s.speed := rfl
@[simp] theorem State.setSpindles_spindles (s : State) (v : Sides (List Spindle)) : (s.setSpindles v).spindles = v := rfl
@[simp] theorem State.setSpindles_breakList (s : State) (v : Sides (List Spindle)) : (s.setSpindles v).breakList = s.breakList := rfl
@[simp] theorem State.setSpindles_breakSeq (s : State) (v : Sides (List Spindle)) : (s.setSpindles v).breakSeq = s.breakSeq := rfl
@[simp] theorem State.setSpindles_carriages (s : State) (v : Sides (List Spindle)) : (s.setSpindles v).carriages = s.carriages := rfl
@[simp] theorem State.setSpindles_doff (s : State) (v : Sides (List Spindle)) : (s.setSpindles v).doff = s.doff := rfl
@[simp] theorem State.setSpindles_articles (s : State) (v : Sides (List Spindle)) : (s.setSpindles v).articles = s.articles := rfl
@[simp] theorem State.setSpindles_roving (s : State) (v : Sides (List Spindle)) : (s.setSpindles v).roving = s.roving := rfl
@[simp] theorem State.setSpindles_shift (s : State) (v : Sides (List Spindle)) : (s.setSpindles v).shift = s.shift := rfl
@[simp] theorem State.setSpindles_bus (s : State) (v : Sides (List Spindle)) : (s.setSpindles v).bus = s.bus := rfl
@[simp] theorem State.setSpindles_line (s : State) (v : Sides (List Spindle)) : (s.setSpindles v).line = s.line := rfl

@[simp] theorem State.setBreakList_pending (s : State) (v : Sides (List Nat)) : (s.setBreakList v).pending = s.pending := rfl
@[simp] theorem State.setBreakList_freeCount (s : State) (v : Sides (List Nat)) : (s.setBreakList v).freeCount = s.freeCount := rfl
@[simp] theorem State.setBreakList_phase (s : State) (v : Sides (List Nat)) : (s.setBreakList v).phase = s.phase := rfl
@[simp] theorem State.setBreakList_loader (s : State) (v : Sides (List Nat)) : (s.setBreakList v).loader = s.loader := rfl
@[simp] theorem State.setBreakList_items (s : State) (v : Sides (List Nat)) : (s.setBreakList v).items = s.items := rfl
@[simp] theorem State.setBreakList_roller (s : State) (v : Sides (List Nat)) : (s.setBreakList v).roller = s.roller := rfl
@[simp] theorem State.setBreakList_speed (s : State) (v : Sides (List Nat)) : (s.setBreakList v).speed = s.speed := rfl
@[simp] theorem State.setBreakList_spindles (s : State) (v : Sides (List Nat)) : (s.setBreakList v).spindles = s.spindles := rfl
@[simp] theorem State.setBreakList_breakList (s : State) (v : Sides (List Nat)) : (s.setBreakList v).breakList = v := rfl
@[simp] theorem State.setBreakList_breakSeq (s : State) (v : Sides (List Nat)) : (s.setBreakList v).breakSeq = s.breakSeq := rfl
@[simp] theorem State.setBreakList_carriages (s : State) (v : Sides (List Nat)) : (s.setBreakList v).carriages = s.carriages := rfl
@[simp] theorem State.setBreakList_doff (s : State) (v : Sides (List Nat)) : (s.setBreakList v).doff = s.doff := rfl
@[simp] theorem State.setBreakList_articles (s : State) (v : Sides (List Nat)) : (s.setBreakList v).articles = s.articles := rfl
@[simp] theorem State.setBreakList_roving (s : State) (v : Sides (List Nat)) : (s.setBreakList v).roving = s.roving := rfl
@[simp] theorem State.setBreakList_shift (s : State) (v : Sides (List Nat)) : (s.setBreakList v).shift = s.shift := rfl
@[simp] theorem State.setBreakList_bus (s : State) (v : Sides (List Nat)) : (s.setBreakList v).bus = s.bus := rfl
@[simp] theorem State.setBreakList_line (s : State) (v : Sides (List Nat)) : (s.setBreakList v).line = s.line := rfl

@[simp] theorem State.setBreakSeq_pending (s : State) (v : Sides Nat) : (s.setBreakSeq v).pending = s.pending := rfl
@[simp] theorem State.setBreakSeq_freeCount (s : State) (v : Sides Nat) : (s.setBreakSeq v).freeCount = s.freeCount := rfl
@[simp] theorem State.setBreakSeq_phase (s : State) (v : Sides Nat) : (s.setBreakSeq v).phase = s.phase := rfl
@[simp] theorem State.setBreakSeq_loader (s : State) (v : Sides Nat) : (s.setBreakSeq v).loader = s.loader := rfl
@[simp] theorem State.setBreakSeq_items (s : State) (v : Sides Nat) : (s.setBreakSeq v).items = s.items := rfl
@[simp] theorem State.setBreakSeq_roller (s : State) (v : Sides Nat) : (s.setBreakSeq v).roller = s.roller := rfl
@[simp] theorem State.setBreakSeq_speed (s : State) (v : Sides Nat) : (s.setBreakSeq v).speed = s.speed := rfl
@[simp] theorem State.setBreakSeq_spindles (s : State) (v : Sides Nat) : (s.setBreakSeq v).spindles = s.spindles := rfl
@[simp] theorem State.setBreakSeq_breakList (s : State) (v : Sides Nat) : (s.setBreakSeq v).breakList = s.breakList := rfl
@[simp] theorem State.setBreakSeq_breakSeq (s : State) (v : Sides Nat) : (s.setBreakSeq v).breakSeq = v := rfl
@[simp] theorem State.setBreakSeq_carriages (s : State) (v : Sides Nat) : (s.setBreakSeq v).carriages = s.carriages := rfl
@[simp] theorem State.setBreakSeq_doff (s : State) (v : Sides Nat) : (s.setBreakSeq v).doff = s.doff := rfl
@[simp] theorem State.setBreakSeq_articles (s : State) (v : Sides Nat) : (s.setBreakSeq v).articles = s.articles := rfl
@[simp] theorem State.setBreakSeq_roving (s : State) (v : Sides Nat) : (s.setBreakSeq v).roving = s.roving := rfl
@[simp] theorem State.setBreakSeq_shift (s : State) (v : Sides Nat) : (s.setBreakSeq v).shift = s.shift := rfl
@[simp] theorem State.setBreakSeq_bus (s : State) (v : Sides Nat) : (s.setBreakSeq v).bus = s.bus := rfl
@[simp] theorem State.setBreakSeq_line (s : State) (v : Sides Nat) : (s.setBreakSeq v).line = s.line := rfl

@[simp] theorem State.setCarriages_pending (s : State) (v : Sides Carriage) : (s.setCarriages v).pending = s.pending := rfl
@[simp] theorem State.setCarriages_freeCount (s : State) (v : Sides Carriage) : (s.setCarriages v).freeCount = s.freeCount := rfl
@[simp] theorem State.setCarriages_phase (s : State) (v : Sides Carriage) : (s.setCarriages v).phase = s.phase := rfl
@[simp] theorem State.setCarriages_loader (s : State) (v : Sides Carriage) : (s.setCarriages v).loader = s.loader := rfl
@[simp] theorem State.setCarriages_items (s : State) (v : Sides Carriage) : (s.setCarriages v).items = s.items := rfl
@[simp] theorem State.setCarriages_roller (s : State) (v : Sides Carriage) : (s.setCarriages v).roller = s.roller := rfl
@[simp] theorem State.setCarriages_speed (s : State) (v : Sides Carriage) : (s.setCarriages v).speed = s.speed := rfl
@[simp] theorem State.setCarriages_spindles (s : State) (v : Sides Carriage) : (s.setCarriages v).spindles = s.spindles := rfl
@[simp] theorem State.setCarriages_breakList (s : State) (v : Sides Carriage) : (s.setCarriages v).breakList = s.breakList := rfl
@[simp] theorem State.setCarriages_breakSeq (s : State) (v : Sides Carriage) : (s.setCarriages v).breakSeq = s.breakSeq := rfl
@[simp] theorem State.setCarriages_carriages (s : State) (v : Sides Carriage) : (s.setCarriages v).carriages = v := rfl
@[simp] theorem State.setCarriages_doff (s : State) (v : Sides Carriage) : (s.setCarriages v).doff = s.doff := rfl
@[simp] theorem State.setCarriages_articles (s : State) (v : Sides Carriage) : (s.setCarriages v).articles = s.articles := rfl
@[simp] theorem State.setCarriages_roving (s : State) (v : Sides Carriage) : (s.setCarriages v).roving = s.roving := rfl
@[simp] theorem State.setCarriages_shift (s : State) (v : Sides Carriage) : (s.setCarriages v).shift = s.shift := rfl
@[simp] theorem State.setCarriages_bus (s : State) (v : Sides Carriage) : (s.setCarriages v).bus = s.bus := rfl
@[simp] theorem State.setCarriages_line (s : State) (v : Sides Carriage) : (s.setCarriages v).line = s.line := rfl

@[simp] theorem State.setDoff_pending (s : State) (v : Doff) : (s.setDoff v).pending = s.pending := rfl
@[simp] theorem State.setDoff_freeCount (s : State) (v : Doff) : (s.setDoff v).freeCount = s.freeCount := rfl
@[simp] theorem State.setDoff_phase (s : State) (v : Doff) : (s.setDoff v).phase = s.phase := rfl
@[simp] theorem State.setDoff_loader (s : State) (v : Doff) : (s.setDoff v).loader = s.loader := rfl
@[simp] theorem State.setDoff_items (s : State) (v : Doff) : (s.setDoff v).items = s.items := rfl
@[simp] theorem State.setDoff_roller (s : State) (v : Doff) : (s.setDoff v).roller = s.roller := rfl
@[simp] theorem State.setDoff_speed (s : State) (v : Doff) : (s.setDoff v).speed = s.speed := rfl
@[simp] theorem State.setDoff_spindles (s : State) (v : Doff) : (s.setDoff v).spindles = s.spindles := rfl
@[simp] theorem State.setDoff_breakList (s : State) (v : Doff) : (s.setDoff v).breakList = s.breakList := rfl
@[simp] theorem State.setDoff_breakSeq (s : State) (v : Doff) : (s.setDoff v).breakSeq = s.breakSeq := rfl
@[simp] theorem State.setDoff_carriages (s : State) (v : Doff) : (s.setDoff v).carriages = s.carriages := rfl
@[simp] theorem State.setDoff_doff (s : State) (v : Doff) : (s.setDoff v).doff = v := rfl
@[simp] theorem State.setDoff_articles (s : State) (v : Doff) : (s.setDoff v).articles = s.articles := rfl
@[simp] theorem State.setDoff_roving (s : State) (v : Doff) : (s.setDoff v).roving = s.roving := rfl
@[simp] theorem State.setDoff_shift (s : State) (v : Doff) : (s.setDoff v).shift = s.shift := rfl
@[simp] theorem State.setDoff_bus (s : State) (v : Doff) : (s.setDoff v).bus = s.bus := rfl
@[simp] theorem State.setDoff_line (s : State) (v : Doff) : (s.setDoff v).line = s.line := rfl

@[simp] theorem State.setArticles_pending (s : State) (v : ArticleStore) : (s.setArticles v).pending = s.pending := rfl
@[simp] theorem State.setArticles_freeCount (s : State) (v : ArticleStore) : (s.setArticles v).freeCount = s.freeCount := rfl
@[simp] theorem State.setArticles_phase (s : State) (v : ArticleStore) : (s.setArticles v).phase = s.phase := rfl
@[simp] theorem State.setArticles_loader (s : State) (v : ArticleStore) : (s.setArticles v).loader = s.loader := rfl
@[simp] theorem State.setArticles_items (s : State) (v : ArticleStore) : (s.setArticles v).items = s.items := rfl
@[simp] theorem State.setArticles_roller (s : State) (v : ArticleStore) : (s.setArticles v).roller = s.roller := rfl
@[simp] theorem State.setArticles_speed (s : State) (v : ArticleStore) : (s.setArticles v).speed = s.speed := rfl
@[simp] theorem State.setArticles_spindles (s : State) (v : ArticleStore) : (s.setArticles v).spindles = s.spindles := rfl
@[simp] theorem State.setArticles_breakList (s : State) (v : ArticleStore) : (s.setArticles v).breakList = s.breakList := rfl
@[simp] theorem State.setArticles_breakSeq (s : State) (v : ArticleStore) : (s.setArticles v).breakSeq = s.breakSeq := rfl
@[simp] theorem State.setArticles_carriages (s : State) (v : ArticleStore) : (s.setArticles v).carriages = s.carriages := rfl
@[simp] theorem State.setArticles_doff (s : State) (v : ArticleStore) : (s.setArticles v).doff = s.doff := rfl
@[simp] theorem State.setArticles_articles (s : State) (v : ArticleStore) : (s.setArticles v).articles = v := rfl
@[simp] theorem State.setArticles_roving (s : State) (v : ArticleStore) : (s.setArticles v).roving = s.roving := rfl
@[simp] theorem State.setArticles_shift (s : State) (v : ArticleStore) : (s.setArticles v).shift = s.shift := rfl
@[simp] theorem State.setArticles_bus (s : State) (v : ArticleStore) : (s.setArticles v).bus = s.bus := rfl
@[simp] theorem State.setArticles_line (s : State) (v : ArticleStore) : (s.setArticles v).line = s.line := rfl

@[simp] theorem State.setRoving_pending (s : State) (v : Roving) : (s.setRoving v).pending = s.pending := rfl
@[simp] theorem State.setRoving_freeCount (s : State) (v : Roving) : (s.setRoving v).freeCount = s.freeCount := rfl
@[simp] theorem State.setRoving_phase (s : State) (v : Roving) : (s.setRoving v).phase = s.phase := rfl
@[simp] theorem State.setRoving_loader (s : State) (v : Roving) : (s.setRoving v).loader = s.loader := rfl
@[simp] theorem State.setRoving_items (s : State) (v : Roving) : (s.setRoving v).items = s.items := rfl
@[simp] theorem State.setRoving_roller (s : State) (v : Roving) : (s.setRoving v).roller = s.roller := rfl
@[simp] theorem State.setRoving_speed (s : State) (v : Roving) : (s.setRoving v).speed = s.speed := rfl
@[simp] theorem State.setRoving_spindles (s : State) (v : Roving) : (s.setRoving v).spindles = s.spindles := rfl
@[simp] theorem State.setRoving_breakList (s : State) (v : Roving) : (s.setRoving v).breakList = s.breakList := rfl
@[simp] theorem State.setRoving_breakSeq (s : State) (v : Roving) : (s.setRoving v).breakSeq = s.breakSeq := rfl
@[simp] theorem State.setRoving_carriages (s : State) (v : Roving) : (s.setRoving v).carriages = s.carriages := rfl
@[simp] theorem State.setRoving_doff (s : State) (v : Roving) : (s.setRoving v).doff = s.doff := rfl
@[simp] theorem State.setRoving_articles (s : State) (v : Roving) : (s.setRoving v).articles = s.articles := rfl
@[simp] theorem State.setRoving_roving (s : State) (v : Roving) : (s.setRoving v).roving = v := rfl
@[simp] theorem State.setRoving_shift (s : State) (v : Roving) : (s.setRoving v).shift = s.shift := rfl
@[simp] theorem State.setRoving_bus (s : State) (v : Roving) : (s.setRoving v).bus = s.bus := rfl
@[simp] theorem State.setRoving_line (s : State) (v : Roving) : (s.setRoving v).line = s.line := rfl

@[simp] theorem State.setShift_pending (s : State) (v : Shift) : (s.setShift v).pending = s.pending := rfl
@[simp] theorem State.setShift_freeCount (s : State) (v : Shift) : (s.setShift v).freeCount = s.freeCount := rfl
@[simp] theorem State.setShift_phase (s : State) (v : Shift) : (s.setShift v).phase = s.phase := rfl
@[simp] theorem State.setShift_loader (s : State) (v : Shift) : (s.setShift v).loader = s.loader := rfl
@[simp] theorem State.setShift_items (s : State) (v : Shift) : (s.setShift v).items = s.items := rfl
@[simp] theorem State.setShift_roller (s : State) (v : Shift) : (s.setShift v).roller = s.roller := rfl
@[simp] theorem State.setShift_speed (s : State) (v : Shift) : (s.setShift v).speed = s.speed := rfl
@[simp] theorem State.setShift_spindles (s : State) (v : Shift) : (s.setShift v).spindles = s.spindles := rfl
@[simp] theorem State.setShift_breakList (s : State) (v : Shift) : (s.setShift v).breakList = s.breakList := rfl
@[simp] theorem State.setShift_breakSeq (s : State) (v : Shift) : (s.setShift v).breakSeq = s.breakSeq := rfl
@[simp] theorem State.setShift_carriages (s : State) (v : Shift) : (s.setShift v).carriages = s.carriages := rfl
@[simp] theorem State.setShift_doff (s : State) (v : Shift) : (s.setShift v).doff = s.doff := rfl
@[simp] theorem State.setShift_articles (s : State) (v : Shift) : (s.setShift v).articles = s.articles := rfl
@[simp] theorem State.setShift_roving (s : State) (v : Shift) : (s.setShift v).roving = s.roving := rfl
@[simp] theorem State.setShift_shift (s : State) (v : Shift) : (s.setShift v).shift = v := rfl
@[simp] theorem State.setShift_bus (s : State) (v : Shift) : (s.setShift v).bus = s.bus := rfl
@[simp] theorem State.setShift_line (s : State) (v : Shift) : (s.setShift v).line = s.line := rfl

@[simp] theorem State.setBus_pending (s : State) (v : Bus) : (s.setBus v).pending = s.pending := rfl
@[simp] theorem State.setBus_freeCount (s : State) (v : Bus) : (s.setBus v).freeCount = s.freeCount := rfl
@[simp] theorem State.setBus_phase (s : State) (v : Bus) : (s.setBus v).phase = s.phase := rfl
@[simp] theorem State.setBus_loader (s : State) (v : Bus) : (s.setBus v).loader = s.loader := rfl
@[simp] theorem State.setBus_items (s : State) (v : Bus) : (s.setBus v).items = s.items := rfl
@[simp] theorem State.setBus_roller (s : State) (v : Bus) : (s.setBus v).roller = s.roller := rfl
@[simp] theorem State.setBus_speed (s : State) (v : Bus) : (s.setBus v).speed = s.speed := rfl
@[simp] theorem State.setBus_spindles (s : State) (v : Bus) : (s.setBus v).spindles = s.spindles := rfl
@[simp] theorem State.setBus_breakList (s : State) (v : Bus) : (s.setBus v).breakList = s.breakList := rfl
@[simp] theorem State.setBus_breakSeq (s : State) (v : Bus) : (s.setBus v).breakSeq = s.breakSeq := rfl
@[simp] theorem State.setBus_carriages (s : State) (v : Bus) : (s.setBus v).carriages = s.carriages := rfl
@[simp] theorem State.setBus_doff (s : State) (v : Bus) : (s.setBus v).doff = s.doff := rfl
@[simp] theorem State.setBus_articles (s : State) (v : Bus) : (s.setBus v).articles = s.articles := rfl
@[simp] theorem State.setBus_roving (s : State) (v : Bus) : (s.setBus v).roving = s.roving := rfl
@[simp] theorem State.setBus_shift (s : State) (v : Bus) : (s.setBus v).shift = s.shift := rfl
@[simp] theorem State.setBus_bus (s : State) (v : Bus) : (s.setBus v).bus = v := rfl
@[simp] theorem State.setBus_line (s : State) (v : Bus) : (s.setBus v).line = s.line := rfl

@[simp] theorem State.setLine_pending (s : State) (v : HostLine) : (s.setLine v).pending = s.pending := rfl
@[simp] theorem State.setLine_freeCount (s : State) (v : HostLine) : (s.setLine v).freeCount = s.freeCount := rfl
@[simp] theorem State.setLine_phase (s : State) (v : HostLine) : (s.setLine v).phase = s.phase := rfl
@[simp] theorem State.setLine_loader (s : State) (v : HostLine) : (s.setLine v).loader = s.loader := rfl
@[simp] theorem State.setLine_items (s : State) (v : HostLine) : (s.setLine v).items = s.items := rfl
@[simp] theorem State.setLine_roller (s : State) (v : HostLine) : (s.setLine v).roller = s.roller := rfl
@[simp] theorem State.setLine_speed (s : State) (v : HostLine) : (s.setLine v).speed = s.speed := rfl
@[simp] theorem State.setLine_spindles (s : State) (v : HostLine) : (s.setLine v).spindles = s.spindles := rfl
@[simp] theorem State.setLine_breakList (s : State) (v : HostLine) : (s.setLine v).breakList = s.breakList := rfl
@[simp] theorem State.setLine_breakSeq (s : State) (v : HostLine) : (s.setLine v).breakSeq = s.breakSeq := rfl
@[simp] theorem State.setLine_carriages (s : State) (v : HostLine) : (s.setLine v).carriages = s.carriages := rfl
@[simp] theorem State.setLine_doff (s : State) (v : HostLine) : (s.setLine v).doff = s.doff := rfl
@[simp] theorem State.setLine_articles (s : State) (v : HostLine) : (s.setLine v).articles = s.articles := rfl
@[simp] theorem State.setLine_roving (s : State) (v : HostLine) : (s.setLine v).roving = s.roving := rfl
@[simp] theorem State.setLine_shift (s : State) (v : HostLine) : (s.setLine v).shift = s.shift := rfl
@[simp] theorem State.setLine_bus (s : State) (v : HostLine) : (s.setLine v).bus = s.bus := rfl
@[simp] theorem State.setLine_line (s : State) (v : HostLine) : (s.setLine v).line = v := rfl

end Sys2Proof.Machine
end

