-- ==== Sys2Proof/Laws/Requests.lean ====
section
/-!
SUPPORT. What taking a request does, said once: the state with the request held, the judgement of R180, and the reply.
-/
namespace Sys2Proof.Machine

-- One after another: each `decide` waits for the theorems before it, and as tasks that takes a thread for each.
set_option Elab.async false

/-- A frame, part by part. -/
theorem onlyChanges_iff (ps : List Part) (s t : State) :
    OnlyChanges ps s t ↔
    (Part.pending ∈ ps ∨ t.pending = s.pending) ∧
    (Part.freeCount ∈ ps ∨ t.freeCount = s.freeCount) ∧
    (Part.phase ∈ ps ∨ t.phase = s.phase) ∧
    (Part.loader ∈ ps ∨ t.loader = s.loader) ∧
    (Part.items ∈ ps ∨ t.items = s.items) ∧
    (Part.roller ∈ ps ∨ t.roller = s.roller) ∧
    (Part.speed ∈ ps ∨ t.speed = s.speed) ∧
    (Part.spindles ∈ ps ∨ t.spindles = s.spindles) ∧
    (Part.breakList ∈ ps ∨ t.breakList = s.breakList) ∧
    (Part.breakSeq ∈ ps ∨ t.breakSeq = s.breakSeq) ∧
    (Part.carriages ∈ ps ∨ t.carriages = s.carriages) ∧
    (Part.doff ∈ ps ∨ t.doff = s.doff) ∧
    (Part.articles ∈ ps ∨ t.articles = s.articles) ∧
    (Part.roving ∈ ps ∨ t.roving = s.roving) ∧
    (Part.shift ∈ ps ∨ t.shift = s.shift) ∧
    (Part.bus ∈ ps ∨ t.bus = s.bus) ∧
    (Part.line ∈ ps ∨ t.line = s.line) := by
  constructor
  · intro h
    refine ⟨?_, ?_, ?_, ?_, ?_, ?_, ?_, ?_, ?_, ?_, ?_, ?_, ?_, ?_, ?_, ?_, ?_⟩
    · exact Classical.or_iff_not_imp_left.2 (h .pending)
    · exact Classical.or_iff_not_imp_left.2 (h .freeCount)
    · exact Classical.or_iff_not_imp_left.2 (h .phase)
    · exact Classical.or_iff_not_imp_left.2 (h .loader)
    · exact Classical.or_iff_not_imp_left.2 (h .items)
    · exact Classical.or_iff_not_imp_left.2 (h .roller)
    · exact Classical.or_iff_not_imp_left.2 (h .speed)
    · exact Classical.or_iff_not_imp_left.2 (h .spindles)
    · exact Classical.or_iff_not_imp_left.2 (h .breakList)
    · exact Classical.or_iff_not_imp_left.2 (h .breakSeq)
    · exact Classical.or_iff_not_imp_left.2 (h .carriages)
    · exact Classical.or_iff_not_imp_left.2 (h .doff)
    · exact Classical.or_iff_not_imp_left.2 (h .articles)
    · exact Classical.or_iff_not_imp_left.2 (h .roving)
    · exact Classical.or_iff_not_imp_left.2 (h .shift)
    · exact Classical.or_iff_not_imp_left.2 (h .bus)
    · exact Classical.or_iff_not_imp_left.2 (h .line)
  · intro h p hp
    obtain ⟨h0, h1, h2, h3, h4, h5, h6, h7, h8, h9, h10, h11, h12, h13, h14, h15, h16⟩ := h
    cases p
    · exact h0.resolve_left hp
    · exact h1.resolve_left hp
    · exact h2.resolve_left hp
    · exact h3.resolve_left hp
    · exact h4.resolve_left hp
    · exact h5.resolve_left hp
    · exact h6.resolve_left hp
    · exact h7.resolve_left hp
    · exact h8.resolve_left hp
    · exact h9.resolve_left hp
    · exact h10.resolve_left hp
    · exact h11.resolve_left hp
    · exact h12.resolve_left hp
    · exact h13.resolve_left hp
    · exact h14.resolve_left hp
    · exact h15.resolve_left hp
    · exact h16.resolve_left hp

/-- A frame over two commands in succession. -/
theorem OnlyChanges.trans {ps qs : List Part} {s t u : State} (h1 : OnlyChanges ps s t) (h2 : OnlyChanges qs t u) :
    OnlyChanges (ps ++ qs) s u := by
  intro p hp
  simp only [List.mem_append, not_or] at hp
  have a := h1 p hp.1
  have b := h2 p hp.2
  cases p <;> exact Eq.trans b a

/-- A frame may name more parts. -/
theorem OnlyChanges.mono {ps qs : List Part} {s t : State} (h : OnlyChanges ps s t) (hs : ps ⊆ qs) :
    OnlyChanges qs s t := fun p hp => h p fun hq => hp (hs hq)

theorem holdRequest_onlyChanges (r : HeldRequest) (s : State) : OnlyChanges [.line] s (holdRequest r s) := by
  intro p hp
  unfold holdRequest
  cases p <;> simp at hp <;> split <;> rfl

section
variable (r : HeldRequest) (s : State)
@[simp] theorem holdRequest_pending : (holdRequest r s).pending = s.pending := by unfold holdRequest; split <;> rfl
@[simp] theorem holdRequest_freeCount : (holdRequest r s).freeCount = s.freeCount := by unfold holdRequest; split <;> rfl
@[simp] theorem holdRequest_phase : (holdRequest r s).phase = s.phase := by unfold holdRequest; split <;> rfl
@[simp] theorem holdRequest_loader : (holdRequest r s).loader = s.loader := by unfold holdRequest; split <;> rfl
@[simp] theorem holdRequest_items : (holdRequest r s).items = s.items := by unfold holdRequest; split <;> rfl
@[simp] theorem holdRequest_roller : (holdRequest r s).roller = s.roller := by unfold holdRequest; split <;> rfl
@[simp] theorem holdRequest_speed : (holdRequest r s).speed = s.speed := by unfold holdRequest; split <;> rfl
@[simp] theorem holdRequest_spindles : (holdRequest r s).spindles = s.spindles := by unfold holdRequest; split <;> rfl
@[simp] theorem holdRequest_breakList : (holdRequest r s).breakList = s.breakList := by unfold holdRequest; split <;> rfl
@[simp] theorem holdRequest_breakSeq : (holdRequest r s).breakSeq = s.breakSeq := by unfold holdRequest; split <;> rfl
@[simp] theorem holdRequest_carriages : (holdRequest r s).carriages = s.carriages := by unfold holdRequest; split <;> rfl
@[simp] theorem holdRequest_doff : (holdRequest r s).doff = s.doff := by unfold holdRequest; split <;> rfl
@[simp] theorem holdRequest_articles : (holdRequest r s).articles = s.articles := by unfold holdRequest; split <;> rfl
@[simp] theorem holdRequest_roving : (holdRequest r s).roving = s.roving := by unfold holdRequest; split <;> rfl
@[simp] theorem holdRequest_shift : (holdRequest r s).shift = s.shift := by unfold holdRequest; split <;> rfl
@[simp] theorem holdRequest_bus : (holdRequest r s).bus = s.bus := by unfold holdRequest; split <;> rfl
@[simp] theorem holdRequest_flmm : (holdRequest r s).flmm = s.flmm := by unfold holdRequest; split <;> rfl
@[simp] theorem holdRequest_spindle (side : Side) (pos : Nat) :
    (holdRequest r s).spindle side pos = s.spindle side pos := by unfold holdRequest; split <;> rfl
@[simp] theorem holdRequest_pendingSet : (holdRequest r s).line.pendingSet = s.line.pendingSet := by
  unfold holdRequest; split <;> rfl

/-- A request that reaches the interface after RESET# has risen can be taken. -/
theorem canTake_of_reaches (hp : s.phase ≠ .inReset) (h : Reaches r s) : canTake r s = true := by
  obtain ⟨h1, h2, h3⟩ := h
  unfold canTake
  rcases h3 with h3 | h3
  · simp [hp, h1, h2, h3]
  · cases hl : s.line.holding with
    | nil => simp [hp, h1, h2]
    | cons a l => rw [hl] at h3; simp only [List.head?_cons, Option.some.injEq] at h3; simp [hp, h1, h2, h3]
end

/-- A request that is taken, as a whole: the judgement of its owner on the state with the request held, and the reply
begun from it. -/
theorem takeRequest_of_reaches (kind : Byte) (body : List Byte) (owner : List Byte → State → Handled) (s : State)
    (hp : s.phase ≠ .inReset) (h : Reaches ⟨kind, body⟩ s) :
    takeRequest kind body owner s =
      beginReply kind (judgeRequest ⟨kind, body⟩ owner (holdRequest ⟨kind, body⟩ s)) := by
  unfold takeRequest
  simp [canTake_of_reaches _ _ hp h]

theorem beginReply_eq (kind : Byte) (h : Handled) :
    beginReply kind h = answered kind h.result h.content h.state := rfl

/-- A request that passes to its owner: what the owner answers is the reply. -/
theorem takeRequest_served (kind : Byte) (body : List Byte) (owner : List Byte → State → Handled) (s : State)
    (hp : s.phase = .running) (h : Reaches ⟨kind, body⟩ s) (hl : bodyLength kind = some body.length) :
    takeRequest kind body owner s =
      answered kind (owner body (holdRequest ⟨kind, body⟩ s)).result
        (owner body (holdRequest ⟨kind, body⟩ s)).content (owner body (holdRequest ⟨kind, body⟩ s)).state := by
  rw [takeRequest_of_reaches _ _ _ _ (by simp [hp]) h, beginReply_eq]
  simp [judgeRequest, hp, hl]

@[simp] theorem field_one (n : Nat) (h : n < 256) : field 1 n = [BitVec.ofNat 8 n] := by
  simp [field, h, beBytes]

/-- A request whose owner refuses it changes nothing. -/
theorem refuse_eq (s : State) (r : Result) (d : Nat) (h : d < 256) :
    Handled.refuse s r d = ⟨s, r, [BitVec.ofNat 8 d]⟩ := by
  simp [Handled.refuse, h]

/-- The classes of a list are raised one after the other. -/
theorem withClasses_cons (c : PendClass) (cs : List PendClass) (m : ClassSet) :
    withClasses (c :: cs) m = withClasses cs (m ||| c.bit) := rfl

@[simp] theorem withClasses_nil (m : ClassSet) : withClasses [] m = m := rfl

theorem raise_line (c : PendClass) (s : State) :
    (raise c s).line = { s.line with pendingSet := withClasses [c] s.line.pendingSet } := rfl

end Sys2Proof.Machine
end

