-- ==== Sys2Proof/Laws/Frames.lean ====
section
/-!
SUPPORT. For each shared operation, the parts of the state that it may change.
-/
namespace Sys2Proof.Machine

-- One after another: each `decide` waits for the theorems before it, and as tasks that takes a thread for each.
set_option Elab.async false

theorem OnlyChanges.refl (ps : List Part) (s : State) : OnlyChanges ps s s := by
  intro p _; cases p <;> rfl

/-- Two operations in succession, within one list of parts. -/
theorem OnlyChanges.comp {ps qs rs : List Part} {s t u : State} (h2 : OnlyChanges qs t u) (h1 : OnlyChanges ps s t)
    (hp : ps ⊆ rs := by decide) (hq : qs ⊆ rs := by decide) : OnlyChanges rs s u :=
  (h1.trans h2).mono (List.append_subset.2 ⟨hp, hq⟩)

theorem OnlyChanges.wide {ps rs : List Part} {s t : State} (h1 : OnlyChanges ps s t)
    (hp : ps ⊆ rs := by decide) : OnlyChanges rs s t := h1.mono hp

theorem OnlyChanges.foldl {α : Type} {ps : List Part} (f : State → α → State) (h : ∀ s x, OnlyChanges ps s (f s x))
    (l : List α) (s : State) : OnlyChanges ps s (l.foldl f s) := by
  induction l generalizing s with
  | nil => exact .refl _ _
  | cons x l ih => exact (h s x |>.trans (ih (f s x))).mono (List.append_subset.2 ⟨List.Subset.refl _, List.Subset.refl _⟩)

variable (side : Side) (pos : Nat) (s : State)

theorem setFreeCount_frame (v : Nat) : OnlyChanges [.freeCount] s (s.setFreeCount v) := by simp [onlyChanges_iff]
theorem setItems_frame (v : Items) : OnlyChanges [.items] s (s.setItems v) := by simp [onlyChanges_iff]
theorem setRoller_frame (v : Roller) : OnlyChanges [.roller] s (s.setRoller v) := by simp [onlyChanges_iff]
theorem setSpeed_frame (v : Speed) : OnlyChanges [.speed] s (s.setSpeed v) := by simp [onlyChanges_iff]
theorem setSpindles_frame (v : Sides (List Spindle)) : OnlyChanges [.spindles] s (s.setSpindles v) := by
  simp [onlyChanges_iff]
theorem setBreakList_frame (v : Sides (List Nat)) : OnlyChanges [.breakList] s (s.setBreakList v) := by
  simp [onlyChanges_iff]
theorem setBreakSeq_frame (v : Sides Nat) : OnlyChanges [.breakSeq] s (s.setBreakSeq v) := by simp [onlyChanges_iff]
theorem setDoff_frame (v : Doff) : OnlyChanges [.doff] s (s.setDoff v) := by simp [onlyChanges_iff]
theorem setArticles_frame (v : ArticleStore) : OnlyChanges [.articles] s (s.setArticles v) := by
  simp [onlyChanges_iff]
theorem setRoving_frame (v : Roving) : OnlyChanges [.roving] s (s.setRoving v) := by simp [onlyChanges_iff]
theorem setShift_frame (v : Shift) : OnlyChanges [.shift] s (s.setShift v) := by simp [onlyChanges_iff]
theorem setBus_frame (v : Bus) : OnlyChanges [.bus] s (s.setBus v) := by simp [onlyChanges_iff]
theorem setLine_frame (v : HostLine) : OnlyChanges [.line] s (s.setLine v) := by simp [onlyChanges_iff]

theorem raise_frame (c : PendClass) : OnlyChanges [.line] s (raise c s) := setLine_frame s _
theorem clearClasses_frame (m : ClassSet) : OnlyChanges [.line] s (clearClasses m s) := setLine_frame s _
theorem sendCarriage_frame (c : Command) : OnlyChanges [.bus] s (sendCarriage side c s) := setBus_frame s _
theorem sendHome_frame : OnlyChanges [.bus] s (sendHome side s) := setBus_frame s _
theorem sendDoffGo_frame : OnlyChanges [.bus] s (sendDoffGo s) := setBus_frame s _
theorem sendDoffStop_frame : OnlyChanges [.bus] s (sendDoffStop s) := setBus_frame s _
theorem sendTrain_frame (c : Command) : OnlyChanges [.bus] s (sendTrain c s) := setBus_frame s _

theorem holdClamp_frame (c : Clamp) : OnlyChanges [.bus] s (holdClamp side pos c s) := by
  unfold holdClamp; split
  · exact setBus_frame s _
  · exact .refl _ _

theorem markSaturation_frame (n : Nat) : OnlyChanges [.shift, .line] s (markSaturation n s) := by
  unfold markSaturation; split
  · split
    · exact (setShift_frame s _).wide
    · exact (setShift_frame _ _).comp (raise_frame s _)
  · exact .refl _ _

theorem countSide_frame (f : SideFigure) : OnlyChanges [.shift, .line] s (countSide side f s) :=
  (markSaturation_frame _ _).comp (setShift_frame s _)

theorem countFrame_frame (f : FrameFigure) : OnlyChanges [.shift, .line] s (countFrame f s) := by
  cases f <;> exact (markSaturation_frame _ _).comp (setShift_frame s _)

theorem creditRun_frame (n : Nat) : OnlyChanges [.shift] s (creditRun side n s) := setShift_frame s _
theorem creditPossible_frame : OnlyChanges [.shift] s (creditPossible side s) := setShift_frame s _

theorem writeSpindle_frame (new : Spindle) :
    OnlyChanges [.spindles, .breakList, .bus] s (writeSpindle side pos new s) := by
  unfold writeSpindle; split
  · exact .refl _ _
  · dsimp only
    split
    · exact (setBreakList_frame _ _).comp (setSpindles_frame s _)
    · exact (holdClamp_frame _ _ _ _).comp
        ((setBreakList_frame _ _).comp (rs := [.spindles, .breakList, .bus]) (setSpindles_frame s _))

theorem closeInterval_frame : OnlyChanges [.spindles, .breakList, .bus, .shift] s (closeInterval side pos s) := by
  unfold closeInterval; split
  · exact .refl _ _
  · split
    · exact (creditRun_frame _ _ _).comp (writeSpindle_frame _ _ s _)
    · exact .refl _ _

theorem splitSide_frame : OnlyChanges [.spindles, .shift] s (splitSide side s) :=
  (creditRun_frame _ _ _).comp (setSpindles_frame s _)

theorem split_frame : OnlyChanges [.spindles, .shift] s (split s) := (splitSide_frame _ _).comp (splitSide_frame _ s)

theorem renumber_frame : OnlyChanges [.spindles, .breakSeq] s (renumber side s) :=
  (setBreakSeq_frame _ _).comp (setSpindles_frame s _)

theorem advanceSeq_frame : OnlyChanges [.spindles, .breakSeq] s (advanceSeq side s) := by
  unfold advanceSeq; split
  · exact (setBreakSeq_frame _ _).comp (renumber_frame _ s)
  · exact (setBreakSeq_frame s _).wide

theorem joinBreakList_frame (c : Cause) (sp : Spindle) :
    OnlyChanges [.spindles, .breakList, .breakSeq, .bus] s (joinBreakList side pos c sp s) :=
  (writeSpindle_frame _ _ _ _).comp (advanceSeq_frame _ s)

theorem lockSpindle_frame (c : LockCause) (sp : Spindle) :
    OnlyChanges [.spindles, .breakList, .bus, .shift, .line] s (lockSpindle side pos c sp s) :=
  (countSide_frame _ _ _).comp ((raise_frame _ _).comp (rs := [.spindles, .breakList, .bus, .line])
    (writeSpindle_frame _ _ s _))

theorem placeRunOut_frame (x : SpRef) : OnlyChanges [.roving] s (placeRunOut x s) := by
  unfold placeRunOut; split
  · exact .refl _ _
  · exact setRoving_frame s _

theorem unlist_frame (x : SpRef) : OnlyChanges [.roving] s (unlist x s) := setRoving_frame s _

theorem returnToRovingList_frame (b : Bool) (x : SpRef) : OnlyChanges [.roving] s (returnToRovingList b x s) := by
  unfold returnToRovingList; split
  · exact .refl _ _
  · split <;> first | exact .refl _ _ | exact setRoving_frame s _

theorem endRun_frame (r : EndReason) : OnlyChanges [.roving, .line] s (endRun r s) :=
  (raise_frame _ _).comp (setRoving_frame s _)

theorem endingTest_frame : OnlyChanges [.roving, .line] s (endingTest s) := by
  unfold endingTest; split
  · exact .refl _ _
  · exact endRun_frame s _
  · split
    · exact endRun_frame s _
    · exact .refl _ _

theorem emptySlot_frame : OnlyChanges [.roving] s (emptySlot s) := setRoving_frame s _

/-! ## Piecing -/

theorem modifyCarriage_frame (f : Carriage → Carriage) : OnlyChanges [.carriages] s (modifyCarriage side f s) := by
  simp [onlyChanges_iff, modifyCarriage]

theorem issuePiece_frame (o : Int) (k : PieceKind) (sp : Spindle) :
    OnlyChanges [.spindles, .breakList, .carriages, .bus] s (issuePiece side pos o k sp s) :=
  (modifyCarriage_frame _ _ _).comp
    ((sendCarriage_frame _ _ _).comp (rs := [.spindles, .breakList, .bus]) (writeSpindle_frame _ _ s _))

theorem issueTransit_frame (o : Int) : OnlyChanges [.carriages, .bus] s (issueTransit side o s) :=
  (modifyCarriage_frame _ _ _).comp (sendCarriage_frame _ s _)

theorem issueOrder_frame (x : Nat) :
    OnlyChanges [.spindles, .breakList, .carriages, .bus] s (issueOrder side x pos s) := by
  unfold issueOrder
  dsimp only
  split
  · split
    · split
      · exact issuePiece_frame _ _ s _ _ _
      · exact .refl _ _
    · exact .refl _ _
  · exact (issueTransit_frame _ s _).wide

/-- What a dispatch test may change. -/
theorem dispatchTest_frame : OnlyChanges [.spindles, .breakList, .carriages, .bus] s (dispatchTest side s) := by
  unfold dispatchTest
  split
  · dsimp only
    split
    · split
      · exact issueOrder_frame _ _ s _
      · exact .refl _ _
    · exact .refl _ _
  · exact .refl _ _

theorem dispatchBoth_frame : OnlyChanges [.spindles, .breakList, .carriages, .bus] s (dispatchBoth s) :=
  (dispatchTest_frame _ _).comp (dispatchTest_frame _ s)

theorem dispatchOnEntry_frame (f : FrameState) :
    OnlyChanges [.spindles, .breakList, .carriages, .bus] s (dispatchOnEntry f s) := by
  unfold dispatchOnEntry; split
  · exact .refl _ _
  · exact dispatchBoth_frame s

theorem returnSpindle_frame : OnlyChanges [.spindles, .breakList, .bus] s (returnSpindle side pos s) := by
  unfold returnSpindle; split
  · exact .refl _ _
  · split
    · exact writeSpindle_frame _ _ s _
    · exact .refl _ _

theorem dropWork_frame : OnlyChanges [.spindles, .breakList, .carriages, .bus] s (dropWork side s) := by
  unfold dropWork; split
  · exact (modifyCarriage_frame _ _ _).comp (returnSpindle_frame _ _ s)
  · exact (modifyCarriage_frame _ s _).wide

theorem startHoming_frame : OnlyChanges [.carriages, .bus] s (startHoming side s) :=
  (sendHome_frame _ _).comp (modifyCarriage_frame _ s _)

theorem carriageFaults_frame : OnlyChanges [.carriages, .line] s (carriageFaults side s) :=
  (raise_frame _ _).comp (modifyCarriage_frame _ s _)

theorem carriageSettles_frame (x : Option Nat) : OnlyChanges [.carriages] s (carriageSettles side x s) :=
  modifyCarriage_frame _ s _

theorem cancelOrder_frame (w : Option Nat) : OnlyChanges [.carriages, .bus] s (cancelOrder side w s) :=
  (sendCarriage_frame _ _ _).comp (modifyCarriage_frame _ s _)

theorem withdrawForDoff_frame :
    OnlyChanges [.spindles, .breakList, .carriages, .bus] s (withdrawForDoff side s) := by
  unfold withdrawForDoff
  dsimp only
  split
  · exact .refl _ _
  · exact (cancelOrder_frame _ s _).wide
  · exact (cancelOrder_frame _ s _).wide
  · exact (cancelOrder_frame _ _ _).comp (returnSpindle_frame _ _ s)

theorem withdrawForPark_frame : OnlyChanges [.carriages, .bus] s (withdrawForPark side pos s) := by
  unfold withdrawForPark; dsimp only; split
  · exact cancelOrder_frame _ s _
  split
  · exact cancelOrder_frame _ s _
  · exact .refl _ _

theorem carriageTimeout_frame (k : TimerKind) :
    OnlyChanges [.spindles, .breakList, .carriages, .bus, .line] s (carriageTimeout side k s) := by
  unfold carriageTimeout; split
  · exact (carriageFaults_frame _ _).comp (dropWork_frame _ s)
  · exact .refl _ _

/-! ## The frame -/

theorem recomputeSetPoint_frame : OnlyChanges [.speed, .line] s (recomputeSetPoint s) := by
  unfold recomputeSetPoint; split
  · exact .refl _ _
  · exact (raise_frame _ _).comp (setSpeed_frame s _)

theorem changeFrame_frame (f : FrameState) : OnlyChanges [.doff, .speed, .line] s (changeFrame f s) := by
  unfold changeFrame; dsimp only; split
  · exact (recomputeSetPoint_frame _).comp ((raise_frame _ _).comp (rs := [.doff, .line]) (setDoff_frame s _))
  · exact (raise_frame _ _).comp (setDoff_frame s _)

theorem swapContext_frame : OnlyChanges [.doff] s (swapContext s) := setDoff_frame s _

theorem restoreContext_frame : OnlyChanges [.doff] s (restoreContext s) := by
  unfold restoreContext; split
  · exact setDoff_frame s _
  · exact .refl _ _

theorem beginDoff_frame (k : DoffKind) : OnlyChanges [.doff] s (beginDoff k s) := setDoff_frame s _

theorem stopForFill_frame : OnlyChanges [.doff, .speed, .line] s (stopForFill s) :=
  (raise_frame _ _).comp ((beginDoff_frame _ _).comp (rs := [.doff, .speed, .line]) (changeFrame_frame s _))

theorem judgeFill_frame : OnlyChanges [.doff, .speed, .line] s (judgeFill s) := by
  unfold judgeFill; split
  · split
    · dsimp only
      split
      · exact (stopForFill_frame _).comp ((swapContext_frame _).comp (rs := [.doff, .speed, .line]) (changeFrame_frame s _))
      · exact (swapContext_frame _).comp (changeFrame_frame s _)
    · exact .refl _ _
  · split
    · exact stopForFill_frame s
    · exact .refl _ _
  all_goals exact .refl _ _

theorem recomputeFill_frame : OnlyChanges [.doff, .speed, .line] s (recomputeFill s) := by
  unfold recomputeFill; split
  · exact .refl _ _
  · exact (recomputeSetPoint_frame _).comp
      ((judgeFill_frame _).comp (rs := [.doff, .speed, .line]) (setSpeed_frame s _))

theorem closeWindow_frame : OnlyChanges [.speed, .line] s (closeWindow s) := by
  unfold closeWindow; dsimp only; split <;> split
  all_goals first
    | exact (setSpeed_frame s _).wide
    | exact (recomputeSetPoint_frame _).comp (setSpeed_frame s _)

theorem endWatch_frame : OnlyChanges [.doff, .speed, .line] s (endWatch s) :=
  (judgeFill_frame _).comp ((restoreContext_frame _).comp (rs := [.doff, .speed, .line])
    ((changeFrame_frame _ _).comp (rs := [.doff, .speed, .line]) (setDoff_frame s _)))

theorem haltFrame_frame : OnlyChanges [.doff, .speed, .line] s (haltFrame s) :=
  (changeFrame_frame _ _).comp (setDoff_frame s _)

theorem rovingAudit_frame : OnlyChanges [.roving, .line] s (rovingAudit s) := by
  unfold rovingAudit; dsimp only; split
  · exact .refl _ _
  · exact (raise_frame _ _).comp (setRoving_frame s _)

/-- What one reader of an advance may change. -/
theorem runReader_frame (r : Reader) :
    OnlyChanges [.speed, .spindles, .breakList, .carriages, .doff, .roving, .bus, .line] s (runReader s r) := by
  cases r
  · exact (dispatchOnEntry_frame _ _).comp (recomputeFill_frame s)
  · exact (closeWindow_frame s).wide
  · exact (rovingAudit_frame s).wide
  · exact (dispatchOnEntry_frame _ _).comp (endWatch_frame s)

/-- What an advance of FLmm may change. -/
theorem advance_frame (old : Nat) :
    OnlyChanges [.freeCount, .speed, .spindles, .breakList, .carriages, .doff, .roving, .bus, .line] s
      (advance old s) := by
  unfold advance
  exact (OnlyChanges.foldl runReader (fun s r => runReader_frame s r) _ _).comp (setFreeCount_frame s _)

/-! ## The doff and the exchange -/

theorem makeExchange_frame (a : Article) (o : Occasion) :
    OnlyChanges [.spindles, .shift, .articles, .speed, .doff, .line] s (makeExchange a o s) := by
  unfold makeExchange
  refine (raise_frame _ _).comp (ps := [.spindles, .shift, .articles, .speed, .doff, .line]) ?_
  refine (setArticles_frame _ _).comp (ps := [.spindles, .shift, .articles, .speed, .doff, .line]) ?_
  refine (countFrame_frame _ _).comp (ps := [.spindles, .shift, .articles, .speed, .doff, .line]) ?_
  refine (recomputeSetPoint_frame _).comp (ps := [.spindles, .shift, .articles, .speed, .doff, .line]) ?_
  refine (recomputeFill_frame _).comp (ps := [.spindles, .shift, .articles, .speed]) ?_
  refine (setSpeed_frame _ _).comp (ps := [.spindles, .shift, .articles]) ?_
  exact (setArticles_frame _ _).comp (split_frame s)

theorem refuseExchange_frame (r : ExchangeReason) (o : Occasion) :
    OnlyChanges [.articles, .line] s (refuseExchange r o s) := (raise_frame _ _).comp (setArticles_frame s _)

theorem setDoffHold_frame : OnlyChanges [.carriages] s (setDoffHold side s) := modifyCarriage_frame _ s _
theorem clearDoffHold_frame : OnlyChanges [.carriages] s (clearDoffHold side s) := modifyCarriage_frame _ s _
theorem clearDoffHolds_frame : OnlyChanges [.carriages] s (clearDoffHolds s) :=
  (clearDoffHold_frame _ _).comp (clearDoffHold_frame _ s)

theorem startDoffer_frame : OnlyChanges [.doff, .bus] s (startDoffer s) :=
  (setDoff_frame _ _).comp (sendDoffGo_frame s)

theorem enterDoffing_frame :
    OnlyChanges [.doff, .speed, .line, .spindles, .breakList, .carriages, .bus] s (enterDoffing s) := by
  unfold enterDoffing
  dsimp only
  have h : OnlyChanges [.doff, .speed, .line, .spindles, .breakList, .carriages, .bus] s
      (setDoffHold .b (setDoffHold .a (withdrawForDoff .b (withdrawForDoff .a (changeFrame .doffing s))))) :=
    (setDoffHold_frame _ _).comp ((setDoffHold_frame _ _).comp
      (rs := [.doff, .speed, .line, .spindles, .breakList, .carriages, .bus])
      ((withdrawForDoff_frame _ _).comp (rs := [.doff, .speed, .line, .spindles, .breakList, .carriages, .bus])
        ((withdrawForDoff_frame _ _).comp (rs := [.doff, .speed, .line, .spindles, .breakList, .carriages, .bus])
          (changeFrame_frame s _))))
  split
  · exact (startDoffer_frame _).comp h
  · exact (setDoff_frame _ _).comp h

theorem endDoffer_frame : OnlyChanges [.doff] s (endDoffer s) := setDoff_frame s _
theorem recordOutcome_frame (o : DoffOutcome) (c : Option Nat) : OnlyChanges [.doff] s (recordOutcome o c s) :=
  setDoff_frame s _

theorem failDoff_frame (c : Option Nat) : OnlyChanges [.doff, .speed, .line, .carriages] s (failDoff c s) :=
  (raise_frame _ _).comp ((changeFrame_frame _ _).comp (rs := [.doff, .speed, .line, .carriages])
    ((recordOutcome_frame _ _ _).comp (rs := [.doff, .carriages])
      ((clearDoffHolds_frame _).comp (rs := [.doff, .carriages]) (endDoffer_frame s))))

theorem resetCops_frame : OnlyChanges [.spindles, .shift, .doff, .speed, .line] s (resetCops s) := by
  unfold resetCops
  exact (recomputeFill_frame _).comp ((setDoff_frame _ _).comp (rs := [.spindles, .shift, .doff])
    ((setSpindles_frame _ _).comp (rs := [.spindles, .shift]) (split_frame s)))

theorem abortDoff_frame : OnlyChanges [.doff, .speed, .line, .carriages, .bus] s (abortDoff s) := by
  have h : OnlyChanges [.doff, .bus] s (if s.doff.go = .sent then
      (sendDoffStop s).setDoff { (sendDoffStop s).doff with timer := none, ready := false } else s) := by
    split
    · exact (setDoff_frame _ _).comp (sendDoffStop_frame s)
    · exact .refl _ _
  exact (changeFrame_frame _ _).comp ((recordOutcome_frame _ _ _).comp (rs := [.doff, .carriages, .bus])
    ((clearDoffHolds_frame _).comp (rs := [.doff, .carriages, .bus])
      ((setDoff_frame _ _).comp (rs := [.doff, .bus]) h)))

end Sys2Proof.Machine
end

