-- ==== Sys2Proof/Laws/Tables.lean ====
section
/-!
SUPPORT. What the shared operations over the tables do, said once: the write of a spindle record, the break list's
insertion, the counts and credits of the shift, the bytes of a number, and the readers of an advance of FLmm.
-/
namespace Sys2Proof.Machine

-- One after another: each `decide` waits for the theorems before it, and as tasks that takes a thread for each.
set_option Elab.async false

/-! ## Insertion in a break list (R50, R53) -/

theorem insertByKey_perm (key : Nat → Nat) (pos : Nat) (l : List Nat) :
    (insertByKey key pos l).Perm (pos :: l) := by
  induction l with
  | nil => exact .refl _
  | cons q qs ih =>
    unfold insertByKey
    split
    · exact .refl _
    · exact (ih.cons q).trans (.swap _ _ _)

theorem mem_insertByKey (key : Nat → Nat) (pos p : Nat) (l : List Nat) :
    p ∈ insertByKey key pos l ↔ p = pos ∨ p ∈ l := by
  rw [(insertByKey_perm key pos l).mem_iff, List.mem_cons]

/-- A position with the highest key is appended. -/
theorem insertByKey_last (key : Nat → Nat) (pos : Nat) (l : List Nat) (h : ∀ q ∈ l, key q ≤ key pos) :
    insertByKey key pos l = l ++ [pos] := by
  induction l with
  | nil => rfl
  | cons q qs ih =>
    have hq := h q List.mem_cons_self
    have : ¬key pos < key q := by omega
    simp only [insertByKey, this, if_false, List.cons_append]
    rw [ih fun x hx => h x (List.mem_cons_of_mem _ hx)]

/-- A list in ascending key stays so. -/
theorem insertByKey_sorted (key : Nat → Nat) (pos : Nat) (l : List Nat) (hs : l.Pairwise fun p q => key p < key q)
    (hn : ∀ q ∈ l, key q ≠ key pos) : (insertByKey key pos l).Pairwise fun p q => key p < key q := by
  induction l with
  | nil => simp [insertByKey]
  | cons q qs ih =>
    rw [List.pairwise_cons] at hs
    unfold insertByKey
    split
    · rename_i h
      rw [List.pairwise_cons, List.pairwise_cons]
      refine ⟨fun x hx => ?_, hs⟩
      rcases List.mem_cons.1 hx with rfl | hx
      · exact h
      · exact h.trans (hs.1 x hx)
    · rename_i h
      rw [List.pairwise_cons]
      refine ⟨fun x hx => ?_, ih hs.2 fun x hx => hn x (List.mem_cons_of_mem _ hx)⟩
      have hne := hn q List.mem_cons_self
      rcases (mem_insertByKey key pos x qs).1 hx with rfl | hx
      · omega
      · exact hs.1 x hx

/-! ## The one write of a spindle record -/

theorem State.spindle_setSpindles (s : State) (v : Sides (List Spindle)) (side : Side) (pos : Nat) :
    (s.setSpindles v).spindle side pos = if pos = 0 then none else (v.get side)[pos - 1]? := rfl

@[simp] theorem holdClamp_spindles (side : Side) (pos : Nat) (c : Clamp) (s : State) :
    (holdClamp side pos c s).spindles = s.spindles := by unfold holdClamp; split <;> rfl

/-- The table of records after a write. -/
theorem writeSpindle_spindles (side : Side) (pos : Nat) (new : Spindle) (s : State) (old : Spindle)
    (h : s.spindle side pos = some old) :
    (writeSpindle side pos new s).spindles =
      s.spindles.set side ((s.spindles.get side).set (pos - 1) { new with clamp := new.state.clamp }) := by
  unfold writeSpindle
  rw [h]
  dsimp only
  split
  · rfl
  · exact holdClamp_spindles _ _ _ _

/-- Reading the record just written: the clamp follows the state (R23). -/
theorem writeSpindle_same (side : Side) (pos : Nat) (new : Spindle) (s : State) (old : Spindle)
    (h : s.spindle side pos = some old) :
    (writeSpindle side pos new s).spindle side pos = some { new with clamp := new.state.clamp } := by
  have h0 : pos ≠ 0 := by rintro rfl; simp [State.spindle] at h
  have hl : pos - 1 < (s.spindles.get side).length := by
    simp only [State.spindle, h0, if_false] at h
    exact (List.getElem?_eq_some_iff.1 h).1
  simp only [State.spindle, h0, if_false, writeSpindle_spindles side pos new s old h, Sides.get_set_same]
  rw [List.getElem?_set_self hl]

/-- Every other record is left as it was. -/
theorem writeSpindle_other (side : Side) (pos : Nat) (new : Spindle) (s : State) :
    OtherSpindlesSame side pos s (writeSpindle side pos new s) := by
  intro sd p hne
  cases h : s.spindle side pos with
  | none => unfold writeSpindle; rw [h]
  | some old =>
    have hp : pos ≠ 0 := by rintro rfl; simp [State.spindle] at h
    simp only [State.spindle, writeSpindle_spindles side pos new s old h]
    split
    · rfl
    · rename_i h0
      by_cases hs : sd = side
      · subst hs
        have : pos - 1 ≠ p - 1 := by
          intro e
          exact hne ⟨rfl, by omega⟩
        rw [Sides.get_set_same, List.getElem?_set_ne this]
      · rw [Sides.get_set_other _ _ _ _ hs]

/-! ## Counts and credits -/

theorem markSaturation_sides (n : Nat) (s : State) : (markSaturation n s).shift.live.sides = s.shift.live.sides := by
  unfold markSaturation; split
  · dsimp only; split <;> rfl
  · rfl

/-- What a count that may reach its limit leaves of the shift: the marker alone may change (R147). -/
theorem markSaturation_shift (n : Nat) (s : State) :
    (markSaturation n s).shift =
      { s.shift with live := { s.shift.live with marker := s.shift.live.marker || n == 65534 } } := by
  unfold markSaturation; split
  · rename_i h; dsimp only; split <;> simp [h, raise]
  · rename_i h; rw [show (n == 65534) = false by simpa using h, Bool.or_false]

theorem ShiftCounts.get_set (c : ShiftCounts) (f g : SideFigure) (n : Nat) :
    (c.set f n).get g = if g = f then n else c.get g := by
  cases f <;> cases g <;> rfl

/-- One count of a side figure, as a whole (R146, R147). -/
theorem countSide_counted (side : Side) (f : SideFigure) (s : State) : Counted side [f] s (countSide side f s) := by
  have hs : (countSide side f s).shift.live.sides.get side =
      { s.shift.live.sides.get side with
        counts := (s.shift.live.sides.get side).counts.set f (bump16 ((s.shift.live.sides.get side).counts.get f)) } := by
    unfold countSide
    rw [markSaturation_sides]
    simp
  refine ⟨fun g => ?_, ?_, ?_, ?_⟩
  · rw [hs]
    simp only [ShiftCounts.get_set, List.mem_singleton]
    split
    · rename_i h; subst h; rfl
    · rfl
  · simp [countSide, markSaturation_shift]
  · rw [hs]
  · simp [countSide, markSaturation_shift]

/-- A sum that fits its width is exact. -/
theorem add64_exact (x y : Nat) (h : x + y < 2 ^ 64) : add64 x y = x + y := by
  unfold add64; rw [if_pos (Or.inr h)]

/-- A credit of length that fits its widths (R148). -/
theorem creditRun_credited (side : Side) (dl : Nat) (s : State)
    (hr : (s.shift.live.sides.get side).run + dl < 2 ^ 64)
    (hm : (s.shift.live.sides.get side).mass + dl * s.articles.active.tex100 < 2 ^ 64) :
    Credited side dl s (creditRun side dl s) := by
  unfold Credited creditRun
  simp [add64_exact _ _ hr, add64_exact _ _ hm]

/-- A possible-length credit that fits its width (R149). -/
theorem creditPossible_possible (side : Side) (s : State) (h : possibleNow s side < 2 ^ 64) :
    ((creditPossible side s).shift.live.sides.get side).possible = possibleNow s side := by
  unfold possibleNow at h ⊢
  simp [creditPossible, add64_exact _ _ h]

/-! ## Numbers on the line (R181) -/

@[simp] theorem beBytes_length (w n : Nat) : (beBytes w n).length = w := by
  induction w generalizing n with
  | zero => rfl
  | succ w ih => simp [beBytes, ih]

theorem fromBytes_append (l : List Byte) (b : Byte) : fromBytes (l ++ [b]) = fromBytes l * 256 + b.toNat := by
  simp [fromBytes]

/-- The bytes of a number give it back, up to its width. -/
theorem fold_beBytes (w n a : Nat) :
    (beBytes w n).foldl (fun n b => n * 256 + b.toNat) a = a * 256 ^ w + n % 256 ^ w := by
  induction w generalizing a with
  | zero => simp [beBytes, Nat.mod_one]
  | succ w ih =>
    simp only [beBytes, List.foldl_cons, ih, BitVec.toNat_ofNat]
    have h := Nat.mod_mul (a := 256 ^ w) (b := 256) (x := n)
    have e : (256 : Nat) ^ (w + 1) = 256 ^ w * 256 := pow_succ _ _
    rw [e, h]
    ring

theorem fromBytes_beBytes (w n : Nat) (h : n < 256 ^ w) : fromBytes (beBytes w n) = n := by
  simp [fromBytes, fold_beBytes, Nat.mod_eq_of_lt h]

/-- An optional number is the optional field of its bytes. -/
@[simp] theorem optNumber_eq (w : Nat) (x : Option Nat) : optNumber w x = optField w (x.map (field w)) := by
  cases x <;> rfl

/-- The figure as read is the projected figure of the active article. -/
theorem rovingAsRead_eq (s : State) (sp : Spindle) :
    rovingAsRead s sp = sp.projected s.articles.active s.flmm := rfl

/-! ## Advances of FLmm (R3) -/

/-- An advance reaches or crosses a multiple of a step exactly where one lies above the old value and not above the
new one. -/
theorem passes_iff (step old new : Nat) : passes step old new = true ↔ ∃ k, old < k * step ∧ k * step ≤ new := by
  simp only [passes, decide_eq_true_eq]
  rcases Nat.eq_zero_or_pos step with rfl | h
  · simp
  · constructor
    · exact fun hlt => ⟨new / step, (Nat.div_lt_iff_lt_mul h).1 hlt, Nat.div_mul_le_self new step⟩
    · rintro ⟨k, h1, h2⟩
      exact lt_of_lt_of_le ((Nat.div_lt_iff_lt_mul h).2 h1) ((Nat.le_div_iff_mul_le h).2 h2)

/-- Whatever the choice number, the order is one of the whole list. -/
theorem pickOrder_perm {α : Type} (fuel k : Nat) (l : List α) (h : l.length ≤ fuel) : (pickOrder fuel k l).Perm l := by
  induction fuel generalizing k l with
  | zero => exact .refl l
  | succ fuel ih =>
    match l with
    | [] => exact .refl _
    | [x] => exact .refl _
    | x :: y :: rest =>
      have hlt : k % (x :: y :: rest).length < (x :: y :: rest).length := Nat.mod_lt _ (by simp)
      refine ((ih _ _ (by rw [List.length_eraseIdx_of_lt hlt]; simp at h ⊢; omega)).cons _).trans ?_
      rw [List.getD_eq_getElem _ _ hlt]
      exact List.getElem_cons_eraseIdx_perm hlt

end Sys2Proof.Machine
end

