-- ==== Sys2Proof/WellFormed.lean ====
section
/-!
DEFINITION. Which commands are well formed: what the spec says a frame, a record or an answer can carry. The machine
itself is total and gives every command an outcome.
-/
namespace Sys2Proof

/-- A request body has at most 240 bytes (R174). -/
def bodyFits (body : List Byte) : Bool := body.length ≤ 240

/-- The request kinds of R182. -/
def catalogue : List Nat :=
  [0x01, 0x02, 0x03, 0x04, 0x05, 0x08, 0x09, 0x10, 0x11, 0x12, 0x18, 0x19, 0x1A, 0x1B, 0x1C, 0x1D, 0x20, 0x21, 0x22,
    0x23, 0x24, 0x28, 0x29, 0x30, 0x31, 0x32, 0x33, 0x38, 0x39, 0x3A, 0x40, 0x41, 0x48, 0x49, 0x7F]

/-- Whether a body's first byte is one of some item codes or selectors. -/
def firstByteIn (codes : List Nat) (body : List Byte) : Bool :=
  match body with
  | b :: _ => codes.contains b.toNat
  | [] => false

/-- The item codes whose CONFIG_SET has a row of its own (R191): sections, encoder items, trims and masks. -/
def ownRowCodes : List Nat := [0x01, 0x02, 0x03, 0x04, 0x05, 0x17, 0x18, 0x19]

def BoardItem.isYarn : BoardItem → Bool
  | .yarnLost _ => true
  | .yarnFound _ => true
  | .clampAck _ _ => false

/-- A section board's answer has up to 8 yarn reports and up to 8 clamp acknowledgements (R169); a board is named by a
section from 1; the other stations' answers carry at most one report by their form. -/
def Answer.wellFormed (a : Answer) : Bool :=
  match a.payload with
  | .board _ sec items =>
    1 ≤ sec && sec ≤ 20 && items.countP (·.isYarn) ≤ 8 && items.countP (fun i => !i.isYarn) ≤ 8
  | .carriage _ _ _ => true
  | .doffer _ _ => true
  | .train _ _ => true

/-- The commands that are well formed. -/
def Instr.wellFormed : Instr → Bool
  | .powerOnReset => true
  | .resetRelease _ => true
  | .storeRecord none => true
  | .storeRecord (some bytes) => bytes.length ≤ 8
  | .loadEnd => true
  | .encoderPulse => true
  | .motionWindowExpiry => true
  | .hostFrame _ => true
  | .frameTimerExpiry => true
  | .replySent => true
  | .unknownKind kind body => !catalogue.contains kind.toNat && bodyFits body
  | .identify body => bodyFits body
  | .status body => bodyFits body
  | .ackEvents body => bodyFits body
  | .setMask body => bodyFits body
  | .setDoffMask body => bodyFits body
  | .configSet body => bodyFits body && !firstByteIn ownRowCodes body
  | .configSetSections body => bodyFits body && firstByteIn [0x01, 0x02] body
  | .configSetEncoder body => bodyFits body && firstByteIn [0x03, 0x04] body
  | .configSetLengthTrim body => bodyFits body && firstByteIn [0x05] body
  | .configSetSpeedTrim body => bodyFits body && firstByteIn [0x17] body
  | .configSetAttnMask body => bodyFits body && firstByteIn [0x18] body
  | .configSetDoffMask body => bodyFits body && firstByteIn [0x19] body
  | .configGet body => bodyFits body
  | .articleStage body => bodyFits body
  | .articleGet body => bodyFits body
  | .articleExchange body => bodyFits body
  | .frameRun body => bodyFits body
  | .frameHalt body => bodyFits body
  | .doffNow body => bodyFits body
  | .doffAbort body => bodyFits body
  | .doffManualDone body => bodyFits body
  | .doffGet body => bodyFits body
  | .spindleGet body => bodyFits body
  | .spindlePark body => bodyFits body
  | .spindleUnpark body => bodyFits body
  | .spindleRelease body => bodyFits body
  | .setRoving body => bodyFits body
  | .breakListGet body => bodyFits body
  | .rovingListGet body => bodyFits body
  | .carriageGet body => bodyFits body
  | .carriageHold body => bodyFits body
  | .carriageRelease body => bodyFits body
  | .carriageReset body => bodyFits body
  | .rovingRunStart body => bodyFits body
  | .rovingRunAbort body => bodyFits body
  | .rovingRunGet body => bodyFits body
  | .trimSpeed body => bodyFits body
  | .trimLength body => bodyFits body
  | .shiftClose body => bodyFits body
  | .shiftGetLive body => bodyFits body && !firstByteIn [0x01] body
  | .shiftGetHistory body => bodyFits body && firstByteIn [0x01] body
  | .reset body => bodyFits body
  | .softReset => true
  | .poll => true
  | .answerWindowExpiry => true
  | .stationAnswer a => a.wellFormed
  | .homingTimerExpiry _ => true
  | .pieceTimerExpiry _ => true
  | .legTimerExpiry _ => true
  | .returnTimerExpiry _ => true
  | .dofferTimerExpiry => true
  | .slotTimerExpiry => true

end Sys2Proof
end

