-- ==== Sys2Proof/Tests/Slice0.lean ====
section
/-!
SUPPORT. Tests of the model against the spec's worked examples and tables, the smoke test of WellFormed, and for each
statement with hypotheses a theorem `witness_<name>` that shows states and operands which meet them.
-/
namespace Sys2Proof.Tests

-- One after another: each `decide` waits for the theorems before it, and as tasks that takes a thread for each.
set_option Elab.async false

open Sys2Proof Sys2Proof.Machine

/-! ## WellFormed: for each check a command that it refuses -/

theorem test_wf_storeRecord_nine_bytes : (Instr.storeRecord (some (List.replicate 9 0))).wellFormed = false := by decide

theorem test_wf_unknownKind_of_the_catalogue : (Instr.unknownKind 0x02 []).wellFormed = false := by decide

theorem test_wf_body_too_long : (Instr.unknownKind 0x50 (List.replicate 241 0)).wellFormed = false := by
  decide +kernel

theorem test_wf_body_too_long_of_each_request :
    ([Instr.identify, .status, .ackEvents, .setMask, .setDoffMask, .configGet, .articleStage, .articleGet,
      .articleExchange, .frameRun, .frameHalt, .doffNow, .doffAbort, .doffManualDone, .doffGet, .spindleGet,
      .spindlePark, .spindleUnpark, .spindleRelease, .setRoving, .breakListGet, .rovingListGet, .carriageGet,
      .carriageHold, .carriageRelease, .carriageReset, .rovingRunStart, .rovingRunAbort, .rovingRunGet, .trimSpeed,
      .trimLength, .shiftClose, .shiftGetLive, .reset, .configSet].all
        fun mk => !(mk (List.replicate 241 0)).wellFormed) = true := by decide +kernel

theorem test_wf_configSet_of_another_row :
    ((Instr.configSet [0x18, 0, 0, 0, 1]).wellFormed || (Instr.configSetSections [0x03, 0, 0, 0, 1]).wellFormed ||
      (Instr.configSetEncoder [0x01, 0, 0, 0, 1]).wellFormed ||
      (Instr.configSetLengthTrim [0x17, 0, 0, 0, 1]).wellFormed ||
      (Instr.configSetSpeedTrim [0x05, 0, 0, 0, 1]).wellFormed ||
      (Instr.configSetAttnMask [0x19, 0, 0, 0, 1]).wellFormed ||
      (Instr.configSetDoffMask [0x18, 0, 0, 0, 1]).wellFormed) = false := by decide

theorem test_wf_shiftGet_of_the_other_row :
    ((Instr.shiftGetLive [1, 0]).wellFormed || (Instr.shiftGetHistory [0, 0]).wellFormed) = false := by decide

/-- A section board's answer with the given section and items. -/
def boardSays (sec : Nat) (items : List BoardItem) : Answer := ⟨true, false, false, .board .a sec items⟩

theorem test_wf_board_section_out_of_range :
    ((Instr.stationAnswer (boardSays 0 [])).wellFormed || (Instr.stationAnswer (boardSays 21 [])).wellFormed) = false := by
  decide

theorem test_wf_board_nine_yarn_reports :
    (Instr.stationAnswer (boardSays 1 (List.replicate 9 (.yarnLost 1)))).wellFormed = false := by decide

theorem test_wf_board_nine_acknowledgements :
    (Instr.stationAnswer (boardSays 1 (List.replicate 9 (.clampAck 1 .opened)))).wellFormed = false := by decide

/-! ## Small states -/

/-- One section fitted on each side; the reading has ended with an end record. -/
def loading : State :=
  { State.reset with
    phase := .loading
    loader := { State.reset.loader with
      stage := .stopped .ok none, index := 2, lastCode := some 0x02, applied := [(0x01, 1), (0x02, 1)] }
    line := { State.reset.line with rx := .hunting } }

/-- The state that load end forms with one section on each side. -/
def fresh : State := formedState loading

/-- Whether a command ends in a next state of which a test holds. -/
def after (i : Instr) (s : State) (test : State → Bool) : Bool :=
  match exec i s with
  | .next t => test t
  | .fault _ => false
  | .refused _ => false

/-- The result and content of the reply in transmission. -/
def answerOf (s : State) : Option (Result × List Byte) := s.line.tx.map fun r => (r.result, r.content)

/-- The poll of a station has just been sent. -/
def polled (st : Station) (s : State) : State := s.setBus { s.bus with awaiting := some ⟨st, none, none, []⟩ }

/-- An answer of a section board with one item. -/
def boardReports (side : Side) (i : BoardItem) : Instr := .stationAnswer ⟨true, true, false, .board side 1 [i]⟩

/-- An answer of a carriage with one report. -/
def carriageReports (side : Side) (r : CarriageReport) : Instr :=
  .stationAnswer ⟨true, true, false, .carriage side none (some r)⟩

/-- One record of a side replaced. -/
def withSpindle (side : Side) (pos : Nat) (sp : Spindle) (s : State) : State :=
  s.setSpindles (s.spindles.modify side (·.set (pos - 1) sp))

/-- A record that has just been formed RUNNING at FLmm 0. -/
def running : Spindle := Spindle.formed 0

/-! ## Host line -/

/-- The check value of CRC-16 with polynomial 1021h and initial value FFFFh, and the STATUS frame (R174). -/
theorem test_crc_and_frame :
    crc16 ([0x31, 0x32, 0x33, 0x34, 0x35, 0x36, 0x37, 0x38, 0x39] : List Byte) = 0x29B1#16 ∧
    frameBytes 0x02 [] = [0xA5, 0x00, 0x02, 0x3D, 0x4D] := by decide +kernel

theorem test_hostFrame_status_frame_is_held :
    after (.hostFrame (onWire [0x00, 0xA5, 0x00, 0x02, 0x3D, 0x4D])) fresh
      (fun t => t.line.holding = [⟨0x02, []⟩] ∧ t.line.rx = .hunting ∧ t.line.discards = 0) = true := by decide +kernel

/-- A5 F5: a body length above 240 (R175). -/
theorem test_hostFrame_length_discard :
    after (.hostFrame (onWire [0xA5, 0xF5])) fresh
      (fun t => t.line.lastDiscard = some .length ∧ t.line.discards = 1 ∧ hasClass t.line.pendingSet .lineFault) = true := by
  decide +kernel

theorem test_frameTimerExpiry_late :
    after .frameTimerExpiry (fresh.setLine { fresh.line with rx := .collecting [] })
      (fun t => t.line.lastDiscard = some .late ∧ t.line.rx = .hunting) = true := by decide +kernel

theorem test_replySent_after_reset_makes_it_due :
    after .replySent (fresh.setLine { fresh.line with holding := [⟨0x7F, []⟩], tx := some ⟨0xFF, .ok, []⟩ })
      (fun t => t.line.resetDue && t.line.holding.isEmpty && t.line.tx.isNone) = true := by decide +kernel

/-- A kind of 80h or above is answered with reply kind FFh (R179). -/
theorem test_unknownKind_reply_kind :
    after (.unknownKind 0x90 [1]) fresh (fun t => t.line.tx = some ⟨0xFF, .unknownKind, [0]⟩) = true := by decide +kernel

theorem test_identify_part_code :
    after (.identify []) fresh
      (fun t => (answerOf t).any fun r => r.1 = .ok ∧ r.2.take 2 = [0x1D, 0x24]) = true := by
  decide +kernel

theorem test_status_in_stopped :
    after (.status []) fresh
      (fun t => (answerOf t).any fun r => r.1 = .ok ∧ r.2.take 2 = [0, 0] ∧ r.2.length = 35 ∧
        (r.2.drop 12).take 2 = [0x3E, 0x80]) = true := by decide +kernel

theorem test_request_while_loading_is_starting :
    after (.status []) loading (fun t => answerOf t = some (.starting, [0])) = true := by decide +kernel

theorem test_ackEvents_clears_config :
    after (.ackEvents [0x00, 0x01]) fresh (fun t => answerOf t = some (.ok, [0, 0]) && t.line.pendingSet = 0) = true := by
  decide +kernel

theorem test_setMask_class_above_14 :
    after (.setMask [0x80, 0x00]) fresh (fun t => answerOf t = some (.badValue, [0])) = true := by decide +kernel

theorem test_setMask_releases_attn :
    attnLow fresh = true ∧ after (.setMask [0x00, 0x00]) fresh (fun t => !attnLow t) = true := by decide +kernel

theorem test_setDoffMask :
    after (.setDoffMask [0x00, 0x20]) fresh (fun t => t.doff.doffMask = 0x20 ∧ t.doff.effective.mask = 0x7FFF) = true := by
  decide +kernel

theorem test_reset_is_answered_first :
    after (.reset []) fresh (fun t => answerOf t = some (.ok, []) ∧ t.doff = fresh.doff) = true := by decide +kernel

/-! ## Reset and loading -/

theorem test_powerOnReset : after .powerOnReset fresh (· = State.reset) = true := by decide +kernel

theorem test_resetRelease_straps :
    after (.resetRelease 2#2) State.reset (fun t => t.line.rate = .b230400 ∧ t.loader.stage = .reading) = true := by
  decide +kernel

/-- The store being read from its first record. -/
def reading : State :=
  { loading with loader := { State.reset.loader with stage := .reading } }

theorem test_storeRecord_codes_must_rise :
    after (.storeRecord (some [0x0B, 0, 0, 0, 2, 0, 0, 0]))
      { reading with loader := { reading.loader with lastCode := some 0x0B, applied := [(0x0B, 1)], index := 1 } }
      (fun t => t.loader.stage = .stopped .fault (some 1)) = true := by decide +kernel

theorem test_storeRecord_no_memory :
    after (.storeRecord none) reading (fun t => t.loader.stage = .stopped .none none) = true := by decide +kernel

/-- The default items and article: N and D of R1, set-point 16,000 from p0 (R9). -/
theorem test_loadEnd_defaults :
    after .loadEnd { loading with loader := { loading.loader with applied := [(0x01, 1), (0x02, 1)] } }
      (fun t => t.roller.num = 694870016 ∧ t.roller.den = 3276800 ∧ t.speed.setPoint = 16000 ∧
        t.line.pendingSet = 1 ∧ t.spindles.a.length = 48) = true := by decide +kernel

/-- A stored max speed below the default min speed discards the stored record whole (R112). -/
theorem test_loadEnd_defaulted_article :
    after .loadEnd
      { loading with loader := { loading.loader with
          applied := [(0x01, 1), (0x02, 1), (0x40, 7), (0x45, 8000 * 65536 + 7000)] } }
      (fun t => t.articles.active = Article.default ∧ t.loader.defaulted) = true := by decide +kernel

/-! ## Front rollers (1.3.1) -/

/-- After 1,000 pulses with LENGTH_TRIM +3, and TRIM_LENGTH +5. -/
def trimmed : State :=
  (fresh.setItems { fresh.items with lengthTrim := 5 }).setRoller
    { fresh.roller with flum := 212135, acc := 517000, num := 695294131, winding := true }

theorem test_trimLength_plus_five :
    after (.trimLength [5])
      ((trimmed.setItems { fresh.items with lengthTrim := 3 }).setRoller { trimmed.roller with num := 695124485 })
      (fun t => t.roller.num = 695294131 ∧ t.roller.acc = 517000 ∧ answerOf t = some (.ok, [5])) = true := by
  decide +kernel

theorem test_trimLength_clamped :
    after (.trimLength [0x80]) fresh (fun t => answerOf t = some (.clamped, [0xC0]) ∧ t.items.lengthTrim = -64) = true := by
  decide +kernel

theorem test_encoderPulse_after_trim :
    after .encoderPulse trimmed
      (fun t => t.roller.flum = 212347 ∧ t.roller.acc = 1129531 ∧ t.roller.window = some 250) = true := by decide +kernel

theorem test_encoderPulse_motion_in_stopped :
    after .encoderPulse { trimmed with roller := { trimmed.roller with winding := false } }
      (fun t => hasClass t.line.pendingSet .motion ∧ t.roller.winding) = true := by decide +kernel

/-- Had the host changed ROLLER_CIRC_UM while STOPPED, the 517,000 remainder would have been dropped (1.3.1). -/
theorem test_configSetEncoder_drops_the_remainder :
    after (.configSetEncoder [0x04, 0x00, 0x01, 0x86, 0xA0]) trimmed
      (fun t => t.roller.acc = 0 ∧ t.roller.flum = 212135 ∧ t.roller.num = 100000 * 8197) = true := by decide +kernel

theorem test_configSetLengthTrim_refused :
    after (.configSetLengthTrim [0x05, 0xFF, 0xFF, 0xFF, 0xBF]) fresh
      (fun t => answerOf t = some (.badValue, [5]) ∧ t.items.lengthTrim = 0) = true := by decide +kernel

theorem test_configSetLengthTrim_minus_64 :
    after (.configSetLengthTrim [0x05, 0xFF, 0xFF, 0xFF, 0xC0]) fresh
      (fun t => answerOf t = some (.ok, []) ∧ t.roller.num = 84823 * 8128) = true := by decide +kernel

theorem test_motionWindowExpiry_in_spinning :
    after .motionWindowExpiry
      { fresh with roller := { fresh.roller with window := some 250, winding := true },
                   doff := { fresh.doff with frame := .spinning } }
      (fun t => t.doff.frame = .halted ∧ !t.roller.winding ∧ hasClass t.line.pendingSet .motion) = true := by
  decide +kernel

/-! ## Speed (1.3.2, 1.3.3, R12) -/

/-- The default article with the points of the table of R12. -/
def tableArticle : Article :=
  { Article.default with program := [16000, 16400, 16800, 17200, 17600, 18000, 18400, 18800, 19200, 19400, 19600, 19800,
      19400, 19200, 19200, 19100] }

theorem test_programSpeed_table :
    programSpeed tableArticle 720 = 19700 ∧ programSpeed tableArticle 722 = 19688 ∧
      programSpeed tableArticle 40 = 16250 ∧ programSpeed tableArticle 1024 = 19100 := by decide

theorem test_setPoint_1_3_2 :
    setPointOf tableArticle 720 2 1 .spinning = 19350 ∧ setPointOf tableArticle 1004 2 1 .doffPending = 12000 := by decide

/-- 3,815,000 mm with cop base 1,000,000: fill 720 (1.3.2). -/
theorem test_fill_1_3_2 :
    fillOf { fresh with roller := { fresh.roller with flum := 3815000000 },
                        doff := { fresh.doff with copBase := 1000000 } } = 720 := by decide +kernel

/-- The windows of 1.3.3 by their rates 21, 6, 7, 10, 5, 5, 5: low streak and g after each. -/
theorem test_governor_1_3_3 :
    ([21, 6, 7, 10, 5, 5, 5].scanl (fun v r => stepGovernor Items.defaults r v) ⟨0, 0, 0, 0, 0⟩).map
        (fun v => (v.lowStreak, v.step)) =
      [(0, 0), (0, 1), (1, 1), (2, 1), (0, 1), (1, 1), (2, 1), (0, 0)] := by decide

theorem test_trimSpeed_clamped :
    after (.trimSpeed [0x20]) fresh
      (fun t => answerOf t = some (.clamped, [15]) ∧ t.speed.setPoint = 16370 ∧ hasClass t.line.pendingSet .speed) = true := by
  decide +kernel

theorem test_configSetSpeedTrim :
    after (.configSetSpeedTrim [0x17, 0, 0, 0, 2]) fresh
      (fun t => answerOf t = some (.ok, []) ∧ t.speed.setPoint = 16050) = true := by decide +kernel

/-! ## Spindles (R25, R44, chapter 12.1) -/

/-- The close of the example of R25. -/
theorem test_close_r25 :
    let sp := ({ running with marker := some 2352500, roving := some 1200000 }).close Article.default 2815000
    sp.cop = 462500 ∧ sp.roving = some 1187987 ∧ sp.marker = some 2815000 := by decide

/-- Chapter 12.1, with the positions 431 and 420 as 11 and 1: carriage B READY, the frame SPINNING. -/
def handPiece : State :=
  let s := withSpindle .b 11
    { running with marker := some 15200000, cop := 1800000, stamps := [15000000, 15100000] } fresh
  { s with
    roller := { s.roller with flum := 15260000000 }
    doff := { s.doff with frame := .spinning }
    breakSeq := ⟨0, 300⟩
    carriages := { s.carriages with b := { s.carriages.b with state := .ready, x := some 1 } } }

/-- B-11 after YARN_LOST at 15,260,000 and the dispatch at its end. -/
def lostPiece : State := yarnLost .b 11 handPiece

theorem test_yarnLost_12_1 :
    (lostPiece.spindle .b 11).any (fun sp => sp.state = .piecing ∧ sp.seq = some 301 ∧ sp.cop = 1860000 ∧
      sp.stamps = [15000000, 15100000, 15260000] ∧ sp.clamp = .opened) ∧
    lostPiece.carriages.b.order = some (.piece 11 10 .endBreak) ∧ lostPiece.speed.winCount = 1 := by decide +kernel

theorem test_yarnFound_then_failed_piece_12_1 :
    let t := carriageReport .b (.pieced 11 false) (yarnFound .b 11 lostPiece)
    (t.spindle .b 11).any (fun sp => sp.state = .running) ∧ t.carriages.b.state = .ready ∧ t.carriages.b.x = some 11 ∧
      t.shift.live.sides.b.counts = { ShiftCounts.zero with endBreaks := 1 } := by decide +kernel

theorem test_failed_piece_then_yarnFound_12_1 :
    let t := yarnFound .b 11 (carriageReport .b (.pieced 11 false) lostPiece)
    let u := carriageReport .b (.pieced 11 true) t
    t.carriages.b.order = some (.overtaken 11 0 .endBreak) ∧
      u.shift.live.sides.b.counts =
        { ShiftCounts.zero with endBreaks := 1, pieceFailures := 1, carriagePieces := 1 } := by decide +kernel

theorem test_stationAnswer_board_reports :
    after (boardReports .b (.yarnLost 11)) (polled (.board .b 1) handPiece)
      (fun t => t.carriages.b.state = .serving ∧ t.bus.awaiting = none) = true := by decide +kernel

theorem test_stationAnswer_wrong_station_is_missed :
    after (boardReports .b (.yarnLost 11)) (polled (.board .a 1) handPiece)
      (fun t => t.spindles = handPiece.spindles ∧ (t.bus.link (.board .a 1)).any (·.miss = 1)) = true := by
  decide +kernel

theorem test_spindlePark_serving_target :
    after (.spindlePark [1, 0, 11]) lostPiece
      (fun t => answerOf t = some (.ok, [5]) ∧ t.carriages.b.returning ∧ t.carriages.b.withdrawn = some 11 ∧
        (t.bus.carriages.b.queue.map (·.cmd)) = [.piece 10 .endBreak, .cancel]) = true := by decide +kernel

/-- Chapter 4.3.3: the spindle that the carriage serves is parked, after a piece by hand on it. -/
theorem test_spindlePark_overtaken_target :
    after (.spindlePark [1, 0, 11]) (yarnFound .b 11 lostPiece)
      (fun t => answerOf t = some (.ok, [5]) ∧ t.carriages.b.returning ∧ t.carriages.b.order = none ∧
        t.carriages.b.withdrawn = none ∧ (t.bus.carriages.b.queue.map (·.cmd)) = [.piece 10 .endBreak, .cancel]) = true := by
  decide +kernel

theorem test_spindleUnpark_refused : after (.spindleUnpark [0, 0, 1]) fresh
    (fun t => answerOf t = some (.refusedState, [0])) = true := by decide +kernel

theorem test_spindleUnpark_joins :
    after (.spindleUnpark [0, 0, 2]) (withSpindle .a 2 (Spindle.parked { running with clamp := .closed }) fresh)
      (fun t => answerOf t = some (.ok, [1]) ∧ t.breakList.a = [2] ∧
        (t.spindle .a 2).any (fun sp => sp.cause = some .release ∧ sp.seq = some 1)) = true := by decide +kernel

theorem test_spindleRelease_clears_stamps :
    after (.spindleRelease [1, 0, 48])
      (withSpindle .b 48 { (Spindle.locked running .rogue) with clamp := .closed, stamps := [1, 2, 3, 4] } fresh)
      (fun t => answerOf t = some (.ok, [1]) ∧ (t.spindle .b 48).any (fun sp => sp.stamps = [] ∧ sp.lockCause = none)) =
        true := by decide +kernel

theorem test_setRoving_counts_the_range :
    after (.setRoving [0, 0, 1, 0, 48, 0x0A, 0x28]) fresh
      (fun t => answerOf t = some (.ok, [0, 48]) ∧ (t.spindle .a 48).any (·.roving = some 2600000)) = true := by
  decide +kernel

theorem test_spindleGet_page :
    after (.spindleGet [0, 0, 47, 40]) fresh
      (fun t => (answerOf t).any fun r => r.1 = .ok ∧ r.2.take 2 = [0, 2] ∧ r.2.length = 90) = true := by decide +kernel

theorem test_spindleGet_count_zero :
    after (.spindleGet [0, 0, 1, 0]) fresh (fun t => answerOf t = some (.badValue, [0])) = true := by decide +kernel

theorem test_breakListGet :
    after (.breakListGet [1, 0, 0]) (returnSpindle .b 11 lostPiece)
      (fun t => answerOf t = some (.ok, [0, 1, 0, 1, 0, 11, 0, 0, 1, 45, 0, 0, 0])) = true := by decide +kernel

/-! ## Dispatch (3.8.1, 3.8.2) -/

theorem test_chooseTarget_3_8_1 :
    chooseTarget 300 .up 24 [812, 290, 315, 330] = some 315 ∧ chooseTarget 315 .up 24 [812, 290, 315, 330] = some 315 ∧
      chooseTarget 315 .up 24 [812, 290, 330] = some 330 ∧ chooseTarget 330 .up 24 [812, 290] = some 812 ∧
      chooseTarget 457 .up 24 [290, 470] = some 470 ∧ chooseTarget 343 .down 24 [290] = some 290 := by decide

/-- The rebuild of 3.8.2, with B-12, B-301, B-455 and B-640 as positions 2, 5, 7 and 9. -/
def beforeRebuild : State :=
  let broken (q : Nat) : Spindle :=
    { running with state := .broken, marker := none, clamp := .closed, seq := some q, cause := some .endBreak }
  let s := withSpindle .b 9 (broken 17) (withSpindle .b 2 (broken 18) (withSpindle .b 5 (broken 20)
    (withSpindle .b 7 { broken 19 with state := .piecing, clamp := .opened } fresh)))
  { s with
    breakList := ⟨[], [9, 2, 5]⟩
    breakSeq := ⟨0, 20⟩
    carriages := { s.carriages with b :=
      { s.carriages.b with
        state := .serving, x := some 1, order := some (.piece 7 6 .endBreak), timer := some ⟨.piece, 75⟩ } }
    doff := { s.doff with frame := .spinning }
    line := { s.line with resetDue := true } }

theorem test_softReset_3_8_2 :
    after .softReset beforeRebuild
      (fun t => t.breakList.b = [2, 5, 7, 9] ∧ t.breakSeq.b = 4 ∧ t.carriages.b.state = .homing ∧
        t.doff.frame = .stopped ∧ (t.spindle .b 7).any (fun sp => sp.seq = some 3 ∧ sp.clamp = .closed)) = true := by
  decide +kernel

theorem test_softReset_homes_the_carriage :
    after .softReset beforeRebuild
      (fun t => t.bus.carriages.b.queue.map (·.cmd) = [.home] ∧ t.carriages.b.withdrawn = some 7 ∧
        (t.bus.board .b 1).any (fun e => e.held[6]? = some (some .closed))) = true := by decide +kernel

theorem test_transit_3_8_1 :
    let s := { handPiece with
      breakList := ⟨[], [46]⟩
      carriages := { handPiece.carriages with b := { handPiece.carriages.b with x := some 300 } } }
    let t := dispatchTest .b s
    t.carriages.b.order = some (.transit (-127)) ∧ t.carriages.b.d = .down ∧ t.breakList.b = [46] := by decide +kernel

/-! ## Configuration items -/

theorem test_configSet_cross_check :
    after (.configSet [0x16, 0, 0, 0, 20]) fresh (fun t => answerOf t = some (.badValue, [0x16])) = true := by
  decide +kernel

theorem test_configSet_lock_ceiling_not_stopped :
    after (.configSet [0x0E, 0, 0, 0, 3]) (fresh.setDoff { fresh.doff with frame := .halted })
      (fun t => answerOf t = some (.refusedState, [0x0E])) = true := by decide +kernel

theorem test_configSetSections_raised :
    after (.configSetSections [0x01, 0, 0, 0, 2]) fresh
      (fun t => answerOf t = some (.ok, []) ∧ t.spindles.a.length = 96 ∧ t.bus.boards.a.length = 2 ∧
        t.spindles.b.length = 48) = true := by decide +kernel

theorem test_configSetAttnMask_deferred :
    after (.configSetAttnMask [0x18, 0, 0, 0x7B, 0xFF])
      (fresh.setDoff { fresh.doff with frame := .doffPending, effective := ⟨0x7DDF, false⟩, saved := some ⟨0x7FFF, true⟩ })
      (fun t => answerOf t = some (.deferred, []) ∧ t.doff.saved = some ⟨0x7BFF, true⟩ ∧
        t.doff.effective = ⟨0x7DDF, false⟩) = true := by decide +kernel

theorem test_configSetDoffMask :
    after (.configSetDoffMask [0x19, 0, 0, 0x80, 0x00]) fresh (fun t => answerOf t = some (.badValue, [0x19])) = true := by
  decide +kernel

theorem test_configGet_default_reach :
    after (.configGet [0x07]) fresh (fun t => answerOf t = some (.ok, [0x07, 0, 0, 0, 24])) = true := by decide +kernel

theorem test_configGet_paired_article_code :
    after (.configGet [0x45]) fresh (fun t => answerOf t = some (.ok, [0x45, 0x1F, 0x40, 0x52, 0x08])) = true := by
  decide +kernel

/-! ## Articles (R110, chapter 12.2) -/

/-- Min 22,000, max 21,000 and approach 25,000: field 23 (R110). -/
theorem test_articleStage_failing_field :
    after (.articleStage
        (({ Article.default with minSpeed := 22000, maxSpeed := 21000, approach := 25000 }).fields.flatMap (beBytes 2)))
      fresh (fun t => answerOf t = some (.badValue, [23]) ∧ t.articles.staged = none) = true := by decide +kernel

/-- Article 212 of chapter 12.2; the spec does not give its other points and speeds. -/
def article212 : Article :=
  { Article.default with
    id := 212, tex100 := 1180, draft100 := 4200, copLength := 4500, bobbin := 2200
    program := [16400, 17000] ++ List.replicate 14 17000, maxSpeed := 20000 }

theorem test_articleStage_valid :
    after (.articleStage (article212.fields.flatMap (beBytes 2))) fresh
      (fun t => answerOf t = some (.ok, []) ∧ t.articles.staged = some article212) = true := by decide +kernel

theorem test_articleGet_staged_absent :
    after (.articleGet [1]) fresh
      (fun t => (answerOf t).any fun r => r.1 = .ok ∧ r.2 = List.replicate 68 0) = true := by decide +kernel

theorem test_articleExchange_none_staged :
    after (.articleExchange []) fresh
      (fun t => answerOf t = some (.refusedState, [1]) ∧
        t.articles.last = some ⟨.noStaged, .request, 0⟩) = true := by decide +kernel

theorem test_articleExchange_swaps :
    after (.articleExchange []) (fresh.setArticles { fresh.articles with staged := some article212 })
      (fun t => answerOf t = some (.ok, [0]) ∧ t.articles.active = article212 ∧
        t.articles.staged = some Article.default ∧ t.speed.setPoint = 16400 ∧ t.shift.live.exchanges = 1) = true := by
  decide +kernel

/-! ## Frame states and the doff (chapter 12.2) -/

/-- The doff of chapter 12.2 as it stands in DOFF_STOPPING, with one section on each side and carriage B SERVING. -/
def doffStopping : State :=
  let s := withSpindle .b 7
    { running with state := .piecing, marker := none, seq := some 3, cause := some .endBreak } fresh
  let s := s.setSpindles ⟨s.spindles.a.map fun sp => { sp with marker := sp.marker.map fun _ => 24000000 },
    s.spindles.b.map fun sp => { sp with marker := sp.marker.map fun _ => 24000000 }⟩
  { s with
    roller := { s.roller with flum := 24010000000 }
    items := { s.items with speedTrim := 2 }
    speed := { s.speed with fill := 1024, step := 1, setPoint := 12000 }
    breakSeq := ⟨0, 3⟩
    carriages := ⟨{ s.carriages.a with state := .ready, x := some 1 },
      { s.carriages.b with
        state := .serving, x := some 1, order := some (.piece 7 6 .endBreak), timer := some ⟨.piece, 75⟩ }⟩
    doff := { s.doff with
      frame := .doffStopping, copBase := 20000000, number := 1, last := some ⟨1, .auto, 1024, 0, 0, none, none⟩
      ready := true, effective := ⟨0x7DDF, false⟩, saved := some ⟨0x7BFF, true⟩ }
    articles := { s.articles with staged := some article212, request := true } }

theorem test_frameHalt_enters_doffing_12_2 :
    after (.frameHalt []) doffStopping
      (fun t => answerOf t = some (.ok, [5]) ∧ t.doff.go = .sent ∧ t.breakList.b = [7] ∧
        (t.bus.doffer.queue.map (·.cmd)) = [.doffGo 1 1] ∧ t.carriages.a.state = .held) = true := by decide +kernel

/-- DOFFING with DOFF_GO sent. -/
def doffing : State :=
  match exec (.frameHalt []) doffStopping with
  | .next t => t.setLine { t.line with tx := none, holding := [] }
  | .fault _ => doffStopping
  | .refused _ => doffStopping

theorem test_doffDone_12_2 :
    let t := dofferReport .doffDone doffing
    t.doff.frame = .restartWait ∧ t.doff.copBase = 24010000 ∧ t.articles.active = article212 ∧
      t.speed.step = 0 ∧ t.speed.fill = 0 ∧ t.speed.setPoint = 16450 ∧ t.shift.live.doffs = 1 ∧
      t.shift.live.exchanges = 1 ∧ t.carriages.a.state = .ready := by decide +kernel

theorem test_doffManualDone_stops_the_doffer :
    after (.doffManualDone []) { doffing with bus := { doffing.bus with doffer := MachineEntry.initial } }
      (fun t => answerOf t = some (.ok, [6]) ∧ (t.bus.doffer.queue.map (·.cmd)) = [.doffStop]) = true := by decide +kernel

theorem test_doffManualDone_refused :
    after (.doffManualDone []) doffStopping (fun t => answerOf t = some (.refusedState, [0])) = true := by decide +kernel

theorem test_dofferTimerExpiry_fails_the_doff :
    after .dofferTimerExpiry doffing
      (fun t => t.doff.frame = .halted ∧ t.doff.last.any (fun r => r.outcome = some .fault ∧ r.faultCode = none) ∧
        hasClass t.line.pendingSet .dofferFault) = true := by decide +kernel

theorem test_doffAbort :
    after (.doffAbort []) doffing
      (fun t => answerOf t = some (.ok, [7]) ∧ t.doff.go = .none ∧ t.bus.doffer.queue = []) = true := by decide +kernel

theorem test_doffNow_number_wraps :
    after (.doffNow []) (fresh.setDoff { fresh.doff with frame := .halted, number := 65535 })
      (fun t => answerOf t = some (.ok, [0, 1]) ∧ t.doff.frame = .doffStopping ∧ t.doff.saved = some ⟨0x7FFF, true⟩ ∧
        t.doff.effective = ⟨0x7DDF, false⟩) = true := by decide +kernel

theorem test_doffNow_refused :
    after (.doffNow []) fresh (fun t => answerOf t = some (.refusedState, [0])) = true := by decide +kernel

theorem test_frameRun_starts_the_watch :
    after (.frameRun []) (fresh.setDoff { fresh.doff with frame := .restartWait })
      (fun t => answerOf t = some (.ok, [1]) ∧ t.doff.frame = .startUp ∧ t.doff.watchStart = some 0) = true := by
  decide +kernel

theorem test_frameHalt_while_stopped :
    after (.frameHalt []) fresh (fun t => answerOf t = some (.ok, [0]) ∧ t.doff = fresh.doff) = true := by decide +kernel

theorem test_doffGet_no_doff :
    after (.doffGet []) fresh (fun t => (answerOf t).any fun r => r.1 = .ok ∧ r.2.take 1 = [0]) = true := by
  decide +kernel

/-! ## Carriages -/

theorem test_carriageHold :
    after (.carriageHold [0]) doffStopping (fun t => answerOf t = some (.ok, [5]) ∧ t.carriages.a.hostHold) = true := by
  decide +kernel

theorem test_carriageRelease_dispatches :
    after (.carriageRelease [1])
      { handPiece with
        breakList := ⟨[], [11]⟩
        spindles := handPiece.spindles.modify .b (·.set 10
          { running with state := .broken, marker := none, clamp := .closed, seq := some 300, cause := some .endBreak })
        carriages := { handPiece.carriages with b :=
          { handPiece.carriages.b with state := .held, hostHold := true } } }
      (fun t => answerOf t = some (.ok, [4])) = true := by decide +kernel

theorem test_carriageReset_absent :
    after (.carriageReset [0]) fresh (fun t => answerOf t = some (.notPresent, [0])) = true := by decide +kernel

theorem test_carriageReset_fault :
    after (.carriageReset [0]) (fresh.setCarriages { fresh.carriages with a := { fresh.carriages.a with state := .fault } })
      (fun t => answerOf t = some (.ok, []) ∧ t.carriages.a.timer = some ⟨.homing, 40⟩ ∧
        t.bus.carriages.a.queue.map (·.cmd) = [.home]) = true := by decide +kernel

theorem test_carriageGet_bad_side :
    after (.carriageGet [2]) fresh (fun t => answerOf t = some (.badValue, [0])) = true := by decide +kernel

theorem test_pieceTimerExpiry :
    after (.pieceTimerExpiry .b) doffStopping
      (fun t => t.carriages.b.state = .fault ∧ t.carriages.b.withdrawn = some 7 ∧ t.breakList.b = [7] ∧
        t.bus.carriages.b.queue = []) = true := by decide +kernel

/-- Carriage A under a timer of a kind. -/
def timed (st : CarState) (k : TimerKind) (o : Option Order) : State :=
  fresh.setCarriages { fresh.carriages with a :=
    { fresh.carriages.a with state := st, timer := some ⟨k, 20⟩, order := o, returning := k == .returning } }

theorem test_homing_leg_and_return_timers :
    (after (.homingTimerExpiry .a) (timed .homing .homing none) (·.carriages.a.state = .fault) &&
      after (.legTimerExpiry .a) (timed .moving .leg (some (.transit 127))) (·.carriages.a.state = .fault) &&
      after (.returnTimerExpiry .a) (timed .moving .returning none) (fun t => !t.carriages.a.returning) &&
      after (.legTimerExpiry .a) (timed .moving .returning none) (·.carriages.a.state = .moving)) = true := by
  decide +kernel

theorem test_homed_beyond_the_side :
    ((carriageReport .a (.homed 49) (timed .homing .homing none)).carriages.a.state = .fault) ∧
    ((carriageReport .a (.homed 48) (timed .homing .homing none)).carriages.a.x = some 48) := by decide +kernel

/-! ## Roving (chapter 12.3) -/

/-- B-120 of chapter 12.3 as B-24, low-listed in an active run with count 2. -/
def rovingRun : State :=
  let s := withSpindle .b 24 { running with marker := some 30000000, roving := some 55000 } fresh
  { s with
    roller := { s.roller with flum := 30004000000 }
    doff := { s.doff with frame := .spinning }
    breakSeq := ⟨0, 512⟩
    roving := { s.roving with low := [⟨.b, 24⟩], run := .active, base := some 2, current := some 2 } }

/-- After NEXT, with the run ENDING, at 30,007,700. -/
def rovingEnding : State :=
  let t := trainReport .next rovingRun
  { t with
    roving := { t.roving with run := .ending }
    roller := { t.roller with flum := 30007700000 } }

theorem test_next_12_3 :
    let t := trainReport .next rovingRun
    t.roving.slot = some ⟨.b, 24⟩ ∧ t.roving.current = some 1 ∧ t.roving.timer = some 600 ∧
      t.bus.train.queue.map (·.cmd) = [.position .b 24] := by decide +kernel

theorem test_break_then_replaced_12_3 :
    let t := trainReport (.replaced .b 24) (yarnLost .b 24 rovingEnding)
    (t.spindle .b 24).any (fun sp => sp.state = .broken ∧ sp.cause = some .endBreak ∧ sp.seq = some 513 ∧
      sp.roving = some 2600000) ∧
    ((yarnLost .b 24 rovingEnding).spindle .b 24).any (fun sp => sp.roving = some 54800) ∧
    t.roving.run = .idle ∧ t.roving.reason = some .aborted := by decide +kernel

theorem test_replaced_then_break_12_3 :
    let t := yarnLost .b 24 (trainReport (.replaced .b 24) rovingEnding)
    (t.spindle .b 24).any (fun sp => sp.cause = some .rovingChange ∧ sp.seq = some 513 ∧ sp.clamp = .closed ∧
      sp.stamps = []) ∧
    t.shift.live.sides.b.counts = { ShiftCounts.zero with replacements := 1 } := by decide +kernel

/-- Had the slot timer expired first: the head of the low segment, reason TIMEOUT (12.3). -/
theorem test_slotTimerExpiry_12_3 :
    after .slotTimerExpiry rovingEnding
      (fun t => t.roving.low = [⟨.b, 24⟩] ∧ t.roving.reason = some .timeout ∧ t.roving.slot = none) = true := by
  decide +kernel

theorem test_rovingRunStart_not_present :
    after (.rovingRunStart [1]) fresh (fun t => answerOf t = some (.notPresent, [0])) = true := by decide +kernel

theorem test_rovingRunStart_count_zero :
    after (.rovingRunStart [0]) fresh (fun t => answerOf t = some (.badValue, [0])) = true := by decide +kernel

theorem test_rovingRunAbort :
    after (.rovingRunAbort []) rovingRun (fun t => answerOf t = some (.ok, [0]) ∧ t.roving.reason = some .aborted) = true := by
  decide +kernel

theorem test_rovingRunGet_idle :
    after (.rovingRunGet []) fresh (fun t => (answerOf t).any fun r => r.1 = .ok ∧ r.2.take 1 = [0]) = true := by
  decide +kernel

theorem test_rovingListGet_start_beyond :
    after (.rovingListGet [0, 2]) rovingRun (fun t => answerOf t = some (.badValue, [0])) = true := by decide +kernel

/-- A figure below 60,000 mm is listed, and one above is not (R126). -/
theorem test_audit :
    (rovingAudit (withSpindle .a 3 { running with roving := some 59999 }
      (withSpindle .a 2 { running with roving := some 60000 } fresh))).roving.low = [⟨.a, 3⟩] := by decide +kernel

/-! ## Shift (R153, chapter 12.4) -/

theorem test_mass_r153 : massDg (123456789 * 1476) = 18222 ∧ massDg 655280000000 = 65528 ∧
    efficiencyOf 460000000 480000000 = some 958 := by decide

theorem test_shiftClose_reply_is_the_sequence :
    after (.shiftClose [0, 4, 0x65, 0x53, 0xF1, 0x00]) doffStopping
      (fun t => answerOf t = some (.ok, [0, 0, 0, 1]) ∧ t.shift.seq = 2 ∧ t.shift.marks = ⟨24010000, 24010000⟩ ∧
        (t.shift.history.map (·.label)) = [4]) = true := by decide +kernel

theorem test_shiftGetLive_first_sequence :
    after (.shiftGetLive [0, 9]) fresh
      (fun t => (answerOf t).any fun r => r.1 = .ok ∧ r.2.take 4 = [0, 0, 0, 1]) = true := by decide +kernel

theorem test_shiftGetHistory_empty :
    after (.shiftGetHistory [1, 0]) fresh (fun t => answerOf t = some (.badValue, [0])) = true := by decide +kernel

/-! ## Frame bus -/

theorem test_poll_starts_with_carriage_a :
    after .poll fresh (fun t => t.bus.awaiting.any (fun m => m.station = .carriage .a ∧ m.receipt = none)) = true := by
  decide +kernel

theorem test_poll_board_carries_eight :
    after .poll (fresh.setBus { fresh.bus with cycle := [.board .a 1] })
      (fun t => t.bus.awaiting.any (fun m => m.clamps = (List.range' 1 8).map fun p => (p, .opened)) ∧
        (t.bus.board .a 1).any (·.carryPoint = 8)) = true := by decide +kernel

theorem test_answerWindowExpiry_third_miss :
    after .answerWindowExpiry
      (polled .doffer { fresh with
        doff := { fresh.doff with ready := true }
        bus := { fresh.bus with doffer := ⟨⟨.answering, 2, some true, false⟩, none, []⟩ } })
      (fun t => t.bus.doffer.link.status = .silent ∧ !t.doff.ready ∧ hasClass t.line.pendingSet .lineFault) = true := by
  decide +kernel

theorem test_stationAnswer_carriage_arrives :
    after (carriageReports .a .present) (polled (.carriage .a) fresh)
      (fun t => t.carriages.a.state = .homing ∧ t.bus.carriages.a.link.status = .answering) = true := by decide +kernel

/-! ## The queue -/

theorem test_step_takes_the_front_command :
    step (fresh.setPending [.poll, .encoderPulse]) = exec .poll (fresh.setPending [.encoderPulse]) := by rfl

/-! ## Witnesses: states and operands that meet the hypotheses of each statement -/

/-- A record BROKEN with a sequence. -/
def broken (q : Nat) : Spindle :=
  { running with state := .broken, marker := none, clamp := .closed, seq := some q, cause := some .endBreak }

/-- One spindle in each state on side A, carriage A SERVING, carriage B READY, a roving run, the frame SPINNING. -/
def small : State :=
  let s := withSpindle .a 2 (broken 1) (withSpindle .a 3 { broken 2 with state := .piecing, clamp := .opened }
    (withSpindle .a 4 (Spindle.parked { running with clamp := .closed })
      (withSpindle .a 5 (Spindle.locked { running with clamp := .closed } .rogue)
        (withSpindle .a 6
          { running with state := .waitRoving, marker := none, clamp := .closed, cause := some .rovingOut } fresh))))
  { s with
    roller := { s.roller with flum := 5000000, window := some 250, winding := true }
    speed := { s.speed with fill := 1, setPoint := 16000 }
    breakList := ⟨[2], []⟩
    breakSeq := ⟨2, 0⟩
    carriages := ⟨{ s.carriages.a with
        state := .serving, x := some 2, order := some (.piece 3 1 .endBreak), timer := some ⟨.piece, 75⟩ },
      { s.carriages.b with state := .ready, x := some 1 }⟩
    doff := { s.doff with frame := .spinning }
    roving := { s.roving with
      urgent := [⟨.a, 6⟩], low := [⟨.a, 1⟩], run := .active, base := some 3, current := some 2 }
    bus := { s.bus with train := ⟨⟨.answering, 0, some false, false⟩, none, []⟩ } }

/-- A pulse is waiting. -/
def next : State := small.setPending [.encoderPulse]

theorem witness_StepRunsFrontCommand :
    (small.setPending [.encoderPulse, .poll]).pending = .encoderPulse :: [.poll] ∧ small.pending = [] := by decide

theorem witness_LockCeilingIsKept :
    let s := next.setItems { next.items with lockCeiling := 1 }
    (LockLaw s ∧ lockedCount s = s.items.lockCeiling) ∧ ∃ t, step s = .next t := ⟨by decide +kernel, _, rfl⟩

theorem witness_ItemsAndRollerLawsAreKept :
    (LoaderLaw next ∧ ItemsLaw next ∧ RollerLaw next) ∧ ∃ t, step next = .next t := ⟨by decide +kernel, _, rfl⟩

theorem witness_ArticleAndSpeedLawsAreKept :
    (ArticleLaw next ∧ SpeedLaw next) ∧ ∃ t, step next = .next t := ⟨by decide +kernel, _, rfl⟩

theorem witness_RecordAndClampLawsAreKept :
    (ArticleLaw next ∧ RecordLaw next ∧ ClampLaw next) ∧ ∃ t, step next = .next t := ⟨by decide +kernel, _, rfl⟩

theorem witness_CopLawIsKept :
    (LengthHasRoom next ∧ RecordLaw next ∧ CopLaw next) ∧ ∃ t, step next = .next t := ⟨by decide +kernel, _, rfl⟩

theorem witness_BreakListLawIsKept :
    (ItemsLaw next ∧ TableLaw next ∧ BreakLaw next) ∧ ∃ t, step next = .next t :=
  ⟨⟨by decide +kernel, by decide +kernel, by decide +kernel⟩, _, rfl⟩

theorem witness_CarriageAndDoffLawsAreKept :
    (DoffLaw next ∧ CarriageLaw next) ∧ ∃ t, step next = .next t :=
  ⟨⟨by decide +kernel, by decide +kernel⟩, _, rfl⟩

theorem witness_RovingLawsAreKept :
    (RunLaw next ∧ RovingListLaw next) ∧ ∃ t, step next = .next t := ⟨by decide +kernel, _, rfl⟩

theorem witness_ShiftRecordLawsAreKept :
    (HistoryLaw next ∧ CountsLaw next) ∧ ∃ t, step next = .next t := ⟨by decide +kernel, _, rfl⟩

theorem witness_RunNeverExceedsPossible :
    (LengthHasRoom next ∧ ShiftHasRoom next ∧ ShiftLaw next) ∧ ∃ t, step next = .next t := ⟨by decide +kernel, _, rfl⟩

theorem witness_TableAndLineLawsAreKept :
    (TableLaw next ∧ LineLaw next) ∧ ∃ t, step next = .next t :=
  ⟨⟨by decide +kernel, by decide +kernel⟩, _, rfl⟩

/-- The store being read, with its last record to come. -/
def lastRecord : State := { reading with loader := { reading.loader with index := 63, lastCode := some 0x15 } }

theorem witness_StoreRecordIsJudged :
    (reading.phase = .loading ∧ reading.loader.stage = .reading) ∧
    (lastRecord.phase = .loading ∧ lastRecord.loader.stage = .reading) ∧
    configRange 0x01 20 = true ∧ configRange 0x01 21 = false ∧ configRange 0x16 19 = true ∧
    articleCodeRange 0x46 4294967295 = true ∧ articleCodeRange 0x45 (5999 * 65536 + 8000) = false := by
  and_intros <;> decide +kernel

theorem witness_LoadEndFormsTheState :
    loading.phase = .loading ∧ loading.loader.stage = .stopped .ok none := by decide

/-- The small state at a length in µm. -/
def atLength (flum : Nat) : State := small.setRoller { small.roller with flum := flum }

theorem witness_EncoderPulseCompletes_advance :
    (atLength 5000999).phase = .running ∧ LengthHasRoom (atLength 5000999) ∧
    after .encoderPulse (atLength 5000999) (fun t => (atLength 5000999).flmm < t.flmm) = true ∧
    after .encoderPulse (atLength 5000000) (fun t => t.flmm = (atLength 5000000).flmm) = true ∧
    readerDue 4999 (atLength 5000000) .audit = true ∧ readerDue 5000 (atLength 5001000) .audit = false ∧
    readerDue 99999 (atLength 100000000) .window = true ∧ readerDue 99998 (atLength 99999000) .window = false := by
  and_intros <;> decide +kernel

theorem witness_EncoderPulseCompletes :
    loading.phase ≠ .running ∧ small.phase = .running ∧ LengthHasRoom small ∧
    ({ small with roller := { small.roller with flum := 2 ^ 64 - 213 } } : State).roller.flum +
      (small.roller.acc + small.roller.num) / small.roller.den < 2 ^ 64 := by
  and_intros <;> decide +kernel

theorem witness_PulsesCreditTheExactLength :
    small.phase = .running ∧ LengthHasRoom small ∧ small.roller.acc < small.roller.den ∧
    small.roller.flum + (small.roller.acc + 1000 * small.roller.num) / small.roller.den < 2 ^ 64 ∧
    ItemsLaw small ∧ RollerLaw small := by
  and_intros <;> decide +kernel

theorem witness_MotionWindowExpiryCompletes :
    fresh.roller.window = none ∧ small.roller.window.isSome ∧ small.doff.frame = .spinning ∧
    ¬(fresh.doff.frame = .startUp ∨ fresh.doff.frame = .spinning ∨ fresh.doff.frame = .doffPending) := by
  and_intros <;> decide +kernel

theorem witness_HostFrameIsAccepted :
    (List.replicate 240 (0 : Byte)).length ≤ 240 ∧ fresh.line.rx = .hunting ∧ fresh.line.holding.length < 2 ∧
    ¬({ fresh.line with holding := [⟨1, []⟩, ⟨2, []⟩] } : HostLine).holding.length < 2 := by
  and_intros <;> decide +kernel

theorem witness_FramesAreDiscarded :
    fresh.line.rx = .hunting ∧ 240 < (241#8).toNat ∧ ([] : List Byte).length ≤ 240 ∧
    [0x3D#8, 0x4C#8] ≠ beBytes 2 (crc16 (BitVec.ofNat 8 0 :: 0x02#8 :: [])).toNat ∧ 0xA4#8 ≠ 0xA5#8 ∧
    ({ fresh.line with rx := .collecting [] } : HostLine).rx = .collecting [] := by
  and_intros <;> decide +kernel

theorem witness_FramesAreDiscarded_hunting : ∀ bytes, fresh.line.rx ≠ .collecting bytes := by
  intro bytes h
  simp [show fresh.line.rx = .hunting from by decide +kernel] at h

/-- STATUS is held and its reply is in transmission. -/
def replying : State :=
  small.setLine { small.line with holding := [⟨0x02, []⟩], tx := some ⟨0x82, .ok, []⟩ }

/-- RESET is held and its reply is in transmission. -/
def resetReplying : State := small.setLine { small.line with holding := [⟨0x7F, []⟩], tx := some ⟨0xFF, .ok, []⟩ }

theorem witness_ReplySentCompletes :
    small.line.tx = none ∧ replying.line.tx = some ⟨0x82, .ok, []⟩ ∧ replying.line.holding = ⟨0x02, []⟩ :: [] ∧
    (0x82 : Byte) = replyKind 0x02 ∧ resetReplying.line.holding = ⟨0x7F, []⟩ :: [] ∧
    resetReplying.line.tx = some ⟨0xFF, .ok, []⟩ ∧ (0xFF : Byte) = replyKind 0x7F := by and_intros <;> decide +kernel

theorem witness_RequestsAreJudgedInOrder :
    (requestOf (.unknownKind 0x50 []) = some ⟨0x50, []⟩ ∧ fresh.phase ≠ .inReset ∧ Reaches ⟨0x50, []⟩ fresh ∧
      bodyLength 0x50 = none) ∧
    (requestOf (.status []) = some ⟨0x02, []⟩ ∧ loading.phase = .loading ∧ Reaches ⟨0x02, []⟩ loading) ∧
    (requestOf (.status [0]) = some ⟨0x02, [0]⟩ ∧ Reaches ⟨0x02, [0]⟩ fresh ∧ bodyLength 0x02 = some 0 ∧
      ([0] : List Byte).length ≠ 0) ∧
    replying.line.tx.isSome ∧ State.reset.phase = .inReset ∧ (0x7F#8).toNat < 0x80 ∧ 0x80 ≤ (0x80#8).toNat := by
  and_intros <;> decide +kernel

/-- A reading that is served and names something that can be read, or not. -/
def reads (s : State) (b : Bool) (i : Instr) : Bool := readable i s = some b && Served i s

theorem witness_ReadingsChangeNothing :
    [Instr.spindleGet [0, 0, 1, 40], .identify [], .status [], .configGet [0x57], .articleGet [1], .doffGet [],
      .breakListGet [0, 0, 1], .rovingListGet [0, 2], .carriageGet [0], .rovingRunGet [], .shiftGetLive [0, 0]].all
        (reads small true) = true ∧
    [Instr.spindleGet [0, 0, 49, 1], .configGet [0x58], .articleGet [2], .breakListGet [0, 0, 2], .rovingListGet [0, 3],
      .carriageGet [2], .shiftGetHistory [1, 0]].all (reads small false) = true ∧
    timerShown (.carriageGet [0]) small = some 75 ∧ shown (.shiftGetLive [0, 0]) small 1 = none := by
  and_intros <;> decide +kernel

/-- One closed shift stands in the history. -/
def oneShift : State := closeShift 4 5 small

theorem witness_ReadingsChangeNothing_history :
    reads oneShift true (.shiftGetHistory [1, 0]) = true := by decide +kernel

theorem witness_StatusAndIdentifyShowTheState :
    Served (.status []) small ∧ Served (.identify []) small ∧ small.flmm < 2 ^ 64 ∧ small.speed.fill < 65536 ∧
    small.speed.setPoint < 65536 ∧ small.speed.step < 256 ∧
    (-128 ≤ small.items.speedTrim ∧ small.items.speedTrim ≤ 127) ∧
    (-128 ≤ small.items.lengthTrim ∧ small.items.lengthTrim ≤ 127) ∧ lockedCount small < 65536 ∧
    small.breakList.a.length < 65536 ∧ small.breakList.b.length < 65536 ∧
    small.roving.urgent.length + small.roving.low.length < 65536 ∧ small.line.discards < 65536 ∧
    small.items.sections.a < 2 ^ 32 ∧ small.items.sections.b < 2 ^ 32 := by
  and_intros <;> decide +kernel

/-- A saved context exists. -/
def swapped : State := (swapContext small).setDoff { (swapContext small).doff with frame := .doffPending }

theorem witness_ClassSetsAreTaken :
    Served (.ackEvents [0x7F, 0xFF]) small ∧ numAt [0x7F, 0xFF] 0 2 < 2 ^ 15 ∧
    Served (.ackEvents [0x80, 0x00]) small ∧ ¬numAt [0x80, 0x00] 0 2 < 2 ^ 15 ∧
    Served (.setMask [0x7F, 0xFF]) small ∧ Served (.setMask [0, 0]) swapped ∧ swapped.doff.saved.isSome ∧
    Served (.setMask [0x80, 0x00]) small ∧ Served (.setDoffMask [0x80, 0x00]) small ∧
    Served (.configSetAttnMask [0x18, 0, 0, 0x80, 0]) small ∧ ¬numAt [0x18, 0, 0, 0x80, 0] 1 4 < 2 ^ 15 ∧
    Served (.configSetAttnMask [0x18, 0, 0, 0x7F, 0xFF]) small ∧ byteAt [0x18, 0, 0, 0x7F, 0xFF] 0 = 0x18#8 ∧
    numAt [0x18, 0, 0, 0x7F, 0xFF] 1 4 < 2 ^ 15 ∧
    Served (.setDoffMask [0, 0]) small ∧ Served (.configSetDoffMask [0x19, 0, 0, 0x80, 0]) small ∧
    byteAt [0x19, 0, 0, 0x80, 0] 0 = 0x19#8 ∧ ¬numAt [0x19, 0, 0, 0x80, 0] 1 4 < 2 ^ 15 := by
  and_intros <;> decide +kernel

/-! ### Configuration -/

/-- The conditions under which CONFIG_SET takes an item that has no behaviour beyond its value. -/
abbrev takesItem (body : List Byte) (s : State) : Prop :=
  Served (.configSet body) s ∧
  (stoppedOnly (byteAt body 0).toNat = true → s.doff.frame = .stopped) ∧
  configRange (byteAt body 0).toNat (numAt body 1 4) = true ∧
  ((byteAt body 0).toNat = 0x0E → lockedCount s ≤ numAt body 1 4) ∧
  ((byteAt body 0).toNat = 0x0F → numAt body 1 4 + s.items.runoutMargin < s.articles.active.bobbin) ∧
  ((byteAt body 0).toNat = 0x10 → s.items.rovingThreshold + numAt body 1 4 < s.articles.active.bobbin) ∧
  ((byteAt body 0).toNat = 0x15 → s.items.govLow < numAt body 1 4) ∧
  ((byteAt body 0).toNat = 0x16 → numAt body 1 4 < s.items.govHigh)

theorem witness_ConfigSetPutsTheItem :
    takesItem [0x07, 0, 0, 0, 127] small ∧ takesItem [0x0E, 0, 0, 0, 0] fresh ∧ takesItem [0x0F, 0, 0, 1, 0xF4] small ∧
    takesItem [0x10, 0, 0, 0, 0] small ∧ takesItem [0x15, 0, 0, 0, 9] small ∧ takesItem [0x16, 0, 0, 0, 19] small ∧
    takesItem [0x07, 0, 0, 0, 24] small ∧ small.items.value 0x07 = 24 ∧ takesItem [0x06, 0, 0, 0, 50] fresh := by
  and_intros <;> decide +kernel

/-- An article of 500 m bobbins is active, with the roving threshold at 480 m. -/
def shortBobbin : State :=
  { small with
    articles := { small.articles with active := { Article.default with bobbin := 500 } }
    items := { small.items with rovingThreshold := 480 } }

theorem witness_ConfigSetIsRefusedInOrder :
    (Served (.configSet [0x1A, 0, 0, 0, 0]) small ∧ Served (.configSetSections [0x01, 0, 0, 0, 1]) small ∧
      stoppedOnly 0x01 = true ∧ small.doff.frame ≠ .stopped) ∧
    (Served (.configSetLengthTrim [0x05, 0, 0, 0, 64]) small ∧ configRange 0x05 64 = false) ∧
    (Served (.configSetEncoder [0x03, 0, 0, 0, 99]) fresh ∧ configRange 0x03 99 = false) ∧
    (Served (.configSet [0x0E, 0, 0, 0, 0]) { small with doff := fresh.doff } ∧ 0 < lockedCount small) ∧
    (Served (.configSet [0x15, 0, 0, 0, 8]) small ∧ 8 ≤ small.items.govLow) ∧
    (Served (.configSet [0x16, 0, 0, 0, 20]) small ∧ small.items.govHigh ≤ 20) ∧
    (Served (.configSetSpeedTrim [0x17, 0, 0, 0, 0]) small ∧ small.items.value 0x17 = 0) ∧
    Served (.configSetAttnMask [0x18, 0, 0, 0x80, 0]) small ∧ Served (.configSetDoffMask [0x19, 0, 0, 0x80, 0]) small ∧
    (Served (.configSet [0x0F, 0, 0, 1, 0xEF]) shortBobbin ∧
      shortBobbin.articles.active.bobbin ≤ 495 + shortBobbin.items.runoutMargin) ∧
    (Served (.configSet [0x10, 0, 0, 0, 20]) shortBobbin ∧
      shortBobbin.articles.active.bobbin ≤ shortBobbin.items.rovingThreshold + 20) := by
  and_intros <;> decide +kernel

/-- STOPPED, a slot spindle beyond the first section of side A and the run ENDING, the carriage READY there. -/
def twoSections : State :=
  let t := changeSections .a 2 fresh
  { t with
    roving := { t.roving with run := .ending, base := some 1, current := some 0, slot := some ⟨.a, 49⟩, timer := some 600 }
    carriages := { t.carriages with a := { t.carriages.a with state := .ready, x := some 96 } } }

theorem witness_SectionChangeCompletes :
    (Served (.configSetSections [0x01, 0, 0, 0, 20]) fresh ∧ numAt [0x01, 0, 0, 0, 20] 1 4 = 20 ∧
      fresh.items.sections.get .a ≠ 20 ∧ fresh.doff.frame = .stopped ∧ CreditsFit fresh) ∧
    (Served (.configSetSections [0x02, 0, 0, 0, 2]) fresh ∧ fresh.items.sections.get .b ≠ 2) ∧
    (Served (.configSetSections [0x01, 0, 0, 0, 1]) twoSections ∧ numAt [0x01, 0, 0, 0, 1] 1 4 = 1 ∧
      twoSections.items.sections.get .a ≠ 1 ∧ twoSections.doff.frame = .stopped ∧
      CreditsFit twoSections) := by
  and_intros <;> decide +kernel

theorem witness_EncoderItemsFormNewConstants :
    (Served (.configSetEncoder [0x03, 0, 0, 7, 0xD0]) fresh ∧ fresh.doff.frame = .stopped ∧
      configRange 0x03 (numAt [0x03, 0, 0, 7, 0xD0] 1 4) = true ∧ fresh.items.value 0x03 ≠ 2000) ∧
    (Served (.configSetEncoder [0x04, 0, 0, 0xEA, 0x60]) fresh ∧
      configRange 0x04 (numAt [0x04, 0, 0, 0xEA, 0x60] 1 4) = true ∧ fresh.items.value 0x04 ≠ 60000) ∧
    (Served (.configSetEncoder [0x03, 0, 0, 7, 0xD0]) small ∧ small.doff.frame ≠ .stopped) := by
  and_intros <;> decide +kernel

theorem witness_TrimsAreTaken :
    Served (.trimLength [0x80]) small ∧ Served (.trimLength [63]) small ∧ Served (.trimSpeed [16]) small ∧
    Served (.trimSpeed [0xF0]) small ∧
    (Served (.configSetLengthTrim [0x05, 0xFF, 0xFF, 0xFF, 0xC0]) small ∧
      signed32 (numAt [0x05, 0xFF, 0xFF, 0xFF, 0xC0] 1 4) = -64 ∧
      small.items.value 0x05 ≠ numAt [0x05, 0xFF, 0xFF, 0xFF, 0xC0] 1 4) ∧
    (Served (.configSetSpeedTrim [0x17, 0, 0, 0, 15]) small ∧ signed32 (numAt [0x17, 0, 0, 0, 15] 1 4) = 15 ∧
      small.items.value 0x17 ≠ numAt [0x17, 0, 0, 0, 15] 1 4) := by
  and_intros <;> decide +kernel

/-! ### Articles -/

/-- A watch one metre beyond its range. -/
def longWatch : Article := { article212 with watch := 201 }

theorem witness_ArticlesAreStaged :
    (article212.program.length = 16 ∧ (∀ v ∈ article212.fields, v < 65536) ∧
      Served (.articleStage (article212.fields.flatMap (beBytes 2))) small ∧ article212.failingField = none) ∧
    (longWatch.program.length = 16 ∧ (∀ v ∈ longWatch.fields, v < 65536) ∧
      Served (.articleStage (longWatch.fields.flatMap (beBytes 2))) small ∧ longWatch.failingField = some 26) := by
  and_intros <;> decide +kernel

/-- An article of 505 m bobbins is staged, under a roving threshold. -/
def stagedUnder (threshold : Nat) : State :=
  { fresh with
    articles := { fresh.articles with staged := some { Article.default with bobbin := 505 } }
    items := { fresh.items with rovingThreshold := threshold } }

theorem witness_ExchangeIsAttempted :
    (Served (.articleExchange []) small ∧ small.doff.frame ≠ .stopped) ∧
    (Served (.articleExchange []) fresh ∧ fresh.doff.frame = .stopped ∧ fresh.articles.staged = none) ∧
    (Served (.articleExchange []) (stagedUnder 500) ∧ (stagedUnder 500).doff.frame = .stopped ∧
      505 ≤ (stagedUnder 500).items.rovingThreshold + (stagedUnder 500).items.runoutMargin) ∧
    (Served (.articleExchange []) (stagedUnder 499) ∧ (stagedUnder 499).doff.frame = .stopped ∧
      (stagedUnder 499).items.rovingThreshold + (stagedUnder 499).items.runoutMargin < 505 ∧
      CreditsFit (stagedUnder 499)) := by and_intros <;> decide +kernel

/-! ### Frame states and the doff -/

/-- The small state in another frame state. -/
def inFrame (f : FrameState) : State := small.setDoff { small.doff with frame := f }

theorem witness_DriveReportsAreTaken :
    [FrameState.stopped, .startUp, .spinning, .doffPending, .doffStopping, .doffing, .restartWait, .halted].all
      (fun f => Served (.frameRun []) (inFrame f) && Served (.frameHalt []) (inFrame f) && (inFrame f).doff.frame = f) =
        true := by decide +kernel

theorem witness_HaltInDoffStoppingEntersDoffing :
    (Served (.frameHalt []) doffStopping ∧ doffStopping.doff.frame = .doffStopping ∧ doffStopping.doff.ready = true) ∧
    (Served (.frameHalt []) (inFrame .doffStopping) ∧ (inFrame .doffStopping).doff.ready = false) := by
  and_intros <;> decide +kernel

theorem witness_DoffIsBegunAndAbandoned :
    [FrameState.stopped, .startUp, .spinning, .doffPending, .doffStopping, .doffing, .restartWait, .halted].all
      (fun f => Served (.doffNow []) (inFrame f) && Served (.doffAbort []) (inFrame f)) = true ∧
    Served (.doffAbort []) doffing ∧ doffing.doff.go = .sent ∧ Served (.doffNow []) swapped := by
  and_intros <;> decide +kernel

/-- DOFFING with an exchange requested and no article staged. -/
def noneStaged : State := doffing.setArticles { doffing.articles with staged := none }

theorem witness_DoffIsCompleted :
    (Served (.doffManualDone []) doffStopping ∧ doffStopping.doff.frame ≠ .doffing) ∧
    (Served (.doffManualDone []) doffing ∧ doffing.doff.frame = .doffing ∧ CreditsFit doffing ∧ SpeedLaw doffing ∧
      doffing.phase = .running ∧ doffing.doff.go = .sent ∧ doffing.articles.request = true) ∧
    (Served (.doffManualDone []) noneStaged ∧ noneStaged.doff.frame = .doffing ∧ CreditsFit noneStaged ∧
      SpeedLaw noneStaged) := by
  and_intros <;> decide +kernel

theorem witness_DofferTimerAndReportsAreTaken :
    (doffing.doff.frame = .doffing ∧ doffing.doff.go = .sent ∧ doffing.doff.timer.isSome) ∧
    (fresh.doff.go ≠ .sent ∧ fresh.doff.go = .none ∧ DofferReport.doffDone ≠ .ready) ∧
    (fresh.setDoff { fresh.doff with go := .waiting }).doff.go = .waiting ∧
    1 ≤ doffing.items.sections.get .b := by and_intros <;> decide +kernel

/-- START_UP under the watch that began at FLmm 0. -/
def starting (flmm : Nat) : State :=
  { inFrame .startUp with
    roller := { small.roller with flum := flmm * 1000 }
    doff := { small.doff with frame := .startUp, watchStart := some 0 } }

theorem witness_WatchAndFillMoveTheFrame :
    (starting 5000).doff.frame = .startUp ∧ watchDone (starting 30000) = true ∧ watchDone (starting 29999) = false := by
  and_intros <;> decide +kernel

/-! ### Spindles -/

theorem witness_SpindleParkCompletes :
    (Served (.spindlePark [2, 0, 1]) small ∧ sideAt [2, 0, 1] 0 = none) ∧
    (Served (.spindlePark [0, 0, 49]) small ∧ sideAt [0, 0, 49] 0 = some .a ∧ small.spindle .a 49 = none) ∧
    (Served (.spindlePark [0, 0, 4]) small ∧ small.spindle .a 4 = some (Spindle.parked { running with clamp := .closed })) ∧
    (Served (.spindlePark [0, 0, 3]) small ∧
      small.spindle .a 3 = some { broken 2 with state := .piecing, clamp := .opened } ∧
      (small.carriages.get .a).pieceTarget = some 3) ∧
    (Served (.spindlePark [0, 0, 3]) (yarnFound .a 3 small) ∧
      ((yarnFound .a 3 small).carriages.get .a).overtakenTarget = some 3 ∧
      ClampLaw (yarnFound .a 3 small) ∧ BreakLaw (yarnFound .a 3 small) ∧ CreditsFit (yarnFound .a 3 small)) ∧
    (Served (.spindlePark [0, 0, 48]) small ∧ small.spindle .a 48 = some running ∧ running.state ≠ .parked) ∧
    (ClampLaw small ∧ CreditsFit small) ∧ BreakLaw small := by and_intros <;> decide +kernel

/-- The break counter of side A stands at its limit. -/
def counterFull : State := small.setBreakSeq ⟨4294967295, 0⟩

theorem witness_UnparkAndReleaseJoinTheList :
    (Served (.spindleUnpark [0, 0, 4]) small ∧ sideAt [0, 0, 4] 0 = some .a ∧
      small.spindle .a (numAt [0, 0, 4] 1 2) = some (Spindle.parked { running with clamp := .closed })) ∧
    (Served (.spindleUnpark [0, 0, 1]) small ∧ small.spindle .a (numAt [0, 0, 1] 1 2) = some running ∧
      running.state ≠ .parked) ∧
    (Served (.spindleRelease [0, 0, 5]) small ∧ sideAt [0, 0, 5] 0 = some .a ∧
      small.spindle .a (numAt [0, 0, 5] 1 2) = some (Spindle.locked { running with clamp := .closed } .rogue)) ∧
    (Served (.spindleRelease [0, 0, 1]) small ∧ running.state ≠ .locked) ∧
    Served (.spindleRelease [3, 0, 1]) small ∧ sideAt [3, 0, 1] 0 = none ∧
    BreakLaw small ∧ CreditsFit small ∧ BreakLaw counterFull ∧ CreditsFit counterFull ∧
    Served (.spindleUnpark [0, 0, 4]) counterFull := by and_intros <;> decide +kernel

theorem witness_SetRovingSeedsTheRange :
    (Served (.setRoving [2, 0, 1, 0, 1, 0, 0]) small ∧ sideAt [2, 0, 1, 0, 1, 0, 0] 0 = none) ∧
    (Served (.setRoving [0, 0, 1, 0, 48, 0x0A, 0x29]) small ∧ sideAt [0, 0, 1, 0, 48, 0x0A, 0x29] 0 = some .a ∧
      small.articles.active.bobbin < numAt [0, 0, 1, 0, 48, 0x0A, 0x29] 5 2) ∧
    (Served (.setRoving [0, 0, 1, 0, 48, 0x0A, 0x28]) small ∧ (small.spindle .a 1).isSome ∧ (small.spindle .a 48).isSome ∧
      numAt [0, 0, 1, 0, 48, 0x0A, 0x28] 5 2 ≤ small.articles.active.bobbin ∧ ClampLaw small ∧ CreditsFit small) ∧
    (Served (.setRoving [0, 0, 2, 0, 1, 0, 0]) small ∧
      numAt [0, 0, 2, 0, 1, 0, 0] 3 2 < numAt [0, 0, 2, 0, 1, 0, 0] 1 2) := by and_intros <;> decide +kernel

/-- The spindle A-1 RUNNING with a roving figure, and with stamps, under a lock ceiling. -/
def aboutToBreak (roving : Option Nat) (stamps : List Nat) (ceiling : Nat) : State :=
  let s := withSpindle .a 1 { running with roving := roving, stamps := stamps } small
  { s with items := { s.items with lockCeiling := ceiling }, roving := { s.roving with low := [] } }

theorem witness_YarnLostIsABreak :
    (small.spindle .a 2 = some (broken 1) ∧ (broken 1).state ≠ .running) ∧
    ((aboutToBreak (some 5130) [] 24).spindle .a 1 = some { running with roving := some 5130 } ∧
      (({ running with roving := some 5130 } : Spindle).close Article.default 5000).roving = some 5000 ∧
      (aboutToBreak (some 5130) [] 24).items.runoutMargin * 1000 = 5000) ∧
    (ClampLaw (aboutToBreak (some 5130) [] 24) ∧ CreditsFit (aboutToBreak (some 5130) [] 24)) ∧
    BreakLaw (aboutToBreak (some 5130) [] 24) ∧
    (ClampLaw (aboutToBreak none [1, 2, 3] 2) ∧ CreditsFit (aboutToBreak none [1, 2, 3] 2)) ∧
    BreakLaw (aboutToBreak none [1, 2, 3] 2) ∧
    (isRogue (aboutToBreak none [1, 2, 3] 2).items 5000 [1, 2, 3, 5000] = true ∧
      lockedCount (aboutToBreak none [1, 2, 3] 2) < 2 ∧ ¬lockedCount (aboutToBreak none [1, 2, 3] 1) < 1) ∧
    isRogue (aboutToBreak none [1, 2] 1).items 5000 [1, 2, 5000] = false ∧
    ((starting 5000).spindle .a 1 = some running ∧ ClampLaw (starting 5000) ∧ CreditsFit (starting 5000)) ∧
    BreakLaw (starting 5000) := by and_intros <;> decide +kernel

theorem witness_YarnFoundIsAPieceByHand :
    (small.spindle .a 1 = some running ∧ running.state ≠ .broken ∧ running.state ≠ .piecing) ∧
    (small.spindle .a 2 = some (broken 1) ∧ (broken 1).state = .broken) ∧
    small.spindle .a 3 = some { broken 2 with state := .piecing, clamp := .opened } := by and_intros <;> decide +kernel

/-! ### Carriages -/

theorem witness_DispatchChoosesTheTarget :
    (chooseTarget 330 .up 24 [812, 354] = some 354 ∧ 0 ≤ ((354 : Nat) - (330 : Int)) * Dir.up.sign ∧
      ((354 : Nat) - (330 : Int)) * Dir.up.sign ≤ (24 : Nat)) ∧
    (chooseTarget 330 .up 24 [812, 355] = some 812 ∧ 330 ∈ [812, 330]) := by and_intros <;> decide

/-- Side B with one BROKEN spindle and carriage B READY at a position. -/
def toDispatch (x : Nat) : State :=
  { withSpindle .b 11 (broken 1) small with
    breakList := ⟨[2], [11]⟩
    breakSeq := ⟨2, 1⟩
    carriages := { small.carriages with b := { small.carriages.b with state := .ready, x := some x } } }

/-- The conditions of R55 hold for side B, and the target is at position 11 with the carriage at `x`. -/
abbrev targets (x : Nat) (s : State) : Prop :=
  (s.carriages.b.state = .ready ∧ s.carriages.b.hostHold = false ∧ s.carriages.b.doffHold = false ∧
    s.doff.frame = .spinning ∧ s.breakList.b ≠ [] ∧ s.carriages.b.x = some x ∧
    chooseTarget x s.carriages.b.d s.items.reach s.breakList.b = some 11 ∧ s.spindle .b 11 = some (broken 1))

theorem witness_DispatchIssuesOneOrder :
    targets 139 (toDispatch 139) ∧ (broken 1).cause.bind Cause.pieceKind = some .endBreak ∧ -128 ≤ (11 : Int) - 139 ∧
    targets 140 (toDispatch 140) ∧ (11 : Int) - 140 < -128 ∧ small.carriages.a.state ≠ .ready := by
  and_intros <;> decide +kernel

/-- Carriage A in a state, with its position and order, under a timer. -/
def carriageIn (st : CarState) (o : Option Order) (k : Option TimerKind) : State :=
  small.setCarriages { small.carriages with a :=
    { small.carriages.a with
      state := st, order := o, timer := k.map fun k => ⟨k, 20⟩, returning := k == some .returning } }

theorem witness_CarriageRequestsAreTaken :
    (Served (.carriageHold [2]) small ∧ sideAt [2] 0 = none) ∧
    (Served (.carriageHold [1]) small ∧ sideAt [1] 0 = some .b) ∧
    (Served (.carriageRelease [0]) small ∧ sideAt [0] 0 = some .a) ∧
    Served (.carriageReset [0]) (carriageIn .fault none none) ∧ Served (.carriageReset [0]) (carriageIn .held none none) ∧
    Served (.carriageReset [0]) (carriageIn .absent none none) ∧ Served (.carriageReset [0]) small ∧
    small.carriages.a.state = .serving := by and_intros <;> decide +kernel

theorem witness_CarriageTimersExpire :
    (carriageIn .homing none (some .homing)).carriages.a.timer.map (·.kind) = some .homing ∧
    small.carriages.a.timer.map (·.kind) = some .piece ∧
    (carriageIn .moving (some (.transit 127)) (some .leg)).carriages.a.timer.map (·.kind) = some .leg ∧
    (carriageIn .moving none (some .returning)).carriages.a.timer.map (·.kind) = some .returning ∧
    small.carriages.b.timer.map (·.kind) ≠ some .leg := by and_intros <;> decide +kernel

theorem witness_CarriageReportsAreTaken :
    ((carriageIn .homing none (some .homing)).carriages.a.state = .homing ∧ 48 ≤ 48 * small.items.sections.get .a ∧
      ¬(1 ≤ 49 ∧ 49 ≤ 48 * small.items.sections.get .a)) ∧
    ((carriageIn .moving (some (.transit 127)) (some .leg)).carriages.a.state = .moving ∧
      (carriageIn .moving (some (.transit 127)) (some .leg)).carriages.a.order = some (.transit 127)) ∧
    ((carriageIn .moving none (some .returning)).carriages.a.state = .moving ∧
      (carriageIn .moving none (some .returning)).carriages.a.returning = true) ∧ small.carriages.a.state ≠ .homing := by
  and_intros <;> decide +kernel

theorem witness_PieceOutcomesAreTaken :
    (small.carriages.a.state = .serving ∧ small.carriages.a.order = some (.piece 3 1 .endBreak) ∧
      small.spindle .a 3 = some { broken 2 with state := .piecing, clamp := .opened }) ∧
    ((carriageIn .serving (some (.overtaken 3 1 .endBreak)) (some .piece)).carriages.a.order =
      some (.overtaken 3 1 .endBreak)) ∧
    (small.setCarriages { small.carriages with b := { small.carriages.b with withdrawn := some 7 } }).carriages.b.withdrawn
      = some 7 ∧
    small.carriages.b.state ≠ .serving ∧ small.carriages.b.withdrawn ≠ some 7 := by and_intros <;> decide +kernel

/-! ### Roving -/

/-- The run in a state, with the slot and the count given. -/
def runIn (r : RunState) (slot : Option SpRef) (n : Nat) : State :=
  small.setRoving { small.roving with
    run := r, slot := slot, timer := slot.map fun _ => 600, current := some n }

theorem witness_RovingRunIsStartedAndEnded :
    (Served (.rovingRunStart [0]) small ∧ Served (.rovingRunStart [241]) small ∧ Served (.rovingRunStart [240]) small ∧
      small.roving.run ≠ .idle) ∧
    (Served (.rovingRunStart [1]) fresh ∧ fresh.roving.run = .idle ∧ fresh.bus.train.link.status ≠ .answering) ∧
    (Served (.rovingRunStart [240]) (runIn .idle none 0) ∧ (runIn .idle none 0).roving.run = .idle ∧
      (runIn .idle none 0).bus.train.link.status = .answering) ∧
    (Served (.rovingRunAbort []) fresh ∧ Served (.rovingRunAbort []) small ∧
      Served (.rovingRunAbort []) (runIn .active (some ⟨.a, 1⟩) 1) ∧
      Served (.rovingRunAbort []) (runIn .ending (some ⟨.a, 1⟩) 1)) ∧
    small.roving.slot = none ∧ (runIn .active (some ⟨.a, 1⟩) 0).roving.slot = some ⟨.a, 1⟩ ∧
    (runIn .active (some ⟨.a, 1⟩) 0).roving.timer = some 600 := by and_intros <;> decide +kernel

/-- An active run over an empty list. -/
def nothingListed : State := small.setRoving { small.roving with urgent := [], low := [] }

theorem witness_TrainIsAnswered :
    fresh.roving.run ≠ .active ∧ small.roving.run = .active ∧ small.roving.slot = none ∧
    small.roving.urgent ++ small.roving.low = ⟨.a, 6⟩ :: [⟨.a, 1⟩] ∧
    (runIn .active (some ⟨.a, 6⟩) 1).roving.slot.isSome ∧
    (nothingListed.roving.urgent ++ nothingListed.roving.low = [] ∧ nothingListed.roving.run = .active) ∧
    (runIn .ending (some ⟨.a, 6⟩) 1).roving.slot = some ⟨.a, 6⟩ ∧ small.roving.slot ≠ some ⟨.a, 6⟩ := by
  and_intros <;> decide +kernel

theorem witness_ReplacementsAreTaken :
    (small.roving.slot ≠ some ⟨.b, 48⟩ ∧ ⟨.b, 48⟩ ∉ small.roving.urgent ∧ ⟨.b, 48⟩ ∉ small.roving.low) ∧
    (⟨.a, 6⟩ ∈ small.roving.urgent ∧ (small.spindle .a 6).isSome) ∧
    (⟨.a, 1⟩ ∈ small.roving.low ∧ small.spindle .a 1 = some running) ∧
    ((runIn .active (some ⟨.a, 3⟩) 0).roving.slot = some ⟨.a, 3⟩ ∧ ((runIn .active (some ⟨.a, 3⟩) 0).spindle .a 3).isSome) ∧
    (CreditsFit small ∧ ClampLaw small) ∧ BreakLaw small ∧
    CreditsFit (runIn .active (some ⟨.a, 3⟩) 0) ∧ BreakLaw (runIn .active (some ⟨.a, 3⟩) 0) ∧
    ClampLaw (runIn .active (some ⟨.a, 3⟩) 0) := by and_intros <;> decide +kernel

/-- A window of END breaks about to close after a low streak: 95 spindles are in service. -/
def windowOf (breaks streak : Nat) (enabled : Bool) : State :=
  { small with
    speed := { small.speed with winCount := breaks, lowStreak := streak, step := 1 }
    doff := { small.doff with effective := { small.doff.effective with governor := enabled } } }

theorem witness_AuditAndWindowAct :
    inService small .a + inService small .b = 95 ∧
    (windowOf 2 0 true).speed.winCount * 1000 / 95 = 21 ∧ small.items.govHigh < 21 ∧
    (windowOf 1 0 true).speed.winCount * 1000 / 95 = 10 ∧ small.items.govLow ≤ 10 ∧
    (windowOf 0 2 true).speed.winCount * 1000 / 95 = 0 ∧ 0 < small.items.govLow ∧
    (windowOf 0 2 true).doff.effective.governor = true ∧ ¬(windowOf 0 2 false).doff.effective.governor = true := by
  and_intros <;> decide +kernel

/-! ### Shift, soft reset, frame bus -/

theorem witness_ShiftIsClosed :
    (Served (.shiftClose [0, 4, 0, 0, 0, 5]) small ∧ CreditsFit small ∧ HistoryLaw small) ∧
    (Served (.shiftGetLive [0, 0]) small ∧ byteAt [0, 0] 0 = 0#8 ∧
      ((closeShift 4 5 small).shift.history.getLast?).isSome) := by and_intros <;> decide +kernel

theorem witness_SoftResetCompletes :
    Served (.reset []) small ∧ small.line.resetDue = false ∧ beforeRebuild.line.resetDue = true := by
  and_intros <;> decide +kernel

/-- The train's poll comes next. -/
def trainTurn : State := fresh.setBus { fresh.bus with cycle := [.train] }

theorem witness_PollCarriesWhatIsHeld :
    loading.phase ≠ .running ∧ (polled .train fresh).bus.awaiting.isSome ∧ small.phase = .running ∧
    small.bus.awaiting = none ∧ trainTurn.bus.cycle = .train :: [] ∧
    trainTurn.bus.machine .train = some MachineEntry.initial ∧
    fresh.bus.board .a 1 = some BoardEntry.initial ∧ fresh.bus.board .a 2 = none := by and_intros <;> decide +kernel

/-- The doffer with a miss count and a status, its poll's window open. -/
def missing (st : LinkStatus) (miss : Nat) : State :=
  polled .doffer (fresh.setBus { fresh.bus with doffer := ⟨⟨st, miss, none, false⟩, none, []⟩ })

theorem witness_MissedPollsEndInSilence :
    fresh.bus.awaiting = none ∧ (missing .silent 3).bus.awaiting = some ⟨.doffer, none, none, []⟩ ∧
    (missing .silent 3).bus.link .doffer = some ⟨.silent, 3, none, false⟩ ∧
    (missing .new 1).bus.link .doffer = some ⟨.new, 1, none, false⟩ ∧
    (missing .new 2).bus.link .doffer = some ⟨.new, 2, none, false⟩ ∧
    (polled (.board .a 2) fresh).bus.awaiting = some ⟨.board .a 2, none, none, []⟩ ∧
    (polled (.board .a 2) fresh).bus.link (.board .a 2) = none := by and_intros <;> decide +kernel

/-- An answer whose check is correct or not. -/
def answer (ok restart : Bool) (p : Payload) : Answer := ⟨ok, false, restart, p⟩

theorem witness_AnswersAreJudged :
    fresh.bus.awaiting = none ∧
    ((polled .train fresh).bus.awaiting = some ⟨.train, none, none, []⟩ ∧
      ¬((answer false true (.train none none)).checkOk = true ∧ (answer false true (.train none none)).station = .train)) ∧
    ((answer true true (.train none (some .next))).checkOk = true ∧
      (answer true true (.train none (some .next))).payload = .train none (some .next)) ∧
    ((polled .doffer fresh).bus.awaiting = some ⟨.doffer, none, none, []⟩ ∧
      (answer true false (.doffer none none)).payload = .doffer none none) ∧
    ((polled (.carriage .a) fresh).bus.awaiting = some ⟨.carriage .a, none, none, []⟩ ∧
      (answer true false (.carriage .a none none)).payload = .carriage .a none none) ∧
    ((polled (.board .a 1) fresh).bus.awaiting = some ⟨.board .a 1, none, none, []⟩ ∧
      (polled (.board .a 1) fresh).bus.board .a 1 = some BoardEntry.initial ∧
      (answer true true (.board .a 1 [.yarnLost 48])).payload = .board .a 1 [.yarnLost 48]) ∧
    ((polled (.board .a 2) fresh).bus.awaiting = some ⟨.board .a 2, none, none, []⟩ ∧
      (polled (.board .a 2) fresh).bus.board .a 2 = none ∧
      (answer true true (.board .a 2 [])).payload = .board .a 2 []) ∧
    (¬(1 ≤ 49 ∧ 49 ≤ 48)) := by and_intros <;> decide +kernel

end Sys2Proof.Tests
end

