-- ==== Sys2Proof/Proofs/FrameLength.lean ====
section
/-!
PROOFS. What one ENCODER_PULSE does to the front roller's counter, what a run of pulses credits (R2), and the bounds of
N, of D and of the length that one pulse adds.
-/
namespace Sys2Proof.Machine

/-! ## One pulse -/

/-- No reader of FLmm changes the counter that hands it on (R3). -/
theorem advance_roller (old : Nat) (s : State) : (advance old s).roller = s.roller :=
  advance_frame s old .roller (by decide)

theorem advance_phase (old : Nat) (s : State) : (advance old s).phase = s.phase :=
  advance_frame s old .phase (by decide)

theorem exec_encoderPulse (s : State) : exec .encoderPulse s = execEncoderPulse s := rfl

/-- A pulse completes after load end in every frame state, and neither MOTION nor the readers touch what it counted. -/
theorem encoderPulse_counts (s : State) (hp : s.phase = .running) :
    ∃ t, exec .encoderPulse s = .next t ∧ t.phase = .running ∧ t.roller = (countPulse s).roller := by
  simp only [exec_encoderPulse, execEncoderPulse, if_pos hp]
  refine ⟨_, rfl, ?phase, ?roller⟩
  case phase => split_ifs <;> simp [advance_phase, raise, countPulse, hp]
  case roller => split_ifs <;> simp [advance_roller, raise]

/-- R2's three assignments: where the length fits its 64 bits, a pulse adds floor((acc + N) / D) to FLµm, keeps the
remainder, and leaves N and D. -/
theorem countPulse_figures (s : State) (hroom : LengthHasRoom s) :
    (countPulse s).roller.flum = s.roller.flum + (s.roller.acc + s.roller.num) / s.roller.den ∧
    (countPulse s).roller.acc = (s.roller.acc + s.roller.num) % s.roller.den ∧
    (countPulse s).roller.num = s.roller.num ∧ (countPulse s).roller.den = s.roller.den :=
  ⟨add64_exact _ _ hroom, rfl, rfl, rfl⟩

/-! ## A run of pulses -/

@[simp] theorem afterPulses_zero (s : State) : afterPulses 0 s = s := rfl

theorem afterPulses_succ {s t : State} (k : Nat) (h : exec .encoderPulse s = .next t) :
    afterPulses (k + 1) s = afterPulses k t := by
  simp [afterPulses, h]

/-- Crediting N once and then k more times from the remainder kept credits what k + 1 credit at once. -/
theorem credit_once_then_rest (a n d k : Nat) :
    (a + n) / d + ((a + n) % d + k * n) / d = (a + (k + 1) * n) / d := by
  rcases Nat.eq_zero_or_pos d with rfl | hd
  · simp
  · calc (a + n) / d + ((a + n) % d + k * n) / d
        = (d * ((a + n) / d) + ((a + n) % d + k * n)) / d := (Nat.mul_add_div hd _ _).symm
      _ = (a + n + k * n) / d := by rw [← Nat.add_assoc, Nat.div_add_mod]
      _ = (a + (k + 1) * n) / d := by congr 1; ring

/-- R2's rule for a run: the exact length is credited, and the remainder stays below D. -/
theorem afterPulses_credit (k : Nat) (s : State) (hp : s.phase = .running) (hacc : s.roller.acc < s.roller.den)
    (hroom : s.roller.flum + (s.roller.acc + k * s.roller.num) / s.roller.den < 2 ^ 64) :
    (afterPulses k s).roller.flum = s.roller.flum + (s.roller.acc + k * s.roller.num) / s.roller.den ∧
    (afterPulses k s).roller.acc < s.roller.den := by
  induction k generalizing s with
  | zero => simp [Nat.div_eq_of_lt hacc, hacc]
  | succ k ih =>
    have hsum := credit_once_then_rest s.roller.acc s.roller.num s.roller.den k
    have hone : LengthHasRoom s :=
      (Nat.add_le_add_left (hsum ▸ Nat.le_add_right _ _) _).trans_lt hroom
    obtain ⟨t, hnext, htp, htr⟩ := encoderPulse_counts s hp
    obtain ⟨hflum, hrem, hnum, hden⟩ := countPulse_figures s hone
    rw [← htr] at hflum hrem hnum hden
    have hrest := ih t htp (by rw [hrem, hden]; exact Nat.mod_lt _ (by omega))
    rw [hflum, hrem, hnum, hden, Nat.add_assoc, hsum] at hrest
    rw [afterPulses_succ k hnext]
    exact hrest hroom

/-! ## The bounds of one pulse -/

/-- The ranges of the three items that N and D are formed from (R191). -/
theorem ItemsLaw.rollerRanges {s : State} (h : ItemsLaw s) :
    100 ≤ s.items.encPulses ∧ s.items.rollerCirc ≤ 160000 ∧ s.items.lengthTrim ≤ 63 := by
  obtain ⟨hrange, ⟨-, htrim⟩, -, -⟩ := h
  have henc := hrange 0x03 (by decide)
  have hcirc := hrange 0x04 (by decide)
  simp only [configRange, Items.value, Bool.and_eq_true, decide_eq_true_eq] at henc hcirc
  exact ⟨henc.1, hcirc.2, htrim⟩

/-- The largest N is 160,000 × 8,255. -/
theorem numeratorOf_le {t : Items} (hcirc : t.rollerCirc ≤ 160000) (htrim : t.lengthTrim ≤ 63) :
    numeratorOf t ≤ 1320800000 := by
  have hprod : (t.rollerCirc : Int) * (8192 + t.lengthTrim) ≤ 160000 * 8255 :=
    calc (t.rollerCirc : Int) * (8192 + t.lengthTrim)
        ≤ t.rollerCirc * 8255 := by gcongr; omega
      _ ≤ 160000 * 8255 := by gcongr; omega
  unfold numeratorOf
  omega

/-- The smallest D is 8192 × 100. -/
theorem le_divisorOf {t : Items} (henc : 100 ≤ t.encPulses) : 819200 ≤ divisorOf t := by
  unfold divisorOf
  omega

/-- With the carry out of acc, the largest N over the smallest D stays below 1,614. -/
theorem pulse_credit_le {a n d : Nat} (ha : a < d) (hn : n ≤ 1320800000) (hd : 819200 ≤ d) : (a + n) / d ≤ 1613 :=
  Nat.le_of_lt_succ <| (Nat.div_lt_iff_lt_mul (by omega)).2 (by omega)

/-! ## The obligation -/

/-- Settles O19: one pulse by its figures, a run by induction on the number of pulses, and the bound by the ranges of
the items. -/
theorem pulsesCreditTheExactLength : Obligations.PulsesCreditTheExactLength := by
  unfold Obligations.PulsesCreditTheExactLength
  refine ⟨fun s hp hroom => ?pulse, fun s k hp hacc hroom => afterPulses_credit k s hp hacc hroom,
    fun s hp hitems hroller => ?bound⟩
  case pulse =>
    obtain ⟨t, hnext, -, htr⟩ := encoderPulse_counts s hp
    obtain ⟨hflum, hrem, -, -⟩ := countPulse_figures s hroom
    rw [afterPulses_succ 0 hnext, afterPulses_zero, htr]
    exact ⟨hflum, hrem⟩
  case bound =>
    obtain ⟨henc, hcirc, htrim⟩ := hitems.rollerRanges
    obtain ⟨hnum, hden, hacc⟩ := hroller hp
    have hN : s.roller.num ≤ 1320800000 := hnum ▸ numeratorOf_le hcirc htrim
    have hD : 819200 ≤ s.roller.den := hden ▸ le_divisorOf henc
    exact ⟨hN, hD, pulse_credit_le hacc hN hD⟩

end Sys2Proof.Machine
end

