-- ==== Sys2Proof/Proofs/SpindleTable.lean ====
section
/-!
PROOFS. What the write of a spindle record does to the break list and the held clamp commands, what one count leaves
unchanged, and YARN_FOUND as a piece by hand (R37 to R39).
-/
namespace Sys2Proof.Machine

/-! ## The other side of the frame -/

theorem OtherSideSame.trans {side : Side} {s t u : State} (h1 : OtherSideSame side s t) (h2 : OtherSideSame side t u) :
    OtherSideSame side s u := by
  intro sd hsd
  obtain ⟨a1, a2, a3, a4, a5, a6, a7, a8⟩ := h1 sd hsd
  obtain ⟨b1, b2, b3, b4, b5, b6, b7, b8⟩ := h2 sd hsd
  exact ⟨b1.trans a1, b2.trans a2, b3.trans a3, b4.trans a4, b5.trans a5, b6.trans a6, b7.trans a7, b8.trans a8⟩

theorem holdClamp_otherSide (side : Side) (pos : Nat) (c : Clamp) (s : State) :
    OtherSideSame side s (holdClamp side pos c s) := by
  intro sd hsd
  unfold holdClamp
  split
  · simp [Bus.setBoard, Sides.get_modify_other _ _ _ _ hsd]
  · simp

theorem writeSpindle_otherSide (side : Side) (pos : Nat) (new : Spindle) (s : State) :
    OtherSideSame side s (writeSpindle side pos new s) := by
  have tables (recs : List Spindle) (f : List Nat → List Nat) :
      OtherSideSame side s ((s.setSpindles (s.spindles.set side recs)).setBreakList (s.breakList.modify side f)) :=
    fun sd hsd => by simp [Sides.get_set_other _ _ _ _ hsd, Sides.get_modify_other _ _ _ _ hsd]
  unfold writeSpindle
  split
  · exact fun _ _ => by simp
  · dsimp only
    split
    · exact tables _ _
    · exact (tables _ _).trans (holdClamp_otherSide _ _ _ _)

theorem modifyCarriage_otherSide (side : Side) (f : Carriage → Carriage) (s : State) :
    OtherSideSame side s (modifyCarriage side f s) :=
  fun sd hsd => by simp [modifyCarriage, Sides.get_modify_other _ _ _ _ hsd]

theorem countSide_otherSide (side : Side) (f : SideFigure) (s : State) : OtherSideSame side s (countSide side f s) := by
  intro sd hsd
  have same := countSide_frame side s f
  have hspindles : (countSide side f s).spindles = s.spindles := same .spindles (by decide)
  have hlist : (countSide side f s).breakList = s.breakList := same .breakList (by decide)
  have hseq : (countSide side f s).breakSeq = s.breakSeq := same .breakSeq (by decide)
  have hcar : (countSide side f s).carriages = s.carriages := same .carriages (by decide)
  have hbus : (countSide side f s).bus = s.bus := same .bus (by decide)
  rw [hspindles, hlist, hseq, hcar, hbus]
  simp [countSide, markSaturation_shift, Sides.get_modify_other _ _ _ _ hsd]

/-! ## The one write of a spindle record -/

theorem sidesModify_of_fixed {α : Type} {p : Sides α} {i : Side} {f : α → α} (h : f (p.get i) = p.get i) :
    p.modify i f = p := by
  unfold Sides.modify
  rw [h]
  cases i <;> rfl

/-- What is held for the board depends on the bus alone. -/
theorem holdClamp_bus_congr {side : Side} {pos : Nat} {c : Clamp} {s t : State} (h : t.bus = s.bus) :
    (holdClamp side pos c t).bus = (holdClamp side pos c s).bus := by
  unfold holdClamp
  rw [h]
  split
  · rfl
  · exact h

/-- A changed clamp, and no other, is handed to the Frame Bus Master (R45). -/
theorem writeSpindle_bus (side : Side) (pos : Nat) (new : Spindle) {s : State} {old : Spindle}
    (h : s.spindle side pos = some old) :
    (writeSpindle side pos new s).bus =
      if old.clamp = new.state.clamp then s.bus else (holdClamp side pos new.state.clamp s).bus := by
  unfold writeSpindle
  rw [h]
  dsimp only
  split
  · rfl
  · exact holdClamp_bus_congr rfl

/-- The break list follows the state of the record (R49). -/
theorem writeSpindle_breakList (side : Side) (pos : Nat) (new : Spindle) {s : State} {old : Spindle}
    (h : s.spindle side pos = some old) :
    (writeSpindle side pos new s).breakList =
      s.breakList.modify side (syncBreakList ((s.spindles.get side).set (pos - 1) { new with clamp := new.state.clamp })
        pos old.state new.state) := by
  unfold writeSpindle
  rw [h]
  dsimp only
  split
  · rfl
  · exact holdClamp_frame _ _ _ _ .breakList (by decide)

/-- An entry is removed where its spindle leaves BROKEN (R54). -/
theorem syncBreakList_leaves {new : SpState} (recs : List Spindle) (pos : Nat) (l : List Nat) (h : new ≠ .broken) :
    syncBreakList recs pos .broken new l = l.filter (· ≠ pos) := by
  simp [syncBreakList, h, h.symm, bne, Bool.beq_eq_decide_eq]

/-- A change between two states that are not BROKEN leaves the list as it is (R49). -/
theorem syncBreakList_outside {old new : SpState} (recs : List Spindle) (pos : Nat) (l : List Nat)
    (ho : old ≠ .broken) (hn : new ≠ .broken) : syncBreakList recs pos old new l = l := by
  simp [syncBreakList, ho, hn]

/-- The write as a whole: the record with the clamp of its state, and the clamp command where the clamp changes. -/
theorem writeSpindle_recordBecomes (side : Side) (pos : Nat) (new : Spindle) {s : State} {old : Spindle}
    (h : s.spindle side pos = some old) :
    RecordBecomes side pos { new with clamp := new.state.clamp } s (writeSpindle side pos new s) := by
  refine ⟨writeSpindle_same side pos new s old h,
    fun p hp => writeSpindle_other side pos new s side p fun e => hp e.2, ?_⟩
  rw [writeSpindle_bus side pos new h, h]
  simp only [Option.any_some, decide_eq_true_eq]
  split <;> rfl

/-- An operation that leaves the tables and the bus keeps what a write has made of the record. -/
theorem RecordBecomes.then_frame {side : Side} {pos : Nat} {new : Spindle} {s t u : State} {ps : List Part}
    (h : RecordBecomes side pos new s t) (hf : OnlyChanges ps t u)
    (hs : .spindles ∉ ps := by decide) (hb : .bus ∉ ps := by decide) : RecordBecomes side pos new s u := by
  have hspindles : u.spindles = t.spindles := hf .spindles hs
  have hbus : u.bus = t.bus := hf .bus hb
  simpa only [RecordBecomes, State.spindle, hspindles, hbus] using h

/-! ## One count -/

/-- Reaching 65,535 for the first time raises SHIFT_SATURATED, and nothing else of the host line changes (R147). -/
theorem countSide_lineRaises (side : Side) (f : SideFigure) (s : State) :
    LineRaises (saturates side [f] s) s (countSide side f s) := by
  unfold LineRaises saturates countSide markSaturation
  by_cases hlimit : (s.shift.live.sides.get side).counts.get f = 65534
  · cases hmark : s.shift.live.marker <;> simp [hlimit, hmark, raise_line]
  · simp [hlimit]

/-- A count credits no length. -/
theorem countSide_credited_zero (side : Side) (f : SideFigure) (s : State) :
    Credited side 0 s (countSide side f s) := by
  simp [Credited, countSide, markSaturation_sides]

/-! ## YARN_FOUND -/

section
variable {side : Side} {pos : Nat} {s : State} {sp : Spindle}

theorem yarnFound_of_broken (h : s.spindle side pos = some sp) (hst : sp.state = .broken) :
    yarnFound side pos s = countSide side .manualPiece (writeSpindle side pos (sp.pieced s.flmm) s) := by
  simp [yarnFound, h, hst]

theorem yarnFound_of_piecing (h : s.spindle side pos = some sp) (hst : sp.state = .piecing) :
    yarnFound side pos s = overtakeOrder side pos (writeSpindle side pos (sp.pieced s.flmm) s) := by
  simp [yarnFound, h, hst]

/-- R39, and a position beyond the fitted count. -/
theorem yarnFound_without_effect (h : ∀ sp ∈ s.spindle side pos, sp.state ≠ .broken ∧ sp.state ≠ .piecing) :
    yarnFound side pos s = s := by
  unfold yarnFound
  split
  · rfl
  · next sp hsp =>
    obtain ⟨hbroken, hpiecing⟩ := h sp hsp
    split
    · next hst => exact absurd hst hbroken
    · next hst => exact absurd hst hpiecing
    all_goals rfl

/-- A piece opens the clamp with the interval (R23, R37, R38). -/
theorem pieced_recordBecomes (h : s.spindle side pos = some sp) :
    RecordBecomes side pos { sp with
      state := .running, marker := some s.flmm, clamp := .opened, attempts := 0, seq := none, cause := none }
      s (writeSpindle side pos (sp.pieced s.flmm) s) :=
  writeSpindle_recordBecomes side pos (sp.pieced s.flmm) h

end

theorem overtakeOrder_frame (side : Side) (pos : Nat) (s : State) :
    OnlyChanges [.carriages] s (overtakeOrder side pos s) := modifyCarriage_frame side s _

/-- The carriage after its target has been pieced by hand: a piece order at the position is an overtaken order (R38). -/
def Carriage.overtaken (pos : Nat) (c : Carriage) : Carriage :=
  match c.order with
  | some (.piece t o k) => if t = pos then { c with order := some (.overtaken t o k) } else c
  | _ => c

theorem overtakeOrder_eq (side : Side) (pos : Nat) (s : State) :
    overtakeOrder side pos s = modifyCarriage side (·.overtaken pos) s := rfl

theorem overtakeOrder_carriage (side : Side) (pos : Nat) (s : State) :
    (overtakeOrder side pos s).carriages.get side = (s.carriages.get side).overtaken pos := by
  simp [overtakeOrder_eq, modifyCarriage]

/-- The piece of a PIECING spindle leaves every break list as it is: the spindle left its own when the order was
issued. -/
theorem pieced_frame_of_piecing {side : Side} {pos : Nat} {s : State} {sp : Spindle}
    (h : s.spindle side pos = some sp) (hst : sp.state = .piecing) :
    OnlyChanges [.spindles, .bus] s (writeSpindle side pos (sp.pieced s.flmm) s) := by
  have hlist : (writeSpindle side pos (sp.pieced s.flmm) s).breakList = s.breakList := by
    rw [writeSpindle_breakList side pos _ h, hst]
    exact sidesModify_of_fixed (syncBreakList_outside _ _ _ (by decide) (by simp [Spindle.pieced]))
  intro p hp
  by_cases hb : p = .breakList
  · subst hb; exact hlist
  · exact writeSpindle_frame side pos s _ p (by simp_all)

/-! ## The obligation -/

/-- Settles O45: the write of the record first, by its own rule; then the manual piece is counted, or the carriage's
order becomes an overtaken one. -/
theorem yarnFoundIsAPieceByHand : Obligations.YarnFoundIsAPieceByHand := by
  unfold Obligations.YarnFoundIsAPieceByHand
  intro s side pos
  refine ⟨yarnFound_without_effect, fun sp h hst => ?broken, fun sp h hst => ?piecing⟩
  case broken =>
    rw [yarnFound_of_broken h hst]
    have write := writeSpindle_frame side pos s (sp.pieced s.flmm)
    have shiftSame : (writeSpindle side pos (sp.pieced s.flmm) s).shift = s.shift := write .shift (by decide)
    have lineSame : (writeSpindle side pos (sp.pieced s.flmm) s).line = s.line := write .line (by decide)
    have articlesSame : (writeSpindle side pos (sp.pieced s.flmm) s).articles = s.articles :=
      write .articles (by decide)
    generalize hw : writeSpindle side pos (sp.pieced s.flmm) s = w at write shiftSame lineSame articlesSame
    have count := countSide_frame side w .manualPiece
    refine ⟨count.comp write, ?other, ?record, ?list, ?counted, ?credited, ?raises⟩
    case other => exact (hw ▸ writeSpindle_otherSide side pos _ s).trans (countSide_otherSide _ _ _)
    case record => exact (hw ▸ pieced_recordBecomes h).then_frame count
    case list =>
      have hlist : (countSide side .manualPiece w).breakList = w.breakList := count .breakList (by decide)
      rw [hlist, ← hw, writeSpindle_breakList side pos _ h, hst, Sides.get_modify_same,
        syncBreakList_leaves _ _ _ (by simp [Spindle.pieced])]
    case counted => simpa only [Counted, shiftSame] using countSide_counted side .manualPiece w
    case credited => simpa only [Credited, shiftSame, articlesSame] using countSide_credited_zero side .manualPiece w
    case raises =>
      simpa only [LineRaises, saturates, shiftSame, lineSame] using countSide_lineRaises side .manualPiece w
  case piecing =>
    rw [yarnFound_of_piecing h hst]
    have write := pieced_frame_of_piecing h hst
    have carriagesSame : (writeSpindle side pos (sp.pieced s.flmm) s).carriages = s.carriages :=
      write .carriages (by decide)
    have overtake := overtakeOrder_frame side pos (writeSpindle side pos (sp.pieced s.flmm) s)
    refine ⟨overtake.comp write, ?other, (pieced_recordBecomes h).then_frame overtake, ?carriage⟩
    case other => exact (writeSpindle_otherSide side pos _ s).trans (modifyCarriage_otherSide side _ _)
    case carriage =>
      change _ = (s.carriages.get side).overtaken pos
      rw [overtakeOrder_carriage, carriagesSame]

end Sys2Proof.Machine
end

