-- ==== Sys2Proof/Proofs/DispatchTarget.lean ====
section
/-!
PROOFS. O46, the Dispatcher's choice of a target (R57, R58): the least of the near candidates by distance ahead, which
is unique because no two positions are equally far ahead.
-/
namespace Sys2Proof.Machine

/-! ## The distance ahead -/

@[simp] theorem ahead_self (x : Nat) (d : Dir) : ahead x d x = 0 := by simp [ahead]

/-- Turning the carriage round only turns the sign of a distance: what lies ahead is as far off as it is ahead. -/
theorem natAbs_sub_eq_ahead {x p : Nat} {d : Dir} (h : 0 ≤ ahead x d p) :
    (((p : Int) - x).natAbs : Int) = ahead x d p := by
  cases d <;> simp only [ahead, Dir.sign] at h ⊢ <;> omega

theorem ahead_injective (x : Nat) (d : Dir) : Function.Injective (ahead x d) := by
  intro p q h
  cases d <;> simp only [ahead, Dir.sign] at h <;> omega

theorem isNear_iff {x reach p : Nat} {d : Dir} :
    isNear x d reach p = true ↔ 0 ≤ ahead x d p ∧ ahead x d p ≤ reach := by
  simp [isNear]

@[simp] theorem isNear_self (x reach : Nat) (d : Dir) : isNear x d reach x = true := by
  simp [isNear_iff]

/-! ## The least of a list -/

theorem nearest_eq_none_iff {x : Nat} {d : Dir} {l : List Nat} : nearest x d l = none ↔ l = [] := by
  cases l with
  | nil => simp [nearest]
  | cons p ps =>
    simp only [nearest, reduceCtorEq, iff_false]
    split
    · simp
    · split <;> simp

theorem nearest_least {x p : Nat} {d : Dir} {l : List Nat} (h : nearest x d l = some p) :
    p ∈ l ∧ ∀ q ∈ l, ahead x d p ≤ ahead x d q := by
  induction l generalizing p with
  | nil => simp [nearest] at h
  | cons a as ih =>
    cases hrest : nearest x d as with
    | none =>
      obtain rfl : a = p := by simpa [nearest, hrest] using h
      simp [nearest_eq_none_iff.mp hrest]
    | some m =>
      obtain ⟨hmem, hleast⟩ := ih hrest
      simp only [nearest, hrest] at h
      split at h
      case isTrue hle =>
        obtain rfl : a = p := by simpa using h
        exact ⟨List.mem_cons_self, List.forall_mem_cons.mpr ⟨le_rfl, fun q hq => hle.trans (hleast q hq)⟩⟩
      case isFalse hlt =>
        obtain rfl : m = p := by simpa using h
        exact ⟨List.mem_cons_of_mem a hmem, List.forall_mem_cons.mpr ⟨(not_le.mp hlt).le, hleast⟩⟩

/-! ## The choice -/

/-- R57: of the near candidates the one least far ahead. -/
theorem chooseTarget_of_near {x reach : Nat} {d : Dir} {l : List Nat} (h : ∃ q ∈ l, isNear x d reach q = true) :
    ∃ p ∈ l, chooseTarget x d reach l = some p ∧ isNear x d reach p = true ∧
      ∀ q ∈ l, isNear x d reach q = true → ahead x d p ≤ ahead x d q := by
  obtain ⟨q, hq, hnear⟩ := h
  cases hn : nearest x d (l.filter (isNear x d reach)) with
  | none =>
    have hempty := nearest_eq_none_iff.mp hn
    exact absurd hnear (List.filter_eq_nil_iff.mp hempty q hq)
  | some p =>
    obtain ⟨hmem, hleast⟩ := nearest_least hn
    obtain ⟨hpl, hpnear⟩ := List.mem_filter.mp hmem
    exact ⟨p, hpl, by simp [chooseTarget, hn], hpnear, fun q hq hqn => hleast q (List.mem_filter.mpr ⟨hq, hqn⟩)⟩

/-- R58: without a near candidate the head of the list. -/
theorem chooseTarget_of_none_near {x reach : Nat} {d : Dir} {l : List Nat} (h : ∀ q ∈ l, ¬isNear x d reach q = true) :
    chooseTarget x d reach l = l.head? := by
  simp [chooseTarget, List.filter_eq_nil_iff.mpr h, nearest]

/-- An entry at the carriage's own position is 0 ahead, and only that one is. -/
theorem chooseTarget_self {x reach : Nat} {d : Dir} {l : List Nat} (hx : x ∈ l) :
    chooseTarget x d reach l = some x := by
  have hself := isNear_self x reach d
  obtain ⟨p, -, hchoice, hnear, hleast⟩ := chooseTarget_of_near ⟨x, hx, hself⟩
  have hzero : ahead x d p = ahead x d x := by
    rw [ahead_self]
    exact le_antisymm (ahead_self x d ▸ hleast x hx hself) (isNear_iff.mp hnear).1
  rw [hchoice, ahead_injective x d hzero]

theorem chooseTarget_mem {x reach : Nat} {d : Dir} {l : List Nat} (hl : l ≠ []) :
    ∃ p ∈ l, chooseTarget x d reach l = some p := by
  by_cases h : ∃ q ∈ l, isNear x d reach q = true
  · obtain ⟨p, hmem, hchoice, -⟩ := chooseTarget_of_near h
    exact ⟨p, hmem, hchoice⟩
  · rw [chooseTarget_of_none_near fun q hq hnear => h ⟨q, hq, hnear⟩]
    exact ⟨l.head hl, List.head_mem hl, List.head?_eq_some_head hl⟩

/-! ## The obligation -/

/-- Settles O46: by whether the list holds a near candidate. What is near lies ahead, so the least distance ahead is the
least distance, and one position only has it. -/
theorem dispatchChoosesTheTarget : Obligations.DispatchChoosesTheTarget := by
  unfold Obligations.DispatchChoosesTheTarget
  intro x reach d l near
  have near_iff (q : Nat) : near q ↔ isNear x d reach q = true := isNear_iff.symm
  simp only [near_iff]
  refine ⟨fun p hp hex => ?nearest, chooseTarget_of_none_near, chooseTarget_self, chooseTarget_mem⟩
  obtain ⟨p', hmem, hchoice, hnear, hleast⟩ := chooseTarget_of_near hex
  obtain rfl : p' = p := Option.some.inj (hchoice.symm.trans hp)
  refine ⟨hmem, hnear, fun q hq hqnear => ?_⟩
  have hpDist := natAbs_sub_eq_ahead (isNear_iff.mp hnear).1
  have hqDist := natAbs_sub_eq_ahead (isNear_iff.mp hqnear).1
  have hle := hleast q hq hqnear
  exact ⟨by omega, fun heq => ahead_injective x d (by omega)⟩

end Sys2Proof.Machine
end

