-- ==== Sys2Proof/Proofs/ArticleStaging.lean ====
section
/-!
PROOFS. Validation of an article record as a search through its numbered fields (R110), the record read back from the
body that carries it (R182), and ARTICLE_STAGE (R113).
-/
namespace Sys2Proof.Machine

/-! ## The fields of a record of sixteen points -/

section
variable {a : Article}

theorem Article.fields_length (h : a.program.length = 16) : a.fields.length = 26 := by
  simp [Article.fields, h]

/-- The fields in the order of their numbers (R108). -/
theorem Article.fields_eq_map_field (h : a.program.length = 16) : a.fields = (List.range' 1 26).map a.field := by
  apply List.ext_getElem
  · simp [a.fields_length h]
  · intro i hi _
    simp [Article.field, hi]

theorem Article.fields_getD_program (h : a.program.length = 16) {i : Nat} (hi : i < 16) :
    a.fields.getD (5 + i) 0 = a.program.getD i 0 := by
  simp [Article.fields, Nat.add_comm 5 i, h, hi, List.getElem?_append_left]

theorem Article.fields_getD_tail (h : a.program.length = 16) (i : Nat) :
    a.fields.getD (21 + i) 0 = [a.minSpeed, a.maxSpeed, a.approach, a.preDoff, a.watch].getD i 0 := by
  rw [Article.fields, List.getD_append_right _ _ _ _ (by simp [h])]
  simp [h]

theorem Article.field_minSpeed (h : a.program.length = 16) : a.field 22 = a.minSpeed := a.fields_getD_tail h 0

theorem Article.field_maxSpeed (h : a.program.length = 16) : a.field 23 = a.maxSpeed := a.fields_getD_tail h 1

/-- A record of sixteen points is formed again from its fields. -/
theorem Article.ofFields_fields (h : a.program.length = 16) : Article.ofFields a.fields = a := by
  have tail := a.fields_getD_tail h
  have points : (List.range 16).map (fun i => a.fields.getD (5 + i) 0) = a.program := by
    apply List.ext_getElem
    · simp [h]
    · intro i hi hi'
      rw [List.getElem_map, List.getElem_range, a.fields_getD_program h (by simpa using hi),
        List.getD_eq_getElem _ _ hi']
  unfold Article.ofFields
  rw [points, tail 0, tail 1, tail 2, tail 3, tail 4]
  rfl

end

/-! ## The record on the line -/

/-- In a run of numbers of one width, the number at a place is the one that was put there. -/
theorem numAt_flatMap_beBytes {w : Nat} {l : List Nat} (hl : ∀ v ∈ l, v < 256 ^ w) {i : Nat} (hi : i < l.length) :
    numAt (l.flatMap (beBytes w)) (w * i) w = l[i] := by
  induction l generalizing i with
  | nil => simp at hi
  | cons v vs ih =>
    cases i with
    | zero => simp [numAt, fromBytes_beBytes w v (hl v List.mem_cons_self)]
    | succ i =>
      have rest := ih (fun x hx => hl x (List.mem_cons_of_mem v hx)) (Nat.lt_of_succ_lt_succ hi)
      simpa [numAt, Nat.mul_succ, Nat.add_comm _ w, ← List.drop_drop] using rest

/-- The body of 26 fields of 2 bytes carries its record (R182). -/
theorem articleOfBody_fields {a : Article} (h : a.program.length = 16) (hfit : ∀ v ∈ a.fields, v < 65536) :
    articleOfBody (a.fields.flatMap (beBytes 2)) = a := by
  have read : (List.range 26).map (fun i => numAt (a.fields.flatMap (beBytes 2)) (2 * i) 2) = a.fields := by
    apply List.ext_getElem
    · simp [a.fields_length h]
    · intro i _ hi
      rw [List.getElem_map, List.getElem_range, numAt_flatMap_beBytes hfit hi]
  rw [articleOfBody, read, a.ofFields_fields h]

/-! ## Validation -/

/-- The points of the speed program are fields 6 to 21 (R108). -/
theorem pointNumber_ne {n k : Nat} (hn : 6 ≤ n ∧ n ≤ 21) (hk : k < 6 ∨ 21 < k) : n ≠ k := by omega

/-- A point of the speed program is judged by its range alone: the points need not rise (R108). -/
theorem articleFieldOk_point {a : Article} {n v : Nat} (hn : 6 ≤ n ∧ n ≤ 21) :
    articleFieldOk a n v = true ↔ 6000 ≤ v ∧ v ≤ 28000 := by
  simp [articleFieldOk, articleRange, pointNumber_ne hn, hn.2]

/-- Over numbered fields, the first failing one is found by a search for a field that fails. -/
theorem firstFailing_map_range' (a : Article) (v : Nat → Nat) (n k : Nat) :
    firstFailing a n ((List.range' n k).map v) = (List.range' n k).find? fun m => !articleFieldOk a m (v m) := by
  induction k generalizing n with
  | zero => rfl
  | succ k ih =>
    rw [List.range'_succ, List.map_cons, List.find?_cons, firstFailing, ih]
    cases articleFieldOk a n (v n) <;> rfl

theorem Article.failingField_eq_find? {a : Article} (h : a.program.length = 16) :
    a.failingField = (List.range' 1 26).find? fun n => !articleFieldOk a n (a.field n) := by
  rw [Article.failingField, a.fields_eq_map_field h, firstFailing_map_range']

/-- R110: a record is valid where each of its fields passes. -/
theorem Article.failingField_eq_none_iff {a : Article} (h : a.program.length = 16) :
    a.failingField = none ↔ ∀ n ∈ List.range' 1 26, articleFieldOk a n (a.field n) = true := by
  simp [a.failingField_eq_find? h, List.find?_eq_none]

/-- R110: the failing field fails, and each field before it passes. -/
theorem Article.failingField_eq_some_iff {a : Article} (h : a.program.length = 16) {n : Nat} :
    a.failingField = some n ↔ n ∈ List.range' 1 26 ∧ ¬articleFieldOk a n (a.field n) = true ∧
      ∀ m ∈ List.range' 1 (n - 1), articleFieldOk a m (a.field m) = true := by
  have before (m : Nat) : m ∈ List.range' 1 (n - 1) ↔ 1 ≤ m ∧ m < n := by
    rw [List.mem_range'_1]
    omega
  simp only [a.failingField_eq_find? h, List.find?_range'_eq_some, before, and_imp, Bool.not_not, Bool.not_eq_true,
    Bool.not_eq_true']
  tauto

/-! ## ARTICLE_STAGE -/

/-- A command whose request passes to its owner replies with what the owner answers (R178). -/
theorem replies_of_owner {i : Instr} {r : HeldRequest} {owner : List Byte → State → Handled} {s u : State}
    {res : Result} {content : List Byte} {P : State → State → Prop}
    (hexec : exec i s = .next (takeRequest r.kind r.body owner s))
    (hreq : requestOf i = some r) (hs : Served i s) (howner : owner r.body (holdRequest r s) = ⟨u, res, content⟩)
    (hP : P (holdRequest r s) u) : Replies i s res (fun _ => content) P := by
  obtain ⟨hphase, r', hr', hreach, hlen⟩ := hs
  obtain rfl : r = r' := Option.some.inj (hreq.symm.trans hr')
  refine ⟨r, hreq, u, ?_, hP⟩
  rw [hexec, takeRequest_served _ _ _ _ hphase hreach hlen, howner]

section
variable {body : List Byte} {a : Article} (hbody : articleOfBody body = a) (s : State)
include hbody

theorem articleStage_of_valid (h : a.failingField = none) :
    articleStage body s = ⟨s.setArticles { s.articles with staged := some a }, .ok, []⟩ := by
  simp [articleStage, hbody, h, Handled.ok]

theorem articleStage_of_failing {n : Nat} (h : a.failingField = some n) (hn : n < 256) :
    articleStage body s = ⟨s, .badValue, [BitVec.ofNat 8 n]⟩ := by
  simp [articleStage, hbody, h, refuse_eq s .badValue n hn]

end

/-! ## The obligation -/

/-- Settles O33: the owner reads the record back from the body and answers by its validation; validation is the search
for the first field that fails, and the ranges and relations of R108 are what a field passes. -/
theorem articlesAreStaged : Obligations.ArticlesAreStaged := by
  unfold Obligations.ArticlesAreStaged
  refine ⟨fun s a h hfit hs => ?staging, fun a h => ?validation⟩
  case staging =>
    have hbody := articleOfBody_fields h hfit
    split
    case h_1 hvalid =>
      exact replies_of_owner rfl rfl hs (articleStage_of_valid hbody _ hvalid)
        ⟨setArticles_frame _ _, by simp⟩
    case h_2 n hfails =>
      obtain ⟨hmem, -, -⟩ := (Article.failingField_eq_some_iff h).mp hfails
      rw [List.mem_range'_1] at hmem
      exact replies_of_owner rfl rfl hs (articleStage_of_failing hbody _ hfails (by omega)) rfl
  case validation =>
    intro v passes
    have passes_iff (n : Nat) (hn : n ∈ List.range' 1 26) : passes n ↔ articleFieldOk a n (a.field n) = true := by
      have byNumber : n ∈ [1, 2, 3, 4, 5, 22, 23, 24, 25, 26] ∨ 6 ≤ n ∧ n ≤ 21 := by
        rw [List.mem_range'_1] at hn
        simp only [List.mem_cons, List.not_mem_nil]
        omega
      rcases byNumber with hrule | hpoint
      case inl =>
        simp only [List.mem_cons, List.not_mem_nil, or_false] at hrule
        rcases hrule with rfl | rfl | rfl | rfl | rfl | rfl | rfl | rfl | rfl | rfl <;>
          simp [passes, v, articleFieldOk, articleRange, a.field_minSpeed h, a.field_maxSpeed h, and_assoc]
      case inr =>
        rw [articleFieldOk_point hpoint]
        simp [passes, v, pointNumber_ne hpoint]
    refine ⟨?none, fun n hn => ?first⟩
    case none =>
      rw [Article.failingField_eq_none_iff h]
      exact forall₂_congr fun n hn => (passes_iff n hn).symm
    case first =>
      have earlier : List.range' 1 (n - 1) ⊆ List.range' 1 26 := by
        intro m hm
        rw [List.mem_range'_1] at hm hn ⊢
        omega
      rw [Article.failingField_eq_some_iff h, and_iff_right hn, passes_iff n hn]
      exact and_congr_right' (forall₂_congr fun m hm => (passes_iff m (earlier hm)).symm)

end Sys2Proof.Machine
end

