-- ==== Sys2Proof/Proofs/Replies.lean ====
section
/-!
PROOFS. The step, the reset state and REPLY_SENT, and the reply of a request from what its owner answers (R178 to R180).
-/
namespace Sys2Proof.Machine

-- One after another: each theorem as a task of its own takes a thread.
set_option Elab.async false

/-- Settles O1. -/
theorem stepRunsFrontCommand : Obligations.StepRunsFrontCommand := by
  unfold Obligations.StepRunsFrontCommand
  exact ⟨fun s c rest h => by simp [step, h], fun s h => by simp [step, h]⟩

/-- Settles O3: the reset state is closed and its tables are empty, so each law is decided. -/
theorem resetStateMeetsEveryLaw : Obligations.ResetStateMeetsEveryLaw := by
  unfold Obligations.ResetStateMeetsEveryLaw
  intro s
  refine ⟨?_, ?_, ?_, ?_, ?_, ?_, ?_, ?_, ?_, ?_, ?_, ?_, ?_, ?_, ?_, ?_, ?_, ?_, ?_⟩ <;> decide

/-- Settles O23: the request of the reply tells a RESET from the other kinds. -/
theorem replySentCompletes : Obligations.ReplySentCompletes := by
  unfold Obligations.ReplySentCompletes
  intro s
  refine ⟨fun h => by simp [exec, execReplySent, h], fun r held rest htx hheld hkind => ?_⟩
  refine ⟨_, by simp only [exec, execReplySent, htx]; rfl, setLine_frame s _, ?_⟩
  have hreset : (r.kind == replyKind 0x7F#8 && r.result == .ok && held.kind == 0x7F#8) =
      decide (held.kind = 0x7F#8 ∧ r.result = .ok) := by
    by_cases h : held.kind = 0x7F#8
    · simp [hkind, h, Bool.beq_eq_decide_eq]
    · simp [h]
  simp [hheld, hreset]

/-! ## What an owner answers -/

/-- Holding a request changes the holding alone. -/
theorem holdRequest_eq (r : HeldRequest) (s : State) :
    ∃ l, holdRequest r s = s.setLine { s.line with holding := l } := by
  unfold holdRequest
  split
  · exact ⟨[r], rfl⟩
  · exact ⟨s.line.holding, rfl⟩

/-- A command whose request passes to its owner replies with what the owner answers on the state with the request
held, which differs in the holding alone (R178). -/
theorem Served.replies {i : Instr} {r : HeldRequest} {owner : List Byte → State → Handled} {s : State}
    {res : Result} {content : State → List Byte} {P : State → State → Prop} (hs : Served i s)
    (hexec : exec i s = .next (takeRequest r.kind r.body owner s)) (hreq : requestOf i = some r)
    (howner : ∀ l s', s' = s.setLine { s.line with holding := l } →
      ∃ u, owner r.body s' = ⟨u, res, content u⟩ ∧ P s' u) : Replies i s res content P := by
  obtain ⟨hphase, r', hr', hreach, hlen⟩ := hs
  obtain rfl : r = r' := Option.some.inj (hreq.symm.trans hr')
  obtain ⟨l, hl⟩ := holdRequest_eq r s
  obtain ⟨u, hu, hP⟩ := howner l _ hl
  refine ⟨r, hreq, u, ?_, hP⟩
  rw [hexec, takeRequest_served _ _ _ _ hphase hreach hlen, hu]

/-- An owner that refuses changes nothing. -/
theorem Served.refuses {i : Instr} {r : HeldRequest} {owner : List Byte → State → Handled} {s : State} {res : Result}
    {d : Nat} (hs : Served i s) (hexec : exec i s = .next (takeRequest r.kind r.body owner s))
    (hreq : requestOf i = some r) (hd : d < 256)
    (howner : ∀ l s', s' = s.setLine { s.line with holding := l } → owner r.body s' = Handled.refuse s' res d) :
    Refuses i s res d :=
  hs.replies hexec hreq fun l s' h => ⟨s', by rw [howner l s' h, refuse_eq _ _ _ hd], rfl⟩

end Sys2Proof.Machine
end

