-- ==== Sys2Proof/Proofs/Operations.lean ====
section
/-!
PROOFS. What a command can do, said once: the operations of the blocks, each with the parts that it may change, and each
command as a succession of them. From it every command ends in a next state with the queue of waiting commands kept
(O2), and a law is kept by every step where each operation keeps it.
-/
namespace Sys2Proof.Machine

-- One after another: each theorem as a task of its own takes a thread.
set_option Elab.async false

/-! ## Operations -/

/-- The link fields of every station of the table fit (R162, R164, R166), and each board holds 48 clamp places. -/
def Bus.Fits (b : Bus) : Prop :=
  ∀ side, (∀ e ∈ b.boards.get side, e.held.length = 48 ∧ e.carryPoint ≤ 48 ∧ e.link.Fits) ∧
    (b.carriages.get side).link.Fits ∧ b.doffer.link.Fits ∧ b.train.link.Fits

/-- The station table `c` has the boards of `b`, and fits where `b` does. -/
def Bus.Becomes (b c : Bus) : Prop :=
  (∀ side, (c.boards.get side).length = (b.boards.get side).length) ∧ (b.Fits → c.Fits)

/-- The codes of the items without behaviour beyond their value (R196). -/
def plainItem (code : Nat) : Prop := code = 0x06 ∨ 0x07 ≤ code ∧ code ≤ 0x16

/-- The state after a doff report has begun a start-up (R87). -/
def startUp (s : State) : State := changeFrame .startUp (s.setDoff { s.doff with watchStart := some s.flmm })

/-- A carriage settles at a position with a direction of travel, its work ended (R70, R73, R78). -/
def settleAt (side : Side) (x : Option Nat) (d : Dir) (s : State) : State :=
  carriageSettles side x (modifyCarriage side (fun c => { c with d := d }) s)

/-- A carriage reports a position that is not fitted (R70, R73). -/
def loseCarriage (side : Side) (s : State) : State :=
  carriageFaults side (modifyCarriage side (fun c => { c with x := none }) s)

/-- A piece order has succeeded (R74), before the dispatch test. -/
def pieceDone (side : Side) (pos : Nat) (s : State) : State :=
  carriageSettles side (some pos) (match s.spindle side pos with
    | some sp =>
      if sp.state = .piecing then countSide side .carriagePiece (writeSpindle side pos (sp.pieced s.flmm) s) else s
    | none => s)

/-- A piece order has failed (R75), before the dispatch test. -/
def pieceMissed (side : Side) (pos : Nat) (s : State) : State :=
  carriageSettles side (some pos) (match s.spindle side pos with
    | some sp =>
      if sp.state = .piecing then
        judgeAttempts side pos { sp with attempts := min 3 (sp.attempts + 1) } (countSide side .pieceFailure s)
      else s
    | none => s)

/-- An overtaken order has ended (R76), before the dispatch test. -/
def overtakenDone (side : Side) (pos : Nat) (ok : Bool) (s : State) : State :=
  carriageSettles side (some pos) (if ok then countSide side .carriagePiece s else s)

/-- The exchange that is due at a completed doff (R115). -/
def dueExchange (s : State) : State :=
  if s.articles.request then attemptExchange (.doff s.doff.number) s else s

/-- DOFF_STOP at a doff completed by hand, where DOFF_GO has been sent (R99). -/
def stopDoffer (byHand : Bool) (s : State) : State := if byHand ∧ s.doff.go = .sent then sendDoffStop s else s

theorem completeDoff_eq (byHand : Bool) (s : State) :
    completeDoff byHand s = changeFrame .restartWait (endDoffer (stopDoffer byHand
      (countFrame .doff (recordOutcome .done none (clearDoffHolds (dueExchange (resetCops s))))))) := rfl

/-- The record that a break finds, its interval closed at the FLmm in force (R25). -/
def Spindle.ClosedAt (sp : Spindle) (side : Side) (pos : Nat) (s : State) : Prop :=
  s.spindle side pos = some { sp with clamp := .opened } ∧ sp.state = .running ∧ sp.marker = some s.flmm

/-- One operation of a block, with the parts of the state that it may change and what it finds. Between two operations
every law of the device holds. -/
inductive Op : List Part → State → State → Prop
  | raise (c s) : Op [.line] s (raise c s)
  | clearClasses (m s) : Op [.line] s (clearClasses m s)
  | freeValue (n s) : Op [.freeCount] s (s.setFreeCount n)
  | context (e c m) (s : State) (h : c.isSome = s.doff.saved.isSome) :
      Op [.doff] s (s.setDoff { s.doff with effective := e, saved := c, doffMask := m })
  | lengthTrim (v s) (h : -64 ≤ v ∧ v ≤ 63) : Op [.items, .roller] s (takeLengthTrim v s)
  | speedTrim (v s) (h : -16 ≤ v ∧ v ≤ 15) : Op [.items, .speed, .line] s (takeSpeedTrim v s)
  | encoder (code v) (s : State) (hc : code = 0x03 ∨ code = 0x04) (h : configRange code v = true) :
      Op [.items, .roller] s (takeEncoderItems (s.items.put code v) s)
  | item (code v) (s : State) (hc : plainItem code) (h : configRange code v = true) (hx : crossCheck code v s = true) :
      Op [.items] s (s.setItems (s.items.put code v))
  | sections (side n) (s : State) (h : 1 ≤ n ∧ n ≤ 20) (hf : s.doff.frame = .stopped)
      (hp : s.phase = .running) :
      Op [.items, .spindles, .breakList, .carriages, .roving, .shift, .bus, .line] s (changeSections side n s)
  | stage (a) (s : State) (h : a.Valid) : Op [.articles] s (s.setArticles { s.articles with staged := some a })
  | request (b) (s : State) : Op [.articles] s (s.setArticles { s.articles with request := b })
  | refuseExchange (r o s) : Op [.articles, .line] s (refuseExchange r o s)
  | exchange (a o) (s : State) (h : s.articles.staged = some a) :
      Op [.spindles, .shift, .articles, .speed, .doff, .line] s (makeExchange a o s)
  | startUp (s : State) (h : s.doff.frame = .stopped ∨ s.doff.frame = .halted ∨ s.doff.frame = .restartWait) :
      Op [.doff, .speed, .line] s (startUp s)
  | dispatch (side s) : Op [.spindles, .breakList, .carriages, .bus] s (dispatchTest side s)
  | halt (s : State) (h : s.doff.frame.motionExpected = true) : Op [.doff, .speed, .line] s (haltFrame s)
  | enterDoffing (s : State) (h : s.doff.frame = .doffStopping) :
      Op [.doff, .speed, .line, .spindles, .breakList, .carriages, .bus] s (enterDoffing s)
  | stopByRequest (s : State) (h : s.doff.frame = .spinning ∨ s.doff.frame = .doffPending ∨ s.doff.frame = .halted) :
      Op [.doff, .speed, .line] s (stopByRequest s)
  | abortDoff (s : State) (h : s.doff.frame = .doffStopping ∨ s.doff.frame = .doffing) :
      Op [.doff, .speed, .line, .carriages, .bus] s (abortDoff s)
  | failDoff (code) (s : State) (h : s.doff.go = .sent) : Op [.doff, .speed, .line, .carriages] s (failDoff code s)
  | completeDoff (byHand) (s : State) (h : s.doff.frame = .doffing ∨ s.doff.go = .sent) :
      Op [.spindles, .shift, .articles, .speed, .doff, .line, .carriages, .bus] s (completeDoff byHand s)
  | startDoffer (s : State) (h : s.doff.go = .waiting) : Op [.doff, .bus] s (startDoffer s)
  | dofferTimer (s : State) (h : s.doff.go = .sent) : Op [.doff] s (restartDofferTimer s)
  | sectionDone (side sec) (s : State) (h : s.doff.go = .sent) : Op [.doff] s (sectionDone side sec s)
  | dofferReady (b) (s : State) : Op [.doff] s (s.setDoff { s.doff with ready := b })
  | park (side pos sp) (s : State) (h : s.spindle side pos = some sp) (hst : sp.state ≠ .parked) :
      Op [.spindles, .breakList, .carriages, .roving, .shift, .bus] s (parkSpindle side pos s)
  | unpark (side pos sp) (s : State) (h : s.spindle side pos = some sp) (hst : sp.state = .parked) :
      Op [.spindles, .breakList, .breakSeq, .shift, .bus] s
        (joinBreakList side pos .release { sp with attempts := 0 } (creditPossible side s))
  | release (side pos sp) (s : State) (h : s.spindle side pos = some sp) (hst : sp.state = .locked) :
      Op [.spindles, .breakList, .breakSeq, .bus] s
        (joinBreakList side pos .release { sp with attempts := 0, stamps := [], rogueUnlocked := false } s)
  | seed (side pos metres) (s : State) (h : metres ≤ s.articles.active.bobbin) :
      Op [.spindles, .breakList, .bus, .shift] s (seedRoving side metres s pos)
  | hostHold (side s) : Op [.carriages] s (setHostHold side s)
  | hostFree (side s) : Op [.carriages] s (modifyCarriage side (fun c => { c with hostHold := false }.nowFree) s)
  | home (side) (s : State) (h : (s.carriages.get side).state = .fault ∨ (s.carriages.get side).state = .held) :
      Op [.carriages, .bus] s (startHoming side s)
  | runStart (n) (s : State) (h : 1 ≤ n ∧ n ≤ 240) (hr : s.roving.run = .idle) :
      Op [.roving] s (s.setRoving { s.roving with run := .active, base := some n, current := some n, reason := none })
  | runEnding (s : State) (h : s.roving.run = .active) (hs : s.roving.slot.isSome) :
      Op [.roving] s (s.setRoving { s.roving with run := .ending })
  | runAborted (s : State) (h : s.roving.run = .active) (hs : s.roving.slot = none) :
      Op [.roving, .line] s (endRun .aborted s)
  | closeShift (label stamp s) : Op [.spindles, .shift] s (closeShift label stamp s)
  | bus (b) (s : State) (h : s.bus.Becomes b) : Op [.bus] s (s.setBus b)
  | arrives (side s) : Op [.spindles, .breakList, .carriages, .bus, .line] s (carriageArrives side s)
  | settle (side x d) (s : State)
      (h : (s.carriages.get side).state = .homing ∨ (s.carriages.get side).state = .moving)
      (hx : x.isSome ∨ (s.carriages.get side).state = .moving ∧ x = (s.carriages.get side).x) :
      Op [.carriages] s (settleAt side x d s)
  | lose (side) (s : State)
      (h : (s.carriages.get side).state = .homing ∨ (s.carriages.get side).state = .moving) :
      Op [.carriages, .line] s (loseCarriage side s)
  | pieceDone (side pos) (s : State) (h : (s.carriages.get side).state = .serving)
      (ht : (s.carriages.get side).pieceTarget = some pos) :
      Op [.spindles, .breakList, .carriages, .shift, .bus, .line] s (pieceDone side pos s)
  | pieceMissed (side pos) (s : State) (h : (s.carriages.get side).state = .serving)
      (ht : (s.carriages.get side).pieceTarget = some pos) :
      Op [.spindles, .breakList, .carriages, .shift, .bus, .line] s (pieceMissed side pos s)
  | overtakenDone (side pos ok) (s : State) (h : (s.carriages.get side).state = .serving)
      (ht : (s.carriages.get side).overtakenTarget = some pos) :
      Op [.carriages, .shift, .line] s (overtakenDone side pos ok s)
  | lateOutcome (side pos ok) (s : State) :
      Op [.spindles, .breakList, .carriages, .shift, .bus, .line] s (lateOutcome side pos ok s)
  | timeout (side k s) : Op [.spindles, .breakList, .carriages, .bus, .line] s (carriageTimeout side k s)
  | silent (side s) : Op [.spindles, .breakList, .carriages, .bus, .line] s (carriageSilent side s)
  | closeInterval (side pos s) : Op [.spindles, .breakList, .bus, .shift] s (closeInterval side pos s)
  | runOut (side pos sp s) (h : sp.ClosedAt side pos s) :
      Op [.spindles, .breakList, .bus, .roving, .shift, .line] s (takeRunOut side pos sp s)
  | startUpBreak (side pos sp s) (h : sp.ClosedAt side pos s) :
      Op [.spindles, .breakList, .breakSeq, .bus, .shift, .line] s (takeStartUpBreak side pos sp s)
  | endBreak (side pos sp s) (h : sp.ClosedAt side pos s) :
      Op [.spindles, .breakList, .breakSeq, .bus, .speed, .shift, .line] s (takeEndBreak side pos sp s)
  | yarnFound (side pos s) : Op [.spindles, .breakList, .carriages, .shift, .bus, .line] s (yarnFound side pos s)
  | trainNext (s) : Op [.roving, .bus, .line] s (trainNext s)
  | takeBack (b x) (s : State) (h : s.roving.slot = some x) :
      Op [.roving, .line] s (endingTest (returnToRovingList b x (emptySlot s)))
  | slotTimeout (s) : Op [.roving, .line] s (slotTimeout s)
  | replaceSlot (x) (s : State) (h : s.roving.slot = some x) :
      Op [.spindles, .breakList, .breakSeq, .roving, .shift, .bus, .line] s
        (endingTest (replaceBobbin x (emptySlot s)))
  | replaceListed (x) (s : State) (hn : s.roving.slot ≠ some x) (h : s.roving.listed x = true) :
      Op [.spindles, .breakList, .breakSeq, .roving, .shift, .bus, .line] s (replaceBobbin x (unlist x s))
  | motionStops (s : State) : Op [.roller] s (s.setRoller { s.roller with window := none, winding := false })
  | fill (s) : Op [.doff, .speed, .line] s (recomputeFill s)
  | window (s) : Op [.speed, .line] s (closeWindow s)
  | audit (s) : Op [.roving, .line] s (rovingAudit s)
  | watch (s) (h : s.doff.frame = .startUp) : Op [.doff, .speed, .line] s (endWatch s)

/-! ## What each operation may change -/

/-- One more operation within a list of parts. -/
theorem OnlyChanges.next {qs rs : List Part} {s t u : State} (h1 : OnlyChanges rs s t) (h2 : OnlyChanges qs t u)
    (hq : qs ⊆ rs := by decide) : OnlyChanges rs s u :=
  h2.comp h1 (List.Subset.refl rs) hq

section
variable (side : Side) (pos : Nat) (s : State)

theorem takeLengthTrim_frame (v : Int) : OnlyChanges [.items, .roller] s (takeLengthTrim v s) :=
  (setItems_frame s _).wide.next (setRoller_frame _ _)

theorem takeSpeedTrim_frame (v : Int) : OnlyChanges [.items, .speed, .line] s (takeSpeedTrim v s) :=
  (setItems_frame s _).wide.next (recomputeSetPoint_frame _)

theorem takeEncoderItems_frame (t : Items) : OnlyChanges [.items, .roller] s (takeEncoderItems t s) :=
  (setItems_frame s _).wide.next (setRoller_frame _ _)

theorem releaseRemoved_frame (keep : Nat) :
    OnlyChanges [.shift, .breakList, .roving] s (releaseRemoved side keep s) :=
  ((creditRun_frame side s _).wide.next (setBreakList_frame _ _)).next (setRoving_frame _ _)

theorem releaseSlot_frame (keep : Nat) : OnlyChanges [.roving, .line] s (releaseSlot side keep s) := by
  unfold releaseSlot
  split
  · split
    · exact (emptySlot_frame s).wide.next (endingTest_frame _)
    · exact .refl _ _
  · exact .refl _ _

theorem resizeSide_frame (n : Nat) : OnlyChanges [.spindles, .bus] s (resizeSide side n s) :=
  (setSpindles_frame s _).wide.next (setBus_frame _ _)

theorem recallCarriage_frame (keep : Nat) : OnlyChanges [.carriages, .bus] s (recallCarriage side keep s) := by
  unfold recallCarriage
  dsimp only
  split
  · exact .refl _ _
  · split
    · exact .refl _ _
    · split
      · exact startHoming_frame side s
      · exact startHoming_frame side s
      · exact (modifyCarriage_frame side s _).wide
      all_goals exact .refl _ _

theorem changeSections_frame (n : Nat) :
    OnlyChanges [.items, .spindles, .breakList, .carriages, .roving, .shift, .bus, .line] s
      (changeSections side n s) :=
  ((((((creditPossible_frame side s).wide.next (releaseRemoved_frame side _ _)).next (releaseSlot_frame side _ _)).next
    (resizeSide_frame side _ n)).next (setItems_frame _ _)).next (recallCarriage_frame side _ _))

theorem startUp_frame : OnlyChanges [.doff, .speed, .line] s (startUp s) :=
  (setDoff_frame s _).wide.next (changeFrame_frame _ _)

theorem stopByRequest_frame : OnlyChanges [.doff, .speed, .line] s (stopByRequest s) := by
  have h := ((changeFrame_frame s .doffStopping).wide (rs := [.doff, .speed, .line])).next (beginDoff_frame _ .manual)
  unfold stopByRequest
  dsimp only
  split
  · exact h.next (swapContext_frame _)
  · exact h

theorem attemptExchange_frame (o : Occasion) :
    OnlyChanges [.spindles, .shift, .articles, .speed, .doff, .line] s (attemptExchange o s) := by
  unfold attemptExchange
  split
  · exact makeExchange_frame s _ o
  · exact (refuseExchange_frame s _ o).wide

theorem dueExchange_frame :
    OnlyChanges [.spindles, .shift, .articles, .speed, .doff, .line] s (dueExchange s) := by
  unfold dueExchange
  split
  · exact attemptExchange_frame s _
  · exact .refl _ _

theorem stopDoffer_frame (byHand : Bool) : OnlyChanges [.bus] s (stopDoffer byHand s) := by
  unfold stopDoffer
  split
  · exact sendDoffStop_frame s
  · exact .refl _ _

theorem completeDoff_frame (byHand : Bool) :
    OnlyChanges [.spindles, .shift, .articles, .speed, .doff, .line, .carriages, .bus] s (completeDoff byHand s) :=
  (((((((resetCops_frame s).wide.next (dueExchange_frame _)).next (clearDoffHolds_frame _)).next
    (recordOutcome_frame _ .done none)).next (countFrame_frame _ .doff)).next (stopDoffer_frame _ byHand)).next
    (endDoffer_frame _)).next (changeFrame_frame _ .restartWait)

theorem restartDofferTimer_frame : OnlyChanges [.doff] s (restartDofferTimer s) := setDoff_frame s _

theorem sectionDone_frame (sec : Nat) : OnlyChanges [.doff] s (sectionDone side sec s) :=
  (restartDofferTimer_frame s).next (setDoff_frame _ _)

theorem parkSpindle_frame :
    OnlyChanges [.spindles, .breakList, .carriages, .roving, .shift, .bus] s (parkSpindle side pos s) := by
  have h := ((((creditPossible_frame side s).wide
    (rs := [.spindles, .breakList, .carriages, .roving, .shift, .bus])).next (closeInterval_frame side pos _)).next
    (withdrawForPark_frame side pos _)).next (unlist_frame _ ⟨side, pos⟩)
  unfold parkSpindle
  dsimp only
  split
  · exact h.next (writeSpindle_frame _ _ _ _)
  · exact h

theorem unpark_frame (sp : Spindle) :
    OnlyChanges [.spindles, .breakList, .breakSeq, .shift, .bus] s
      (joinBreakList side pos .release sp (creditPossible side s)) :=
  (creditPossible_frame side s).wide.next (joinBreakList_frame _ _ _ _ _)

theorem seedRoving_frame (metres : Nat) :
    OnlyChanges [.spindles, .breakList, .bus, .shift] s (seedRoving side metres s pos) := by
  unfold seedRoving
  dsimp only
  split
  · exact (closeInterval_frame side pos s).next (writeSpindle_frame _ _ _ _)
  · exact closeInterval_frame side pos s

theorem setHostHold_frame : OnlyChanges [.carriages] s (setHostHold side s) := modifyCarriage_frame side s _

theorem closeShift_frame (label stamp : Nat) : OnlyChanges [.spindles, .shift] s (closeShift label stamp s) :=
  (((split_frame s).next (creditPossible_frame .a _)).next (creditPossible_frame .b _)).next (setShift_frame _ _)

theorem carriageArrives_frame :
    OnlyChanges [.spindles, .breakList, .carriages, .bus, .line] s (carriageArrives side s) := by
  have h := ((dropWork_frame side s).wide (rs := [.spindles, .breakList, .carriages, .bus, .line])).next
    (startHoming_frame side _)
  unfold carriageArrives
  dsimp only
  split
  · exact h
  · exact h.next (raise_frame _ _)

theorem settleAt_frame (x : Option Nat) (d : Dir) : OnlyChanges [.carriages] s (settleAt side x d s) :=
  (modifyCarriage_frame side s _).next (carriageSettles_frame _ _ _)

theorem loseCarriage_frame : OnlyChanges [.carriages, .line] s (loseCarriage side s) :=
  (modifyCarriage_frame side s _).wide.next (carriageFaults_frame _ _)

theorem pieceDone_frame :
    OnlyChanges [.spindles, .breakList, .carriages, .shift, .bus, .line] s (pieceDone side pos s) := by
  refine OnlyChanges.next ?_ (carriageSettles_frame _ _ _)
  split
  · split
    · exact (writeSpindle_frame _ _ s _).wide.next (countSide_frame _ _ _)
    · exact .refl _ _
  · exact .refl _ _

theorem judgeAttempts_frame (sp : Spindle) :
    OnlyChanges [.spindles, .breakList, .shift, .bus, .line] s (judgeAttempts side pos sp s) := by
  unfold judgeAttempts
  split
  · exact (writeSpindle_frame _ _ s _).wide
  split
  · exact (lockSpindle_frame _ _ s _ _).wide
  · exact (writeSpindle_frame _ _ s _).wide.next (raise_frame _ _)

theorem pieceMissed_frame :
    OnlyChanges [.spindles, .breakList, .carriages, .shift, .bus, .line] s (pieceMissed side pos s) := by
  refine OnlyChanges.next ?_ (carriageSettles_frame _ _ _)
  split
  · split
    · exact (countSide_frame _ s _).wide.next (judgeAttempts_frame _ _ _ _)
    · exact .refl _ _
  · exact .refl _ _

theorem overtakenDone_frame (ok : Bool) : OnlyChanges [.carriages, .shift, .line] s (overtakenDone side pos ok s) := by
  refine OnlyChanges.next ?_ (carriageSettles_frame _ _ _)
  split
  · exact (countSide_frame _ s _).wide
  · exact .refl _ _

theorem lateOutcome_frame (ok : Bool) :
    OnlyChanges [.spindles, .breakList, .carriages, .shift, .bus, .line] s (lateOutcome side pos ok s) := by
  have h := (modifyCarriage_frame side s (fun c => { c with withdrawn := none })).wide
    (rs := [.spindles, .breakList, .carriages, .shift, .bus, .line])
  unfold lateOutcome
  dsimp only
  split
  · split
    · split
      · exact (h.next (writeSpindle_frame _ _ _ _)).next (countSide_frame _ _ _)
      · exact h
    · exact h
  · exact h

theorem carriageSilent_frame :
    OnlyChanges [.spindles, .breakList, .carriages, .bus, .line] s (carriageSilent side s) :=
  ((dropWork_frame side s).wide.next (modifyCarriage_frame _ _ _)).next (raise_frame _ _)

theorem takeRunOut_frame (sp : Spindle) :
    OnlyChanges [.spindles, .breakList, .bus, .roving, .shift, .line] s (takeRunOut side pos sp s) :=
  (((writeSpindle_frame _ _ s _).wide.next (placeRunOut_frame _ _)).next (raise_frame _ _)).next (countSide_frame _ _ _)

theorem takeStartUpBreak_frame (sp : Spindle) :
    OnlyChanges [.spindles, .breakList, .breakSeq, .bus, .shift, .line] s (takeStartUpBreak side pos sp s) :=
  (joinBreakList_frame _ _ s _ _).wide.next (countSide_frame _ _ _)

theorem countGovernor_frame : OnlyChanges [.speed] s (countGovernor s) := by
  unfold countGovernor
  split
  · exact setSpeed_frame s _
  · exact .refl _ _

theorem takeEndBreak_frame (sp : Spindle) :
    OnlyChanges [.spindles, .breakList, .breakSeq, .bus, .speed, .shift, .line] s (takeEndBreak side pos sp s) := by
  unfold takeEndBreak
  refine OnlyChanges.next (OnlyChanges.next ?_ (countSide_frame _ _ _)) (countGovernor_frame _)
  dsimp only
  split
  · split
    · exact (lockSpindle_frame _ _ s _ _).wide
    · exact (joinBreakList_frame _ _ s _ _).wide.next (raise_frame _ _)
  · exact (joinBreakList_frame _ _ s _ _).wide

theorem yarnFound_frame :
    OnlyChanges [.spindles, .breakList, .carriages, .shift, .bus, .line] s (yarnFound side pos s) := by
  unfold yarnFound
  split
  · exact .refl _ _
  · split
    · exact (writeSpindle_frame _ _ s _).wide.next (countSide_frame _ _ _)
    · exact (writeSpindle_frame _ _ s _).wide.next (overtakeOrder_frame _ _ _)
    all_goals exact .refl _ _

theorem trainNext_frame : OnlyChanges [.roving, .bus, .line] s (trainNext s) := by
  unfold trainNext
  split
  · exact (sendTrain_frame s _).wide
  · exact (sendTrain_frame s _).wide
  · split
    · exact (sendTrain_frame s _).wide
    · dsimp only
      split
      · exact (setRoving_frame s _).wide.next (sendTrain_frame _ _)
      · exact (setRoving_frame s _).wide.next (sendTrain_frame _ _)
      · exact (sendTrain_frame s _).wide.next (endRun_frame _ _)

theorem takeBack_frame (b : Bool) (x : SpRef) :
    OnlyChanges [.roving, .line] s (endingTest (returnToRovingList b x (emptySlot s))) :=
  ((emptySlot_frame s).wide.next (returnToRovingList_frame _ _ _)).next (endingTest_frame _)

theorem slotTimeout_frame : OnlyChanges [.roving, .line] s (slotTimeout s) := by
  unfold slotTimeout
  split
  · next x _ _ _ =>
    have h := ((emptySlot_frame s).wide (rs := [.roving, .line])).next (returnToRovingList_frame _ true x)
    dsimp only
    split
    · exact h.next (endRun_frame _ _)
    · exact h
  · exact .refl _ _

theorem replaceBobbin_frame (x : SpRef) :
    OnlyChanges [.spindles, .breakList, .breakSeq, .shift, .bus, .line] s (replaceBobbin x s) := by
  unfold replaceBobbin
  split
  · exact .refl _ _
  · next sp0 _ =>
    have h : OnlyChanges [.spindles, .breakList, .breakSeq, .shift, .bus, .line] s
        (if sp0.state = .running then split s else s) := by
      split
      · exact (split_frame s).wide
      · exact .refl _ _
    dsimp only
    refine OnlyChanges.next ?_ (countSide_frame _ _ _)
    split
    · exact h.next (joinBreakList_frame _ _ _ _ _)
    · exact h.next (joinBreakList_frame _ _ _ _ _)
    all_goals exact h.next (writeSpindle_frame _ _ _ _)

end

/-- Each operation stays within its parts. -/
theorem Op.frame {ps : List Part} {s t : State} (h : Op ps s t) : OnlyChanges ps s t := by
  cases h with
  | raise c => exact raise_frame _ _
  | clearClasses m => exact clearClasses_frame _ _
  | freeValue n => exact setFreeCount_frame _ _
  | context => exact setDoff_frame _ _
  | lengthTrim => exact takeLengthTrim_frame _ _
  | speedTrim => exact takeSpeedTrim_frame _ _
  | encoder => exact takeEncoderItems_frame _ _
  | item => exact setItems_frame _ _
  | sections => exact changeSections_frame _ _ _
  | stage => exact setArticles_frame _ _
  | request => exact setArticles_frame _ _
  | refuseExchange => exact refuseExchange_frame _ _ _
  | exchange => exact makeExchange_frame _ _ _
  | startUp => exact startUp_frame _
  | dispatch => exact dispatchTest_frame _ _
  | halt => exact haltFrame_frame _
  | enterDoffing => exact enterDoffing_frame _
  | stopByRequest => exact stopByRequest_frame _
  | abortDoff => exact abortDoff_frame _
  | failDoff => exact failDoff_frame _ _
  | completeDoff => exact completeDoff_frame _ _
  | startDoffer => exact startDoffer_frame _
  | dofferTimer => exact restartDofferTimer_frame _
  | sectionDone => exact sectionDone_frame _ _ _
  | dofferReady => exact setDoff_frame _ _
  | park => exact parkSpindle_frame _ _ _
  | unpark => exact unpark_frame _ _ _ _
  | release => exact joinBreakList_frame _ _ _ _ _
  | seed => exact seedRoving_frame _ _ _ _
  | hostHold => exact setHostHold_frame _ _
  | hostFree => exact modifyCarriage_frame _ _ _
  | home => exact startHoming_frame _ _
  | runStart => exact setRoving_frame _ _
  | runEnding => exact setRoving_frame _ _
  | runAborted => exact endRun_frame _ _
  | closeShift => exact closeShift_frame _ _ _
  | bus => exact setBus_frame _ _
  | arrives => exact carriageArrives_frame _ _
  | settle => exact settleAt_frame _ _ _ _
  | lose => exact loseCarriage_frame _ _
  | pieceDone => exact pieceDone_frame _ _ _
  | pieceMissed => exact pieceMissed_frame _ _ _
  | overtakenDone => exact overtakenDone_frame _ _ _ _
  | lateOutcome => exact lateOutcome_frame _ _ _ _
  | timeout => exact carriageTimeout_frame _ _ _
  | silent => exact carriageSilent_frame _ _
  | closeInterval => exact closeInterval_frame _ _ _
  | runOut => exact takeRunOut_frame _ _ _ _
  | startUpBreak => exact takeStartUpBreak_frame _ _ _ _
  | endBreak => exact takeEndBreak_frame _ _ _ _
  | yarnFound => exact yarnFound_frame _ _ _
  | trainNext => exact trainNext_frame _
  | takeBack => exact takeBack_frame _ _ _
  | slotTimeout => exact slotTimeout_frame _
  | replaceSlot =>
    exact ((emptySlot_frame _).wide.next (replaceBobbin_frame _ _)).next (endingTest_frame _)
  | replaceListed => exact (unlist_frame _ _).wide.next (replaceBobbin_frame _ _)
  | motionStops => exact setRoller_frame _ _
  | fill => exact recomputeFill_frame _
  | window => exact closeWindow_frame _
  | audit => exact rovingAudit_frame _
  | watch => exact endWatch_frame _

end Sys2Proof.Machine
end

