-- ==== Sys2Proof/Proofs/Events.lean ====
section
/-!
PROOFS. Each command as a succession of operations: the inversion of `exec` that the laws rest on, and O2.
-/
namespace Sys2Proof.Machine

-- One after another: each theorem as a task of its own takes a thread.
set_option Elab.async false

/-! ## Successions of operations -/

/-- A succession of operations. -/
def Ops : State → State → Prop := Relation.ReflTransGen fun s t => ∃ ps, Op ps s t

theorem Ops.refl (s : State) : Ops s s := Relation.ReflTransGen.refl

theorem Op.ops {ps : List Part} {s t : State} (h : Op ps s t) : Ops s t := Relation.ReflTransGen.single ⟨ps, h⟩

theorem Ops.trans {s t u : State} (h1 : Ops s t) (h2 : Ops t u) : Ops s u := Relation.ReflTransGen.trans h1 h2

theorem Ops.next {ps : List Part} {s t u : State} (h1 : Ops s t) (h2 : Op ps t u) : Ops s u := h1.trans h2.ops

/-- What each operation keeps, a succession keeps. -/
theorem Ops.keeps {P : State → Prop} (hop : ∀ {ps s t}, Op ps s t → P s → P t) {s t : State} (h : Ops s t)
    (hs : P s) : P t := by
  induction h with
  | refl => exact hs
  | tail _ hlast ih =>
    obtain ⟨ps, hlast⟩ := hlast
    exact hop hlast ih

/-! ## The station table -/

theorem Bus.Becomes.trans {a b c : Bus} (h1 : a.Becomes b) (h2 : b.Becomes c) : a.Becomes c :=
  ⟨fun side => (h2.1 side).trans (h1.1 side), fun h => h2.2 (h1.2 h)⟩

/-- A change outside the boards that leaves each link as it was, or fits it. -/
theorem Bus.becomes_of_links {b c : Bus} (hboards : c.boards = b.boards)
    (hcar : ∀ side, (b.carriages.get side).link.Fits → (c.carriages.get side).link.Fits)
    (hdoffer : b.doffer.link.Fits → c.doffer.link.Fits) (htrain : b.train.link.Fits → c.train.link.Fits) :
    b.Becomes c := by
  refine ⟨fun side => by rw [hboards], fun h side => ?_⟩
  obtain ⟨h1, h2, h3, h4⟩ := h side
  exact ⟨by rwa [hboards], hcar side h2, hdoffer h3, htrain h4⟩

/-- A machine station's entry replaced by one whose link fits. -/
theorem Bus.setMachine_becomes {b : Bus} {st : Station} {e e' : MachineEntry} (h : b.machine st = some e)
    (hl : e.link.Fits → e'.link.Fits) : b.Becomes (b.setMachine st e') := by
  cases st with
  | carriage side =>
    obtain rfl : b.carriages.get side = e := Option.some.inj h
    refine becomes_of_links rfl (fun sd => ?_) id id
    by_cases hsd : sd = side
    · subst hsd
      simpa [Bus.setMachine] using hl
    · simp [Bus.setMachine, Sides.get_set_other _ _ _ _ hsd]
  | doffer =>
    obtain rfl : b.doffer = e := Option.some.inj h
    exact becomes_of_links rfl (fun _ => id) hl id
  | train =>
    obtain rfl : b.train = e := Option.some.inj h
    exact becomes_of_links rfl (fun _ => id) id hl
  | board side sec => cases h

theorem Bus.mem_of_board {b : Bus} {side : Side} {sec : Nat} {e : BoardEntry} (h : b.board side sec = some e) :
    e ∈ b.boards.get side := by
  unfold Bus.board at h
  split at h
  · cases h
  · exact List.mem_of_getElem? h

/-- A board's entry replaced by one that fits. -/
theorem Bus.setBoard_becomes {b : Bus} {side : Side} {sec : Nat} {e e' : BoardEntry} (h : b.board side sec = some e)
    (hf : e.held.length = 48 ∧ e.carryPoint ≤ 48 ∧ e.link.Fits →
      e'.held.length = 48 ∧ e'.carryPoint ≤ 48 ∧ e'.link.Fits) :
    b.Becomes (b.setBoard side sec e') := by
  constructor
  · intro sd
    by_cases hsd : sd = side
    · subst hsd; simp [Bus.setBoard]
    · simp [Bus.setBoard, Sides.get_modify_other _ _ _ _ hsd]
  · intro hb sd
    obtain ⟨h1, h2⟩ := hb sd
    refine ⟨fun x hx => ?_, h2⟩
    by_cases hsd : sd = side
    · subst hsd
      simp only [Bus.setBoard, Sides.get_modify_same] at hx
      rcases List.mem_or_eq_of_mem_set hx with hx | rfl
      · exact h1 x hx
      · exact hf (h1 e (mem_of_board h))
    · simp only [Bus.setBoard, Sides.get_modify_other _ _ _ _ hsd] at hx
      exact h1 x hx

/-- The link fields of a station replaced by ones that fit. -/
theorem Bus.setLink_becomes {b : Bus} {st : Station} {l l' : Link} (h : b.link st = some l)
    (hl : l.Fits → l'.Fits) : b.Becomes (b.setLink st l') := by
  cases st with
  | board side sec =>
    simp only [Bus.link, Option.map_eq_some_iff] at h
    obtain ⟨e, he, rfl⟩ := h
    simp only [Bus.setLink, he]
    exact setBoard_becomes he fun hf => ⟨hf.1, hf.2.1, hl hf.2.2⟩
  | carriage side =>
    obtain rfl : (b.carriages.get side).link = l := Option.some.inj h
    exact setMachine_becomes (st := .carriage side) rfl hl
  | doffer =>
    obtain rfl : b.doffer.link = l := Option.some.inj h
    exact setMachine_becomes (st := .doffer) rfl hl
  | train =>
    obtain rfl : b.train.link = l := Option.some.inj h
    exact setMachine_becomes (st := .train) rfl hl

/-- The cycle and the open answer window are of no account for the entries. -/
theorem Bus.becomes_polls (b : Bus) (c : List Station) (m : Option PollMessage) :
    b.Becomes { b with cycle := c, awaiting := m } := becomes_of_links rfl (fun _ => id) id id

/-- An answered poll's entry fits: an answer that is not accepted repeats the turn that the entry holds (R165). -/
theorem Link.answered_fits (l : Link) (turn restart : Bool) : (l.answered turn restart).Fits := by
  unfold Link.answered
  split
  · simp [Link.Fits]
  · next hrepeat =>
    have hturn : l.turn = some turn := by
      simp only [Link.accepts, Bool.or_eq_true, not_or] at hrepeat
      simpa using hrepeat.2
    simp [Link.Fits, hturn]

/-- The positions that a board holds clamp commands for are places of its list. -/
theorem heldFrom_bounds {pos : Nat} {l : List (Option Clamp)} {p : Nat × Clamp} (h : p ∈ heldFrom pos l) :
    pos ≤ p.1 ∧ p.1 < pos + l.length := by
  induction l generalizing pos with
  | nil => simp [heldFrom] at h
  | cons x xs ih =>
    cases x with
    | none =>
      have := ih (by simpa [heldFrom] using h)
      simp only [List.length_cons]
      omega
    | some c =>
      simp only [heldFrom, List.mem_cons] at h
      rcases h with rfl | h
      · simp
      · have := ih h
        simp only [List.length_cons]
        omega

theorem clampsToCarry_bounds {e : BoardEntry} (he : e.held.length = 48) {p : Nat × Clamp}
    (h : p ∈ clampsToCarry e) : p.1 ≤ 48 := by
  unfold clampsToCarry at h
  have hmem := List.mem_of_mem_take h
  simp only [List.mem_append, List.mem_filter] at hmem
  have : p ∈ heldFrom 1 e.held := by rcases hmem with h | h <;> exact h.1
  have := heldFrom_bounds this
  omega

/-- A polled board's entry fits: the carry point is a position carried, or stays. -/
theorem pollBoard_fits (st : Station) {e : BoardEntry} (h : e.held.length = 48 ∧ e.carryPoint ≤ 48 ∧ e.link.Fits) :
    (pollBoard st e).1.held.length = 48 ∧ (pollBoard st e).1.carryPoint ≤ 48 ∧ (pollBoard st e).1.link.Fits := by
  obtain ⟨h1, h2, h3⟩ := h
  refine ⟨h1, ?_, h3⟩
  simp only [pollBoard]
  cases hlast : (if e.link.status = .silent then [] else clampsToCarry e).getLast? with
  | none => simpa using h2
  | some p =>
    have hmem := List.mem_of_getLast? hlast
    split at hmem
    · cases hmem
    · simpa using clampsToCarry_bounds h1 hmem

theorem pollStation_ops (st : Station) (s : State) : Ops s (pollStation st s) := by
  have machine (st : Station) (e : MachineEntry) (h : s.bus.machine st = some e) :
      Ops s (s.setBus { s.bus.setMachine st (pollMachine st e).1 with awaiting := some (pollMachine st e).2 }) := by
    refine (Op.bus _ s ((Bus.setMachine_becomes h ?_).trans (Bus.becomes_polls _ _ _))).ops
    intro hl
    simp only [pollMachine, MachineEntry.carry]
    split <;> exact hl
  cases st with
  | board side sec =>
    simp only [pollStation]
    split
    · next e he =>
      exact (Op.bus _ s ((Bus.setBoard_becomes he (pollBoard_fits (.board side sec))).trans
        (Bus.becomes_polls _ _ _))).ops
    · exact .refl _
  | carriage side => exact machine (.carriage side) _ rfl
  | doffer => exact machine .doffer _ rfl
  | train => exact machine .train _ rfl

/-! ## Missed polls and answers -/

theorem Bus.emptyQueue_becomes (b : Bus) (side : Side) :
    b.Becomes { b with carriages := b.carriages.modify side fun e => { e with queue := [] } } :=
  setMachine_becomes (st := .carriage side) rfl id

theorem missPoll_ops (st : Station) (s : State) : Ops s (missPoll st s) := by
  unfold missPoll
  split
  · exact .refl _
  · next l hl =>
    split
    · exact .refl _
    · next hsilent =>
      split
      · next hmiss =>
        refine (Op.bus _ s (Bus.setLink_becomes hl fun h => ?_)).ops
        obtain ⟨-, -, h3⟩ := h
        refine ⟨⟨fun e => absurd e hsilent, fun e => ?_⟩, ?_, h3⟩ <;> (dsimp only at *; omega)
      · have h := ((Op.bus (s.bus.setLink st { l with miss := 3, status := .silent, turn := none }) s
          (Bus.setLink_becomes hl fun _ => by simp [Link.Fits])).ops).next (Op.raise .lineFault _)
        unfold ownerToldSilent
        split
        · next side =>
          exact (h.next (Op.bus _ _ (Bus.emptyQueue_becomes _ side))).next (Op.silent side _)
        · exact h.next (Op.dofferReady false _)
        · exact h
        · exact h

theorem carriagePieced_ops (side : Side) (pos : Nat) (ok : Bool) (s : State) :
    Ops s (carriagePieced side pos ok s) := by
  unfold carriagePieced
  dsimp only
  split
  · next h =>
    split
    · exact ((Op.pieceDone side pos s h.1 h.2).ops).next (Op.dispatch side _)
    · exact ((Op.pieceMissed side pos s h.1 h.2).ops).next (Op.dispatch side _)
  split
  · next h => exact ((Op.overtakenDone side pos ok s h.1 h.2).ops).next (Op.dispatch side _)
  split
  · exact (Op.lateOutcome side pos ok s).ops
  · exact .refl _

/-- A carriage that settles where it is keeps its direction. -/
theorem carriageSettles_eq_settleAt (side : Side) (x : Option Nat) (s : State) :
    carriageSettles side x s = settleAt side x (s.carriages.get side).d s := by
  cases side <;> rfl

theorem carriageReport_ops (side : Side) (r : CarriageReport) (s : State) : Ops s (carriageReport side r s) := by
  cases r with
  | present => exact (Op.arrives side s).ops
  | homed pos =>
    simp only [carriageReport, carriageHomed]
    split
    · next h =>
      split
      · exact ((Op.settle side (some pos) .up s (.inl h) (.inl rfl)).ops).next (Op.dispatch side _)
      · exact (Op.lose side s (.inl h)).ops
    · exact .refl _
  | arrived pos =>
    simp only [carriageReport, carriageArrived]
    split
    · next h _ =>
      split
      · rw [carriageSettles_eq_settleAt]
        exact ((Op.settle side (some pos) _ s (.inr h) (.inl rfl)).ops).next (Op.dispatch side _)
      · exact (Op.lose side s (.inr h)).ops
    · exact .refl _
  | pieced pos ok => exact carriagePieced_ops side pos ok s
  | ready =>
    simp only [carriageReport, carriageReady]
    split
    · next h =>
      rw [carriageSettles_eq_settleAt]
      exact ((Op.settle side _ _ s (.inr h.1) (.inr ⟨h.1, rfl⟩)).ops).next (Op.dispatch side _)
    · exact .refl _

theorem dofferReport_ops (r : DofferReport) (s : State) : Ops s (dofferReport r s) := by
  unfold dofferReport
  split
  · split
    · exact (Op.dofferReady true s).ops
    · exact .refl _
  · next h =>
    split
    · exact (Op.startDoffer s h).ops
    · exact .refl _
  · next h =>
    split
    · exact (Op.dofferTimer s h).ops
    · exact (Op.dofferTimer s h).ops
    · split
      · exact (Op.sectionDone _ _ s h).ops
      · exact .refl _
    · exact .refl _
    · exact (Op.completeDoff false s (.inr h)).ops
    · split
      · exact (Op.failDoff _ s h).ops
      · exact .refl _

theorem trainReport_ops (r : TrainReport) (s : State) : Ops s (trainReport r s) := by
  cases r with
  | next => exact (Op.trainNext s).ops
  | replaced side pos =>
    simp only [trainReport, trainReplaced]
    split
    · next h => exact ((Op.replaceSlot _ s h).ops).next (Op.dispatch side _)
    · next hn =>
      split
      · next h => exact ((Op.replaceListed _ s hn h).ops).next (Op.dispatch side _)
      · exact .refl _
  | skipped side pos =>
    simp only [trainReport, trainSkipped]
    split
    · next h => exact (Op.takeBack false _ s h).ops
    · exact .refl _
  | present =>
    simp only [trainReport, trainPresent]
    split
    · exact .refl _
    · next x h => exact (Op.takeBack true x s h).ops

theorem OnlyChanges.flmm {ps : List Part} {s t : State} (h : OnlyChanges ps s t) (hp : .roller ∉ ps := by decide) :
    t.flmm = s.flmm := by
  unfold State.flmm
  rw [show t.roller = s.roller from h .roller hp]

theorem closeInterval_of_running {side : Side} {pos : Nat} {s : State} {sp : Spindle}
    (h : s.spindle side pos = some sp) (hst : sp.state = .running) :
    closeInterval side pos s =
      creditRun side (sp.openLength s.flmm) (writeSpindle side pos (sp.close s.articles.active s.flmm) s) := by
  simp [closeInterval, h, hst]

/-- The closing of a RUNNING spindle's interval leaves the closed record with its clamp OPEN (R25, R23). -/
theorem closeInterval_closedAt {side : Side} {pos : Nat} {s : State} {sp : Spindle}
    (h : s.spindle side pos = some sp) (hst : sp.state = .running) :
    (sp.close s.articles.active s.flmm).ClosedAt side pos (closeInterval side pos s) := by
  have hflmm : (closeInterval side pos s).flmm = s.flmm := (closeInterval_frame side pos s).flmm
  refine ⟨?_, by simp [Spindle.close, hst], by simp [Spindle.close, hst, hflmm]⟩
  have hwrite := writeSpindle_same side pos (sp.close s.articles.active s.flmm) s sp h
  have hclamp : (sp.close s.articles.active s.flmm).state.clamp = .opened := by simp [Spindle.close, hst, SpState.clamp]
  rw [hclamp] at hwrite
  rw [closeInterval_of_running h hst]
  exact hwrite

theorem yarnLost_ops (side : Side) (pos : Nat) (s : State) : Ops s (yarnLost side pos s) := by
  unfold yarnLost
  split
  · exact .refl _
  · next sp h =>
    split
    · next hst =>
      have hclosed := closeInterval_closedAt h hst
      have frame := closeInterval_frame side pos s
      have hart : (closeInterval side pos s).articles = s.articles := frame .articles (by decide)
      dsimp only
      rw [hart, frame.flmm]
      have hops := (Op.closeInterval side pos s).ops
      split
      · exact hops.next (Op.runOut side pos _ _ hclosed)
      split
      · exact (hops.next (Op.startUpBreak side pos _ _ hclosed)).next (Op.dispatch side _)
      · exact (hops.next (Op.endBreak side pos _ _ hclosed)).next (Op.dispatch side _)
    · exact .refl _

theorem boardItem_ops (side : Side) (sec : Nat) (i : BoardItem) (s : State) : Ops s (boardItem side sec s i) := by
  cases i with
  | yarnLost p =>
    simp only [boardItem]
    split
    · exact yarnLost_ops _ _ _
    · exact .refl _
  | yarnFound p =>
    simp only [boardItem]
    split
    · exact (Op.yarnFound _ _ _).ops
    · exact .refl _
  | clampAck p c =>
    simp only [boardItem, clampAck]
    split
    · split
      · next e he =>
        split
        · exact (Op.bus _ s (Bus.setBoard_becomes he fun hf => by simpa using hf)).ops
        · exact .refl _
      · exact .refl _
    · exact .refl _

theorem Ops.foldl {α : Type} {f : State → α → State} (h : ∀ s x, Ops s (f s x)) (l : List α) (s : State) :
    Ops s (l.foldl f s) := by
  induction l generalizing s with
  | nil => exact .refl _
  | cons x l ih => exact (h s x).trans (ih _)

theorem takeAnswer_ops (a : Answer) (s : State) : Ops s (takeAnswer a s) := by
  unfold takeAnswer
  split
  · next side receipt report _ =>
    have hbus : Ops s (s.setBus (s.bus.setMachine (.carriage side)
        ((s.bus.carriages.get side).answered a.turn a.restart receipt))) :=
      (Op.bus _ s (Bus.setMachine_becomes (st := .carriage side) rfl fun _ => Link.answered_fits _ _ _)).ops
    have arrives (u : State) (p : Prop) [Decidable p] (h : Ops s u) :
        Ops s (if p then carriageArrives side u else u) := by
      split
      · exact h.next (Op.arrives side u)
      · exact h
    unfold carriageAnswer
    dsimp only
    split
    · split
      · exact arrives _ _ (hbus.trans (carriageReport_ops _ _ _))
      · exact arrives _ _ hbus
    · exact arrives _ _ hbus
  · next receipt report _ =>
    have hbus : Ops s (s.setBus { s.bus with doffer := s.bus.doffer.answered a.turn a.restart receipt }) :=
      (Op.bus _ s (Bus.setMachine_becomes (st := .doffer) rfl fun _ => Link.answered_fits _ _ _)).ops
    unfold dofferAnswer
    dsimp only
    split
    · split
      · exact hbus.trans (dofferReport_ops _ _)
      · exact hbus
    · exact hbus
  · next receipt report _ =>
    have hbus : Ops s (s.setBus { s.bus with train := s.bus.train.answered a.turn a.restart receipt }) :=
      (Op.bus _ s (Bus.setMachine_becomes (st := .train) rfl fun _ => Link.answered_fits _ _ _)).ops
    unfold trainAnswer
    dsimp only
    split
    · split
      · exact hbus.trans (trainReport_ops _ _)
      · exact hbus
    · exact hbus
  · next side sec items _ =>
    unfold boardAnswer
    split
    · exact .refl _
    · next e he =>
      have hbus : Ops s (s.setBus (s.bus.setBoard side sec (e.answered a (sectionClamps s side sec)))) := by
        refine (Op.bus _ s (Bus.setBoard_becomes he fun hf => ?_)).ops
        obtain ⟨h1, h2, -⟩ := hf
        unfold BoardEntry.answered
        dsimp only
        split
        · exact ⟨by simp [sectionClamps], by simp, Link.answered_fits _ _ _⟩
        · exact ⟨h1, h2, Link.answered_fits _ _ _⟩
      dsimp only
      split
      · exact hbus.trans (Ops.foldl (fun s i => boardItem_ops side sec i s) _ _)
      · exact hbus

/-! ## An advance of FLmm -/

/-- The readers other than the watch leave START_UP to it. -/
theorem runReader_startUp {s : State} {r : Reader} (hr : r ≠ .watch) (h : s.doff.frame = .startUp) :
    (runReader s r).doff.frame = .startUp := by
  have hdoff : (runReader s r).doff = s.doff := by
    cases r with
    | fill =>
      have hfill : (recomputeFill s).doff = s.doff := by
        unfold recomputeFill
        split
        · rfl
        · have hjudge : judgeFill (s.setSpeed { s.speed with fill := fillOf s }) =
              s.setSpeed { s.speed with fill := fillOf s } := by simp [judgeFill, h]
          rw [hjudge]
          exact recomputeSetPoint_frame _ .doff (by decide)
      exact (dispatchOnEntry_frame _ _ .doff (by decide)).trans hfill
    | window => exact closeWindow_frame s .doff (by decide)
    | audit => exact rovingAudit_frame s .doff (by decide)
    | watch => exact absurd rfl hr
  rw [hdoff, h]

theorem dispatchOnEntry_ops (f : FrameState) (s : State) : Ops s (dispatchOnEntry f s) := by
  unfold dispatchOnEntry
  split
  · exact .refl _
  · exact ((Op.dispatch .a s).ops).next (Op.dispatch .b _)

theorem runReader_ops (s : State) (r : Reader) (h : r = .watch → s.doff.frame = .startUp) :
    Ops s (runReader s r) := by
  cases r with
  | fill => exact ((Op.fill s).ops).trans (dispatchOnEntry_ops _ _)
  | window => exact (Op.window s).ops
  | audit => exact (Op.audit s).ops
  | watch => exact ((Op.watch s (h rfl)).ops).trans (dispatchOnEntry_ops _ _)

/-- The watch acts once, and finds the frame in START_UP whatever has acted before it. -/
theorem readers_ops (order : List Reader) (s : State) (hn : order.Nodup)
    (h : .watch ∈ order → s.doff.frame = .startUp) : Ops s (order.foldl runReader s) := by
  induction order generalizing s with
  | nil => exact .refl _
  | cons r rest ih =>
    obtain ⟨hr, hrest⟩ := List.nodup_cons.1 hn
    refine (runReader_ops s r fun e => h (e ▸ List.mem_cons_self)).trans (ih _ hrest fun hw => ?_)
    exact runReader_startUp (fun e => hr (e ▸ hw)) (h (List.mem_cons_of_mem r hw))

/-- The readers that are due act once each, in some order (R3). -/
theorem advance_order (old : Nat) (s : State) :
    ∃ order : List Reader, order.Nodup ∧ (∀ r, r ∈ order ↔ readerDue old s r = true) ∧
      advance old s = order.foldl runReader (s.setFreeCount (s.freeCount + 1)) := by
  have hperm := pickOrder_perm 4 (Config.readerOrder s.freeCount)
    ([Reader.fill, .window, .audit, .watch].filter (readerDue old s)) (List.length_filter_le _ _)
  refine ⟨_, hperm.nodup_iff.2 (List.Nodup.filter _ (by decide)), fun r => ?_, rfl⟩
  rw [hperm.mem_iff, List.mem_filter]
  exact and_iff_right (by cases r <;> decide)

theorem advance_ops (old : Nat) (s : State) : Ops s (advance old s) := by
  obtain ⟨order, hn, hmem, heq⟩ := advance_order old s
  rw [heq]
  refine ((Op.freeValue _ s).ops).trans (readers_ops order _ hn fun hw => ?_)
  have hdue := (hmem .watch).1 hw
  simp only [readerDue, watchDone, Bool.and_eq_true, beq_iff_eq] at hdue
  exact hdue.1

end Sys2Proof.Machine
end

