-- ==== Sys2Proof/Proofs/Commands.lean ====
section
/-!
PROOFS. What each request's owner does as a succession of operations, what every command can do (`exec_happens`), and
that every command ends in a next state (O2).
-/
namespace Sys2Proof.Machine

-- One after another: each theorem as a task of its own takes a thread.
set_option Elab.async false

/-! ## The owners of the requests -/

theorem setNormalMask_ops (m : ClassSet) (s : State) : Ops s (setNormalMask m s).state := by
  unfold setNormalMask
  split
  · next c hc => exact (Op.context s.doff.effective (some { c with mask := m }) s.doff.doffMask s (by simp [hc])).ops
  · exact (Op.context { s.doff.effective with mask := m } s.doff.saved s.doff.doffMask s rfl).ops

theorem replaceDoffMask_ops (m : ClassSet) (s : State) : Ops s (replaceDoffMask m s).state :=
  (Op.context s.doff.effective s.doff.saved m s rfl).ops

/-- The trims' ranges (R191). -/
theorem configRange_lengthTrim {v : Nat} (h : configRange 0x05 v = true) : -64 ≤ signed32 v ∧ signed32 v ≤ 63 := by
  simpa [configRange] using h

theorem configRange_speedTrim {v : Nat} (h : configRange 0x17 v = true) : -16 ≤ signed32 v ∧ signed32 v ≤ 15 := by
  simpa [configRange] using h

theorem configRange_sections {code v : Nat} (hc : code = 0x01 ∨ code = 0x02) (h : configRange code v = true) :
    1 ≤ v ∧ v ≤ 20 := by
  rcases hc with rfl | rfl <;> simpa [configRange] using h

/-- The item codes: the two section counts, the two encoder items, the two trims, the plain items and the two masks
(R191). -/
theorem configCode_cases {code : Nat} (h : isConfigCode code = true) :
    code = 0x01 ∨ code = 0x02 ∨ (code = 0x03 ∨ code = 0x04) ∨ code = 0x05 ∨ code = 0x17 ∨ plainItem code ∨
      code = 0x18 ∨ code = 0x19 := by
  simp only [isConfigCode, Bool.and_eq_true, decide_eq_true_eq] at h
  unfold plainItem
  omega

theorem takeItem_plain {code : Nat} (h : plainItem code) (v : Nat) (s : State) :
    takeItem code v s = Handled.ok (s.setItems (s.items.put code v)) [] := by
  unfold plainItem at h
  unfold takeItem
  split <;> first | omega | rfl

/-- An accepted new value is one operation of the block that the item belongs to (R196). -/
theorem takeItem_ops {code v : Nat} {s : State} (hcode : isConfigCode code = true)
    (hstop : stoppedOnly code = true → s.doff.frame = .stopped) (hrange : configRange code v = true)
    (hcross : crossCheck code v s = true) (h18 : code ≠ 0x18) (h19 : code ≠ 0x19)
    (hp : s.phase = .running) : Ops s (takeItem code v s).state := by
  rcases configCode_cases hcode with rfl | rfl | h | rfl | rfl | h | h | h
  · exact (Op.sections .a v s (configRange_sections (.inl rfl) hrange) (hstop rfl) hp).ops
  · exact (Op.sections .b v s (configRange_sections (.inr rfl) hrange) (hstop rfl) hp).ops
  · have hop := (Op.encoder code v s h hrange).ops
    rcases h with rfl | rfl <;> exact hop
  · exact (Op.lengthTrim _ s (configRange_lengthTrim hrange)).ops
  · exact (Op.speedTrim _ s (configRange_speedTrim hrange)).ops
  · rw [takeItem_plain h]
    exact (Op.item code v s h hrange hcross).ops
  · exact absurd h h18
  · exact absurd h h19

theorem configSet_ops (body : List Byte) (s : State) (hp : s.phase = .running) : Ops s (configSet body s).state := by
  unfold configSet
  dsimp only
  generalize (byteAt body 0).toNat = code
  generalize numAt body 1 4 = v
  split_ifs with hcode hstop hrange hcross h18 h19 hsame
  · exact .refl _
  · exact .refl _
  · exact .refl _
  · exact .refl _
  · exact setNormalMask_ops _ _
  · exact replaceDoffMask_ops _ _
  · exact .refl _
  · refine takeItem_ops (by simpa using hcode) (fun h => ?_) (by simpa using hrange) (by simpa using hcross) h18 h19 hp
    simpa [h] using hstop

theorem attemptExchange_ops (o : Occasion) (s : State) : Ops s (attemptExchange o s) := by
  unfold attemptExchange exchangeCheck
  split
  · next a h =>
    split at h
    · cases h
    · next a' hs =>
      split at h
      · cases h
        exact (Op.exchange a o s hs).ops
      · cases h
  · exact (Op.refuseExchange _ o s).ops

theorem articleExchange_ops (body : List Byte) (s : State) : Ops s (articleExchange body s).state := by
  have h := attemptExchange_ops .request s
  unfold attemptExchange at h
  unfold articleExchange
  split
  · split <;> rename_i heq <;> rw [heq] at h <;> exact h
  · exact (Op.request true s).ops

theorem articleStage_ops (body : List Byte) (s : State) : Ops s (articleStage body s).state := by
  unfold articleStage
  dsimp only
  split
  · next h => exact (Op.stage _ s ⟨by simp [articleOfBody, Article.ofFields], h⟩).ops
  · exact .refl _

theorem dispatchBoth_ops (s : State) : Ops s (dispatchBoth s) := ((Op.dispatch .a s).ops).next (Op.dispatch .b _)

theorem frameRun_ops (body : List Byte) (s : State) : Ops s (frameRun body s).state := by
  unfold frameRun
  split
  · next h => exact ((Op.startUp s (.inl h)).ops).trans (dispatchBoth_ops _)
  · next h => exact ((Op.startUp s (.inr (.inl h))).ops).trans (dispatchBoth_ops _)
  · next h => exact ((Op.startUp s (.inr (.inr h))).ops).trans (dispatchBoth_ops _)
  all_goals exact .refl _

theorem frameHalt_ops (body : List Byte) (s : State) : Ops s (frameHalt body s).state := by
  unfold frameHalt
  split
  · next h => exact (Op.halt s (by rw [h]; rfl)).ops
  · next h => exact (Op.halt s (by rw [h]; rfl)).ops
  · next h => exact (Op.halt s (by rw [h]; rfl)).ops
  · next h => exact (Op.enterDoffing s h).ops
  all_goals exact .refl _

theorem doffNow_ops (body : List Byte) (s : State) : Ops s (doffNow body s).state := by
  unfold doffNow
  split
  · next h => exact (Op.stopByRequest s (.inl h)).ops
  · next h => exact (Op.stopByRequest s (.inr (.inl h))).ops
  · next h => exact (Op.stopByRequest s (.inr (.inr h))).ops
  all_goals exact .refl _

theorem doffAbort_ops (body : List Byte) (s : State) : Ops s (doffAbort body s).state := by
  unfold doffAbort
  split
  · next h => exact (Op.abortDoff s (.inl h)).ops
  · next h => exact (Op.abortDoff s (.inr h)).ops
  all_goals exact .refl _

theorem doffManualDone_ops (body : List Byte) (s : State) : Ops s (doffManualDone body s).state := by
  unfold doffManualDone
  split
  · next h => exact (Op.completeDoff true s (.inl h)).ops
  all_goals exact .refl _

theorem namedSpindle_eq_some {body : List Byte} {s : State} {side : Side} {pos : Nat} {sp : Spindle}
    (h : namedSpindle body s = some (side, pos, sp)) :
    sideAt body 0 = some side ∧ pos = numAt body 1 2 ∧ s.spindle side pos = some sp := by
  unfold namedSpindle at h
  split at h
  · next sd hsd =>
    simp only [Option.map_eq_some_iff, Prod.mk.injEq] at h
    obtain ⟨sp', hsp, rfl, rfl, rfl⟩ := h
    exact ⟨hsd, rfl, hsp⟩
  · cases h

theorem spindlePark_ops (body : List Byte) (s : State) : Ops s (spindlePark body s).state := by
  unfold spindlePark
  split
  · exact .refl _
  · next side pos sp h =>
    obtain ⟨-, -, hsp⟩ := namedSpindle_eq_some h
    dsimp only
    split
    · exact .refl _
    · next hst => exact (Op.park side pos sp s hsp hst).ops

theorem spindleUnpark_ops (body : List Byte) (s : State) : Ops s (spindleUnpark body s).state := by
  unfold spindleUnpark
  split
  · exact .refl _
  · next side pos sp h =>
    obtain ⟨-, -, hsp⟩ := namedSpindle_eq_some h
    split
    · next hst => exact ((Op.unpark side pos sp s hsp hst).ops).next (Op.dispatch side _)
    · exact .refl _

theorem spindleRelease_ops (body : List Byte) (s : State) : Ops s (spindleRelease body s).state := by
  unfold spindleRelease
  split
  · exact .refl _
  · next side pos sp h =>
    obtain ⟨-, -, hsp⟩ := namedSpindle_eq_some h
    split
    · next hst => exact ((Op.release side pos sp s hsp hst).ops).next (Op.dispatch side _)
    · exact .refl _

theorem seedRoving_fold_ops (side : Side) (metres : Nat) (l : List Nat) (s : State)
    (h : metres ≤ s.articles.active.bobbin) : Ops s (l.foldl (seedRoving side metres) s) := by
  induction l generalizing s with
  | nil => exact .refl _
  | cons pos l ih =>
    have hart : (seedRoving side metres s pos).articles = s.articles :=
      seedRoving_frame side pos s metres .articles (by decide)
    exact ((Op.seed side pos metres s h).ops).trans (ih _ (by rwa [hart]))

theorem setRoving_ops (body : List Byte) (s : State) : Ops s (setRoving body s).state := by
  unfold setRoving
  dsimp only
  split
  · exact .refl _
  · split
    · next h => exact seedRoving_fold_ops _ _ _ s h.2.2.2
    · exact .refl _

theorem carriageHold_ops (body : List Byte) (s : State) : Ops s (carriageHold body s).state := by
  unfold carriageHold
  split
  · exact (Op.hostHold _ s).ops
  · exact .refl _

theorem carriageRelease_ops (body : List Byte) (s : State) : Ops s (carriageRelease body s).state := by
  unfold carriageRelease
  split
  · exact ((Op.hostFree _ s).ops).next (Op.dispatch _ _)
  · exact .refl _

theorem carriageReset_ops (body : List Byte) (s : State) : Ops s (carriageReset body s).state := by
  unfold carriageReset
  split
  · split
    · next h => exact (Op.home _ s (.inl h)).ops
    · next h => exact (Op.home _ s (.inr h)).ops
    all_goals exact .refl _
  · exact .refl _

theorem rovingRunStart_ops (body : List Byte) (s : State) : Ops s (rovingRunStart body s).state := by
  unfold rovingRunStart
  dsimp only
  split_ifs with hn hr hp
  · exact .refl _
  · exact .refl _
  · exact .refl _
  · exact (Op.runStart _ s (by omega) (not_not.1 hr)).ops

theorem rovingRunAbort_ops (body : List Byte) (s : State) : Ops s (rovingRunAbort body s).state := by
  unfold rovingRunAbort
  split
  · exact .refl _
  · exact .refl _
  · next h =>
    dsimp only
    split
    · next hs => exact (Op.runEnding s h hs).ops
    · next hs => exact (Op.runAborted s h (by simpa using hs)).ops

theorem clampTrim_bounds {lo hi v : Int} (h : lo ≤ hi) : lo ≤ (clampTrim lo hi v).1 ∧ (clampTrim lo hi v).1 ≤ hi := by
  unfold clampTrim
  split_ifs <;> constructor <;> (dsimp only; omega)

theorem ackEvents_ops (body : List Byte) (s : State) : Ops s (ackEvents body s).state := by
  unfold ackEvents
  split
  · exact (Op.clearClasses _ s).ops
  · exact .refl _

theorem setMask_ops (body : List Byte) (s : State) : Ops s (setMask body s).state := by
  unfold setMask
  split
  · exact setNormalMask_ops _ s
  · exact .refl _

theorem setDoffMask_ops (body : List Byte) (s : State) : Ops s (setDoffMask body s).state := by
  unfold setDoffMask
  split
  · exact replaceDoffMask_ops _ s
  · exact .refl _

/-- The judgement of a request: before load end STARTING, after it what the owner does or a refusal (R180). -/
theorem judgeRequest_ops {r : HeldRequest} {owner : List Byte → State → Handled}
    (h : ∀ s, s.phase = .running → Ops s (owner r.body s).state) (s : State) : Ops s (judgeRequest r owner s).state := by
  unfold judgeRequest
  split
  · exact .refl _
  · next hp =>
    split
    · exact .refl _
    · split
      · exact h s (not_not.1 hp)
      · exact .refl _

theorem judgeRequest_starting {r : HeldRequest} {owner : List Byte → State → Handled} {s : State}
    (h : s.phase ≠ .running) : (judgeRequest r owner s).result = .starting := by
  simp [judgeRequest, h, Handled.refuse]

/-! ## What a command can do -/

/-- The pulse as a whole: the count, MOTION, and the readers of an advance (R2, R3, R6). -/
def pulsed (s : State) : State :=
  let moved := if (!s.roller.winding && s.doff.frame.motionNotExpected) = true then raise .motion (countPulse s)
    else countPulse s
  if s.flmm < moved.flmm then advance s.flmm moved else moved

theorem pulsed_ops (s : State) : Ops (countPulse s) (pulsed s) := by
  have moved : Ops (countPulse s)
      (if (!s.roller.winding && s.doff.frame.motionNotExpected) = true then raise .motion (countPulse s)
        else countPulse s) := by
    split
    · exact (Op.raise .motion _).ops
    · exact .refl _
  unfold pulsed
  dsimp only
  generalize (if (!s.roller.winding && s.doff.frame.motionNotExpected) = true then _ else countPulse s) = u at moved ⊢
  split
  · exact moved.trans (advance_ops _ _)
  · exact moved

/-- What a command can do to the part: a succession of operations of its blocks, and the events of reset, loading, the
host line, the front rollers and the soft reset. -/
inductive Happens : State → State → Prop
  | ops {s t} (h : Ops s t) : Happens s t
  | powerOn (s : State) : Happens s ((State.reset.setPending s.pending).setFreeCount s.freeCount)
  | release (rate) (s : State) (h : s.phase = .inReset) :
      Happens s (((s.setPhase .loading).setLine { s.line with rx := .hunting, rate := rate }).setLoader
        { s.loader with stage := .reading, index := 0, lastCode := none, applied := [] })
  | record (read) (s : State) (hp : s.phase = .loading) (hs : s.loader.stage = .reading) :
      Happens s (s.setLoader (s.loader.take read))
  | loadEnd (o i) (s : State) (hp : s.phase = .loading) (hs : s.loader.stage = .stopped o i) :
      Happens s (formedState s)
  | pulse (s : State) (hp : s.phase = .running) (h : Ops (countPulse s) (pulsed s)) : Happens s (pulsed s)
  | receive (bytes : List LineByte) (s) : Happens s (bytes.foldl receiveByte s)
  | late (bytes) (s : State) (h : s.line.rx = .collecting bytes) :
      Happens s (discard .late (s.setLine { s.line with rx := .hunting }))
  | replySent (due : Bool) (r) (s : State) (h : s.line.tx = some r) (hdue : due = true → r.result = .ok) :
      Happens s (s.setLine { s.line with tx := none, holding := s.line.holding.tail, resetDue := due })
  | reply (r : HeldRequest) (h : Handled) (s : State) (hcan : canTake r s = true)
      (hops : Ops (holdRequest r s) h.state) (hres : s.phase ≠ .running → h.result = .starting) :
      Happens s (beginReply r.kind h)
  | softReset (s : State) (h : s.line.resetDue = true) : Happens s (softReset s)

theorem takeRequest_happens {r : HeldRequest} {owner : List Byte → State → Handled}
    (h : ∀ s, s.phase = .running → Ops s (owner r.body s).state) (s : State) : Happens s (takeRequest r.kind r.body owner s) := by
  unfold takeRequest
  dsimp only
  split
  · next hcan =>
    exact .reply r _ s hcan (judgeRequest_ops h _) fun hp => judgeRequest_starting (by simpa using hp)
  · exact .ops (.refl s)

/-- A command that stands for a request is taken as that request, by one owner. -/
theorem exec_takeRequest {i : Instr} {r : HeldRequest} (h : requestOf i = some r) :
    ∃ owner : List Byte → State → Handled, (∀ s, s.phase = .running → Ops s (owner r.body s).state) ∧
      ∀ s, exec i s = .next (takeRequest r.kind r.body owner s) := by
  have always {owner : List Byte → State → Handled} (h : ∀ s, Ops s (owner r.body s).state) (s : State)
      (_ : s.phase = .running) : Ops s (owner r.body s).state := h s
  cases i <;> simp only [requestOf, Option.some.injEq, reduceCtorEq, Option.ite_none_right_eq_some] at h
  case unknownKind kind body =>
    obtain ⟨hk, rfl⟩ := h
    exact ⟨fun _ s => Handled.refuse s .unknownKind, fun s _ => .refl s, fun s => by
      simp only [exec, execUnknownKind, hk, if_true]⟩
  all_goals subst h
  case ackEvents => exact ⟨_, always (ackEvents_ops _), fun _ => rfl⟩
  case setMask => exact ⟨_, always (setMask_ops _), fun _ => rfl⟩
  case setDoffMask => exact ⟨_, always (setDoffMask_ops _), fun _ => rfl⟩
  case configSet | configSetSections | configSetEncoder | configSetLengthTrim | configSetSpeedTrim |
      configSetAttnMask | configSetDoffMask => exact ⟨_, configSet_ops _, fun _ => rfl⟩
  case articleStage => exact ⟨_, always (articleStage_ops _), fun _ => rfl⟩
  case articleExchange => exact ⟨_, always (articleExchange_ops _), fun _ => rfl⟩
  case frameRun => exact ⟨_, always (frameRun_ops _), fun _ => rfl⟩
  case frameHalt => exact ⟨_, always (frameHalt_ops _), fun _ => rfl⟩
  case doffNow => exact ⟨_, always (doffNow_ops _), fun _ => rfl⟩
  case doffAbort => exact ⟨_, always (doffAbort_ops _), fun _ => rfl⟩
  case doffManualDone => exact ⟨_, always (doffManualDone_ops _), fun _ => rfl⟩
  case doffGet => exact ⟨doffGet, fun s _ => (Op.freeValue _ s).ops, fun _ => rfl⟩
  case spindlePark => exact ⟨_, always (spindlePark_ops _), fun _ => rfl⟩
  case spindleUnpark => exact ⟨_, always (spindleUnpark_ops _), fun _ => rfl⟩
  case spindleRelease => exact ⟨_, always (spindleRelease_ops _), fun _ => rfl⟩
  case setRoving => exact ⟨_, always (setRoving_ops _), fun _ => rfl⟩
  case carriageHold => exact ⟨_, always (carriageHold_ops _), fun _ => rfl⟩
  case carriageRelease => exact ⟨_, always (carriageRelease_ops _), fun _ => rfl⟩
  case carriageReset => exact ⟨_, always (carriageReset_ops _), fun _ => rfl⟩
  case rovingRunStart => exact ⟨_, always (rovingRunStart_ops _), fun _ => rfl⟩
  case rovingRunAbort => exact ⟨_, always (rovingRunAbort_ops _), fun _ => rfl⟩
  case rovingRunGet => exact ⟨rovingRunGet, fun s _ => (Op.freeValue _ s).ops, fun _ => rfl⟩
  case trimSpeed => exact ⟨trimSpeed, fun s _ => (Op.speedTrim _ s (clampTrim_bounds (by decide))).ops, fun _ => rfl⟩
  case trimLength => exact ⟨trimLength, fun s _ => (Op.lengthTrim _ s (clampTrim_bounds (by decide))).ops, fun _ => rfl⟩
  case shiftClose => exact ⟨shiftClose, fun s _ => (Op.closeShift _ _ s).ops, fun _ => rfl⟩
  case carriageGet =>
    refine ⟨carriageGet, fun s _ => ?_, fun _ => rfl⟩
    unfold carriageGet
    split
    · exact (Op.freeValue _ s).ops
    · exact .refl _
  all_goals
    refine ⟨_, fun s _ => ?_, fun _ => rfl⟩
    first
    | exact .refl _
    | (simp only [configGet, articleGet, spindleGet, breakListGet, rovingListGet, shiftGet]
       repeat' split
       all_goals exact .refl _)

/-- What every command can do. -/
theorem exec_happens (i : Instr) (s : State) : ∃ t, exec i s = .next t ∧ Happens s t := by
  cases hreq : requestOf i with
  | some r =>
    obtain ⟨owner, hops, hexec⟩ := exec_takeRequest hreq
    exact ⟨_, hexec s, takeRequest_happens hops s⟩
  | none =>
    cases i <;> simp only [requestOf, reduceCtorEq] at hreq
    case powerOnReset => exact ⟨_, rfl, .powerOn s⟩
    case resetRelease straps =>
      simp only [exec, execResetRelease]
      split
      · next h => exact ⟨_, rfl, .release _ s h⟩
      · exact ⟨_, rfl, .ops (.refl s)⟩
    case storeRecord read =>
      simp only [exec, execStoreRecord]
      split
      · next h => exact ⟨_, rfl, .record read s h.1 h.2⟩
      · exact ⟨_, rfl, .ops (.refl s)⟩
    case loadEnd =>
      simp only [exec, execLoadEnd]
      split
      · next hp hs => exact ⟨_, rfl, .loadEnd _ _ s hp hs⟩
      · exact ⟨_, rfl, .ops (.refl s)⟩
    case encoderPulse =>
      simp only [exec, execEncoderPulse]
      split
      · next hp =>
        exact ⟨_, rfl, .pulse s hp (pulsed_ops s)⟩
      · exact ⟨_, rfl, .ops (.refl s)⟩
    case motionWindowExpiry =>
      simp only [exec, execMotionWindowExpiry]
      split
      · exact ⟨_, rfl, .ops (.refl s)⟩
      · refine ⟨_, rfl, .ops ?_⟩
        split
        · next h => exact (((Op.motionStops s).ops).next (Op.raise .motion _)).next (Op.halt _ h)
        · exact (Op.motionStops s).ops
    case hostFrame bytes => exact ⟨_, rfl, .receive bytes s⟩
    case frameTimerExpiry =>
      simp only [exec, execFrameTimerExpiry]
      split
      · next h => exact ⟨_, rfl, .late _ s h⟩
      · exact ⟨_, rfl, .ops (.refl s)⟩
      · exact ⟨_, rfl, .ops (.refl s)⟩
    case replySent =>
      simp only [exec, execReplySent]
      split
      · exact ⟨_, rfl, .ops (.refl s)⟩
      · next r h => exact ⟨_, rfl, .replySent _ r s h (by simp +contextual)⟩
    case unknownKind kind body =>
      simp only [ite_eq_right_iff, reduceCtorEq, imp_false] at hreq
      exact ⟨s, by simp only [exec, execUnknownKind, hreq, if_false, Bool.false_eq_true], .ops (.refl s)⟩
    case softReset =>
      simp only [exec, execSoftReset]
      split
      · next h => exact ⟨_, rfl, .softReset s h⟩
      · exact ⟨_, rfl, .ops (.refl s)⟩
    case poll =>
      have passed (st : Station) (rest : List Station) : Ops s (pollStation st (s.setBus { s.bus with cycle := rest })) :=
        ((Op.bus _ s (Bus.becomes_polls s.bus rest s.bus.awaiting)).ops).trans (pollStation_ops _ _)
      simp only [exec, execPoll]
      split
      · split
        · exact ⟨_, rfl, .ops (passed _ _)⟩
        · exact ⟨_, rfl, .ops (.refl s)⟩
      · exact ⟨_, rfl, .ops (.refl s)⟩
    case answerWindowExpiry =>
      simp only [exec, execAnswerWindowExpiry]
      split
      · exact ⟨_, rfl, .ops (.refl s)⟩
      · exact ⟨_, rfl, .ops (((Op.bus _ s (Bus.becomes_polls s.bus s.bus.cycle none)).ops).trans (missPoll_ops _ _))⟩
    case stationAnswer a =>
      have closed : Ops s (closeAnswerWindow s) := (Op.bus _ s (Bus.becomes_polls s.bus s.bus.cycle none)).ops
      simp only [exec, execStationAnswer]
      split
      · exact ⟨_, rfl, .ops (.refl s)⟩
      · refine ⟨_, rfl, .ops ?_⟩
        split
        · exact closed.trans (takeAnswer_ops _ _)
        · exact closed.trans (missPoll_ops _ _)
    case homingTimerExpiry side => exact ⟨_, rfl, .ops (Op.timeout side .homing s).ops⟩
    case pieceTimerExpiry side => exact ⟨_, rfl, .ops (Op.timeout side .piece s).ops⟩
    case legTimerExpiry side => exact ⟨_, rfl, .ops (Op.timeout side .leg s).ops⟩
    case returnTimerExpiry side => exact ⟨_, rfl, .ops (Op.timeout side .returning s).ops⟩
    case dofferTimerExpiry =>
      simp only [exec, execDofferTimerExpiry]
      split
      · next h => exact ⟨_, rfl, .ops (Op.failDoff none s h.1).ops⟩
      · exact ⟨_, rfl, .ops (.refl s)⟩
    case slotTimerExpiry => exact ⟨_, rfl, .ops (Op.slotTimeout s).ops⟩

/-! ## The queue of waiting commands -/

theorem Op.pending {ps : List Part} {s t : State} (h : Op ps s t) : t.pending = s.pending :=
  h.frame .pending (by cases h <;> decide)

theorem Ops.pending {s t : State} (h : Ops s t) : t.pending = s.pending :=
  h.keeps (P := fun u => u.pending = s.pending) (fun hop hu => hop.pending.trans hu) rfl

/-- Receiving changes the host line alone. -/
theorem discard_frame (reason : DiscardReason) (s : State) : OnlyChanges [.line] s (discard reason s) := by
  unfold discard
  split
  · exact (setLine_frame s _).next (raise_frame _ _)
  · exact .refl _ _

theorem receiveByte_frame (s : State) (b : LineByte) : OnlyChanges [.line] s (receiveByte s b) := by
  have offered (r : HeldRequest) (u : State) : OnlyChanges [.line] u (offerRequest r u) := by
    unfold offerRequest
    split
    · exact setLine_frame u _
    · exact discard_frame _ u
  have collected (got : List Byte) (d : Byte) : OnlyChanges [.line] s (collectByte got d s) := by
    unfold collectByte
    dsimp only
    split
    · split
      · exact (setLine_frame s _).next (discard_frame _ _)
      · exact setLine_frame s _
    · split
      · exact setLine_frame s _
      · split
        · exact (setLine_frame s _).next (offered _ _)
        · exact (setLine_frame s _).next (discard_frame _ _)
    · exact .refl _ _
  unfold receiveByte
  split
  · split
    · exact .refl _ _
    · split
      · exact setLine_frame s _
      · exact .refl _ _
    · exact collected _ _
  · exact .refl _ _

theorem receive_frame (bytes : List LineByte) (s : State) : OnlyChanges [.line] s (bytes.foldl receiveByte s) :=
  OnlyChanges.foldl receiveByte receiveByte_frame bytes s

/-! ## The soft reset -/

section
variable (side : Side) (s : State)

theorem softResetCarriage_frame : OnlyChanges [.carriages, .bus] s (softResetCarriage side s) := by
  unfold softResetCarriage
  dsimp only
  split
  · exact (modifyCarriage_frame _ _ _).wide
  · exact (modifyCarriage_frame _ _ _).wide.next (startHoming_frame _ _)

theorem closePiecing_frame (pos : Nat) (l : List Spindle) : OnlyChanges [.bus] s (closePiecing side pos l s) := by
  induction l generalizing pos s with
  | nil => exact .refl _ _
  | cons sp rest ih =>
    have held : OnlyChanges [.bus] s (if sp.state = .piecing then holdClamp side pos .closed s else s) := by
      split
      · exact holdClamp_frame _ _ _ _
      · exact .refl _ _
    exact held.next (ih _ _)

theorem softResetSpindles_frame :
    OnlyChanges [.spindles, .breakList, .breakSeq, .bus] s (softResetSpindles side s) :=
  (((closePiecing_frame side s 1 _).wide.next (setSpindles_frame _ _)).next (setBreakList_frame _ _)).next
    (setBreakSeq_frame _ _)

/-- DOFF_STOP and what the doffer's timer becomes, where DOFF_GO has been sent (R107). -/
def recallDoffer (s : State) : State :=
  if s.doff.go = .sent then
    (sendDoffStop s).setDoff { (sendDoffStop s).doff with timer := none, ready := false }
  else s

theorem recallDoffer_frame : OnlyChanges [.doff, .bus] s (recallDoffer s) := by
  unfold recallDoffer
  split
  · exact (sendDoffStop_frame s).wide.next (setDoff_frame _ _)
  · exact .refl _ _

/-- The Doff Controller stopped, its doff aborted (R107). -/
def standDoff (s : State) : State :=
  restoreContext (s.setDoff { s.doff with
    go := .none
    last := s.doff.last.map fun r => if r.outcome.isNone then { r with outcome := some .aborted } else r
    done := ⟨[], []⟩
    watchStart := none
    frame := .stopped })

theorem standDoff_frame : OnlyChanges [.doff] s (standDoff s) :=
  (setDoff_frame s _).next (restoreContext_frame _)

theorem softResetDoff_eq :
    softResetDoff s = if (recallDoffer s).doff.frame = .stopped then standDoff (recallDoffer s)
      else raise .frameState (standDoff (recallDoffer s)) := rfl

theorem softResetDoff_frame : OnlyChanges [.doff, .bus, .line] s (softResetDoff s) := by
  have h := ((recallDoffer_frame s).wide (rs := [.doff, .bus, .line])).next (standDoff_frame _)
  rw [softResetDoff_eq]
  split
  · exact h
  · exact h.next (raise_frame _ _)

theorem softResetRoving_frame : OnlyChanges [.roving, .line] s (softResetRoving s) := by
  unfold softResetRoving
  dsimp only
  split
  · exact ((setRoving_frame s _).wide.next (emptySlot_frame _)).next (endRun_frame _ _)
  · exact (setRoving_frame s _).wide

theorem softResetTrain_frame : OnlyChanges [.bus] s (softResetTrain s) := setBus_frame s _

theorem softResetSpeed_frame : OnlyChanges [.speed, .line] s (softResetSpeed s) :=
  (setSpeed_frame s _).wide.next (recomputeSetPoint_frame _)

theorem softReset_frame :
    OnlyChanges [.speed, .spindles, .breakList, .breakSeq, .carriages, .doff, .articles, .roving, .bus, .line] s
      (softReset s) :=
  (((((((((softResetCarriage_frame .a s).wide.next (softResetCarriage_frame .b _)).next
    (softResetSpindles_frame .a _)).next (softResetSpindles_frame .b _)).next (softResetDoff_frame _)).next
    (setArticles_frame _ _)).next (softResetRoving_frame _)).next (softResetTrain_frame _)).next
    (softResetSpeed_frame _)).next (setLine_frame _ _)

end

theorem beginReply_frame (kind : Byte) (h : Handled) : OnlyChanges [.line] h.state (beginReply kind h) :=
  setLine_frame _ _

theorem Happens.pending {s t : State} (h : Happens s t) : t.pending = s.pending := by
  cases h with
  | ops h => exact h.pending
  | powerOn | release | record | loadEnd | replySent => rfl
  | pulse _ _ h => exact h.pending
  | receive bytes => exact receive_frame bytes s .pending (by decide)
  | late => exact discard_frame _ _ .pending (by decide)
  | reply r h _ _ hops => exact hops.pending.trans (holdRequest_pending r s)
  | softReset => exact softReset_frame s .pending (by decide)

/-- Settles O2. -/
theorem everyCommandEndsInANextState : Obligations.EveryCommandEndsInANextState := by
  unfold Obligations.EveryCommandEndsInANextState
  intro c s
  obtain ⟨t, hnext, hhappens⟩ := exec_happens c s
  exact ⟨t, hnext, hhappens.pending⟩

/-! ## Laws that every step keeps -/

/-- What a step does is what a command does on the state with the queue's rest. -/
theorem step_happens {s t : State} (h : step s = .next t) : ∃ rest, Happens (s.setPending rest) t := by
  unfold step at h
  split at h
  · next hp =>
    obtain rfl := Host.Outcome.next.inj h
    exact ⟨s.pending, .ops (.refl s)⟩
  · next c rest _ =>
    obtain ⟨u, hnext, hhappens⟩ := exec_happens c (s.setPending rest)
    obtain rfl := Host.Outcome.next.inj (hnext.symm.trans h)
    exact ⟨rest, hhappens⟩

/-- A property that speaks neither of the queue, the host line nor the Loader. -/
structure LineFree (P : State → Prop) : Prop where
  pending : ∀ s v, P s → P (s.setPending v)
  line : ∀ s v, P s → P (s.setLine v)
  loader : ∀ s v, P s → P (s.setLoader v)
  phase : ∀ s, s.phase = .inReset → P s → P (s.setPhase .loading)

theorem LineFree.of_frame {P : State → Prop} (h : LineFree P) {s t : State} (hf : OnlyChanges [.line] s t)
    (hs : P s) : P t := by
  have ht : t = s.setLine t.line := by
    rw [onlyChanges_iff] at hf
    simp only [List.mem_singleton, reduceCtorEq, false_or] at hf
    cases s
    cases t
    simp_all [State.setLine]
  rw [ht]
  exact h.line s _ hs

/-- A law kept by every operation, by a pulse, by load end and by the soft reset, and met at reset, is kept by every
step. -/
theorem LineFree.step {P : State → Prop} (hfree : LineFree P) (hreset : ∀ p n, P ((State.reset.setPending p).setFreeCount n))
    (hload : ∀ s, P s → P (formedState s)) {s t : State}
    (hpulse : ∀ p, (s.setPending p).phase = .running → P (s.setPending p) → P (countPulse (s.setPending p)))
    (hop : ∀ {ps u v}, Op ps u v → P u → P v) (hsoft : ∀ s, P s → P (softReset s))
    (hstep : Machine.step s = .next t) (hs : P s) : P t := by
  obtain ⟨rest, h⟩ := step_happens hstep
  have hs' := hfree.pending s rest hs
  generalize hu : s.setPending rest = u at h hs'
  cases h with
  | ops h => exact h.keeps hop hs'
  | powerOn => exact hreset _ _
  | release rate _ hphase =>
    exact hfree.loader _ _ (hfree.line _ _ (hfree.phase _ hphase hs'))
  | record => exact hfree.loader _ _ hs'
  | loadEnd => exact hload _ hs'
  | pulse _ hphase h =>
    subst hu
    exact h.keeps hop (hpulse rest hphase hs')
  | receive bytes => exact hfree.of_frame (receive_frame bytes u) hs'
  | late => exact hfree.of_frame (discard_frame _ _) (hfree.line _ _ hs')
  | replySent => exact hfree.line _ _ hs'
  | reply r h _ _ hops =>
    exact hfree.of_frame (beginReply_frame _ h)
      (hops.keeps hop (hfree.of_frame (holdRequest_onlyChanges r u) hs'))
  | softReset => exact hsoft _ hs'

end Sys2Proof.Machine
end

