-- ==== Sys2Proof/Proofs/Records.lean ====
section
/-!
PROOFS. What each operation does to the spindle records, said once: every record of the state after it comes from the
record at the same position by named changes. The laws of one record (R21, R23, R24, R27, R32) rest on this.
-/
namespace Sys2Proof.Machine

-- One after another: each theorem as a task of its own takes a thread.
set_option Elab.async false

/-! ## Changes of one record -/

/-- The kinds of change of a spindle record. -/
inductive ChangeKind where
  | close | clamp | zeroCop | renumber | resequence | seed | mark | join | renew | order | giveBack | piece
  | pieceOrdered | lock | wait | park | unpark
deriving DecidableEq, Repr

/-- A record that has joined its side's break list (R50, R52). -/
def Spindle.joined (sp : Spindle) (c : Cause) (q : Nat) : Spindle :=
  { sp with
    state := .broken, marker := none, clamp := .closed, seq := some q, cause := some c, lockCause := none }

/-- A record pieced at an FLmm, with its clamp (R23, R37, R38, R74, R79). -/
def Spindle.piecedOpen (sp : Spindle) (x : Nat) : Spindle := { sp.pieced x with clamp := .opened }

/-- One change of a record, at FLmm = `x`, with a full bobbin of `cap` millimetres. -/
inductive Change (x cap : Nat) : ChangeKind → Spindle → Spindle → Prop
  | close (art : Article) (sp : Spindle) : Change x cap .close sp (sp.close art x)
  | clamp (sp : Spindle) : Change x cap .clamp sp { sp with clamp := sp.state.clamp }
  | zeroCop (sp : Spindle) : Change x cap .zeroCop sp { sp with cop := 0 }
  | renumber (f) (sp : Spindle) : Change x cap .renumber sp { sp with seq := sp.seq.map f }
  | resequence (q) (sp : Spindle) (h : sp.state = .broken) : Change x cap .resequence sp { sp with seq := some q }
  | seed (r) (sp : Spindle) (h : r ≤ cap) : Change x cap .seed sp { sp with roving := some r }
  | mark (a st b) (sp : Spindle) (ha : a ≤ 3) (hs : st = sp.stamps ∨ st = [] ∨ st = addStamp x sp.stamps) :
      Change x cap .mark sp { sp with attempts := a, stamps := st, rogueUnlocked := b }
  | join (c q) (sp : Spindle) (hc : c ≠ .rovingOut) (h : sp.state = .running ∨ sp.state = .locked) :
      Change x cap .join sp (sp.joined c q)
  | unpark (c q) (sp : Spindle) (hc : c ≠ .rovingOut) (h : sp.state = .parked) :
      Change x cap .unpark sp (sp.joined c q)
  | renew (c q) (sp : Spindle) (hc : c ≠ .rovingOut) (hw : sp.state = .waitRoving) :
      Change x cap .renew sp (sp.joined c q)
  | order (sp : Spindle) (h : sp.state = .broken) : Change x cap .order sp { sp with state := .piecing, clamp := .opened }
  | giveBack (sp : Spindle) (h : sp.state = .piecing) :
      Change x cap .giveBack sp { sp with state := .broken, clamp := .closed }
  | piece (sp : Spindle) (h : sp.state = .broken) : Change x cap .piece sp (sp.piecedOpen x)
  | pieceOrdered (sp : Spindle) (h : sp.state = .piecing) : Change x cap .pieceOrdered sp (sp.piecedOpen x)
  | lock (c) (sp : Spindle) (h : sp.state = .running ∨ sp.state = .piecing) : Change x cap .lock sp { sp.locked c with clamp := .closed }
  | wait (sp : Spindle) (h : sp.state = .running) :
      Change x cap .wait sp { sp with
        state := .waitRoving, marker := none, clamp := .closed, cause := some .rovingOut, attempts := 0, seq := none }
  | park (sp : Spindle) : Change x cap .park sp { sp.parked with clamp := .closed }

/-- A record comes from another by changes of the kinds of a list. -/
def Reforms (x cap : Nat) (ks : List ChangeKind) : Spindle → Spindle → Prop :=
  Relation.ReflTransGen fun a b => ∃ k ∈ ks, Change x cap k a b

section
variable {x cap : Nat} {ks ls : List ChangeKind} {a b c : Spindle}

theorem Reforms.refl (a : Spindle) : Reforms x cap ks a a := Relation.ReflTransGen.refl

theorem Change.reforms {k : ChangeKind} (h : Change x cap k a b) (hk : k ∈ ks := by decide) : Reforms x cap ks a b :=
  Relation.ReflTransGen.single ⟨k, hk, h⟩

theorem Reforms.trans (h1 : Reforms x cap ks a b) (h2 : Reforms x cap ks b c) : Reforms x cap ks a c :=
  Relation.ReflTransGen.trans h1 h2

theorem Reforms.next {k : ChangeKind} (h1 : Reforms x cap ks a b) (h2 : Change x cap k b c) (hk : k ∈ ks := by decide) :
    Reforms x cap ks a c := h1.trans (h2.reforms hk)

theorem Reforms.mono (h : Reforms x cap ks a b) (hs : ks ⊆ ls) : Reforms x cap ls a b :=
  Relation.ReflTransGen.mono (p := fun a b => ∃ k ∈ ls, Change x cap k a b) (fun _ _ ⟨k, hk, hc⟩ => ⟨k, hs hk, hc⟩) _ _ h

/-- What each change of a list keeps, a succession of them keeps. -/
theorem Reforms.keeps {P : Spindle → Prop} (hstep : ∀ {k a b}, k ∈ ks → Change x cap k a b → P a → P b)
    (h : Reforms x cap ks a b) (ha : P a) : P b := by
  induction h with
  | refl => exact ha
  | tail _ hlast ih =>
    obtain ⟨k, hk, hc⟩ := hlast
    exact hstep hk hc ih

end

/-! ## The records of a state -/

/-- The records of `t` come from those of `s`, position by position. -/
def Records (x cap : Nat) (ks : List ChangeKind) (s t : State) : Prop :=
  ∀ side, (t.spindles.get side).length = (s.spindles.get side).length ∧
    ∀ pos sp', t.spindle side pos = some sp' → ∃ sp, s.spindle side pos = some sp ∧ Reforms x cap ks sp sp'

section
variable {x cap : Nat} {ks ls : List ChangeKind} {s t u : State}

theorem Records.of_same (h : t.spindles = s.spindles) : Records x cap ks s t := by
  intro side
  simp only [State.spindle, h]
  exact ⟨trivial, fun pos sp' hsp => ⟨sp', hsp, .refl sp'⟩⟩

theorem Records.refl (s : State) : Records x cap ks s s := .of_same rfl

theorem Records.trans (h1 : Records x cap ks s t) (h2 : Records x cap ks t u) : Records x cap ks s u := by
  intro side
  refine ⟨(h2 side).1.trans (h1 side).1, fun pos sp' hsp' => ?_⟩
  obtain ⟨sp1, hsp1, hr1⟩ := (h2 side).2 pos sp' hsp'
  obtain ⟨sp, hsp, hr⟩ := (h1 side).2 pos sp1 hsp1
  exact ⟨sp, hsp, hr.trans hr1⟩

theorem Records.mono (h : Records x cap ks s t) (hs : ks ⊆ ls := by decide) : Records x cap ls s t := by
  intro side
  refine ⟨(h side).1, fun pos sp' hsp' => ?_⟩
  obtain ⟨sp, hsp, hr⟩ := (h side).2 pos sp' hsp'
  exact ⟨sp, hsp, hr.mono hs⟩

/-- One operation more, within a list of kinds. -/
theorem Records.next (h1 : Records x cap ks s t) (h2 : Records x cap ls t u) (hs : ls ⊆ ks := by decide) :
    Records x cap ks s u := h1.trans (h2.mono hs)

/-- An operation that leaves the records. -/
theorem Records.frame {ps : List Part} (h1 : Records x cap ks s t) (h2 : OnlyChanges ps t u)
    (hp : .spindles ∉ ps := by decide) : Records x cap ks s u := h1.trans (.of_same (h2 .spindles hp))

theorem OnlyChanges.records {ps : List Part} (h : OnlyChanges ps s t) (hp : .spindles ∉ ps := by decide) :
    Records x cap ks s t := .of_same (h .spindles hp)

/-- The record of a position before and after. -/
theorem Records.exists_of_some (h : Records x cap ks s t) {side : Side} {pos : Nat} {sp' : Spindle}
    (hsp : t.spindle side pos = some sp') : ∃ sp, s.spindle side pos = some sp ∧ Reforms x cap ks sp sp' :=
  (h side).2 pos sp' hsp

end

/-- A position has a record where the side's table reaches it. -/
theorem State.spindle_isSome_iff {s : State} {side : Side} {pos : Nat} :
    (s.spindle side pos).isSome = true ↔ 1 ≤ pos ∧ pos ≤ (s.spindles.get side).length := by
  unfold State.spindle
  split
  · next h => simp [h]
  · next h =>
    rw [isSome_getElem?]
    omega

/-- A record stands in the table. -/
theorem State.mem_of_spindle {s : State} {side : Side} {pos : Nat} {sp : Spindle} (h : s.spindle side pos = some sp) :
    sp ∈ s.spindles.get side := by
  unfold State.spindle at h
  split at h
  · cases h
  · exact List.mem_of_getElem? h

theorem State.exists_spindle_of_mem {s : State} {side : Side} {sp : Spindle} (h : sp ∈ s.spindles.get side) :
    ∃ pos ∈ List.range' 1 (s.spindles.get side).length, s.spindle side pos = some sp := by
  obtain ⟨i, hi, rfl⟩ := List.getElem_of_mem h
  refine ⟨i + 1, List.mem_range'_1.2 (by omega), ?_⟩
  simp [State.spindle, hi]

theorem Records.isSome_iff {x cap : Nat} {ks : List ChangeKind} {s t : State} (h : Records x cap ks s t) {side : Side}
    {pos : Nat} : (t.spindle side pos).isSome = true ↔ (s.spindle side pos).isSome = true := by
  rw [State.spindle_isSome_iff, State.spindle_isSome_iff, (h side).1]

/-- The other direction: what a record has become. -/
theorem Records.exists_of_old {x cap : Nat} {ks : List ChangeKind} {s t : State} (h : Records x cap ks s t)
    {side : Side} {pos : Nat} {sp : Spindle} (hsp : s.spindle side pos = some sp) :
    ∃ sp', t.spindle side pos = some sp' ∧ Reforms x cap ks sp sp' := by
  obtain ⟨sp', hsp'⟩ := Option.isSome_iff_exists.1 (h.isSome_iff.2 (by rw [hsp]; rfl))
  obtain ⟨sp0, hsp0, hr⟩ := h.exists_of_some hsp'
  obtain rfl : sp0 = sp := Option.some.inj (hsp0.symm.trans hsp)
  exact ⟨sp', hsp', hr⟩

/-- A property of each record, whatever its position, is one of the members of the tables. -/
theorem everySpindle_iff {s : State} {P : Spindle → Prop} :
    (EverySpindle s fun _ _ sp => P sp) ↔ ∀ side, ∀ sp ∈ s.spindles.get side, P sp := by
  have one (side : Side) : (∀ pos ∈ List.range' 1 (s.spindles.get side).length, ∀ sp ∈ s.spindle side pos, P sp) ↔
      ∀ sp ∈ s.spindles.get side, P sp := by
    constructor
    · intro h sp hsp
      obtain ⟨pos, hpos, heq⟩ := State.exists_spindle_of_mem hsp
      exact h pos hpos sp heq
    · exact fun h pos _ sp hsp => h sp (State.mem_of_spindle hsp)
  exact (and_congr (one .a) (one .b)).trans
    ⟨fun ⟨ha, hb⟩ side => by cases side; exacts [ha, hb], fun h => ⟨h .a, h .b⟩⟩

/-- A property that each change keeps, the records keep. -/
theorem Records.keeps {x cap : Nat} {ks : List ChangeKind} {s t : State} {P : Spindle → Prop}
    (h : Records x cap ks s t) (hstep : ∀ {k a b}, k ∈ ks → Change x cap k a b → P a → P b)
    (hs : ∀ side, ∀ sp ∈ s.spindles.get side, P sp) : ∀ side, ∀ sp ∈ t.spindles.get side, P sp := by
  intro side sp' hsp'
  obtain ⟨pos, -, hpos⟩ := State.exists_spindle_of_mem hsp'
  obtain ⟨sp, hsp, hr⟩ := h.exists_of_some hpos
  exact hr.keeps hstep (hs side sp (State.mem_of_spindle hsp))

/-! ## The shared operations -/

section
variable {x cap : Nat} {ks : List ChangeKind} {side : Side} {pos : Nat} {s : State} {sp : Spindle}

/-- The one write of a record (R23). -/
theorem writeSpindle_records {new : Spindle}
    (h : ∀ old, s.spindle side pos = some old → Reforms x cap ks old { new with clamp := new.state.clamp }) :
    Records x cap ks s (writeSpindle side pos new s) := by
  cases hold : s.spindle side pos with
  | none =>
    have : writeSpindle side pos new s = s := by unfold writeSpindle; rw [hold]
    rw [this]
    exact .refl s
  | some old =>
    intro sd
    refine ⟨?_, fun p sp' hsp' => ?_⟩
    · rw [writeSpindle_spindles side pos new s old hold]
      by_cases hsd : sd = side
      · subst hsd; simp
      · rw [Sides.get_set_other _ _ _ _ hsd]
    · by_cases hp : sd = side ∧ p = pos
      · obtain ⟨rfl, rfl⟩ := hp
        rw [writeSpindle_same sd p new s old hold, Option.some.injEq] at hsp'
        exact ⟨old, hold, hsp' ▸ h old hold⟩
      · rw [writeSpindle_other side pos new s sd p hp] at hsp'
        exact ⟨sp', hsp', .refl sp'⟩

theorem writeSpindle_records_of {old new : Spindle} (hold : s.spindle side pos = some old)
    (h : Reforms x cap ks old { new with clamp := new.state.clamp }) :
    Records x cap ks s (writeSpindle side pos new s) :=
  writeSpindle_records fun old' hold' => by
    obtain rfl : old = old' := Option.some.inj (hold.symm.trans hold')
    exact h

/-- A change of every record of a side. -/
theorem mapSpindles_records {f : Spindle → Spindle} (h : ∀ sp, Reforms x cap ks sp (f sp)) :
    Records x cap ks s (s.setSpindles (s.spindles.modify side (·.map f))) := by
  intro sd
  by_cases hsd : sd = side
  · subst hsd
    refine ⟨by simp, fun p sp' hsp' => ?_⟩
    simp only [State.spindle_setSpindles, Sides.get_modify_same] at hsp'
    unfold State.spindle
    split at hsp'
    · cases hsp'
    · next h0 =>
      rw [List.getElem?_map, Option.map_eq_some_iff] at hsp'
      obtain ⟨sp, hsp, rfl⟩ := hsp'
      exact ⟨sp, by rw [if_neg h0, hsp], h sp⟩
  · refine ⟨by simp [Sides.get_modify_other _ _ _ _ hsd], fun p sp' hsp' => ⟨sp', ?_, .refl sp'⟩⟩
    rw [State.spindle_setSpindles, Sides.get_modify_other _ _ _ _ hsd] at hsp'
    exact hsp'

theorem splitSide_records (hx : s.flmm = x) : Records x cap [.close] s (splitSide side s) := by
  subst hx
  exact (mapSpindles_records fun sp => (Change.close s.articles.active sp).reforms).trans (.of_same rfl)

theorem split_records (hx : s.flmm = x) : Records x cap [.close] s (split s) :=
  (splitSide_records hx).trans (splitSide_records ((splitSide_frame .a s).flmm.trans hx))

theorem closeInterval_records (hx : s.flmm = x) : Records x cap [.close, .clamp] s (closeInterval side pos s) := by
  subst hx
  cases h : s.spindle side pos with
  | none => rw [show closeInterval side pos s = s by simp [closeInterval, h]]; exact .refl s
  | some sp =>
    by_cases hst : sp.state = .running
    · rw [closeInterval_of_running h hst]
      refine (writeSpindle_records_of h ?_).frame (creditRun_frame _ _ _)
      exact (Change.close s.articles.active sp).reforms.next (Change.clamp _)
    · rw [show closeInterval side pos s = s by simp [closeInterval, h, hst]]; exact .refl s

theorem renumber_records : Records x cap [.renumber] s (renumber side s) :=
  (mapSpindles_records (side := side) fun sp => (Change.renumber (rankOf (s.spindles.get side)) sp).reforms).trans
    (.of_same rfl)

theorem advanceSeq_records : Records x cap [.renumber] s (advanceSeq side s) := by
  unfold advanceSeq
  dsimp only
  split
  · exact renumber_records.frame (setBreakSeq_frame _ _)
  · exact .of_same rfl

/-- A join changes the record at its position to a joined one, and elsewhere at most the sequences (R50, R51). -/
theorem joinBreakList_records {old : Spindle} {c : Cause} (hold : s.spindle side pos = some old)
    (h : ∀ q, Reforms x cap ks old (sp.joined c q)) (hk : .renumber ∈ ks := by decide) :
    Records x cap ks s (joinBreakList side pos c sp s) := by
  have hadv : Records x cap ks s (advanceSeq side s) :=
    advanceSeq_records.mono fun k hk' => by rwa [List.mem_singleton.1 hk']
  obtain ⟨cur, hcur, -⟩ := hadv.exists_of_old hold
  intro sd
  have hwrite := writeSpindle_spindles side pos { sp with
    state := .broken, marker := none, seq := some ((advanceSeq side s).breakSeq.get side), cause := some c
    lockCause := none } _ cur hcur
  refine ⟨?_, fun p sp' hsp' => ?_⟩
  · refine Eq.trans ?_ (hadv sd).1
    unfold joinBreakList
    rw [hwrite]
    by_cases hsd : sd = side
    · subst hsd; simp
    · rw [Sides.get_set_other _ _ _ _ hsd]
  · unfold joinBreakList at hsp'
    by_cases hp : sd = side ∧ p = pos
    · obtain ⟨rfl, rfl⟩ := hp
      rw [writeSpindle_same sd p _ _ cur hcur, Option.some.injEq] at hsp'
      exact ⟨old, hold, hsp' ▸ h _⟩
    · rw [writeSpindle_other side pos _ _ sd p hp] at hsp'
      exact hadv.exists_of_some hsp'

theorem dispatchTest_records : Records x cap [.order] s (dispatchTest side s) := by
  unfold dispatchTest
  split
  · dsimp only
    split
    · split
      · unfold issueOrder
        dsimp only
        split
        · split
          · next sp hsp =>
            split
            · next hst _ =>
              exact ((writeSpindle_records_of hsp (Change.order sp hst).reforms).frame (sendCarriage_frame _ _ _)).frame
                (modifyCarriage_frame _ _ _)
            · exact .refl s
          · exact .refl s
        · exact (issueTransit_frame _ s _).records
      · exact .refl s
    · exact .refl s
  · exact .refl s

theorem returnSpindle_records : Records x cap [.giveBack] s (returnSpindle side pos s) := by
  unfold returnSpindle
  split
  · exact .refl s
  · next sp hsp =>
    split
    · next hst => exact writeSpindle_records_of hsp (Change.giveBack sp hst).reforms
    · exact .refl s

theorem dropWork_records : Records x cap [.giveBack] s (dropWork side s) := by
  unfold dropWork
  split
  · exact returnSpindle_records.frame (modifyCarriage_frame _ _ _)
  · exact (modifyCarriage_frame _ s _).records

theorem withdrawForDoff_records : Records x cap [.giveBack] s (withdrawForDoff side s) := by
  unfold withdrawForDoff
  dsimp only
  split
  · exact .refl s
  · exact (cancelOrder_frame _ s _).records
  · exact (cancelOrder_frame _ s _).records
  · exact returnSpindle_records.frame (cancelOrder_frame _ _ _)

/-! ## The operations of the blocks -/

theorem makeExchange_records (a : Article) (o : Occasion) (hx : s.flmm = x) :
    Records x cap [.close] s (makeExchange a o s) :=
  ((((((split_records hx).frame (setArticles_frame _ _)).frame (setSpeed_frame _ _)).frame (recomputeFill_frame _)).frame
    (recomputeSetPoint_frame _)).frame (countFrame_frame _ _)).frame
    ((setArticles_frame _ _).wide.next (raise_frame _ .article) : OnlyChanges [.articles, .line] _ _)

theorem dueExchange_records (hx : s.flmm = x) : Records x cap [.close] s (dueExchange s) := by
  unfold dueExchange attemptExchange
  split
  · split
    · exact makeExchange_records _ _ hx
    · exact (refuseExchange_frame s _ _).records
  · exact .refl s

theorem enterDoffing_records : Records x cap [.giveBack] s (enterDoffing s) := by
  have h : Records x cap [.giveBack] s
      (setDoffHold .b (setDoffHold .a (withdrawForDoff .b (withdrawForDoff .a (changeFrame .doffing s))))) :=
    ((((changeFrame_frame s _).records.trans withdrawForDoff_records).trans withdrawForDoff_records).frame
      (setDoffHold_frame _ _)).frame (setDoffHold_frame _ _)
  unfold enterDoffing
  dsimp only
  split
  · exact h.frame (startDoffer_frame _)
  · exact h.frame (setDoff_frame _ _)

/-- The records of a state with every cop at 0 (R27). -/
def zeroCops (s : State) : State :=
  (s.setSpindles (s.spindles.modify .a (·.map fun sp => { sp with cop := 0 }))).setSpindles
    ((s.setSpindles (s.spindles.modify .a (·.map fun sp => { sp with cop := 0 }))).spindles.modify .b
      (·.map fun sp => { sp with cop := 0 }))

theorem zeroCops_records : Records x cap [.zeroCop] s (zeroCops s) :=
  (mapSpindles_records fun sp => (Change.zeroCop sp).reforms).trans
    (mapSpindles_records fun sp => (Change.zeroCop sp).reforms)

theorem resetCops_eq (s : State) :
    resetCops s = recomputeFill ((zeroCops (split s)).setDoff
      { (zeroCops (split s)).doff with copBase := (zeroCops (split s)).flmm }) := rfl

theorem resetCops_records (hx : s.flmm = x) : Records x cap [.close, .zeroCop] s (resetCops s) := by
  rw [resetCops_eq]
  exact ((((split_records hx).mono).next zeroCops_records).frame (setDoff_frame _ _)).frame (recomputeFill_frame _)

theorem completeDoff_records (byHand : Bool) (hx : s.flmm = x) :
    Records x cap [.close, .zeroCop] s (completeDoff byHand s) := by
  rw [completeDoff_eq]
  exact ((((((((resetCops_records hx).next (dueExchange_records ((resetCops_frame s).flmm.trans hx))).frame
    (clearDoffHolds_frame _)).frame (recordOutcome_frame _ _ _)).frame (countFrame_frame _ _)).frame
    (stopDoffer_frame _ _)).frame (endDoffer_frame _)).frame (changeFrame_frame _ _))

theorem parkSpindle_records (hx : s.flmm = x) :
    Records x cap [.close, .clamp, .park] s (parkSpindle side pos s) := by
  have hclose : Records x cap [.close, .clamp] s (closeInterval side pos (creditPossible side s)) :=
    (creditPossible_frame side s).records.trans (closeInterval_records hx)
  have h : Records x cap [.close, .clamp, .park] s
      (unlist ⟨side, pos⟩ (withdrawForPark side pos (closeInterval side pos (creditPossible side s)))) :=
    (hclose.mono.frame (withdrawForPark_frame _ _ _)).frame (unlist_frame _ _)
  unfold parkSpindle
  dsimp only
  split
  · next sp hsp => exact h.trans (writeSpindle_records_of hsp (Change.park sp).reforms)
  · exact h

theorem seedRoving_records {metres : Nat} (hx : s.flmm = x) (hcap : metres * 1000 ≤ cap) :
    Records x cap [.close, .clamp, .seed] s (seedRoving side metres s pos) := by
  have h : Records x cap [.close, .clamp, .seed] s (closeInterval side pos s) := (closeInterval_records hx).mono
  unfold seedRoving
  dsimp only
  split
  · next sp hsp =>
    exact h.trans (writeSpindle_records_of hsp ((Change.seed _ sp hcap).reforms.next (Change.clamp _)))
  · exact h

theorem closeShift_records (label stamp : Nat) (hx : s.flmm = x) :
    Records x cap [.close] s (closeShift label stamp s) :=
  (((split_records hx).frame (creditPossible_frame .a _)).frame (creditPossible_frame .b _)).frame (setShift_frame _ _)

theorem carriageArrives_records : Records x cap [.giveBack] s (carriageArrives side s) := by
  have h : Records x cap [.giveBack] s (startHoming side (dropWork side s)) :=
    dropWork_records.frame (startHoming_frame _ _)
  unfold carriageArrives
  dsimp only
  split
  · exact h
  · exact h.frame (raise_frame _ _)

theorem carriageTimeout_records (k : TimerKind) : Records x cap [.giveBack] s (carriageTimeout side k s) := by
  unfold carriageTimeout
  split
  · exact dropWork_records.frame (carriageFaults_frame _ _)
  · exact .refl s

theorem carriageSilent_records : Records x cap [.giveBack] s (carriageSilent side s) :=
  (dropWork_records.frame (modifyCarriage_frame _ _ _)).frame (raise_frame _ _)

theorem pieceDone_records (hx : s.flmm = x) : Records x cap [.pieceOrdered] s (pieceDone side pos s) := by
  subst hx
  unfold pieceDone
  refine Records.frame ?_ (carriageSettles_frame _ _ _)
  split
  · next sp hsp =>
    split
    · next hst =>
      exact (writeSpindle_records_of hsp (Change.pieceOrdered sp hst).reforms).frame (countSide_frame _ _ _)
    · exact .refl s
  · exact .refl s

/-- The lock of a record that has been marked (R34). -/
theorem lockSpindle_records {old : Spindle} {c : LockCause} (hold : s.spindle side pos = some old)
    (hst : sp.state = .running ∨ sp.state = .piecing)
    (h : Reforms x cap ks old sp) (hk : .lock ∈ ks := by decide) : Records x cap ks s (lockSpindle side pos c sp s) :=
  ((writeSpindle_records_of hold (h.next (Change.lock c sp hst) hk)).frame (raise_frame _ _)).frame (countSide_frame _ _ _)

/-- The judgement after a failed piece, on a record that has raised its attempts: a lock where there is room for one, and
otherwise the return to the list (R75, R34). -/
theorem judgeAttempts_cases {n : Nat} {old : Spindle} (hold : s.spindle side pos = some old)
    (hst : old.state = .piecing) (hn : n ≤ 3) :
    (lockRoom s = true ∧ judgeAttempts side pos { old with attempts := n } s =
      lockSpindle side pos .pieceFail { old with attempts := n } s) ∨
      Records x cap [.mark, .giveBack] s (judgeAttempts side pos { old with attempts := n } s) := by
  unfold judgeAttempts
  split
  · exact .inr (writeSpindle_records_of hold
      ((Change.mark n old.stamps old.rogueUnlocked old hn (.inl rfl)).reforms.next (Change.giveBack _ hst)))
  split
  · next hroom => exact .inl ⟨hroom, rfl⟩
  · exact .inr ((writeSpindle_records_of hold
      ((Change.mark n old.stamps true old hn (.inl rfl)).reforms.next
        (Change.giveBack { old with attempts := n, rogueUnlocked := true } hst))).frame (raise_frame _ _))

theorem judgeAttempts_records {n : Nat} {old : Spindle} (hold : s.spindle side pos = some old)
    (hst : old.state = .piecing) (hn : n ≤ 3) :
    Records x cap [.mark, .giveBack, .lock] s (judgeAttempts side pos { old with attempts := n } s) := by
  rcases judgeAttempts_cases (x := x) (cap := cap) hold hst hn with ⟨-, h⟩ | h
  · rw [h]
    exact lockSpindle_records hold (.inr hst) (Change.mark n old.stamps old.rogueUnlocked old hn (.inl rfl)).reforms
  · exact h.mono

/-- The spindle of the order that failed, counted and judged (R75). -/
theorem pieceMissed_cases (side : Side) (pos : Nat) (s : State) :
    (∃ old, (countSide side .pieceFailure s).spindle side pos = some old ∧ old.state = .piecing ∧
      pieceMissed side pos s = carriageSettles side (some pos) (judgeAttempts side pos
        { old with attempts := min 3 (old.attempts + 1) } (countSide side .pieceFailure s))) ∨
      pieceMissed side pos s = carriageSettles side (some pos) s := by
  unfold pieceMissed
  split
  · next sp hsp =>
    split
    · next hst =>
      have hcount : (countSide side .pieceFailure s).spindles = s.spindles :=
        countSide_frame side s .pieceFailure .spindles (by decide)
      refine .inl ⟨sp, ?_, hst, rfl⟩
      unfold State.spindle
      rw [hcount]
      exact hsp
    · exact .inr rfl
  · exact .inr rfl

theorem pieceMissed_records : Records x cap [.mark, .giveBack, .lock] s (pieceMissed side pos s) := by
  rcases pieceMissed_cases side pos s with ⟨old, hold, hst, h⟩ | h
  · rw [h]
    exact ((countSide_frame side s .pieceFailure).records.trans
      (judgeAttempts_records hold hst (Nat.min_le_left _ _))).frame (carriageSettles_frame _ _ _)
  · rw [h]
    exact (carriageSettles_frame side s _).records

theorem lateOutcome_records (ok : Bool) (hx : s.flmm = x) :
    Records x cap [.piece] s (lateOutcome side pos ok s) := by
  subst hx
  unfold lateOutcome
  dsimp only
  have h : Records s.flmm cap [.piece] s (modifyCarriage side (fun c => { c with withdrawn := none }) s) :=
    (modifyCarriage_frame side s _).records
  split
  · split
    · next sp hsp =>
      split
      · next hst =>
        exact h.trans ((writeSpindle_records_of hsp (Change.piece sp hst).reforms).frame (countSide_frame _ _ _))
      · exact h
    · exact h
  · exact h

theorem yarnFound_records (hx : s.flmm = x) : Records x cap [.piece, .pieceOrdered] s (yarnFound side pos s) := by
  subst hx
  unfold yarnFound
  split
  · exact .refl s
  · next sp hsp =>
    split
    · next hst =>
      exact (writeSpindle_records_of hsp (Change.piece sp hst).reforms).frame (countSide_frame _ _ _)
    · next hst =>
      exact (writeSpindle_records_of hsp (Change.pieceOrdered sp hst).reforms).frame (overtakeOrder_frame _ _ _)
    all_goals exact .refl s

theorem takeRunOut_records (h : sp.ClosedAt side pos s) : Records x cap [.wait] s (takeRunOut side pos sp s) := by
  obtain ⟨hsp, hst, -⟩ := h
  have waits : Records x cap [.wait] s (writeSpindle side pos
      { sp with state := .waitRoving, marker := none, cause := some .rovingOut, attempts := 0, seq := none } s) :=
    writeSpindle_records_of hsp (Change.wait { sp with clamp := .opened } hst).reforms
  exact ((waits.frame (placeRunOut_frame _ _)).frame (raise_frame _ _)).frame (countSide_frame _ _ _)

theorem takeStartUpBreak_records (h : sp.ClosedAt side pos s) :
    Records x cap [.mark, .join, .renumber] s (takeStartUpBreak side pos sp s) := by
  obtain ⟨hsp, hst, -⟩ := h
  have joins : Records x cap [.mark, .join, .renumber] s
      (joinBreakList side pos .startUp { sp with attempts := 0 } s) :=
    joinBreakList_records hsp fun q => (Change.mark 0 sp.stamps sp.rogueUnlocked { sp with clamp := .opened } (by decide)
      (.inl rfl)).reforms.next (Change.join .startUp q { sp with attempts := 0, clamp := .opened } (by decide)
        (.inl hst))
  exact joins.frame (countSide_frame _ _ _)

/-- The record of an END break, stamped (R31, R32). -/
def Spindle.stamped (x : Nat) (sp : Spindle) : Spindle := { sp with attempts := 0, stamps := addStamp x sp.stamps }

/-- An END break is a lock where the rogue test finds room for one, and otherwise a join (R33, R34). -/
theorem takeEndBreak_cases (h : sp.ClosedAt side pos s) (hx : s.flmm = x) :
    (lockRoom s = true ∧ takeEndBreak side pos sp s =
      countGovernor (countSide side .endBreak (lockSpindle side pos .rogue (sp.stamped s.flmm) s))) ∨
      Records x cap [.mark, .join, .renumber] s (takeEndBreak side pos sp s) := by
  obtain ⟨hsp, hst, -⟩ := h
  have joins (b : Bool) : Records x cap [.mark, .join, .renumber] s
      (joinBreakList side pos .endBreak { sp.stamped s.flmm with rogueUnlocked := b } s) :=
    joinBreakList_records hsp fun q => (Change.mark 0 _ b { sp with clamp := .opened } (by decide)
      (.inr (.inr (by rw [← hx]; rfl)))).reforms.next (Change.join .endBreak q { sp.stamped s.flmm with
        rogueUnlocked := b, clamp := .opened } (by decide) (.inl hst))
  unfold takeEndBreak
  dsimp only
  split
  · split
    · next hroom => exact .inl ⟨hroom, rfl⟩
    · exact .inr ((((joins true).frame (raise_frame _ _)).frame (countSide_frame _ _ _)).frame (countGovernor_frame _))
  · exact .inr (((joins sp.rogueUnlocked).frame (countSide_frame _ _ _)).frame (countGovernor_frame _))

theorem takeEndBreak_records (h : sp.ClosedAt side pos s) (hx : s.flmm = x) :
    Records x cap [.mark, .join, .renumber, .lock] s (takeEndBreak side pos sp s) := by
  rcases takeEndBreak_cases (cap := cap) h hx with ⟨-, heq⟩ | hr
  · rw [heq]
    have hlock : Records x cap [.mark, .join, .renumber, .lock] s
        (lockSpindle side pos .rogue (sp.stamped s.flmm) s) :=
      ((writeSpindle_records_of h.1 ((Change.mark 0 _ sp.rogueUnlocked { sp with clamp := .opened } (by decide)
        (.inr (.inr (by rw [← hx]; rfl)))).reforms.next (Change.lock .rogue _ (.inl h.2.1)))).frame (raise_frame _ _)).frame
        (countSide_frame _ _ _)
    exact (hlock.frame (countSide_frame _ _ _)).frame (countGovernor_frame _)
  · exact hr.mono

/-- A record whose bobbin is replaced by a full one (R133). -/
def Spindle.renewed (art : Article) (sp : Spindle) : Spindle := { sp with roving := some (art.bobbin * 1000) }

/-- A RUNNING spindle makes the split before its bobbin counts as full (R133, R134). -/
theorem replaceBobbin_of_running {y : SpRef} {old : Spindle} (h : s.spindle y.side y.pos = some old)
    (hst : old.state = .running) :
    replaceBobbin y s = countSide y.side .replacement (joinBreakList y.side y.pos .rovingChange
      { (old.close s.articles.active s.flmm).renewed s.articles.active with attempts := 0 } (split s)) := by
  have hart : (split s).articles = s.articles := split_frame s .articles (by decide)
  have hstate : (old.close s.articles.active s.flmm).state = .running := by simp [Spindle.close, hst]
  simp only [replaceBobbin, h, hst, if_true, hart, (split_frame s).flmm, hstate, Spindle.renewed]

theorem replaceBobbin_of_waitRoving {y : SpRef} {old : Spindle} (h : s.spindle y.side y.pos = some old)
    (hst : old.state = .waitRoving) :
    replaceBobbin y s = countSide y.side .replacement (joinBreakList y.side y.pos .rovingChange
      { old.renewed s.articles.active with attempts := 0 } s) := by
  simp [replaceBobbin, h, hst, Spindle.renewed]

theorem replaceBobbin_of_other {y : SpRef} {old : Spindle} (h : s.spindle y.side y.pos = some old)
    (hrun : old.state ≠ .running) (hwait : old.state ≠ .waitRoving) :
    replaceBobbin y s = countSide y.side .replacement (writeSpindle y.side y.pos (old.renewed s.articles.active) s) := by
  unfold replaceBobbin
  rw [h]
  simp only [hrun, if_false]
  split
  · next hst => exact absurd hst hrun
  · next hst => exact absurd hst hwait
  all_goals rfl

/-- The record of a position after the split (R26). -/
theorem split_spindle (side : Side) (pos : Nat) (s : State) :
    (split s).spindle side pos = (s.spindle side pos).map (·.close s.articles.active s.flmm) := by
  have hget : (split s).spindles.get side = (s.spindles.get side).map (·.close s.articles.active s.flmm) := by
    cases side <;> rfl
  unfold State.spindle
  rw [hget]
  split
  · rfl
  · exact List.getElem?_map

/-- A bobbin replaced: a split first where the spindle runs, then the full figure, and a join from RUNNING and
WAIT_ROVING (R133, R134). -/
theorem replaceBobbin_records (y : SpRef) (hx : s.flmm = x) (hcap : s.articles.active.bobbin * 1000 ≤ cap) :
    Records x cap [.close, .clamp, .seed, .mark, .join, .renew, .renumber] s (replaceBobbin y s) := by
  have full (a : Spindle) : Reforms x cap [.close, .clamp, .seed, .mark, .join, .renew, .renumber] a
      { a.renewed s.articles.active with attempts := 0 } :=
    (Change.seed _ a hcap).reforms.next (Change.mark 0 a.stamps a.rogueUnlocked _ (by decide) (.inl rfl))
  cases h : s.spindle y.side y.pos with
  | none => simpa [replaceBobbin, h] using Records.refl s
  | some old =>
    by_cases hrun : old.state = .running
    · have hold : (split s).spindle y.side y.pos = some (old.close s.articles.active s.flmm) := by
        rw [split_spindle, h]; rfl
      have hstate : (old.close s.articles.active s.flmm).state = .running := by simp [Spindle.close, hrun]
      rw [replaceBobbin_of_running h hrun]
      refine (((split_records hx).mono).trans (joinBreakList_records hold fun q => ?_)).frame (countSide_frame _ _ _)
      exact (full _).next (Change.join .rovingChange q _ (by decide) (.inl hstate))
    by_cases hwait : old.state = .waitRoving
    · rw [replaceBobbin_of_waitRoving h hwait]
      refine (joinBreakList_records h fun q => ?_).frame (countSide_frame _ _ _)
      exact (full _).next (Change.renew .rovingChange q _ (by decide) hwait)
    · rw [replaceBobbin_of_other h hrun hwait]
      exact (writeSpindle_records_of h ((Change.seed _ old hcap).reforms.next (Change.clamp _))).frame
        (countSide_frame _ _ _)

end

end Sys2Proof.Machine
end

