-- ==== Sys2Proof/Proofs/FrameFacts.lean ====
section
/-!
PROOFS. What the operations of the Doff Controller and the Speed Program Unit make of their own state: the frame state,
the context, the doff record and the set-point, one equation for each operation.
-/
namespace Sys2Proof.Machine

-- One after another: each theorem as a task of its own takes a thread.
set_option Elab.async false

variable (s : State)

/-! ## The set-point -/

/-- A recomputation leaves the set-point of the inputs as they stand (R16). -/
theorem recomputeSetPoint_speed : (recomputeSetPoint s).speed = { s.speed with setPoint := currentSetPoint s } := by
  unfold recomputeSetPoint
  split
  · next h => rw [h]
  · rfl

/-- SPEED is raised where the set-point differs (R16). -/
theorem recomputeSetPoint_lineRaises :
    LineRaises (speedRaised s.speed.setPoint (currentSetPoint s)) s (recomputeSetPoint s) := by
  unfold LineRaises recomputeSetPoint speedRaised
  by_cases h : currentSetPoint s = s.speed.setPoint
  · simp [h]
  · rw [if_neg h, if_neg fun e => h e.symm]
    exact raise_line _ _

@[simp] theorem recomputeSetPoint_doff : (recomputeSetPoint s).doff = s.doff :=
  recomputeSetPoint_frame s .doff (by decide)

/-! ## The frame state and the context -/

@[simp] theorem changeFrame_doff (f : FrameState) : (changeFrame f s).doff = { s.doff with frame := f } := by
  unfold changeFrame
  dsimp only
  split
  · exact recomputeSetPoint_doff _
  · rfl

/-- The set-point is recomputed where a doff approach state is entered or left (R86). -/
theorem changeFrame_speed (f : FrameState) : (changeFrame f s).speed =
    if (s.doff.frame.capped || f.capped) = true then { s.speed with setPoint := setPointIn s f } else s.speed := by
  unfold changeFrame
  dsimp only
  split
  · exact recomputeSetPoint_speed _
  · rfl

/-- A change of the frame state raises FRAME_STATE, then SPEED where the set-point differs (R16, R86). -/
theorem changeFrame_lineRaises (f : FrameState) : LineRaises
    (.frameState :: if (s.doff.frame.capped || f.capped) = true then speedRaised s.speed.setPoint (setPointIn s f) else [])
    s (changeFrame f s) := by
  unfold changeFrame
  dsimp only
  split
  · exact recomputeSetPoint_lineRaises _
  · exact raise_line _ _

/-- The Doff Controller's state with the context swapped (R103). -/
def Doff.swapped (d : Doff) : Doff :=
  { d with saved := some d.effective, effective := ⟨d.effective.mask &&& ~~~d.doffMask, false⟩ }

/-- The Doff Controller's state with the saved context restored, where one is saved (R104). -/
def Doff.restored (d : Doff) : Doff := { d with effective := d.saved.getD d.effective, saved := none }

/-- The Doff Controller's state with a new doff begun (R92). -/
def Doff.begun (d : Doff) (kind : DoffKind) (fill : Nat) : Doff :=
  { d with
    number := nextDoffNumber d.number
    last := some ⟨nextDoffNumber d.number, kind, fill, 0, 0, none, none⟩
    done := ⟨[], []⟩ }

@[simp] theorem swapContext_doff : (swapContext s).doff = s.doff.swapped := rfl

@[simp] theorem restoreContext_doff : (restoreContext s).doff = s.doff.restored := by
  unfold restoreContext Doff.restored
  split
  · next h => rw [h]; rfl
  · next h =>
    generalize s.doff = d at h ⊢
    cases d
    simp_all

@[simp] theorem beginDoff_doff (k : DoffKind) : (beginDoff k s).doff = s.doff.begun k s.speed.fill := rfl

theorem changeFrame_fill (f : FrameState) : (changeFrame f s).speed.fill = s.speed.fill := by
  rw [changeFrame_speed]; split <;> rfl

@[simp] theorem stopForFill_doff :
    (stopForFill s).doff = ({ s.doff with frame := .doffStopping }).begun .auto s.speed.fill := by
  unfold stopForFill
  rw [show ∀ u, (raise .stopAdvice u).doff = u.doff from fun _ => rfl, beginDoff_doff, changeFrame_doff, changeFrame_fill]

/-- What the two moves of R91 keep, the judgement of the fill keeps. -/
theorem judgeFill_keeps {P : State → Prop}
    (hpend : ∀ u, u.doff.frame = .spinning → P u → P (swapContext (changeFrame .doffPending u)))
    (hstop : ∀ u, u.doff.frame = .doffPending → P u → P (stopForFill u)) (hs : P s) : P (judgeFill s) := by
  unfold judgeFill
  split
  · next hframe =>
    split
    · dsimp only
      split
      · exact hstop _ (by simp [Doff.swapped]) (hpend s hframe hs)
      · exact hpend s hframe hs
    · exact hs
  · next hframe =>
    split
    · exact hstop s hframe hs
    · exact hs
  all_goals exact hs

/-- What the new fill, the moves of R91 and the set-point keep, a recomputation of the fill keeps. -/
theorem recomputeFill_keeps {P : State → Prop}
    (hpend : ∀ u, u.doff.frame = .spinning → P u → P (swapContext (changeFrame .doffPending u)))
    (hstop : ∀ u, u.doff.frame = .doffPending → P u → P (stopForFill u))
    (hspeed : ∀ u v, P u → P (u.setSpeed v)) (hset : ∀ u, P u → P (recomputeSetPoint u)) (hs : P s) :
    P (recomputeFill s) := by
  unfold recomputeFill
  split
  · exact hs
  · exact hset _ (judgeFill_keeps _ hpend hstop (hspeed _ _ hs))

/-- A property of the Doff Controller alone that the two moves of R91 keep. -/
theorem recomputeFill_doff_keeps {P : Doff → Prop}
    (hpend : ∀ d : Doff, d.frame = .spinning → P d → P ({ d with frame := .doffPending }).swapped)
    (hstop : ∀ (d : Doff) f, d.frame = .doffPending → P d → P (({ d with frame := .doffStopping }).begun .auto f))
    (hs : P s.doff) : P (recomputeFill s).doff :=
  recomputeFill_keeps (P := fun u => P u.doff) s (fun u hf hu => by simpa using hpend u.doff hf hu)
    (fun u hf hu => by simpa using hstop u.doff _ hf hu) (fun _ _ hu => hu) (fun _ hu => by simpa using hu) hs

theorem judgeFill_doff_keeps {P : Doff → Prop}
    (hpend : ∀ d : Doff, d.frame = .spinning → P d → P ({ d with frame := .doffPending }).swapped)
    (hstop : ∀ (d : Doff) f, d.frame = .doffPending → P d → P (({ d with frame := .doffStopping }).begun .auto f))
    (hs : P s.doff) : P (judgeFill s).doff :=
  judgeFill_keeps (P := fun u => P u.doff) s (fun u hf hu => by simpa using hpend u.doff hf hu)
    (fun u hf hu => by simpa using hstop u.doff _ hf hu) hs

/-- The fill judged at the end of the start-up watch is that of a SPINNING frame with its context restored (R90). -/
theorem endWatch_eq : endWatch s =
    judgeFill (restoreContext (changeFrame .spinning (s.setDoff { s.doff with watchStart := none }))) := rfl

@[simp] theorem haltFrame_doff : (haltFrame s).doff = { s.doff with watchStart := none, frame := .halted } := by
  simp [haltFrame]

@[simp] theorem startUp_doff :
    (startUp s).doff = { s.doff with watchStart := some s.flmm, frame := .startUp } := by
  simp [startUp]

/-! ## The doff -/

theorem stopByRequest_doff : (stopByRequest s).doff =
    if s.doff.saved.isNone = true then (({ s.doff with frame := .doffStopping }).begun .manual s.speed.fill).swapped
    else ({ s.doff with frame := .doffStopping }).begun .manual s.speed.fill := by
  unfold stopByRequest
  dsimp only
  rw [beginDoff_doff, changeFrame_doff, changeFrame_fill]
  by_cases h : s.doff.saved.isNone = true
  · rw [if_pos h, if_pos (by exact h), swapContext_doff, beginDoff_doff, changeFrame_doff, changeFrame_fill]
  · rw [if_neg h, if_neg (by exact h), beginDoff_doff, changeFrame_doff, changeFrame_fill]

/-- The Doff Controller's state with an outcome in the last doff record (R92). -/
def Doff.outcomeIs (d : Doff) (o : DoffOutcome) (code : Option Nat) : Doff :=
  { d with last := d.last.map fun r => { r with outcome := some o, faultCode := code } }

@[simp] theorem recordOutcome_doff (o : DoffOutcome) (code : Option Nat) :
    (recordOutcome o code s).doff = s.doff.outcomeIs o code := rfl

@[simp] theorem endDoffer_doff :
    (endDoffer s).doff = { s.doff with timer := none, go := .none, ready := false } := rfl

@[simp] theorem clearDoffHolds_doff : (clearDoffHolds s).doff = s.doff := rfl

@[simp] theorem startDoffer_doff : (startDoffer s).doff =
    { s.doff with ready := false, go := .sent, timer := some s.items.dofferTimeout } := rfl

@[simp] theorem failDoff_doff (code : Option Nat) : (failDoff code s).doff =
    { ({ s.doff with timer := none, go := .none, ready := false }).outcomeIs .fault code with frame := .halted } := by
  unfold failDoff
  rw [show ∀ u, (raise .dofferFault u).doff = u.doff from fun _ => rfl, changeFrame_doff]
  rfl

@[simp] theorem abortDoff_doff : (abortDoff s).doff =
    { s.doff.outcomeIs .aborted none with
      frame := .halted
      go := .none
      timer := if s.doff.go = .sent then none else s.doff.timer
      ready := if s.doff.go = .sent then false else s.doff.ready } := by
  unfold abortDoff
  dsimp only
  rw [changeFrame_doff]
  split <;> rfl

/-- DOFFING entered: DOFF_GO sent where the doffer is ready, and awaited otherwise (R94). -/
theorem enterDoffing_doff : (enterDoffing s).doff =
    if s.doff.ready = true then
      { s.doff with frame := .doffing, ready := false, go := .sent, timer := some s.items.dofferTimeout }
    else { s.doff with frame := .doffing, go := .waiting } := by
  have h : OnlyChanges [.doff, .speed, .line, .spindles, .breakList, .carriages, .bus] s
      (setDoffHold .b (setDoffHold .a (withdrawForDoff .b (withdrawForDoff .a (changeFrame .doffing s))))) :=
    ((((changeFrame_frame s _).wide.next (withdrawForDoff_frame _ _)).next (withdrawForDoff_frame _ _)).next
      (setDoffHold_frame _ _)).next (setDoffHold_frame _ _)
  have hd : (setDoffHold .b (setDoffHold .a (withdrawForDoff .b (withdrawForDoff .a
      (changeFrame .doffing s))))).doff = { s.doff with frame := .doffing } := by
    have hw (u : State) (side : Side) : (withdrawForDoff side u).doff = u.doff :=
      withdrawForDoff_frame side u .doff (by decide)
    change (withdrawForDoff .b (withdrawForDoff .a (changeFrame .doffing s))).doff = _
    rw [hw, hw, changeFrame_doff]
  have hitems := h .items (by decide)
  unfold enterDoffing
  dsimp only
  rw [hd]
  dsimp only
  split
  · rw [startDoffer_doff, hd, hitems]
  · rfl

/-! ## The doff's completion -/

theorem makeExchange_articles (a : Article) (o : Occasion) : (makeExchange a o s).articles =
    { active := a, staged := some s.articles.active, request := false, last := some ⟨.done, o, s.flmm⟩ } := by
  have hsplit := split_frame s
  have hart : (split s).articles = s.articles := hsplit .articles (by decide)
  unfold makeExchange
  dsimp only
  rw [hart]
  generalize hu : ((split s).setArticles { s.articles with
    active := a, staged := some s.articles.active, request := false }).setSpeed _ = u
  have hua : u.articles = { s.articles with active := a, staged := some s.articles.active, request := false } := by
    rw [← hu]; rfl
  have huf : u.flmm = s.flmm := by rw [← hu]; exact hsplit.flmm
  have hrest : OnlyChanges [.doff, .speed, .line, .shift] u
      (countFrame .exchange (recomputeSetPoint (recomputeFill u))) :=
    ((recomputeFill_frame u).wide.next (recomputeSetPoint_frame _)).next (countFrame_frame _ _)
  have hra : (countFrame .exchange (recomputeSetPoint (recomputeFill u))).articles = u.articles :=
    hrest .articles (by decide)
  rw [show ∀ v w, (raise .article (State.setArticles v w)).articles = w from fun _ _ => rfl, hrest.flmm, hra, huf, hua]

/-- What R117, or the refusal, makes of the articles at a completed doff (R115). -/
theorem dueExchange_cases : dueExchange s = s ∨
    (∃ a, s.articles.staged = some a ∧ dueExchange s = makeExchange a (.doff s.doff.number) s) ∨
      ∃ r, dueExchange s = refuseExchange r (.doff s.doff.number) s := by
  unfold dueExchange
  split
  · unfold attemptExchange exchangeCheck
    cases h : s.articles.staged with
    | none => exact .inr (.inr ⟨_, rfl⟩)
    | some a =>
      dsimp only
      by_cases hx : rovingCross s.items a = true
      · exact .inr (.inl ⟨a, rfl, by simp [hx]⟩)
      · exact .inr (.inr ⟨.rovingMismatch, by simp [hx]⟩)
  · exact .inl rfl

end Sys2Proof.Machine
end

