-- ==== Sys2Proof/Proofs/SpindleLaws.lean ====
section
/-!
PROOFS. The laws of one spindle record (R21, R23, R27, R32) and the lock ceiling (R24), from the changes that each
operation makes of the records.
-/
namespace Sys2Proof.Machine

-- One after another: each theorem as a task of its own takes a thread.
set_option Elab.async false

/-! ## The articles stay valid -/

theorem ArticleLaw.of_articles {s t : State} (h : t.articles = s.articles) (hs : ArticleLaw s) : ArticleLaw t := by
  simpa only [ArticleLaw, h] using hs

theorem ArticleLaw.of_frame {ps : List Part} {s t : State} (h : OnlyChanges ps s t) (hs : ArticleLaw s)
    (hp : .articles ∉ ps := by decide) : ArticleLaw t := hs.of_articles (h .articles hp)

/-- An exchange puts the staged article in force and stages the outgoing one (R117). -/
theorem ArticleLaw.makeExchange {s : State} {a : Article} (hs : ArticleLaw s) (h : s.articles.staged = some a)
    (o : Occasion) : ArticleLaw (makeExchange a o s) := by
  obtain ⟨hactive, hstaged⟩ := hs
  refine ⟨?_, ?_⟩
  · rw [makeExchange_articles]
    exact hstaged a h
  · rw [makeExchange_articles]
    rintro b hb
    obtain rfl := Option.some.inj hb
    exact hactive

theorem ArticleLaw.dueExchange {s : State} (hs : ArticleLaw s) : ArticleLaw (dueExchange s) := by
  rcases dueExchange_cases s with h | ⟨a, ha, h⟩ | ⟨r, h⟩
  · rwa [h]
  · rw [h]; exact hs.makeExchange ha _
  · rw [h]; exact hs

theorem Op.articleLaw {ps : List Part} {s t : State} (h : Op ps s t) (hs : ArticleLaw s) : ArticleLaw t := by
  have hf := h.frame
  cases h with
  | stage a _ h =>
    obtain ⟨hactive, -⟩ := hs
    exact ⟨hactive, fun b hb => by cases hb; exact h⟩
  | request => exact hs
  | refuseExchange => exact hs
  | exchange a o _ h => exact hs.makeExchange h o
  | completeDoff byHand =>
    rw [completeDoff_eq]
    have hreset : ArticleLaw (resetCops s) := hs.of_frame (resetCops_frame s)
    exact hreset.dueExchange.of_frame ((((((clearDoffHolds_frame _).wide (rs := [.carriages, .doff, .shift, .line, .bus,
      .speed])).next (recordOutcome_frame _ _ _)).next (countFrame_frame _ _)).next (stopDoffer_frame _ _)).next
      (endDoffer_frame _) |>.next (changeFrame_frame _ _))
  | _ => exact hs.of_frame hf

theorem storedArticle_program (l : List (Nat × Nat)) : (storedArticle l).program.length = 16 := by
  simp [storedArticle, Article.ofFields]

theorem Article.default_valid : Article.default.Valid := by decide

/-- The article formed at load end passes validation, or is the built-in one (R112). -/
theorem formedState_articleLaw (s : State) : ArticleLaw (formedState s) := by
  refine ⟨?_, by simp [formedState, State.reset]⟩
  change (if articlePasses _ _ = true then _ else Article.default).Valid
  split
  · next h =>
    refine ⟨storedArticle_program _, ?_⟩
    simp only [articlePasses, Bool.and_eq_true, Option.isNone_iff_eq_none] at h
    exact h.1
  · exact Article.default_valid

theorem articleLaw_lineFree : LineFree ArticleLaw where
  pending _ _ h := h
  line _ _ h := h
  loader _ _ h := h
  phase _ _ h := h

/-- The soft reset withdraws a pending exchange request and changes no article (R119). -/
theorem softReset_articles (s : State) : (softReset s).articles = { s.articles with request := false } := by
  have hbefore := ((((softResetCarriage_frame .a s).wide (rs := [.carriages, .bus, .spindles, .breakList, .breakSeq,
    .doff, .line])).next (softResetCarriage_frame .b _)).next (softResetSpindles_frame .a _)).next
    (softResetSpindles_frame .b _) |>.next (softResetDoff_frame _)
  have hart := hbefore .articles (by decide)
  unfold softReset
  dsimp only
  generalize softResetDoff _ = u at hart ⊢
  have hafter := (((softResetRoving_frame (u.setArticles { u.articles with request := false })).wide
    (rs := [.roving, .bus, .line, .speed])).next (softResetTrain_frame _)).next (softResetSpeed_frame _)
  rw [State.setLine_articles, hafter .articles (by decide), State.setArticles_articles, hart]

theorem softReset_articleLaw {s : State} (hs : ArticleLaw s) : ArticleLaw (softReset s) := by
  simpa only [ArticleLaw, softReset_articles] using hs

theorem step_articleLaw {s t : State} (hstep : step s = .next t) (hs : ArticleLaw s) : ArticleLaw t :=
  articleLaw_lineFree.step (fun _ _ => ⟨Article.default_valid, by simp [State.reset]⟩) (fun s _ => formedState_articleLaw s)
    (fun _ _ h => h) Op.articleLaw (fun _ => softReset_articleLaw) hstep hs

/-! ## The records under every operation -/

/-- The changes of a record that neither lock it nor reset its cop. -/
def plainChanges : List ChangeKind :=
  [.close, .clamp, .renumber, .resequence, .seed, .mark, .join, .renew, .order, .giveBack, .piece, .pieceOrdered, .wait,
    .park, .unpark]

/-- Every operation makes the plain changes alone, but for the change of a section count, a completed doff and the two
that can lock a spindle. -/
theorem Op.records {ps : List Part} {s t : State} {cap : Nat} (h : Op ps s t)
    (hcap : s.articles.active.bobbin * 1000 ≤ cap) :
    Records s.flmm cap plainChanges s t ∨ (∃ side n, s.phase = .running ∧ t = changeSections side n s) ∨
      (∃ byHand, t = Machine.completeDoff byHand s) ∨ (∃ side pos, t = Machine.pieceMissed side pos s) ∨
      ∃ side pos sp, sp.ClosedAt side pos s ∧ t = takeEndBreak side pos sp s := by
  have hf := h.frame
  cases h with
  | sections side n _ _ _ hp => exact .inr (.inl ⟨side, n, hp, rfl⟩)
  | completeDoff byHand => exact .inr (.inr (.inl ⟨_, rfl⟩))
  | pieceMissed side pos => exact .inr (.inr (.inr (.inl ⟨side, pos, rfl⟩)))
  | endBreak side pos sp _ h => exact .inr (.inr (.inr (.inr ⟨side, pos, sp, h, rfl⟩)))
  | exchange a o _ => exact .inl (makeExchange_records a o rfl).mono
  | dispatch => exact .inl dispatchTest_records.mono
  | enterDoffing => exact .inl enterDoffing_records.mono
  | park => exact .inl (parkSpindle_records rfl).mono
  | unpark side pos sp _ h hst =>
    have hcredit := creditPossible_frame side s
    have hsp : (creditPossible side s).spindle side pos = some sp := h
    refine .inl (hcredit.records.trans (joinBreakList_records hsp fun q => ?_))
    exact (Change.mark 0 sp.stamps sp.rogueUnlocked sp (by decide) (.inl rfl)).reforms.next
      (Change.unpark .release q _ (by decide) hst)
  | release side pos sp _ h hst =>
    refine .inl (joinBreakList_records h fun q => ?_)
    exact (Change.mark 0 [] false sp (by decide) (.inr (.inl rfl))).reforms.next
      (Change.join .release q _ (by decide) (.inr hst))
  | seed side pos metres _ h =>
    exact .inl (seedRoving_records rfl ((Nat.mul_le_mul_right _ h).trans hcap)).mono
  | closeShift label stamp => exact .inl (closeShift_records label stamp rfl).mono
  | arrives => exact .inl carriageArrives_records.mono
  | pieceDone => exact .inl (pieceDone_records rfl).mono
  | lateOutcome side pos ok => exact .inl (lateOutcome_records ok rfl).mono
  | timeout side k => exact .inl (carriageTimeout_records k).mono
  | silent => exact .inl carriageSilent_records.mono
  | closeInterval => exact .inl (closeInterval_records rfl).mono
  | runOut side pos sp _ h => exact .inl (takeRunOut_records h).mono
  | startUpBreak side pos sp _ h => exact .inl (takeStartUpBreak_records h).mono
  | yarnFound => exact .inl (yarnFound_records rfl).mono
  | replaceSlot y _ h =>
    have hslot := (emptySlot_frame s).records (x := s.flmm) (cap := cap) (ks := plainChanges)
    exact .inl ((hslot.next (replaceBobbin_records y rfl hcap)).frame (endingTest_frame _))
  | replaceListed y _ hn h =>
    have hlist := (unlist_frame s y).records (x := s.flmm) (cap := cap) (ks := plainChanges)
    exact .inl (hlist.next (replaceBobbin_records y rfl hcap))
  | _ => exact .inl hf.records

/-- The same with every kind of change. -/
theorem Op.records_any {ps : List Part} {s t : State} {cap : Nat} (h : Op ps s t)
    (hcap : s.articles.active.bobbin * 1000 ≤ cap) :
    Records s.flmm cap (.lock :: .zeroCop :: plainChanges) s t ∨ ∃ side n, s.phase = .running ∧ t = changeSections side n s := by
  rcases h.records hcap with h | h | ⟨b, rfl⟩ | ⟨side, pos, rfl⟩ | ⟨side, pos, sp, hc, rfl⟩
  · exact .inl h.mono
  · exact .inr h
  · exact .inl (completeDoff_records b rfl).mono
  · exact .inl pieceMissed_records.mono
  · exact .inl (takeEndBreak_records hc rfl).mono

/-! ### The change of a section count -/

theorem recallCarriage_spindles (side : Side) (keep : Nat) (s : State) :
    (recallCarriage side keep s).spindles = s.spindles := recallCarriage_frame side s keep .spindles (by decide)

/-- The tables of records after a change of a section count (R22, R47). -/
theorem changeSections_spindles (side : Side) (n : Nat) (s : State) : (changeSections side n s).spindles =
    s.spindles.set side ((s.spindles.get side).take (48 * n) ++
      List.replicate (48 * n - (s.spindles.get side).length) (Spindle.formed s.flmm)) := by
  have h := ((creditPossible_frame side s).wide (rs := [.shift, .breakList, .roving, .line])).next
    (releaseRemoved_frame side _ (48 * n)) |>.next (releaseSlot_frame side _ (48 * n))
  have hsp := h .spindles (by decide)
  have hflmm := h.flmm
  unfold changeSections
  dsimp only
  rw [recallCarriage_spindles]
  generalize releaseSlot side (48 * n) (releaseRemoved side (48 * n) (creditPossible side s)) = u at hsp hflmm
  change u.spindles.set side ((u.spindles.get side).take (48 * n) ++
    List.replicate (48 * n - (u.spindles.get side).length) (Spindle.formed u.flmm)) = _
  rw [hsp, hflmm]

/-- Each record of the changed state stood before, or has just been formed. -/
theorem changeSections_mem {side sd : Side} {n : Nat} {s : State} {sp : Spindle}
    (h : sp ∈ (changeSections side n s).spindles.get sd) : sp ∈ s.spindles.get sd ∨ sp = Spindle.formed s.flmm := by
  rw [changeSections_spindles] at h
  by_cases hsd : sd = side
  · subst hsd
    rw [Sides.get_set_same, List.mem_append] at h
    exact h.imp List.mem_of_mem_take List.eq_of_mem_replicate
  · rw [Sides.get_set_other _ _ _ _ hsd] at h
    exact .inl h

/-! ### Load end and the soft reset -/

theorem formedState_flmm (s : State) : (formedState s).flmm = 0 := Nat.zero_div 1000

theorem formedState_mem {side : Side} {s : State} {sp : Spindle} (h : sp ∈ (formedState s).spindles.get side) :
    sp = Spindle.formed 0 := by
  cases side <;> exact List.eq_of_mem_replicate h

/-- Records that come one by one from those of a list. -/
theorem records_of_forall₂ {x cap : Nat} {ks : List ChangeKind} {s t : State}
    (h : ∀ side, List.Forall₂ (Reforms x cap ks) (s.spindles.get side) (t.spindles.get side)) : Records x cap ks s t := by
  intro side
  refine ⟨(h side).length_eq.symm, fun pos sp' hsp' => ?_⟩
  unfold State.spindle at hsp' ⊢
  split at hsp'
  · cases hsp'
  · next h0 =>
    obtain ⟨hlt, rfl⟩ := List.getElem?_eq_some_iff.1 hsp'
    have hlt' : pos - 1 < (s.spindles.get side).length := (h side).length_eq ▸ hlt
    exact ⟨_, by rw [if_neg h0, List.getElem?_eq_getElem hlt']; rfl, (h side).get hlt' hlt⟩

theorem Records.forall₂ {x cap : Nat} {ks : List ChangeKind} {s t : State} (h : Records x cap ks s t) (side : Side) :
    List.Forall₂ (Reforms x cap ks) (s.spindles.get side) (t.spindles.get side) := by
  obtain ⟨hlen, hpos⟩ := h side
  refine List.forall₂_iff_get.2 ⟨hlen.symm, fun i h1 h2 => ?_⟩
  obtain ⟨sp, hsp, hr⟩ := hpos (i + 1) _ (by simp [State.spindle, h2] : _ = some ((t.spindles.get side)[i]))
  have hold : sp = (s.spindles.get side)[i] := by
    have : (s.spindles.get side)[i]? = some sp := by simpa [State.spindle] using hsp
    rw [List.getElem?_eq_getElem h1] at this
    exact (Option.some.inj this).symm
  rw [hold] at hr
  exact hr

/-- A PIECING record is given back (R48). -/
theorem Spindle.softReset_reforms {x cap : Nat} (sp : Spindle) : Reforms x cap [.giveBack] sp sp.softReset := by
  unfold Spindle.softReset
  split
  · next h => exact (Change.giveBack sp h).reforms
  · exact .refl sp

theorem renumberByPosition_reforms {x cap : Nat} (n : Nat) (l : List Spindle) :
    List.Forall₂ (Reforms x cap [.resequence]) l (renumberByPosition n l) := by
  induction l generalizing n with
  | nil => exact .nil
  | cons sp rest ih =>
    unfold renumberByPosition
    split
    · next h => exact .cons (Change.resequence (n + 1) sp h).reforms (ih _)
    · exact .cons (.refl sp) (ih _)

/-- The table of a side after its part of the soft reset (R48, R65). -/
theorem softResetSpindles_spindles (side : Side) (s : State) : (softResetSpindles side s).spindles =
    s.spindles.set side (renumberByPosition 0 ((s.spindles.get side).map (·.softReset))) := by
  have h := closePiecing_frame side s 1 (s.spindles.get side) .spindles (by decide)
  unfold softResetSpindles
  dsimp only
  change (closePiecing side 1 (s.spindles.get side) s).spindles.set side _ = _
  rw [h]

theorem softResetSpindles_records {x cap : Nat} (side : Side) (s : State) :
    Records x cap [.giveBack, .resequence] s (softResetSpindles side s) := by
  refine records_of_forall₂ fun sd => ?_
  rw [softResetSpindles_spindles]
  by_cases hsd : sd = side
  · subst hsd
    rw [Sides.get_set_same]
    have given : Records x cap [.giveBack, .resequence] s
        (s.setSpindles (s.spindles.modify sd (·.map (·.softReset)))) :=
      mapSpindles_records fun sp => sp.softReset_reforms.mono (by decide)
    have numbered : Records x cap [.giveBack, .resequence] (s.setSpindles (s.spindles.modify sd (·.map (·.softReset))))
        (s.setSpindles (s.spindles.set sd (renumberByPosition 0 ((s.spindles.get sd).map (·.softReset))))) := by
      refine records_of_forall₂ fun sd' => ?_
      by_cases hsd' : sd' = sd
      · subst hsd'
        simp only [State.setSpindles_spindles, Sides.get_modify_same, Sides.get_set_same]
        exact (renumberByPosition_reforms 0 _).imp fun _ _ h => h.mono (by decide)
      · simp only [State.setSpindles_spindles, Sides.get_modify_other _ _ _ _ hsd', Sides.get_set_other _ _ _ _ hsd']
        exact List.forall₂_same.2 fun a _ => .refl a
    simpa using (given.trans numbered).forall₂ sd
  · rw [Sides.get_set_other _ _ _ _ hsd]
    exact List.forall₂_same.2 fun a _ => .refl a

theorem softReset_records {x cap : Nat} (s : State) : Records x cap [.giveBack, .resequence] s (softReset s) :=
  ((((((((((softResetCarriage_frame .a s).records.frame (softResetCarriage_frame .b _)).trans
    (softResetSpindles_records .a _)).trans (softResetSpindles_records .b _)).frame (softResetDoff_frame _)).frame
    (setArticles_frame _ _)).frame (softResetRoving_frame _)).frame (softResetTrain_frame _)).frame
    (softResetSpeed_frame _)).frame (setLine_frame _ _))

/-! ## The fields of each record (R21, R23) -/

/-- The fields that a record holds in its state, with their widths, and its clamp (R21, R23). -/
def Spindle.Lawful (sp : Spindle) : Prop :=
  ((sp.marker.isSome ↔ sp.state = .running) ∧
    (sp.seq.isSome ↔ sp.state = .broken ∨ sp.state = .piecing) ∧
    (sp.cause.isSome ↔ sp.state = .broken ∨ sp.state = .piecing ∨ sp.state = .waitRoving) ∧
    (sp.cause = some .rovingOut ↔ sp.state = .waitRoving) ∧
    (sp.lockCause.isSome ↔ sp.state = .locked) ∧
    sp.attempts ≤ 3 ∧ sp.stamps.length ≤ 15 ∧ sp.cop ≤ 4294967295 ∧ (∀ r ∈ sp.roving, r ≤ 6000000)) ∧
  (sp.clamp = .opened ↔ sp.state = .running ∨ sp.state = .piecing)

theorem lawful_iff (s : State) : RecordLaw s ∧ ClampLaw s ↔ ∀ side, ∀ sp ∈ s.spindles.get side, sp.Lawful := by
  refine (and_congr everySpindle_iff everySpindle_iff).trans ?_
  exact ⟨fun ⟨h1, h2⟩ side sp hsp => ⟨h1 side sp hsp, h2 side sp hsp⟩,
    fun h => ⟨fun side sp hsp => (h side sp hsp).1, fun side sp hsp => (h side sp hsp).2⟩⟩

theorem addStamp_length {x : Nat} {l : List Nat} (h : l.length ≤ 15) : (addStamp x l).length ≤ 15 := by
  unfold addStamp
  split
  · exact h
  · split
    · simp; omega
    · simp; omega

theorem Spindle.formed_lawful (x : Nat) : (Spindle.formed x).Lawful := by simp [Spindle.formed, Spindle.Lawful]

theorem Change.lawful {x cap : Nat} {k : ChangeKind} {a b : Spindle} (h : Change x cap k a b) (hcap : cap ≤ 6000000)
    (ha : a.Lawful) : b.Lawful := by
  obtain ⟨⟨hmark, hseq, hcause, hout, hlock, hatt, hst, hcop, hrov⟩, hclamp⟩ := ha
  cases h with
  | close art =>
    unfold Spindle.close
    split
    · next hrun =>
      refine ⟨⟨by simp [hrun], hseq, hcause, hout, hlock, hatt, hst, Nat.min_le_left _ _, ?_⟩, hclamp⟩
      simp only [Option.mem_def, Option.map_eq_some_iff]
      rintro _ ⟨r, hr, rfl⟩
      exact (Nat.sub_le _ _).trans (hrov r hr)
    · exact ⟨⟨hmark, hseq, hcause, hout, hlock, hatt, hst, hcop, hrov⟩, hclamp⟩
  | clamp =>
    refine ⟨⟨hmark, hseq, hcause, hout, hlock, hatt, hst, hcop, hrov⟩, ?_⟩
    cases hs : a.state <;> simp [SpState.clamp]
  | zeroCop => exact ⟨⟨hmark, hseq, hcause, hout, hlock, hatt, hst, Nat.zero_le _, hrov⟩, hclamp⟩
  | renumber f => exact ⟨⟨hmark, by simpa using hseq, hcause, hout, hlock, hatt, hst, hcop, hrov⟩, hclamp⟩
  | resequence q _ h => exact ⟨⟨hmark, by simp [h], hcause, hout, hlock, hatt, hst, hcop, hrov⟩, hclamp⟩
  | seed r _ h =>
    exact ⟨⟨hmark, hseq, hcause, hout, hlock, hatt, hst, hcop, fun v hv => by cases hv; exact h.trans hcap⟩, hclamp⟩
  | mark n st b _ hn hs =>
    refine ⟨⟨hmark, hseq, hcause, hout, hlock, hn, ?_, hcop, hrov⟩, hclamp⟩
    rcases hs with rfl | rfl | rfl
    exacts [hst, Nat.zero_le _, addStamp_length hst]
  | join c q _ hc | renew c q _ hc | unpark c q _ hc =>
    exact ⟨⟨by simp [Spindle.joined], by simp [Spindle.joined], by simp [Spindle.joined],
      by simp [Spindle.joined, hc], by simp [Spindle.joined], hatt, hst, hcop, hrov⟩, by simp [Spindle.joined]⟩
  | order _ h | giveBack _ h =>
    simp [h] at hmark hseq hcause hout hlock
    exact ⟨⟨by simp [hmark], by simp [hseq], by simp [hcause], by simp [hout], by simp [hlock], hatt, hst, hcop, hrov⟩,
      by simp⟩
  | piece _ h | pieceOrdered _ h =>
    simp only [h, reduceCtorEq, iff_false] at hlock
    exact ⟨⟨by simp [Spindle.piecedOpen, Spindle.pieced], by simp [Spindle.piecedOpen, Spindle.pieced],
      by simp [Spindle.piecedOpen, Spindle.pieced], by simp [Spindle.piecedOpen, Spindle.pieced],
      by simp [Spindle.piecedOpen, Spindle.pieced, hlock], Nat.zero_le _, hst, hcop, hrov⟩,
      by simp [Spindle.piecedOpen, Spindle.pieced]⟩
  | lock c =>
    exact ⟨⟨by simp [Spindle.locked], by simp [Spindle.locked], by simp [Spindle.locked], by simp [Spindle.locked],
      by simp [Spindle.locked], hatt, hst, hcop, hrov⟩, by simp [Spindle.locked]⟩
  | wait _ h =>
    simp only [h, reduceCtorEq, iff_false] at hlock
    exact ⟨⟨by simp, by simp, by simp, by simp, by simp [hlock], Nat.zero_le _, hst, hcop, hrov⟩, by simp⟩
  | park =>
    exact ⟨⟨by simp [Spindle.parked], by simp [Spindle.parked], by simp [Spindle.parked], by simp [Spindle.parked],
      by simp [Spindle.parked], Nat.zero_le _, hst, hcop, hrov⟩, by simp [Spindle.parked]⟩

/-- The bobbin length of a valid article. -/
theorem Article.bobbin_le_of_valid {a : Article} (h : a.Valid) : a.bobbin ≤ 6000 := by
  obtain ⟨hprogram, hfields⟩ := h
  simp only [Article.failingField, Article.fields, List.cons_append, List.nil_append, firstFailing, articleFieldOk,
    articleRange] at hfields
  by_contra hgt
  simp [show ¬ a.bobbin ≤ 6000 from hgt] at hfields
  grind

/-- The articles are valid and the records lawful. -/
def SpindlesLawful (s : State) : Prop := ArticleLaw s ∧ ∀ side, ∀ sp ∈ s.spindles.get side, sp.Lawful

theorem Op.spindlesLawful {ps : List Part} {s t : State} (h : Op ps s t) (hs : SpindlesLawful s) : SpindlesLawful t := by
  obtain ⟨hart, hlaw⟩ := hs
  refine ⟨h.articleLaw hart, ?_⟩
  have hcap : s.articles.active.bobbin * 1000 ≤ 6000000 :=
    Nat.mul_le_mul_right 1000 (Article.bobbin_le_of_valid hart.1)
  rcases h.records_any hcap with h | ⟨side, n, -, rfl⟩
  · exact h.keeps (fun _ hc ha => hc.lawful (Nat.le_refl _) ha) hlaw
  · intro sd sp hsp
    rcases changeSections_mem hsp with hold | rfl
    exacts [hlaw sd sp hold, Spindle.formed_lawful _]

/-- Settles O7: each change of a record leaves it lawful. -/
theorem recordAndClampLawsAreKept : Obligations.RecordAndClampLawsAreKept := by
  unfold Obligations.RecordAndClampLawsAreKept
  intro s t hart hrec hclamp hstep
  have free : LineFree SpindlesLawful := ⟨fun _ _ h => h, fun _ _ h => h, fun _ _ h => h, fun _ _ h => h⟩
  have h : SpindlesLawful t := free.step
    (fun _ _ => ⟨⟨Article.default_valid, by simp [State.reset]⟩, fun side => by cases side <;> exact List.forall_mem_nil _⟩)
    (fun s _ => ⟨formedState_articleLaw s, fun side sp hsp => formedState_mem hsp ▸ Spindle.formed_lawful 0⟩)
    (fun _ _ h => h) Op.spindlesLawful
    (fun s hs => ⟨softReset_articleLaw hs.1, (softReset_records (x := 0) (cap := 0) s).keeps
      (fun _ hc ha => hc.lawful (Nat.zero_le _) ha) hs.2⟩)
    hstep ⟨hart, (lawful_iff s).1 ⟨hrec, hclamp⟩⟩
  exact (lawful_iff t).2 h.2

end Sys2Proof.Machine
end

