-- ==== Sys2Proof/Proofs/CopAndCeiling.lean ====
section
/-!
PROOFS. The cop lengths, markers and stamps within the frame length (R27, R32), and the lock ceiling (R24).
-/
namespace Sys2Proof.Machine

-- One after another: each theorem as a task of its own takes a thread.
set_option Elab.async false

/-! ## Cop lengths, markers and stamps -/

/-- A record's cop length, marker and stamps against the cop base and FLmm (R27, R32), with a marker in RUNNING alone. -/
def Spindle.CopWithin (base x : Nat) (sp : Spindle) : Prop :=
  ((∀ m ∈ sp.marker, base + sp.cop ≤ m ∧ m ≤ x) ∧ sp.cop ≤ x - base ∧ sp.stamps.Pairwise (· < ·) ∧
    ∀ y ∈ sp.stamps, y ≤ x) ∧
  (sp.marker.isSome → sp.state = .running)

/-- The stamps stay ascending and end at the FLmm of the last break (R32). -/
theorem addStamp_ascending {x : Nat} {l : List Nat} (hs : l.Pairwise (· < ·)) (hx : ∀ y ∈ l, y ≤ x) :
    (addStamp x l).Pairwise (· < ·) ∧ ∀ y ∈ addStamp x l, y ≤ x := by
  unfold addStamp
  by_cases hlast : l.getLast? = some x
  · rw [if_pos hlast]
    exact ⟨hs, hx⟩
  rw [if_neg hlast]
  have below : ∀ y ∈ l, y < x := by
    intro y hy
    refine lt_of_le_of_ne (hx y hy) ?_
    rintro rfl
    have hne : l ≠ [] := List.ne_nil_of_mem hy
    have hle : ∀ z ∈ l, z ≤ l.getLast hne := by
      obtain ⟨init, z, rfl⟩ : ∃ init z, l = init ++ [z] := ⟨l.dropLast, l.getLast hne, (List.dropLast_append_getLast hne).symm⟩
      simp only [List.getLast_append_singleton, List.mem_append, List.mem_singleton]
      rintro w (hw | rfl)
      · exact ((List.pairwise_append.1 hs).2.2 w hw z (by simp)).le
      · exact le_rfl
    have heq : l.getLast hne = y := le_antisymm (hx _ (List.getLast_mem hne)) (hle y hy)
    exact hlast (by rw [List.getLast?_eq_getLast_of_ne_nil hne, heq])
  have appended (m : List Nat) (hsub : m.Sublist l) : (m ++ [x]).Pairwise (· < ·) ∧ ∀ y ∈ m ++ [x], y ≤ x := by
    refine ⟨List.pairwise_append.2 ⟨hs.sublist hsub, List.pairwise_singleton _ _, fun y hy z hz => ?_⟩, fun y hy => ?_⟩
    · rw [List.mem_singleton.1 hz]
      exact below y (hsub.subset hy)
    · rcases List.mem_append.1 hy with h | h
      · exact hx y (hsub.subset h)
      · exact (List.mem_singleton.1 h).le
  split
  · exact appended _ (List.drop_sublist _ _)
  · exact appended l (.refl l)

theorem Spindle.formed_copWithin {base x : Nat} (h : base ≤ x) : (Spindle.formed x).CopWithin base x := by
  simp [Spindle.formed, Spindle.CopWithin, h]

/-- Every change but the cop reset keeps a record within the frame length. -/
theorem Change.copWithin {x cap base : Nat} {k : ChangeKind} {a b : Spindle} (h : Change x cap k a b)
    (hk : k ≠ .zeroCop) (hb : base ≤ x) (ha : a.CopWithin base x) : b.CopWithin base x := by
  obtain ⟨⟨hmark, hcop, hst, hle⟩, hrun⟩ := ha
  have none_of {st : SpState} (hs : a.state = st) (hne : st ≠ .running := by decide) : a.marker = none := by
    cases hm : a.marker with
    | none => rfl
    | some m => exact absurd ((hrun (by simp [hm])).symm.trans hs).symm hne
  cases h with
  | close art =>
    unfold Spindle.close
    split
    · next hs =>
      have hlen : base + (a.cop + a.openLength x) ≤ x := by
        unfold Spindle.openLength
        rw [hs]
        cases hm : a.marker with
        | none => simp only; omega
        | some m =>
          obtain ⟨h1, h2⟩ := hmark m hm
          simp only
          omega
      have hmin := Nat.min_le_right 4294967295 (a.cop + a.openLength x)
      refine ⟨⟨fun m hm => ?_, by simp only; omega, hst, hle⟩, fun _ => hs⟩
      cases hm
      exact ⟨by simp only; omega, le_rfl⟩
    · exact ⟨⟨hmark, hcop, hst, hle⟩, hrun⟩
  | clamp | renumber | resequence | seed => exact ⟨⟨hmark, hcop, hst, hle⟩, hrun⟩
  | zeroCop => exact absurd rfl hk
  | mark n st b _ hn hs =>
    have hst' : st.Pairwise (· < ·) ∧ ∀ y ∈ st, y ≤ x := by
      rcases hs with rfl | rfl | rfl
      exacts [⟨hst, hle⟩, ⟨List.Pairwise.nil, by simp⟩, addStamp_ascending hst hle]
    exact ⟨⟨hmark, hcop, hst'⟩, hrun⟩
  | order _ h | giveBack _ h =>
    have hnone := none_of h
    exact ⟨⟨by simp [hnone], hcop, hst, hle⟩, by simp [hnone]⟩
  | piece | pieceOrdered =>
    refine ⟨⟨fun m hm => ?_, hcop, hst, hle⟩, fun _ => rfl⟩
    cases hm
    exact ⟨by change base + a.cop ≤ x; omega, le_rfl⟩
  | join | renew | lock | wait | park | unpark =>
    exact ⟨⟨fun m hm => (by cases hm), hcop, hst, hle⟩, fun h => (by cases h)⟩

/-- After the split every marker stands at FLmm (R26), and after the cop reset no record holds a cop length (R27). -/
theorem resetCops_copWithin {s : State} {side : Side} {sp : Spindle}
    (hs : ∀ side, ∀ sp ∈ s.spindles.get side, sp.CopWithin s.doff.copBase s.flmm) (hb : s.doff.copBase ≤ s.flmm)
    (h : sp ∈ (resetCops s).spindles.get side) : sp.CopWithin s.flmm s.flmm := by
  have hmem : ∃ old ∈ s.spindles.get side, sp = { old.close s.articles.active s.flmm with cop := 0 } := by
    have hsp : (resetCops s).spindles = (zeroCops (split s)).spindles :=
      (((setDoff_frame _ _).wide (rs := [.doff, .speed, .line])).next (recomputeFill_frame _)) .spindles (by decide)
    rw [hsp] at h
    have hget : (zeroCops (split s)).spindles.get side =
        ((s.spindles.get side).map (·.close s.articles.active s.flmm)).map fun sp => { sp with cop := 0 } := by
      cases side <;> rfl
    rw [hget, List.map_map, List.mem_map] at h
    obtain ⟨old, hold, rfl⟩ := h
    exact ⟨old, hold, rfl⟩
  obtain ⟨old, hold, rfl⟩ := hmem
  have hclose := (Change.close (cap := 0) s.articles.active old).copWithin (by decide) hb (hs side old hold)
  obtain ⟨⟨hmark, hcop, hst, hle⟩, hrun⟩ := hclose
  refine ⟨⟨fun m hm => ?_, Nat.zero_le _, hst, hle⟩, hrun⟩
  obtain ⟨h1, h2⟩ := hmark m hm
  have hstate : old.state = .running := by
    have := hrun (by rw [show (old.close s.articles.active s.flmm).marker = some m from hm]; rfl)
    unfold Spindle.close at this
    split at this
    · assumption
    · exact this
  have hm' : m = s.flmm := by simpa [Spindle.close, hstate, eq_comm] using hm
  subst hm'
  exact ⟨le_rfl, le_rfl⟩

/-- The records stand within the frame length, the cop base at or below it. -/
def CopsWithin (s : State) : Prop :=
  s.doff.copBase ≤ s.flmm ∧ ∀ side, ∀ sp ∈ s.spindles.get side, sp.CopWithin s.doff.copBase s.flmm

theorem copsWithin_of_laws {s : State} (hr : RecordLaw s) (hc : CopLaw s) : CopsWithin s := by
  obtain ⟨hbase, hcop⟩ := hc
  exact ⟨hbase, fun side sp hsp => ⟨everySpindle_iff.1 hcop side sp hsp, (everySpindle_iff.1 hr side sp hsp).1.1⟩⟩

theorem CopsWithin.copLaw {s : State} (h : CopsWithin s) : CopLaw s :=
  ⟨h.1, everySpindle_iff.2 fun side sp hsp => (h.2 side sp hsp).1⟩

theorem recomputeFill_copBase (s : State) : (recomputeFill s).doff.copBase = s.doff.copBase :=
  recomputeFill_doff_keeps (P := fun d => d.copBase = s.doff.copBase) s (fun _ _ h => h) (fun _ _ _ h => h) rfl

theorem makeExchange_copBase (a : Article) (o : Occasion) (s : State) :
    (makeExchange a o s).doff.copBase = s.doff.copBase := by
  unfold makeExchange
  dsimp only
  generalize hu : State.setSpeed _ _ = u
  have hdoff : u.doff = s.doff := by rw [← hu]; exact split_frame s .doff (by decide)
  have hrest := ((recomputeSetPoint_frame (recomputeFill u)).wide (rs := [.speed, .shift, .articles, .line])).next
    (countFrame_frame _ .exchange)
  change (countFrame .exchange (recomputeSetPoint (recomputeFill u))).doff.copBase = _
  rw [hrest .doff (by decide), recomputeFill_copBase, hdoff]

theorem dueExchange_copBase (s : State) : (dueExchange s).doff.copBase = s.doff.copBase := by
  rcases dueExchange_cases s with h | ⟨a, -, h⟩ | ⟨r, h⟩
  · rw [h]
  · rw [h, makeExchange_copBase]
  · rw [h]; rfl

/-- The cop base that a completed doff leaves (R27). -/
theorem completeDoff_copBase (byHand : Bool) (s : State) : (completeDoff byHand s).doff.copBase = s.flmm := by
  have hreset : (resetCops s).doff.copBase = s.flmm := by
    rw [resetCops_eq, recomputeFill_copBase]
    exact (split_frame s).flmm
  have hcount (u : State) : (countFrame .doff u).doff = u.doff := countFrame_frame u .doff .doff (by decide)
  have hstop (u : State) : (stopDoffer byHand u).doff = u.doff := stopDoffer_frame u byHand .doff (by decide)
  rw [completeDoff_eq, changeFrame_doff, endDoffer_doff]
  change (stopDoffer byHand _).doff.copBase = _
  rw [hstop, hcount, recordOutcome_doff]
  exact (dueExchange_copBase _).trans hreset

/-- No operation but a completed doff moves the cop base. -/
theorem Op.copBase {ps : List Part} {s t : State} (h : Op ps s t) :
    t.doff.copBase = s.doff.copBase ∨ ∃ byHand, t = Machine.completeDoff byHand s := by
  have hf := h.frame
  cases h with
  | completeDoff => exact .inr ⟨_, rfl⟩
  | context | dofferTimer | sectionDone | dofferReady | startDoffer => exact .inl rfl
  | startUp => exact .inl (by rw [startUp_doff])
  | halt => exact .inl (by rw [haltFrame_doff])
  | enterDoffing => exact .inl (by rw [enterDoffing_doff]; split <;> rfl)
  | stopByRequest => exact .inl (by rw [stopByRequest_doff]; split <;> rfl)
  | abortDoff => exact .inl (by rw [abortDoff_doff]; rfl)
  | failDoff => exact .inl (by rw [failDoff_doff]; rfl)
  | fill => exact .inl (recomputeFill_copBase s)
  | exchange a o => exact .inl (makeExchange_copBase a o s)
  | watch =>
    refine .inl ?_
    rw [endWatch_eq]
    refine judgeFill_doff_keeps (P := fun d => d.copBase = s.doff.copBase) _ (fun _ _ h => h) (fun _ _ _ h => h) ?_
    rw [restoreContext_doff, changeFrame_doff]
    rfl
  | _ => exact .inl (congrArg Doff.copBase (hf .doff (by decide)))

/-- No operation moves FLmm: only a pulse does (R2). -/
theorem Op.flmm {ps : List Part} {s t : State} (h : Op ps s t) : t.flmm = s.flmm := by
  have hf := h.frame
  cases h with
  | lengthTrim | encoder | motionStops => rfl
  | _ => exact hf.flmm

theorem completeDoff_flmm (byHand : Bool) (s : State) : (completeDoff byHand s).flmm = s.flmm :=
  (completeDoff_frame s byHand).flmm

theorem CopsWithin.completeDoff {s : State} (byHand : Bool) (hs : CopsWithin s) : CopsWithin (completeDoff byHand s) := by
  have hafter : Records s.flmm 0 [.close] (resetCops s) (Machine.completeDoff byHand s) := by
    rw [completeDoff_eq]
    exact (((((dueExchange_records (resetCops_frame s).flmm).frame (clearDoffHolds_frame _)).frame
      (recordOutcome_frame _ _ _)).frame (countFrame_frame _ _)).frame (stopDoffer_frame _ _)).frame
      (endDoffer_frame _) |>.frame (changeFrame_frame _ _)
  refine ⟨by rw [completeDoff_copBase, completeDoff_flmm], ?_⟩
  rw [completeDoff_copBase, completeDoff_flmm]
  exact hafter.keeps (fun hin hc ha => hc.copWithin (by rintro rfl; simp at hin) le_rfl ha)
    fun side sp hsp => resetCops_copWithin hs.2 hs.1 hsp

theorem Op.copsWithin {ps : List Part} {s t : State} (h : Op ps s t) (hs : CopsWithin s) : CopsWithin t := by
  have hflmm := h.flmm
  rcases h.copBase with hbase | ⟨b, rfl⟩
  case inr => exact hs.completeDoff b
  have kept {ks : List ChangeKind} (hk : .zeroCop ∉ ks) {u : State}
      (hrec : Records s.flmm (s.articles.active.bobbin * 1000) ks s u) :
      ∀ side, ∀ sp ∈ u.spindles.get side, sp.CopWithin s.doff.copBase s.flmm :=
    hrec.keeps (fun hin hc ha => hc.copWithin (fun e => hk (e ▸ hin)) hs.1 ha) hs.2
  refine ⟨by rw [hbase, hflmm]; exact hs.1, ?_⟩
  rw [hbase, hflmm]
  rcases h.records (Nat.le_refl _) with hrec | ⟨side, n, -, rfl⟩ | ⟨b, rfl⟩ | ⟨side, pos, rfl⟩ | ⟨side, pos, sp, hc, rfl⟩
  · exact kept (by decide) hrec
  · intro sd sp hsp
    rcases changeSections_mem hsp with hold | rfl
    exacts [hs.2 sd sp hold, Spindle.formed_copWithin hs.1]
  · rw [← hbase, ← hflmm]
    exact (hs.completeDoff b).2
  · exact kept (by decide) pieceMissed_records
  · exact kept (by decide) (takeEndBreak_records hc rfl)

/-- A pulse that has room moves FLmm up (R2, R3). -/
theorem countPulse_flmm_le {s : State} (h : LengthHasRoom s) : s.flmm ≤ (countPulse s).flmm := by
  change s.roller.flum / 1000 ≤ add64 _ _ / 1000
  rw [add64_exact _ _ h]
  exact Nat.div_le_div_right (Nat.le_add_right _ _)

theorem Spindle.CopWithin.mono {base x y : Nat} {sp : Spindle} (h : sp.CopWithin base x) (hxy : x ≤ y) :
    sp.CopWithin base y := by
  obtain ⟨⟨hmark, hcop, hst, hle⟩, hrun⟩ := h
  exact ⟨⟨fun m hm => ⟨(hmark m hm).1, (hmark m hm).2.trans hxy⟩, by omega, hst, fun z hz => (hle z hz).trans hxy⟩, hrun⟩

theorem softReset_copBase (s : State) : (softReset s).doff.copBase = s.doff.copBase := by
  have hbefore := (((softResetCarriage_frame .a s).wide (rs := [.carriages, .bus, .spindles, .breakList, .breakSeq])).next
    (softResetCarriage_frame .b _)).next (softResetSpindles_frame .a _) |>.next (softResetSpindles_frame .b _)
  have hdoff := hbefore .doff (by decide)
  unfold softReset
  dsimp only
  generalize softResetSpindles .b _ = u at hdoff ⊢
  have hafter := (((setArticles_frame (softResetDoff u) { (softResetDoff u).articles with request := false }).wide
    (rs := [.articles, .roving, .bus, .line, .speed])).next (softResetRoving_frame _)).next
    (softResetTrain_frame _) |>.next (softResetSpeed_frame _)
  rw [State.setLine_doff, hafter .doff (by decide), softResetDoff_eq, ← hdoff]
  have hrecall : (recallDoffer u).doff.copBase = u.doff.copBase := by unfold recallDoffer; split <;> rfl
  have hstand (v : State) : (standDoff v).doff.copBase = v.doff.copBase := by simp [standDoff, Doff.restored]
  split
  · rw [hstand, hrecall]
  · exact (hstand _).trans hrecall

/-- Settles O8: every change of a record but the cop reset keeps it within the frame length, and the cop reset follows
the split. -/
theorem copLawIsKept : Obligations.CopLawIsKept := by
  unfold Obligations.CopLawIsKept
  intro s t hroom hrec hcop hstep
  have free : LineFree CopsWithin := ⟨fun _ _ h => h, fun _ _ h => h, fun _ _ h => h, fun _ _ h => h⟩
  refine (free.step (fun _ _ => ⟨Nat.zero_le _, fun side => by cases side <;> exact List.forall_mem_nil _⟩)
    (fun s _ => ⟨Nat.zero_le _, fun side sp hsp => by
      rw [formedState_flmm, formedState_mem hsp]
      exact Spindle.formed_copWithin (Nat.zero_le 0)⟩)
    (fun p _ h => ?pulse) Op.copsWithin (fun s h => ?soft) hstep (copsWithin_of_laws hrec hcop)).copLaw
  case pulse =>
    have hle : (s.setPending p).flmm ≤ (countPulse (s.setPending p)).flmm := countPulse_flmm_le hroom
    exact ⟨h.1.trans hle, fun side sp hsp => (h.2 side sp hsp).mono hle⟩
  case soft =>
    have hflmm : (softReset s).flmm = s.flmm := (softReset_frame s).flmm
    refine ⟨by rw [softReset_copBase, hflmm]; exact h.1, ?_⟩
    rw [softReset_copBase, hflmm]
    exact (softReset_records (x := s.flmm) (cap := 0) s).keeps
      (fun hin hc ha => hc.copWithin (by rintro rfl; simp at hin) h.1 ha) h.2

/-! ## The locked count -/

/-- Every change but a lock locks no record. -/
theorem Change.locked {x cap : Nat} {k : ChangeKind} {a b : Spindle} (h : Change x cap k a b) (hk : k ≠ .lock)
    (hb : b.state = .locked) : a.state = .locked := by
  cases h with
  | close art => unfold Spindle.close at hb; split at hb <;> exact hb
  | clamp | zeroCop | renumber | resequence | seed | mark => exact hb
  | lock => exact absurd rfl hk
  | join | renew | order | giveBack | piece | pieceOrdered | wait | park | unpark => cases hb

theorem Reforms.locked {x cap : Nat} {ks : List ChangeKind} {a b : Spindle} (h : Reforms x cap ks a b)
    (hk : .lock ∉ ks) (hb : b.state = .locked) : a.state = .locked := by
  induction h with
  | refl => exact hb
  | tail _ hlast ih =>
    obtain ⟨k, hin, hc⟩ := hlast
    exact ih (hc.locked (fun e => hk (e ▸ hin)) hb)

theorem countP_le_of_forall₂ {α : Type} {R : α → α → Prop} {p : α → Bool} {l m : List α} (h : List.Forall₂ R l m)
    (hp : ∀ a b, R a b → p b = true → p a = true) : m.countP p ≤ l.countP p := by
  induction h with
  | nil => exact Nat.le_refl _
  | cons hab _ ih =>
    rw [List.countP_cons, List.countP_cons]
    split
    · next hb => rw [if_pos (hp _ _ hab hb)]; omega
    · split <;> omega

/-- Operations without a lock do not raise the locked count (R24). -/
theorem Records.lockedCount_le {x cap : Nat} {ks : List ChangeKind} {s t : State} (h : Records x cap ks s t)
    (hk : .lock ∉ ks := by decide) : lockedCount t ≤ lockedCount s := by
  have one (side : Side) : (t.spindles.get side).countP (·.state == .locked) ≤
      (s.spindles.get side).countP (·.state == .locked) :=
    countP_le_of_forall₂ (h.forall₂ side) fun a b hr hb => by
      rw [beq_iff_eq] at hb ⊢
      exact hr.locked hk hb
  exact Nat.add_le_add (one .a) (one .b)

/-- One record takes one lock at most. -/
theorem writeSpindle_lockedCount_le (side : Side) (pos : Nat) (new : Spindle) (s : State) :
    lockedCount (writeSpindle side pos new s) ≤ lockedCount s + 1 := by
  have one (l : List Spindle) (i : Nat) (sp : Spindle) :
      (l.set i sp).countP (·.state == .locked) ≤ l.countP (·.state == .locked) + 1 := by
    by_cases h : i < l.length
    · rw [List.countP_set h]
      split <;> split <;> omega
    · rw [List.set_eq_of_length_le (by omega)]
      omega
  cases hold : s.spindle side pos with
  | none =>
    have : writeSpindle side pos new s = s := by unfold writeSpindle; rw [hold]
    rw [this]
    omega
  | some old =>
    unfold lockedCount
    rw [writeSpindle_spindles side pos new s old hold]
    cases side
    · have := one s.spindles.a (pos - 1) { new with clamp := new.state.clamp }
      change _ + _ ≤ _
      simp only [Sides.set, Sides.get]
      omega
    · have := one s.spindles.b (pos - 1) { new with clamp := new.state.clamp }
      simp only [Sides.set, Sides.get]
      omega

theorem lockedCount_of_frame {ps : List Part} {s t : State} (h : OnlyChanges ps s t)
    (hp : .spindles ∉ ps := by decide) : lockedCount t = lockedCount s := by
  unfold lockedCount
  rw [h .spindles hp]

theorem lockSpindle_lockedCount_le (side : Side) (pos : Nat) (c : LockCause) (sp : Spindle) (s : State) :
    lockedCount (lockSpindle side pos c sp s) ≤ lockedCount s + 1 := by
  unfold lockSpindle
  rw [lockedCount_of_frame (countSide_frame _ _ _), lockedCount_of_frame (raise_frame _ _)]
  exact writeSpindle_lockedCount_le _ _ _ _

theorem lockRoom_iff (s : State) : lockRoom s = true ↔ lockedCount s < s.items.lockCeiling := by
  simp [lockRoom]

/-- An END break locks a spindle below the ceiling only (R34). -/
theorem takeEndBreak_lockLaw {side : Side} {pos : Nat} {sp : Spindle} {s : State} (h : sp.ClosedAt side pos s)
    (hs : LockLaw s) : LockLaw (takeEndBreak side pos sp s) := by
  have hitems : (takeEndBreak side pos sp s).items = s.items := takeEndBreak_frame side pos s sp .items (by decide)
  unfold LockLaw
  rw [hitems]
  rcases takeEndBreak_cases (x := s.flmm) (cap := 0) h rfl with ⟨hroom, heq⟩ | hr
  · rw [heq, lockedCount_of_frame (countGovernor_frame _), lockedCount_of_frame (countSide_frame _ _ _)]
    exact (lockSpindle_lockedCount_le _ _ _ _ _).trans ((lockRoom_iff s).1 hroom)
  · exact hr.lockedCount_le.trans hs

/-- A failed piece locks a spindle below the ceiling only (R34). -/
theorem pieceMissed_lockLaw (side : Side) (pos : Nat) {s : State} (hs : LockLaw s) : LockLaw (pieceMissed side pos s) := by
  have hitems : (pieceMissed side pos s).items = s.items := pieceMissed_frame side pos s .items (by decide)
  unfold LockLaw
  rw [hitems]
  rcases pieceMissed_cases side pos s with ⟨old, hold, hst, h⟩ | h
  · rw [h, lockedCount_of_frame (carriageSettles_frame _ _ _)]
    have hcount := countSide_frame side s .pieceFailure
    have hceiling : (countSide side .pieceFailure s).items = s.items := hcount .items (by decide)
    have hlocked := lockedCount_of_frame hcount
    rcases judgeAttempts_cases (x := s.flmm) (cap := 0) hold hst (Nat.min_le_left _ _) with ⟨hroom, heq⟩ | hr
    · rw [heq]
      have := (lockRoom_iff _).1 hroom
      rw [hceiling] at this
      exact (lockSpindle_lockedCount_le _ _ _ _ _).trans this
    · exact hr.lockedCount_le.trans (hlocked.le.trans hs)
  · rw [h, lockedCount_of_frame (carriageSettles_frame _ _ _)]
    exact hs

/-- A change of a section count removes locked spindles and forms none (R22, R47). -/
theorem changeSections_lockedCount_le (side : Side) (n : Nat) (s : State) :
    lockedCount (changeSections side n s) ≤ lockedCount s := by
  have one (l : List Spindle) (x m k : Nat) :
      (l.take m ++ List.replicate k (Spindle.formed x)).countP (·.state == .locked) ≤
        l.countP (·.state == .locked) := by
    rw [List.countP_append, List.countP_replicate]
    simpa [Spindle.formed] using (List.take_sublist m l).countP_le
  unfold lockedCount
  rw [changeSections_spindles]
  cases side
  · exact Nat.add_le_add_right (one _ _ _ _) _
  · exact Nat.add_le_add_left (one _ _ _ _) _

/-- The ceiling is the value of its own item alone. -/
theorem put_lockCeiling {code v : Nat} {t : Items} (h : code ≠ 0x0E) : (t.put code v).lockCeiling = t.lockCeiling := by
  unfold Items.put
  split
  all_goals first | rfl | exact absurd rfl h

/-- A section count is the only item that a change of it moves (R198). -/
theorem changeSections_items (side : Side) (n : Nat) (s : State) :
    (changeSections side n s).items = { s.items with sections := s.items.sections.set side n } := by
  have h := ((creditPossible_frame side s).wide (rs := [.shift, .breakList, .roving, .line, .spindles, .bus])).next
    (releaseRemoved_frame side _ (48 * n)) |>.next (releaseSlot_frame side _ (48 * n)) |>.next (resizeSide_frame side _ n)
  have hrecall (u : State) : (recallCarriage side (48 * n) u).items = u.items :=
    recallCarriage_frame side u (48 * n) .items (by decide)
  unfold changeSections
  dsimp only
  have hitems : (resizeSide side n (releaseSlot side (48 * n) (releaseRemoved side (48 * n)
      (creditPossible side s)))).items = s.items := h .items (by decide)
  rw [hrecall, State.setItems_items, hitems]

theorem takeSpeedTrim_items (v : Int) (s : State) : (takeSpeedTrim v s).items = { s.items with speedTrim := v } :=
  recomputeSetPoint_frame (s.setItems _) .items (by decide)

theorem Op.lockLaw {ps : List Part} {s t : State} (h : Op ps s t) (hs : LockLaw s) : LockLaw t := by
  have hceiling : t.items.lockCeiling = s.items.lockCeiling ∨ lockedCount t ≤ t.items.lockCeiling := by
    have hf := h.frame
    cases h with
    | lengthTrim => exact .inl rfl
    | speedTrim v => exact .inl (by rw [takeSpeedTrim_items])
    | encoder code v _ hc => exact .inl (put_lockCeiling (by omega))
    | item code v _ hc h hx =>
      by_cases hcode : code = 0x0E
      · subst hcode
        exact .inr (of_decide_eq_true hx)
      · exact .inl (put_lockCeiling hcode)
    | sections side n => exact .inl (by rw [changeSections_items])
    | _ => exact .inl (congrArg Items.lockCeiling (hf .items (by decide)))
  rcases hceiling with hceiling | hdone
  case inr => exact hdone
  have kept (h : lockedCount t ≤ lockedCount s) : LockLaw t := by
    unfold LockLaw
    rw [hceiling]
    exact h.trans hs
  rcases h.records (Nat.le_refl _) with hrec | ⟨side, n, -, rfl⟩ | ⟨b, rfl⟩ | ⟨side, pos, rfl⟩ | ⟨side, pos, sp, hc, rfl⟩
  · exact kept hrec.lockedCount_le
  · exact kept (changeSections_lockedCount_le side n s)
  · exact kept (completeDoff_records (cap := 0) b rfl).lockedCount_le
  · exact pieceMissed_lockLaw side pos hs
  · exact takeEndBreak_lockLaw hc hs

theorem formedState_lockedCount (s : State) : lockedCount (formedState s) = 0 := by
  have none (side : Side) : ((formedState s).spindles.get side).countP (·.state == .locked) = 0 :=
    List.countP_eq_zero.2 fun sp hsp => by simp [formedState_mem hsp, Spindle.formed]
  exact congrArg₂ (· + ·) (none .a) (none .b)

/-- Settles O4: an operation locks a spindle only where the lock test has found room. -/
theorem lockCeilingIsKept : Obligations.LockCeilingIsKept := by
  unfold Obligations.LockCeilingIsKept
  intro s t hs hstep
  have free : LineFree LockLaw := ⟨fun _ _ h => h, fun _ _ h => h, fun _ _ h => h, fun _ _ h => h⟩
  refine free.step (fun _ _ => Nat.zero_le _) (fun s _ => ?_) (fun _ _ h => h) Op.lockLaw (fun s h => ?_) hstep hs
  · unfold LockLaw
    rw [formedState_lockedCount]
    exact Nat.zero_le _
  · unfold LockLaw
    rw [softReset_frame s .items (by decide)]
    exact (softReset_records (x := 0) (cap := 0) s).lockedCount_le.trans h

end Sys2Proof.Machine
end

