-- ==== Sys2Proof/Proofs/ItemLaws.lean ====
section
/-!
PROOFS. The items in their ranges, what the Loader applies in order and in range, and N, D and the remainder in step with
the items (R191, R194, R195, R1, R2).
-/
namespace Sys2Proof.Machine

-- One after another: each theorem as a task of its own takes a thread.
set_option Elab.async false

/-! ## Values of items -/

/-- A trim within 32 bits comes back from its store record form (R190). -/
theorem signed32_unsigned32 {i : Int} (h : -2147483648 ≤ i ∧ i < 2147483648) : signed32 (unsigned32 i) = i := by
  unfold signed32 unsigned32
  rw [BitVec.toInt_ofNat', Int.toNat_of_nonneg (Int.emod_nonneg i (by decide))]
  simp only [Int.bmod, Nat.cast_pow, Nat.cast_ofNat]
  split <;> omega

theorem signed32_bounds (v : Nat) : -2147483648 ≤ signed32 v ∧ signed32 v < 2147483648 := by
  have h1 := BitVec.le_toInt (BitVec.ofNat 32 v)
  have h2 := BitVec.toInt_lt (x := BitVec.ofNat 32 v)
  unfold signed32
  omega

theorem signed32_unsigned32_signed32 (v : Nat) : signed32 (unsigned32 (signed32 v)) = signed32 v :=
  signed32_unsigned32 (signed32_bounds v)

/-- A new value is the value of its own item alone. -/
theorem put_value_of_ne {t : Items} {code v c : Nat} (hne : c ≠ code) : (t.put code v).value c = t.value c := by
  unfold Items.put
  split
  all_goals first
    | rfl
    | (unfold Items.value
       split
       all_goals first | rfl | exact absurd rfl hne)

/-- The range of a code judges a value and what the item shows of it alike. -/
theorem configRange_put_value {t : Items} {code v : Nat} (h1 : 1 ≤ code) (h2 : code ≤ 0x17) :
    configRange code ((t.put code v).value code) = configRange code v := by
  interval_cases code <;>
    first
    | rfl
    | (simp only [configRange, Items.put, Items.value, signed32_unsigned32_signed32])

/-- The items in their ranges (R191), GOV_LOW below GOV_HIGH (R197). -/
def Items.Lawful (t : Items) : Prop :=
  (∀ code ∈ List.range' 1 0x17, configRange code (t.value code) = true) ∧
  (-64 ≤ t.lengthTrim ∧ t.lengthTrim ≤ 63) ∧ (-16 ≤ t.speedTrim ∧ t.speedTrim ≤ 15) ∧
  t.govLow < t.govHigh

theorem itemsLaw_iff (s : State) : ItemsLaw s ↔ s.items.Lawful := Iff.rfl

/-- The items but for the cross check of the governor's limits. -/
def Items.InRange (t : Items) : Prop :=
  (∀ code ∈ List.range' 1 0x17, configRange code (t.value code) = true) ∧
  (-64 ≤ t.lengthTrim ∧ t.lengthTrim ≤ 63) ∧ (-16 ≤ t.speedTrim ∧ t.speedTrim ≤ 15)

theorem Items.lawful_iff (t : Items) : t.Lawful ↔ t.InRange ∧ t.govLow < t.govHigh := by
  simp only [Items.Lawful, Items.InRange, and_assoc]

theorem put_lengthTrim_of_ne {t : Items} {code v : Nat} (h : code ≠ 0x05) : (t.put code v).lengthTrim = t.lengthTrim := by
  unfold Items.put
  split
  all_goals first | rfl | exact absurd rfl h

theorem put_speedTrim_of_ne {t : Items} {code v : Nat} (h : code ≠ 0x17) : (t.put code v).speedTrim = t.speedTrim := by
  unfold Items.put
  split
  all_goals first | rfl | exact absurd rfl h

theorem put_encPulses_of_ne {t : Items} {code v : Nat} (h : code ≠ 0x03) : (t.put code v).encPulses = t.encPulses := by
  unfold Items.put
  split
  all_goals first | rfl | exact absurd rfl h

theorem put_rollerCirc_of_ne {t : Items} {code v : Nat} (h : code ≠ 0x04) :
    (t.put code v).rollerCirc = t.rollerCirc := by
  unfold Items.put
  split
  all_goals first | rfl | exact absurd rfl h

theorem put_govHigh_of_ne {t : Items} {code v : Nat} (h : code ≠ 0x15) : (t.put code v).govHigh = t.govHigh := by
  unfold Items.put
  split
  all_goals first | rfl | exact absurd rfl h

theorem put_govLow_of_ne {t : Items} {code v : Nat} (h : code ≠ 0x16) : (t.put code v).govLow = t.govLow := by
  unfold Items.put
  split
  all_goals first | rfl | exact absurd rfl h

/-- A value in its range keeps the set in range. -/
theorem Items.InRange.put {t : Items} {code v : Nat} (h : t.InRange) (hr : configRange code v = true) :
    (t.put code v).InRange := by
  obtain ⟨hval, hlen, hspd⟩ := h
  refine ⟨fun c hc => ?_, ?_, ?_⟩
  · by_cases hne : c = code
    · subst hne
      rw [List.mem_range'_1] at hc
      rw [configRange_put_value hc.1 (by omega), hr]
    · rw [put_value_of_ne hne]
      exact hval c hc
  · by_cases hne : code = 0x05
    · subst hne
      exact configRange_lengthTrim hr
    · rwa [put_lengthTrim_of_ne hne]
  · by_cases hne : code = 0x17
    · subst hne
      exact configRange_speedTrim hr
    · rwa [put_speedTrim_of_ne hne]

/-- A value in its range that leaves GOV_LOW below GOV_HIGH keeps the set lawful. -/
theorem Items.Lawful.put {t : Items} {code v : Nat} (h : t.Lawful) (hr : configRange code v = true)
    (hg : (t.put code v).govLow < (t.put code v).govHigh) : (t.put code v).Lawful :=
  (lawful_iff _).2 ⟨((lawful_iff t).1 h).1.put hr, hg⟩

theorem configRange_unsigned32_lengthTrim {v : Int} (h : -64 ≤ v ∧ v ≤ 63) : configRange 0x05 (unsigned32 v) = true := by
  simp [configRange, signed32_unsigned32 (i := v) (by omega), h]

theorem configRange_unsigned32_speedTrim {v : Int} (h : -16 ≤ v ∧ v ≤ 15) : configRange 0x17 (unsigned32 v) = true := by
  simp [configRange, signed32_unsigned32 (i := v) (by omega), h]

theorem lengthTrim_eq_put {t : Items} {v : Int} (h : -64 ≤ v ∧ v ≤ 63) :
    { t with lengthTrim := v } = t.put 0x05 (unsigned32 v) := by
  simp [Items.put, signed32_unsigned32 (i := v) (by omega)]

theorem speedTrim_eq_put {t : Items} {v : Int} (h : -16 ≤ v ∧ v ≤ 15) :
    { t with speedTrim := v } = t.put 0x17 (unsigned32 v) := by
  simp [Items.put, signed32_unsigned32 (i := v) (by omega)]

/-- The code of a side's section count. -/
def sectionsCode : Side → Nat
  | .a => 0x01
  | .b => 0x02

theorem sections_eq_put (t : Items) (side : Side) (n : Nat) :
    { t with sections := t.sections.set side n } = t.put (sectionsCode side) n := by
  cases side <;> rfl

/-! ## The items and the front rollers under every operation -/

/-- N and D stand for the items, and the remainder is below D (R1, R2). -/
def Roller.Fits (r : Roller) (t : Items) : Prop :=
  r.num = numeratorOf t ∧ r.den = divisorOf t ∧ r.acc < r.den

/-- The items are lawful, and from load end the roller fits them. -/
def ItemsFit (s : State) : Prop := ItemsLaw s ∧ RollerLaw s

theorem Items.Lawful.divisor_pos {t : Items} (h : t.Lawful) : 0 < divisorOf t := by
  have h3 := h.1 0x03 (by decide)
  simp only [configRange, Items.value, Bool.and_eq_true, decide_eq_true_eq] at h3
  unfold divisorOf
  omega

theorem put_numeratorOf {t : Items} {code v : Nat} (h4 : code ≠ 0x04) (h5 : code ≠ 0x05) :
    numeratorOf (t.put code v) = numeratorOf t := by
  unfold numeratorOf
  rw [put_rollerCirc_of_ne h4, put_lengthTrim_of_ne h5]

theorem put_divisorOf {t : Items} {code v : Nat} (h3 : code ≠ 0x03) : divisorOf (t.put code v) = divisorOf t := by
  unfold divisorOf
  rw [put_encPulses_of_ne h3]

/-- A new value of an item that the front rollers do not use. -/
theorem ItemsFit.put {s t : State} {code v : Nat} (hs : ItemsFit s) (hitems : t.items = s.items.put code v)
    (hroller : t.roller = s.roller) (hphase : t.phase = s.phase) (h3 : code ≠ 0x03) (h4 : code ≠ 0x04)
    (h5 : code ≠ 0x05) (hr : configRange code v = true)
    (hg : (s.items.put code v).govLow < (s.items.put code v).govHigh) : ItemsFit t := by
  obtain ⟨hlaw, hfit⟩ := hs
  refine ⟨?_, fun hp => ?_⟩
  · rw [itemsLaw_iff, hitems]
    exact Items.Lawful.put hlaw hr hg
  · rw [hroller, hitems, put_numeratorOf h4 h5, put_divisorOf h3]
    exact hfit (hphase ▸ hp)

theorem ItemsFit.of_frame {ps : List Part} {s t : State} (h : OnlyChanges ps s t) (hs : ItemsFit s)
    (hp : .phase ∉ ps := by decide) (hi : .items ∉ ps := by decide) (hr : .roller ∉ ps := by decide) : ItemsFit t := by
  have hphase : t.phase = s.phase := h .phase hp
  have hitems : t.items = s.items := h .items hi
  have hroller : t.roller = s.roller := h .roller hr
  simpa only [ItemsFit, ItemsLaw, RollerLaw, hphase, hitems, hroller] using hs

/-- A cross check passed leaves GOV_LOW below GOV_HIGH (R197). -/
theorem put_gov_of_crossCheck {s : State} {code v : Nat} (h : s.items.govLow < s.items.govHigh)
    (hx : crossCheck code v s = true) : (s.items.put code v).govLow < (s.items.put code v).govHigh := by
  by_cases h15 : code = 0x15
  · subst h15
    exact of_decide_eq_true hx
  by_cases h16 : code = 0x16
  · subst h16
    exact of_decide_eq_true hx
  rwa [put_govLow_of_ne h16, put_govHigh_of_ne h15]

theorem put_gov_of_ne {t : Items} {code v : Nat} (h : t.govLow < t.govHigh) (h15 : code ≠ 0x15) (h16 : code ≠ 0x16) :
    (t.put code v).govLow < (t.put code v).govHigh := by
  rwa [put_govLow_of_ne h16, put_govHigh_of_ne h15]

theorem Op.itemsFit {ps : List Part} {s t : State} (h : Op ps s t) (hs : ItemsFit s) : ItemsFit t := by
  have hf := h.frame
  obtain ⟨hlaw, hfit⟩ := id hs
  have hgov : s.items.govLow < s.items.govHigh := hlaw.2.2.2
  cases h with
  | lengthTrim v _ hv =>
    refine ⟨?_, fun hp => ?_⟩
    · rw [itemsLaw_iff, show (takeLengthTrim v s).items = { s.items with lengthTrim := v } from rfl, lengthTrim_eq_put hv]
      exact Items.Lawful.put hlaw (configRange_unsigned32_lengthTrim hv) (put_gov_of_ne hgov (by decide) (by decide))
    · obtain ⟨-, hden, hacc⟩ := hfit hp
      exact ⟨rfl, hden, hacc⟩
  | speedTrim v _ hv =>
    have hframe := takeSpeedTrim_frame s v
    refine hs.put (code := 0x17) (v := unsigned32 v) ?_ (hframe .roller (by decide)) (hframe .phase (by decide))
      (by decide) (by decide) (by decide) (configRange_unsigned32_speedTrim hv) (put_gov_of_ne hgov (by decide) (by decide))
    rw [takeSpeedTrim_items, speedTrim_eq_put hv]
  | encoder code v _ hc hr =>
    have hlawful : (s.items.put code v).Lawful :=
      Items.Lawful.put hlaw hr (put_gov_of_ne hgov (by omega) (by omega))
    exact ⟨hlawful, fun _ => ⟨rfl, rfl, hlawful.divisor_pos⟩⟩
  | item code v _ hc hr hx =>
    unfold plainItem at hc
    exact hs.put rfl rfl rfl (by omega) (by omega) (by omega) hr (put_gov_of_crossCheck hgov hx)
  | sections side n _ hn =>
    have hcode : sectionsCode side = 0x01 ∨ sectionsCode side = 0x02 := by cases side <;> simp [sectionsCode]
    have hframe := changeSections_frame side s n
    refine hs.put (code := sectionsCode side) (v := n) ?_ (hframe .roller (by decide)) (hframe .phase (by decide))
      (by omega) (by omega) (by omega) ?_ (put_gov_of_ne hgov (by omega) (by omega))
    · rw [changeSections_items, sections_eq_put]
    · cases side <;> simp [sectionsCode, configRange, hn]
  | motionStops => exact hs
  | _ => exact hs.of_frame hf

/-! ## The Loader -/

theorem appliedValue_append (l : List (Nat × Nat)) (e : Nat × Nat) (c : Nat) :
    appliedValue (l ++ [e]) c = if e.1 = c then some e.2 else appliedValue l c := by
  unfold appliedValue
  rw [List.reverse_append, List.reverse_singleton, List.singleton_append, List.find?_cons]
  by_cases h : e.1 = c
  · simp [h]
  · simp [h, beq_eq_false_iff_ne.2 h]

theorem mem_of_appliedValue {l : List (Nat × Nat)} {c v : Nat} (h : appliedValue l c = some v) : (c, v) ∈ l := by
  unfold appliedValue at h
  rw [Option.map_eq_some_iff] at h
  obtain ⟨⟨c', v'⟩, hfind, rfl⟩ := h
  have hmem := List.mem_of_find?_eq_some hfind
  have heq := List.find?_some hfind
  simp only [beq_iff_eq] at heq
  subst heq
  exact List.mem_reverse.1 hmem

/-- A code and value of the applied list pass the range of R191 or of R192. -/
def codeRange (c v : Nat) : Bool := if isConfigCode c then configRange c v else articleCodeRange c v

/-- What the Loader has applied (R194). -/
def AppliedFits (l : List (Nat × Nat)) : Prop :=
  l.Pairwise (fun x y => x.1 < y.1) ∧
  ∀ e ∈ l, codeRange e.1 e.2 = true ∧ (e.1 = 0x16 → e.2 < (appliedValue l 0x15).getD 20)

/-- The codes of R191 and R192. -/
def assignedCodes : List Nat := List.range' 1 0x19 ++ List.range' 0x40 0x18

theorem mem_assignedCodes {c v : Nat} (h : codeRange c v = true) : c ∈ assignedCodes := by
  have hrange : 1 ≤ c ∧ c ≤ 0x19 ∨ 0x40 ≤ c ∧ c ≤ 0x57 := by
    unfold codeRange at h
    split at h
    · next hc =>
      simp only [isConfigCode, Bool.and_eq_true, decide_eq_true_eq] at hc
      exact .inl hc
    · unfold articleCodeRange at h
      split at h
      all_goals first
        | exact .inr (by decide)
        | (simp only [Bool.and_eq_true, decide_eq_true_eq] at h; omega)
  simp only [assignedCodes, List.mem_append, List.mem_range'_1]
  omega

/-- The store holds no more records than there are codes. -/
theorem AppliedFits.length_le {l : List (Nat × Nat)} (h : AppliedFits l) : l.length ≤ 49 := by
  obtain ⟨hasc, hfit⟩ := h
  have hnodup : (l.map (·.1)).Nodup := by
    refine List.Pairwise.map (S := (· ≠ ·)) _ (fun _ _ hlt => Nat.ne_of_lt hlt) hasc
  have hsub : l.map (·.1) ⊆ assignedCodes := by
    intro c hc
    obtain ⟨e, he, rfl⟩ := List.mem_map.1 hc
    exact mem_assignedCodes (hfit e he).1
  simpa [assignedCodes] using (hnodup.subperm hsub).length_le

/-- A record that passes extends what has been applied (R194). -/
theorem AppliedFits.append {l : List (Nat × Nat)} {c v : Nat} (h : AppliedFits l) (hlast : ∀ x ∈ l.getLast?, x.1 < c)
    (hr : codeRange c v = true) (hg : c = 0x16 → v < (appliedValue l 0x15).getD 20) : AppliedFits (l ++ [(c, v)]) := by
  obtain ⟨hasc, hfit⟩ := h
  have below : ∀ x ∈ l, x.1 < c := by
    intro x hx
    have hne : l ≠ [] := List.ne_nil_of_mem hx
    have hle : x.1 ≤ (l.getLast hne).1 := by
      obtain ⟨init, z, rfl⟩ : ∃ init z, l = init ++ [z] :=
        ⟨l.dropLast, l.getLast hne, (List.dropLast_append_getLast hne).symm⟩
      rw [List.getLast_append_singleton]
      rcases List.mem_append.1 hx with h | h
      · exact ((List.pairwise_append.1 hasc).2.2 x h z (by simp)).le
      · rw [List.mem_singleton.1 h]
    exact hle.trans_lt (hlast _ (by rw [List.getLast?_eq_getLast_of_ne_nil hne]; rfl))
  refine ⟨List.pairwise_append.2 ⟨hasc, List.pairwise_singleton _ _, fun x hx y hy => ?_⟩, fun e he => ?_⟩
  · rw [List.mem_singleton.1 hy]
    exact below x hx
  · rw [appliedValue_append]
    rcases List.mem_append.1 he with h | h
    · refine ⟨(hfit e h).1, fun h16 => ?_⟩
      have hlt := below e h
      rw [if_neg (by omega)]
      exact (hfit e h).2 h16
    · rw [List.mem_singleton.1 h]
      refine ⟨hr, fun h16 => ?_⟩
      dsimp only at h16
      rw [if_neg (by simp [h16])]
      exact hg h16

/-- The set after the items have been put one after another. -/
def putAll (l : List (Nat × Nat)) : Items := l.foldl (fun t e => t.put e.1 e.2) Items.defaults

theorem putAll_append (l : List (Nat × Nat)) (e : Nat × Nat) : putAll (l ++ [e]) = (putAll l).put e.1 e.2 := by
  simp [putAll]

theorem putAll_govHigh (l : List (Nat × Nat)) : (putAll l).govHigh = (appliedValue l 0x15).getD 20 := by
  induction l using List.reverseRecOn with
  | nil => rfl
  | append_singleton l e ih =>
    rw [putAll_append, appliedValue_append]
    split
    · next h => rw [h]; rfl
    · next h => rw [put_govHigh_of_ne h, ih]

theorem putAll_govLow (l : List (Nat × Nat)) : (putAll l).govLow = (appliedValue l 0x16).getD 8 := by
  induction l using List.reverseRecOn with
  | nil => rfl
  | append_singleton l e ih =>
    rw [putAll_append, appliedValue_append]
    split
    · next h => rw [h]; rfl
    · next h => rw [put_govLow_of_ne h, ih]

theorem Items.defaults_inRange : Items.defaults.InRange := by
  refine ⟨by decide, by decide, by decide⟩

/-- An article code puts no item. -/
theorem put_of_not_configCode {t : Items} {c v : Nat} (h : ¬isConfigCode c = true) : t.put c v = t := by
  unfold Items.put
  split
  all_goals first | rfl | exact absurd rfl h

theorem putAll_inRange {l : List (Nat × Nat)} (h : ∀ e ∈ l, codeRange e.1 e.2 = true) : (putAll l).InRange := by
  induction l using List.reverseRecOn with
  | nil => exact Items.defaults_inRange
  | append_singleton l e ih =>
    have hl := ih fun x hx => h x (by simp [hx])
    have he := h e (by simp)
    rw [putAll_append]
    unfold codeRange at he
    split at he
    · exact hl.put he
    · next hc => rwa [put_of_not_configCode hc]

theorem completeItems_eq (l : List (Nat × Nat)) : completeItems l =
    if (appliedValue l 0x16).isNone ∧ ¬(putAll l).govLow < (putAll l).govHigh then
      { putAll l with govLow := (putAll l).govHigh - 1 } else putAll l := rfl

/-- The item set completed at load end is lawful (R195). -/
theorem completeItems_lawful {l : List (Nat × Nat)} (h : AppliedFits l) : (completeItems l).Lawful := by
  have hin := putAll_inRange fun e he => (h.2 e he).1
  rw [completeItems_eq, Items.lawful_iff]
  split
  · have hhigh := hin.1 0x15 (by decide)
    simp only [configRange, Items.value, Bool.and_eq_true, decide_eq_true_eq] at hhigh
    refine ⟨?_, by dsimp only; omega⟩
    have hput : { putAll l with govLow := (putAll l).govHigh - 1 } = (putAll l).put 0x16 ((putAll l).govHigh - 1) := rfl
    rw [hput]
    exact hin.put (by simp only [configRange, Bool.and_eq_true, decide_eq_true_eq]; omega)
  · next hc =>
    refine ⟨hin, ?_⟩
    cases hlow : appliedValue l 0x16 with
    | none =>
      by_contra hn
      exact hc ⟨by simp [hlow], hn⟩
    | some v =>
      rw [putAll_govLow, putAll_govHigh, hlow]
      exact (h.2 _ (mem_of_appliedValue hlow)).2 rfl

theorem loaderLaw_iff (s : State) : LoaderLaw s ↔
    AppliedFits s.loader.applied ∧ s.loader.lastCode = s.loader.applied.getLast?.map (·.1) ∧
      s.loader.index = s.loader.applied.length ∧ (s.phase = .inReset ↔ s.loader.stage = .idle) ∧
      (s.phase = .running ↔ s.loader.stage = .done) := by
  constructor
  · rintro ⟨h1, h2, h3, -, h5, h6, h7⟩
    exact ⟨⟨h1, h5⟩, h2, h3, h6, h7⟩
  · rintro ⟨h1, h2, h3, h6, h7⟩
    exact ⟨h1.1, h2, h3, by have := h1.length_le; omega, h1.2, h6, h7⟩

theorem recordPasses_iff (t : Loader) (c v : Nat) : recordPasses t c v = true ↔
    (∀ b ∈ t.lastCode, b < c) ∧ codeRange c v = true ∧ (c = 0x16 → v < (appliedValue t.applied 0x15).getD 20) := by
  have hlast : (match t.lastCode with | some b => decide (b < c) | none => true) = true ↔ ∀ b ∈ t.lastCode, b < c := by
    cases t.lastCode <;> simp
  have hgov : (c != 0x16 || v < (appliedValue t.applied 0x15).getD Items.defaults.govHigh) = true ↔
      (c = 0x16 → v < (appliedValue t.applied 0x15).getD 20) := by
    rw [Bool.or_eq_true, bne_iff_ne, decide_eq_true_eq, ← imp_iff_not_or]
    exact Iff.rfl
  unfold recordPasses
  rw [Bool.and_eq_true, Bool.and_eq_true, and_assoc]
  exact and_congr hlast (and_congr Iff.rfl hgov)

/-- The Loader's own part of its law: what it has applied, and its counters. -/
def Loader.Fits (t : Loader) : Prop :=
  AppliedFits t.applied ∧ t.lastCode = t.applied.getLast?.map (·.1) ∧ t.index = t.applied.length

/-- A record read leaves the Loader reading, or stops it (R194). -/
theorem Loader.take_fits {t : Loader} (h : t.Fits) (hr : t.stage = .reading) (read : Option (List Byte)) :
    (t.take read).Fits ∧ (t.take read).stage ≠ .idle ∧ (t.take read).stage ≠ .done := by
  have stops (o i) : (t.stop o i).Fits ∧ (t.stop o i).stage ≠ .idle ∧ (t.stop o i).stage ≠ .done :=
    ⟨h, by simp [Loader.stop], by simp [Loader.stop]⟩
  unfold Loader.take
  split
  · split <;> exact stops _ _
  · exact stops _ _
  · split
    · exact stops _ _
    split
    · exact stops _ _
    split
    · next hpass =>
      obtain ⟨hfit, hlast, hindex⟩ := h
      obtain ⟨hord, hrange, hgov⟩ := (recordPasses_iff _ _ _).1 hpass
      have happ := hfit.append (fun x hx => hord x.1 (by rw [hlast, hx]; rfl)) hrange hgov
      unfold Loader.apply
      dsimp only
      split
      · exact ⟨⟨happ, by simp [Loader.stop], by simp [Loader.stop, hindex]⟩, by simp [Loader.stop], by simp [Loader.stop]⟩
      · exact ⟨⟨happ, by simp, by simp [hindex]⟩, by simp [hr], by simp [hr]⟩
    · exact stops _ _

theorem loaderLaw_iff_fits (s : State) : LoaderLaw s ↔
    s.loader.Fits ∧ (s.phase = .inReset ↔ s.loader.stage = .idle) ∧ (s.phase = .running ↔ s.loader.stage = .done) := by
  rw [loaderLaw_iff]
  unfold Loader.Fits
  simp only [and_assoc]

/-! ## The obligation -/

/-- What the three laws say together. -/
def LoadedLawfully (s : State) : Prop := LoaderLaw s ∧ ItemsFit s

theorem Ops.loader {s t : State} (h : Ops s t) : t.loader = s.loader :=
  h.keeps (P := fun u => u.loader = s.loader) (fun hop hu => (hop.frame .loader (by cases hop <;> decide)).trans hu) rfl

theorem Ops.phase {s t : State} (h : Ops s t) : t.phase = s.phase :=
  h.keeps (P := fun u => u.phase = s.phase) (fun hop hu => (hop.frame .phase (by cases hop <;> decide)).trans hu) rfl

theorem LoadedLawfully.of_frame {ps : List Part} {s t : State} (h : OnlyChanges ps s t) (hs : LoadedLawfully s)
    (hl : .loader ∉ ps := by decide) (hp : .phase ∉ ps := by decide) (hi : .items ∉ ps := by decide)
    (hr : .roller ∉ ps := by decide) : LoadedLawfully t := by
  refine ⟨?_, hs.2.of_frame h hp hi hr⟩
  have hloader : t.loader = s.loader := h .loader hl
  have hphase : t.phase = s.phase := h .phase hp
  rw [loaderLaw_iff_fits, hloader, hphase, ← loaderLaw_iff_fits]
  exact hs.1

theorem LoadedLawfully.ops {s t : State} (h : Ops s t) (hs : LoadedLawfully s) : LoadedLawfully t := by
  refine ⟨?_, h.keeps Op.itemsFit hs.2⟩
  rw [loaderLaw_iff_fits, h.loader, h.phase, ← loaderLaw_iff_fits]
  exact hs.1

theorem Happens.loadedLawfully {s t : State} (h : Happens s t) (hs : LoadedLawfully s) : LoadedLawfully t := by
  obtain ⟨hloader, hitems, hroller⟩ := id hs
  have hfits := (loaderLaw_iff_fits s).1 hloader
  cases h with
  | ops h => exact hs.ops h
  | powerOn =>
    refine ⟨(loaderLaw_iff_fits _).2 ⟨⟨⟨List.Pairwise.nil, by simp [State.reset]⟩, rfl, rfl⟩, by simp [State.reset],
      by simp [State.reset]⟩, (Items.lawful_iff _).2 ⟨Items.defaults_inRange, (by decide : Items.defaults.govLow < Items.defaults.govHigh)⟩, ?_⟩
    intro hp
    simp [State.reset] at hp
  | release rate _ hphase =>
    refine ⟨(loaderLaw_iff_fits _).2 ⟨⟨⟨List.Pairwise.nil, by simp⟩, rfl, rfl⟩, by simp, by simp⟩, hitems, ?_⟩
    intro hp
    simp at hp
  | record read _ hp hst =>
    obtain ⟨htake, hidle, hdone⟩ := Loader.take_fits hfits.1 hst read
    exact ⟨(loaderLaw_iff_fits _).2 ⟨htake, by simp [hp, hidle], by simp [hp, hdone]⟩, hitems, hroller⟩
  | loadEnd _ _ _ hp hst =>
    have hlawful := completeItems_lawful hfits.1.1
    exact ⟨(loaderLaw_iff_fits _).2 ⟨hfits.1, by simp [formedState], by simp [formedState]⟩, hlawful,
      fun _ => ⟨rfl, rfl, hlawful.divisor_pos⟩⟩
  | pulse _ hp h =>
    refine LoadedLawfully.ops h ⟨hloader, hitems, fun hp => ?_⟩
    obtain ⟨hnum, hden, hacc⟩ := hroller hp
    exact ⟨hnum, hden, Nat.mod_lt _ (by omega)⟩
  | receive bytes => exact hs.of_frame (receive_frame bytes s)
  | late => exact hs.of_frame ((setLine_frame s _).next (discard_frame _ _))
  | replySent => exact hs.of_frame (setLine_frame s _)
  | reply r h _ _ hops =>
    exact ((hs.of_frame (holdRequest_onlyChanges r s)).ops hops).of_frame (beginReply_frame _ h)
  | softReset => exact hs.of_frame (softReset_frame s)

/-- Settles O5: the Loader applies what its checks pass, load end completes the set from it, and each new value has
passed its range and its cross check. -/
theorem itemsAndRollerLawsAreKept : Obligations.ItemsAndRollerLawsAreKept := by
  unfold Obligations.ItemsAndRollerLawsAreKept
  intro s t hloader hitems hroller hstep
  obtain ⟨rest, h⟩ := step_happens hstep
  have hs : LoadedLawfully (s.setPending rest) := ⟨hloader, hitems, hroller⟩
  obtain ⟨h1, h2, h3⟩ := h.loadedLawfully hs
  exact ⟨h1, h2, h3⟩

end Sys2Proof.Machine
end

