-- ==== Sys2Proof/Proofs/SpeedLaw.lean ====
section
/-!
PROOFS. The set-point as the one of its inputs (R16), within the limits of a valid article (R15), and the figures of the
Speed Program Unit in their ranges (R9).
-/
namespace Sys2Proof.Machine

-- One after another: each theorem as a task of its own takes a thread.
set_option Elab.async false

/-! ## The set-point of a valid article -/

/-- The limits of a valid article (R110). -/
theorem Article.limits_of_valid {a : Article} (h : a.Valid) :
    a.minSpeed % 10 = 0 ∧ a.minSpeed ≤ a.maxSpeed ∧ a.minSpeed ≤ a.approach ∧ a.approach ≤ a.maxSpeed := by
  obtain ⟨hprogram, hfields⟩ := h
  match hp : a.program, hprogram with
  | [p0, p1, p2, p3, p4, p5, p6, p7, p8, p9, p10, p11, p12, p13, p14, p15], _ =>
    simp only [Article.failingField, Article.fields, hp, List.cons_append, List.nil_append, firstFailing, articleFieldOk]
      at hfields
    grind

/-- S5 lies within the limits of the article (R15). -/
theorem setPointOf_bounds {a : Article} (h : a.Valid) (f : Nat) (trim : Int) (g : Nat) (frame : FrameState) :
    setPointOf a f trim g frame % 10 = 0 ∧ a.minSpeed ≤ setPointOf a f trim g frame ∧
      setPointOf a f trim g frame ≤ a.maxSpeed ∧
      (frame.capped = true → setPointOf a f trim g frame ≤ a.approach) := by
  obtain ⟨hmod, hmax, happ, -⟩ := Article.limits_of_valid h
  unfold setPointOf
  dsimp only
  refine ⟨Nat.mul_mod_right _ _, by omega, by omega, fun hcap => ?_⟩
  have hs4 : cappedSpeed a f trim g frame ≤ a.approach := by
    unfold cappedSpeed
    dsimp only
    rw [if_pos hcap]
    exact Int.min_le_right _ _
  omega

/-! ## The set-point under the operations -/

/-- The figures of the Speed Program Unit in their ranges (R9). -/
def Speed.InRange (v : Speed) : Prop := v.fill ≤ 1024 ∧ v.step ≤ 8 ∧ v.lowStreak ≤ 2 ∧ v.winCount ≤ 65535

/-- The set-point is the one of the inputs as they stand. -/
def OnPoint (s : State) : Prop := s.speed.setPoint = currentSetPoint s

/-- From load end the set-point stands, and the figures lie in their ranges. -/
def SpeedFits (s : State) : Prop := (s.phase = .running → OnPoint s) ∧ s.speed.InRange

theorem speedLaw_iff {s : State} (h : ArticleLaw s) : SpeedLaw s ↔ SpeedFits s := by
  constructor
  · rintro ⟨hpoint, hrange⟩
    exact ⟨fun hp => (hpoint hp).1, hrange⟩
  · rintro ⟨hpoint, hrange⟩
    refine ⟨fun hp => ?_, hrange⟩
    have heq : s.speed.setPoint = currentSetPoint s := hpoint hp
    rw [heq]
    exact ⟨rfl, setPointOf_bounds h.1 _ _ _ _⟩

theorem SpeedFits.of_same {s t : State} (hs : SpeedFits s) (hphase : t.phase = s.phase) (hspeed : t.speed = s.speed)
    (hactive : t.articles.active = s.articles.active) (htrim : t.items.speedTrim = s.items.speedTrim)
    (hframe : t.doff.frame = s.doff.frame) : SpeedFits t := by
  simpa only [SpeedFits, OnPoint, currentSetPoint, hphase, hspeed, hactive, htrim, hframe] using hs

theorem SpeedFits.of_frame {ps : List Part} {s t : State} (h : OnlyChanges ps s t) (hs : SpeedFits s)
    (hp : .phase ∉ ps := by decide) (hv : .speed ∉ ps := by decide) (ha : .articles ∉ ps := by decide)
    (hi : .items ∉ ps := by decide) (hd : .doff ∉ ps := by decide) : SpeedFits t :=
  hs.of_same (h .phase hp) (h .speed hv) (congrArg ArticleStore.active (h .articles ha))
    (congrArg Items.speedTrim (h .items hi)) (congrArg Doff.frame (h .doff hd))

/-- A recomputation puts the set-point right, whatever it was (R16). -/
theorem SpeedFits.recomputed {s : State} (h : s.speed.InRange) : SpeedFits (recomputeSetPoint s) := by
  have hframe := recomputeSetPoint_frame s
  have hart : (recomputeSetPoint s).articles = s.articles := hframe .articles (by decide)
  have hitems : (recomputeSetPoint s).items = s.items := hframe .items (by decide)
  refine ⟨fun _ => ?_, ?_⟩
  · unfold OnPoint currentSetPoint
    rw [recomputeSetPoint_doff, hart, hitems, recomputeSetPoint_speed]
    rfl
  · rw [recomputeSetPoint_speed]
    exact h

/-- Outside the doff approach states the frame state is no input of the set-point (R14). -/
theorem setPointOf_uncapped {a : Article} {f g : Nat} {trim : Int} {x y : FrameState} (hx : x.capped = false)
    (hy : y.capped = false) : setPointOf a f trim g x = setPointOf a f trim g y := by
  simp [setPointOf, cappedSpeed, hx, hy]

theorem SpeedFits.changeFrame {s : State} (hs : SpeedFits s) (f : FrameState) : SpeedFits (changeFrame f s) := by
  unfold Machine.changeFrame
  dsimp only
  split
  · exact .recomputed hs.2
  · next h =>
    simp only [Bool.or_eq_true, not_or, Bool.not_eq_true] at h
    refine ⟨fun hp => ?_, hs.2⟩
    exact (hs.1 hp).trans (setPointOf_uncapped h.1 h.2)

theorem SpeedFits.setDoff {s : State} {d : Doff} (hs : SpeedFits s) (h : d.frame = s.doff.frame) :
    SpeedFits (s.setDoff d) := hs.of_same rfl rfl rfl rfl h

/-- Operations that leave the frame state and what else the set-point is formed from. -/
theorem SpeedFits.of_doff {ps : List Part} {s t : State} (h : OnlyChanges ps s t) (hs : SpeedFits s)
    (hframe : t.doff.frame = s.doff.frame) (hp : .phase ∉ ps := by decide) (hv : .speed ∉ ps := by decide)
    (ha : .articles ∉ ps := by decide) (hi : .items ∉ ps := by decide) : SpeedFits t :=
  hs.of_same (h .phase hp) (h .speed hv) (congrArg ArticleStore.active (h .articles ha))
    (congrArg Items.speedTrim (h .items hi)) hframe

theorem SpeedFits.raise {s : State} (hs : SpeedFits s) (c : PendClass) : SpeedFits (raise c s) := hs

theorem SpeedFits.stopForFill {s : State} (hs : SpeedFits s) : SpeedFits (stopForFill s) :=
  SpeedFits.raise (.of_doff (beginDoff_frame _ .auto) (hs.changeFrame .doffStopping) rfl) .stopAdvice

theorem SpeedFits.judgeFill {s : State} (hs : SpeedFits s) : SpeedFits (judgeFill s) :=
  judgeFill_keeps s (fun _ _ hu => .of_doff (swapContext_frame _) (hu.changeFrame .doffPending) rfl)
    (fun _ _ hu => hu.stopForFill) hs

theorem judgeFill_inRange {s : State} (h : s.speed.InRange) : (judgeFill s).speed.InRange := by
  have moved (u : State) (f : FrameState) (hu : u.speed.InRange) : (Machine.changeFrame f u).speed.InRange := by
    rw [changeFrame_speed]
    split <;> exact hu
  exact judgeFill_keeps (P := fun u => u.speed.InRange) s (fun u _ hu => moved u _ hu) (fun u _ hu => moved u _ hu) h

theorem fillOf_le (s : State) : fillOf s ≤ 1024 := Nat.min_le_left _ _

theorem SpeedFits.recomputeFill {s : State} (hs : SpeedFits s) : SpeedFits (recomputeFill s) := by
  unfold Machine.recomputeFill
  split
  · exact hs
  · obtain ⟨-, -, hstep, hlow, hwin⟩ := hs
    exact .recomputed (judgeFill_inRange ⟨fillOf_le s, hstep, hlow, hwin⟩)

theorem recomputeFill_inRange {s : State} (h : s.speed.InRange) : (recomputeFill s).speed.InRange := by
  unfold Machine.recomputeFill
  split
  · exact h
  · obtain ⟨-, hstep, hlow, hwin⟩ := h
    exact (SpeedFits.recomputed (s := Machine.judgeFill (s.setSpeed { s.speed with fill := fillOf s }))
      (judgeFill_inRange ⟨fillOf_le s, hstep, hlow, hwin⟩)).2

theorem SpeedFits.makeExchange {s : State} (hs : SpeedFits s) (a : Article) (o : Occasion) :
    SpeedFits (makeExchange a o s) := by
  have hsplit : (split s).speed = s.speed := split_frame s .speed (by decide)
  unfold Machine.makeExchange
  dsimp only
  generalize hu : State.setSpeed _ _ = u
  have hrange : u.speed.InRange := by
    obtain ⟨-, hfill, -, hlow, hwin⟩ := hs
    rw [← hu, State.setSpeed_speed]
    change Speed.InRange { (split s).speed with step := 0 }
    rw [hsplit]
    exact ⟨hfill, Nat.zero_le _, hlow, hwin⟩
  have hset : SpeedFits (recomputeSetPoint (Machine.recomputeFill u)) := .recomputed (recomputeFill_inRange hrange)
  exact (hset.of_frame (countFrame_frame _ .exchange)).of_same rfl rfl rfl rfl rfl

theorem SpeedFits.dueExchange {s : State} (hs : SpeedFits s) : SpeedFits (dueExchange s) := by
  rcases dueExchange_cases s with h | ⟨a, -, h⟩ | ⟨r, h⟩
  · rwa [h]
  · rw [h]; exact hs.makeExchange _ _
  · rw [h]; exact hs

theorem SpeedFits.resetCops {s : State} (hs : SpeedFits s) : SpeedFits (resetCops s) := by
  rw [resetCops_eq]
  refine SpeedFits.recomputeFill (SpeedFits.setDoff ?_ rfl)
  exact (hs.of_frame (split_frame s)).of_same rfl rfl rfl rfl rfl

theorem SpeedFits.completeDoff {s : State} (hs : SpeedFits s) (byHand : Bool) : SpeedFits (completeDoff byHand s) := by
  rw [completeDoff_eq]
  have hdone := SpeedFits.of_doff (recordOutcome_frame _ .done none)
    (SpeedFits.of_frame (clearDoffHolds_frame _) hs.resetCops.dueExchange) rfl
  have hstop := SpeedFits.of_frame (stopDoffer_frame _ byHand) (hdone.of_frame (countFrame_frame _ .doff))
  exact SpeedFits.changeFrame (.of_doff (endDoffer_frame _) hstop rfl) .restartWait

theorem stepGovernor_inRange {t : Items} {rate : Nat} {v : Speed} (h : v.InRange) : (stepGovernor t rate v).InRange := by
  obtain ⟨hfill, hstep, hlow, hwin⟩ := h
  unfold stepGovernor
  split
  · exact ⟨hfill, Nat.min_le_left _ _, Nat.zero_le _, hwin⟩
  split
  · split
    · exact ⟨hfill, (Nat.sub_le _ _).trans hstep, Nat.zero_le _, hwin⟩
    · exact ⟨hfill, hstep, by dsimp only; omega, hwin⟩
  · exact ⟨hfill, hstep, Nat.zero_le _, hwin⟩

/-- The governor moves g and the low streak alone (R18). -/
theorem stepGovernor_same (t : Items) (rate : Nat) (v : Speed) :
    (stepGovernor t rate v).fill = v.fill ∧ (stepGovernor t rate v).setPoint = v.setPoint ∧
      (stepGovernor t rate v).winCount = v.winCount := by
  unfold stepGovernor
  split
  · exact ⟨rfl, rfl, rfl⟩
  split
  · split <;> exact ⟨rfl, rfl, rfl⟩
  · exact ⟨rfl, rfl, rfl⟩

theorem SpeedFits.closeWindow {s : State} (hs : SpeedFits s) : SpeedFits (closeWindow s) := by
  unfold Machine.closeWindow
  dsimp only
  generalize hv : (if s.doff.effective.governor = true ∧ inService s .a + inService s .b ≠ 0 then _ else s.speed) = v
  have hrange : v.InRange ∧ v.fill = s.speed.fill ∧ v.setPoint = s.speed.setPoint := by
    rw [← hv]
    split
    · obtain ⟨hfill, hset, -⟩ := stepGovernor_same s.items
        (s.speed.winCount * 1000 / (inService s .a + inService s .b)) s.speed
      exact ⟨stepGovernor_inRange hs.2, hfill, hset⟩
    · exact ⟨hs.2, rfl, rfl⟩
  obtain ⟨⟨h1, h2, h3, -⟩, hfill, hset⟩ := hrange
  split
  · next hstep =>
    refine ⟨fun hp => ?_, h1, h2, h3, Nat.zero_le _⟩
    change v.setPoint = setPointOf s.articles.active v.fill s.items.speedTrim v.step s.doff.frame
    rw [hset, hfill, hstep]
    exact hs.1 hp
  · exact .recomputed ⟨h1, h2, h3, Nat.zero_le _⟩

theorem SpeedFits.countGovernor {s : State} (hs : SpeedFits s) : SpeedFits (countGovernor s) := by
  unfold Machine.countGovernor
  split
  · exact ⟨fun hp => hs.1 hp, hs.2.1, hs.2.2.1, hs.2.2.2.1, Nat.min_le_left _ _⟩
  · exact hs

theorem Op.speedFits {ps : List Part} {s t : State} (h : Op ps s t) (hs : SpeedFits s) : SpeedFits t := by
  have hf := h.frame
  cases h with
  | context | dofferTimer | sectionDone | dofferReady => exact hs.setDoff rfl
  | lengthTrim => exact hs
  | speedTrim => exact .recomputed hs.2
  | encoder code v _ hc => exact hs.of_same rfl rfl rfl (put_speedTrim_of_ne (by omega)) rfl
  | item code v _ hc =>
    exact hs.of_same rfl rfl rfl (put_speedTrim_of_ne (by unfold plainItem at hc; omega)) rfl
  | sections side n =>
    exact hs.of_same (hf .phase (by decide)) (hf .speed (by decide))
      (congrArg ArticleStore.active (hf .articles (by decide))) (by rw [changeSections_items])
      (congrArg Doff.frame (hf .doff (by decide)))
  | stage | request | refuseExchange => exact hs.of_same rfl rfl rfl rfl rfl
  | exchange a o => exact hs.makeExchange a o
  | startUp => exact SpeedFits.changeFrame (s := s.setDoff { s.doff with watchStart := some s.flmm }) (hs.setDoff rfl) _
  | halt => exact SpeedFits.changeFrame (s := s.setDoff { s.doff with watchStart := none }) (hs.setDoff rfl) _
  | enterDoffing =>
    have hframe : OnlyChanges [.spindles, .breakList, .carriages, .bus] (Machine.changeFrame .doffing s)
        (setDoffHold .b (setDoffHold .a (withdrawForDoff .b (withdrawForDoff .a (Machine.changeFrame .doffing s))))) :=
      (((withdrawForDoff_frame _ _).next (withdrawForDoff_frame _ _)).next (setDoffHold_frame _ _)).next
        (setDoffHold_frame _ _)
    have h := (hs.changeFrame .doffing).of_frame hframe
    unfold Machine.enterDoffing
    dsimp only
    split
    · exact h.of_doff (startDoffer_frame _) rfl
    · exact h.setDoff rfl
  | stopByRequest =>
    have h := SpeedFits.of_doff (beginDoff_frame _ .manual) (hs.changeFrame .doffStopping) rfl
    unfold Machine.stopByRequest
    dsimp only
    split
    · exact h.of_doff (swapContext_frame _) rfl
    · exact h
  | abortDoff =>
    have recalled (u : State) (h : SpeedFits u) :
        SpeedFits (Machine.changeFrame .halted (recordOutcome .aborted none (clearDoffHolds
          (u.setDoff { u.doff with go := .none })))) := by
      have hgo := h.of_doff (setDoff_frame u { u.doff with go := .none }) rfl
      have hfree := hgo.of_frame (clearDoffHolds_frame _)
      have hdone := hfree.of_doff (recordOutcome_frame _ .aborted none) rfl
      exact hdone.changeFrame .halted
    unfold Machine.abortDoff
    by_cases hgo : s.doff.go = .sent
    · have hstop := hs.of_frame (sendDoffStop_frame s)
      have h := recalled _ (hstop.of_doff (setDoff_frame _ { (sendDoffStop s).doff with timer := none, ready := false }) rfl)
      simpa only [hgo, if_true] using h
    · simpa only [hgo, if_false] using recalled s hs
  | failDoff =>
    have ended := SpeedFits.of_frame (clearDoffHolds_frame _) (hs.of_doff (endDoffer_frame s) rfl)
    exact SpeedFits.raise (SpeedFits.changeFrame (ended.of_doff (recordOutcome_frame _ .fault _) rfl) .halted) .dofferFault
  | completeDoff byHand => exact hs.completeDoff byHand
  | startDoffer => exact hs.of_doff (startDoffer_frame s) rfl
  | endBreak side pos sp =>
    unfold takeEndBreak
    refine SpeedFits.countGovernor (SpeedFits.of_frame (countSide_frame _ _ _) ?_)
    dsimp only
    split
    · split
      · exact hs.of_frame (lockSpindle_frame _ _ _ _ _)
      · exact SpeedFits.raise (hs.of_frame (joinBreakList_frame _ _ _ _ _)) _
    · exact hs.of_frame (joinBreakList_frame _ _ _ _ _)
  | fill => exact hs.recomputeFill
  | window => exact hs.closeWindow
  | watch =>
    rw [endWatch_eq]
    refine SpeedFits.judgeFill ?_
    have hspin := SpeedFits.changeFrame (.of_doff (setDoff_frame s { s.doff with watchStart := none }) hs rfl) .spinning
    exact hspin.of_doff (restoreContext_frame _) (by rw [restoreContext_doff]; rfl)
  | _ => exact hs.of_frame hf

/-- The soft reset recomputes the set-point at its end (R20). -/
theorem softReset_speedFits {s : State} (hs : SpeedFits s) : SpeedFits (softReset s) := by
  have hframe := ((((softResetCarriage_frame .a s).wide (rs := [.carriages, .bus, .spindles, .breakList, .breakSeq,
    .doff, .line, .articles, .roving])).next (softResetCarriage_frame .b _)).next (softResetSpindles_frame .a _)).next
    (softResetSpindles_frame .b _) |>.next (softResetDoff_frame _) |>.next
    (setArticles_frame _ { (softResetDoff (softResetSpindles .b (softResetSpindles .a (softResetCarriage .b
      (softResetCarriage .a s))))).articles with request := false }) |>.next (softResetRoving_frame _) |>.next
    (softResetTrain_frame _)
  have hspeed := hframe .speed (by decide)
  unfold softReset
  dsimp only
  generalize softResetTrain _ = u at hspeed ⊢
  change SpeedFits (softResetSpeed u)
  unfold softResetSpeed
  refine SpeedFits.recomputed ?_
  rw [State.setSpeed_speed, hspeed]
  exact ⟨hs.2.1, Nat.zero_le _, Nat.zero_le _, Nat.zero_le _⟩

/-- Settles O6: each operation that moves an input of the set-point recomputes it at its end. -/
theorem articleAndSpeedLawsAreKept : Obligations.ArticleAndSpeedLawsAreKept := by
  unfold Obligations.ArticleAndSpeedLawsAreKept
  intro s t hart hspeed hstep
  have hart' := step_articleLaw hstep hart
  have free : LineFree SpeedFits := ⟨fun _ _ h => h, fun _ _ h => h, fun _ _ h => h, fun _ _ h => ⟨by simp, h.2⟩⟩
  have hfits : SpeedFits t := free.step (fun _ _ => ⟨by simp [State.reset], by simp [State.reset, Speed.InRange]⟩)
    (fun s _ => ⟨fun _ => rfl, by simp [formedState, State.reset, Speed.InRange]⟩) (fun _ _ h => h) Op.speedFits
    (fun _ => softReset_speedFits) hstep ((speedLaw_iff hart).1 hspeed)
  exact ⟨hart', (speedLaw_iff hart').2 hfits⟩

end Sys2Proof.Machine
end

