-- ==== Sys2Proof/Proofs/ShiftRecords.lean ====
section
/-!
PROOFS. The shift counts within 16 bits with their marker, and the history of at most 8 records in sequence (R146, R147,
R156, R157).
-/
namespace Sys2Proof.Machine

-- One after another: each theorem as a task of its own takes a thread.
set_option Elab.async false

/-! ## The figures of a live record -/

/-- A figure of a live record: one of a side, or one of the frame (R145). -/
abbrev Figure := (Side × SideFigure) ⊕ FrameFigure

/-- The count of a figure. -/
def ShiftLive.figure (v : ShiftLive) : Figure → Nat
  | .inl (side, f) => (v.sides.get side).counts.get f
  | .inr .doff => v.doffs
  | .inr .exchange => v.exchanges

theorem ShiftCounts.mem_list (c : ShiftCounts) (n : Nat) : n ∈ c.list ↔ ∃ f, c.get f = n := by
  constructor
  · intro h
    simp only [ShiftCounts.list, List.mem_cons, List.not_mem_nil, or_false] at h
    rcases h with rfl | rfl | rfl | rfl | rfl | rfl | rfl | rfl | rfl
    exacts [⟨.endBreak, rfl⟩, ⟨.startUpBreak, rfl⟩, ⟨.rovingOutBreak, rfl⟩, ⟨.carriagePiece, rfl⟩, ⟨.manualPiece, rfl⟩,
      ⟨.pieceFailure, rfl⟩, ⟨.rogueLock, rfl⟩, ⟨.pieceFailLock, rfl⟩, ⟨.replacement, rfl⟩]
  · rintro ⟨f, rfl⟩
    cases f <;> simp [ShiftCounts.list, ShiftCounts.get]

theorem mem_liveCounts (s : State) (n : Nat) : n ∈ liveCounts s ↔ ∃ i, s.shift.live.figure i = n := by
  simp only [liveCounts, List.mem_append, ShiftCounts.mem_list, List.mem_cons, List.not_mem_nil, or_false]
  constructor
  · rintro ((⟨f, h⟩ | ⟨f, h⟩) | h | h)
    exacts [⟨.inl (.a, f), h⟩, ⟨.inl (.b, f), h⟩, ⟨.inr .doff, h.symm⟩, ⟨.inr .exchange, h.symm⟩]
  · rintro ⟨(⟨side, f⟩ | f), h⟩
    · cases side
      exacts [.inl (.inl ⟨f, h⟩), .inl (.inr ⟨f, h⟩)]
    · cases f
      exacts [.inr (.inl h.symm), .inr (.inr h.symm)]

/-- The counts of a live record within 16 bits, with their marker (R146, R147). -/
def ShiftLive.Fits (v : ShiftLive) : Prop :=
  (∀ i, v.figure i ≤ 65535) ∧ (v.marker = true ↔ ∃ i, v.figure i = 65535)

theorem countsLaw_iff (s : State) : CountsLaw s ↔ s.shift.live.Fits := by
  simp only [CountsLaw, ShiftLive.Fits, mem_liveCounts, forall_exists_index, forall_apply_eq_imp_iff]

/-- One count of one figure keeps the counts and their marker (R146, R147). -/
theorem ShiftLive.Fits.count {v w : ShiftLive} (h : v.Fits) (i : Figure)
    (hfig : ∀ j, w.figure j = if j = i then bump16 (v.figure i) else v.figure j)
    (hmark : w.marker = (v.marker || v.figure i == 65534)) : w.Fits := by
  obtain ⟨hle, hiff⟩ := h
  have hi := hle i
  refine ⟨fun j => ?_, ?_⟩
  · rw [hfig]
    split
    · unfold bump16; split <;> omega
    · exact hle j
  · rw [hmark, Bool.or_eq_true, hiff, beq_iff_eq]
    constructor
    · rintro (⟨j, hj⟩ | h)
      · refine ⟨j, ?_⟩
        rw [hfig]
        split
        · next e => subst e; simp [bump16, hj]
        · exact hj
      · exact ⟨i, by rw [hfig, if_pos rfl]; simp [bump16, h]⟩
    · rintro ⟨j, hj⟩
      rw [hfig] at hj
      split at hj
      · unfold bump16 at hj
        split at hj
        · exact .inr (by omega)
        · exact .inl ⟨i, hj⟩
      · exact .inl ⟨j, hj⟩

/-! ## The operations on the live record -/

/-- The two laws of the Shift Counter's state. -/
def ShiftRecords (s : State) : Prop := HistoryLaw s ∧ CountsLaw s

theorem ShiftRecords.of_shift {s t : State} (hs : ShiftRecords s) (h : t.shift = s.shift) : ShiftRecords t := by
  simpa only [ShiftRecords, HistoryLaw, CountsLaw, liveCounts, h] using hs

theorem ShiftRecords.of_frame {ps : List Part} {s t : State} (h : OnlyChanges ps s t) (hs : ShiftRecords s)
    (hp : .shift ∉ ps := by decide) : ShiftRecords t := hs.of_shift (h .shift hp)

/-- Credits of length leave the counts and the history (R148, R149). -/
theorem ShiftRecords.of_counts {s t : State} (hs : ShiftRecords s)
    (hfig : ∀ i, t.shift.live.figure i = s.shift.live.figure i) (hmark : t.shift.live.marker = s.shift.live.marker)
    (hhist : t.shift.history = s.shift.history) (hseq : t.shift.seq = s.shift.seq) : ShiftRecords t := by
  refine ⟨?_, ?_⟩
  · simpa only [HistoryLaw, hhist, hseq] using hs.1
  · have h := (countsLaw_iff s).1 hs.2
    rw [countsLaw_iff]
    simpa only [ShiftLive.Fits, hfig, hmark] using h

theorem figure_of_modify {v : ShiftLive} {side : Side} {f : ShiftSide → ShiftSide}
    (h : ∀ r, (f r).counts = r.counts) (i : Figure) :
    ({ v with sides := v.sides.modify side f } : ShiftLive).figure i = v.figure i := by
  rcases i with ⟨sd, g⟩ | g
  · by_cases hsd : sd = side
    · subst hsd
      simp [ShiftLive.figure, h]
    · simp [ShiftLive.figure, Sides.get_modify_other _ _ _ _ hsd]
  · cases g <;> rfl

theorem ShiftRecords.creditRun {s : State} (hs : ShiftRecords s) (side : Side) (n : Nat) :
    ShiftRecords (creditRun side n s) :=
  hs.of_counts (figure_of_modify fun _ => rfl) rfl rfl rfl

theorem ShiftRecords.creditPossible {s : State} (hs : ShiftRecords s) (side : Side) :
    ShiftRecords (creditPossible side s) :=
  hs.of_counts (figure_of_modify fun _ => rfl) rfl rfl rfl

theorem ShiftRecords.of_counted {s t : State} (hs : ShiftRecords s) (i : Figure)
    (hfig : ∀ j, t.shift.live.figure j = if j = i then bump16 (s.shift.live.figure i) else s.shift.live.figure j)
    (hmark : t.shift.live.marker = (s.shift.live.marker || s.shift.live.figure i == 65534))
    (hhist : t.shift.history = s.shift.history) (hseq : t.shift.seq = s.shift.seq) : ShiftRecords t := by
  refine ⟨?_, (countsLaw_iff t).2 (((countsLaw_iff s).1 hs.2).count i hfig hmark)⟩
  simpa only [HistoryLaw, hhist, hseq] using hs.1

theorem ShiftRecords.countSide {s : State} (hs : ShiftRecords s) (side : Side) (f : SideFigure) :
    ShiftRecords (countSide side f s) := by
  refine hs.of_counted (.inl (side, f)) (fun j => ?_) ?_ ?_ ?_
  · rcases j with ⟨sd, g⟩ | g
    · by_cases hsd : sd = side
      · subst hsd
        simp only [Machine.countSide, markSaturation_shift, ShiftLive.figure, State.setShift_shift,
          Sides.get_modify_same, ShiftCounts.get_set]
        by_cases hg : g = f
        · subst hg; simp
        · simp [hg]
      · simp [Machine.countSide, markSaturation_shift, ShiftLive.figure, Sides.get_modify_other _ _ _ _ hsd, hsd]
    · cases g <;> simp [Machine.countSide, markSaturation_shift, ShiftLive.figure]
  all_goals simp [Machine.countSide, markSaturation_shift, ShiftLive.figure]

theorem ShiftRecords.countFrame {s : State} (hs : ShiftRecords s) (f : FrameFigure) :
    ShiftRecords (countFrame f s) := by
  refine hs.of_counted (.inr f) (fun j => ?_) ?_ ?_ ?_
  · rcases j with ⟨sd, g⟩ | g
    · cases f <;> simp [Machine.countFrame, markSaturation_shift, ShiftLive.figure]
    · cases f <;> cases g <;> simp [Machine.countFrame, markSaturation_shift, ShiftLive.figure]
  all_goals cases f <;> simp [Machine.countFrame, markSaturation_shift, ShiftLive.figure]

theorem ShiftRecords.split {s : State} (hs : ShiftRecords s) : ShiftRecords (split s) := by
  have one (u : State) (side : Side) (hu : ShiftRecords u) : ShiftRecords (splitSide side u) :=
    ShiftRecords.creditRun (hu.of_frame (setSpindles_frame u _)) side _
  exact one _ .b (one s .a hs)

theorem ShiftRecords.closeInterval {s : State} (hs : ShiftRecords s) (side : Side) (pos : Nat) :
    ShiftRecords (closeInterval side pos s) := by
  unfold Machine.closeInterval
  split
  · exact hs
  · split
    · exact ShiftRecords.creditRun (hs.of_frame (writeSpindle_frame _ _ s _)) _ _
    · exact hs

theorem ShiftRecords.lockSpindle {s : State} (hs : ShiftRecords s) (side : Side) (pos : Nat) (c : LockCause)
    (sp : Spindle) : ShiftRecords (lockSpindle side pos c sp s) :=
  ShiftRecords.countSide (hs.of_frame ((writeSpindle_frame side pos s (sp.locked c)).wide.next (raise_frame _ c.pendClass)
    : OnlyChanges [.spindles, .breakList, .bus, .line] _ _)) _ _

/-! ## A close -/

/-- A cleared live record counts nothing. -/
theorem ShiftLive.cleared_fits : ShiftLive.cleared.Fits := by
  have zero (i : Figure) : ShiftLive.cleared.figure i = 0 := by
    rcases i with ⟨side, f⟩ | f
    · cases side <;> cases f <;> rfl
    · cases f <;> rfl
  exact ⟨fun i => by simp [zero], iff_of_false Bool.false_ne_true fun ⟨i, hi⟩ => by simp [zero] at hi⟩

theorem nextShiftSeq_bounds {n : Nat} (h : n ≤ 4294967295) : 1 ≤ nextShiftSeq n ∧ nextShiftSeq n ≤ 4294967295 := by
  unfold nextShiftSeq
  split <;> omega

/-- The history after a close: the oldest of 8 records leaves, and the new record carries the number in force (R156,
R157). -/
theorem ShiftRecords.closeShift {s : State} (hs : ShiftRecords s) (label stamp : Nat) :
    ShiftRecords (closeShift label stamp s) := by
  have hmid : ShiftRecords (Machine.creditPossible .b (Machine.creditPossible .a (Machine.split s))) :=
    (hs.split.creditPossible .a).creditPossible .b
  unfold Machine.closeShift
  dsimp only
  generalize Machine.creditPossible .b _ = u at hmid ⊢
  obtain ⟨⟨hlen, ⟨hseq1, hseq2⟩, hrec, hchain⟩, -⟩ := hmid
  refine ⟨⟨?_, nextShiftSeq_bounds hseq2, ?_, ?_⟩, (countsLaw_iff _).2 ShiftLive.cleared_fits⟩
  · change (appendHistory _ _).length ≤ 8
    simp only [appendHistory, List.length_append, List.length_drop, List.length_singleton]
    omega
  · intro r hr
    change r ∈ appendHistory _ _ at hr
    rcases List.mem_append.1 hr with h | h
    · exact hrec r (List.mem_of_mem_drop h)
    · rw [List.mem_singleton.1 h]
      exact ⟨hseq1, hseq2⟩
  · change ((appendHistory u.shift.history _).map (·.seq) ++ [nextShiftSeq u.shift.seq]).IsChain _
    have hdrop : ((u.shift.history.drop (u.shift.history.length - 7)).map (·.seq) ++ [u.shift.seq]).IsChain
        (fun q r => r = nextShiftSeq q) := by
      rw [List.map_drop]
      have hd := List.IsChain.drop hchain (u.shift.history.length - 7)
      rwa [List.drop_append_of_le_length (by simp)] at hd
    rw [appendHistory, List.map_append, List.map_singleton, List.isChain_append]
    refine ⟨hdrop, .singleton _, fun x hx y hy => ?_⟩
    simp only [List.getLast?_append, List.getLast?_singleton, Option.some_or, Option.mem_def, Option.some.injEq,
      List.head?_cons] at hx hy
    rw [← hx, ← hy]
    rfl

/-! ## Every operation -/

theorem ShiftRecords.makeExchange {s : State} (hs : ShiftRecords s) (a : Article) (o : Occasion) :
    ShiftRecords (makeExchange a o s) := by
  unfold Machine.makeExchange
  dsimp only
  generalize hu : State.setSpeed _ _ = u
  have hmid : ShiftRecords u := by rw [← hu]; exact hs.split.of_shift rfl
  have hset := hmid.of_frame (((recomputeFill_frame u).wide (rs := [.doff, .speed, .line])).next
    (recomputeSetPoint_frame _))
  exact (hset.countFrame .exchange).of_shift rfl

theorem ShiftRecords.dueExchange {s : State} (hs : ShiftRecords s) : ShiftRecords (dueExchange s) := by
  rcases dueExchange_cases s with h | ⟨a, -, h⟩ | ⟨r, h⟩
  · rwa [h]
  · rw [h]; exact hs.makeExchange _ _
  · rw [h]; exact hs

theorem ShiftRecords.completeDoff {s : State} (hs : ShiftRecords s) (byHand : Bool) :
    ShiftRecords (completeDoff byHand s) := by
  have hreset : ShiftRecords (resetCops s) := by
    rw [resetCops_eq]
    exact (hs.split.of_shift rfl : ShiftRecords ((zeroCops (Machine.split s)).setDoff _)).of_frame (recomputeFill_frame _)
  rw [completeDoff_eq]
  refine ShiftRecords.of_frame (((stopDoffer_frame _ byHand).wide (rs := [.bus, .doff, .speed, .line])).next
    (endDoffer_frame _) |>.next (changeFrame_frame _ .restartWait)) (ShiftRecords.countFrame ?_ .doff)
  exact hreset.dueExchange.of_frame ((clearDoffHolds_frame _).wide.next (recordOutcome_frame _ .done none)
    : OnlyChanges [.carriages, .doff] _ _)

theorem ShiftRecords.changeSections {s : State} (hs : ShiftRecords s) (side : Side) (n : Nat) :
    ShiftRecords (changeSections side n s) := by
  have hrelease (u : State) (keep : Nat) (hu : ShiftRecords u) : ShiftRecords (releaseRemoved side keep u) :=
    (hu.creditRun side _).of_shift rfl
  exact ShiftRecords.of_frame (((releaseSlot_frame side _ (48 * n)).wide (rs := [.roving, .line, .spindles, .bus, .items,
    .carriages])).next (resizeSide_frame side _ n) |>.next (setItems_frame _ _) |>.next (recallCarriage_frame side _ _))
    (hrelease _ _ (hs.creditPossible side))

theorem ShiftRecords.replaceBobbin {s : State} (hs : ShiftRecords s) (y : SpRef) :
    ShiftRecords (replaceBobbin y s) := by
  cases h : s.spindle y.side y.pos with
  | none => simpa [Machine.replaceBobbin, h] using hs
  | some old =>
    by_cases hrun : old.state = .running
    · rw [replaceBobbin_of_running h hrun]
      exact ShiftRecords.countSide (hs.split.of_frame (joinBreakList_frame _ _ _ _ _)) _ _
    by_cases hwait : old.state = .waitRoving
    · rw [replaceBobbin_of_waitRoving h hwait]
      exact ShiftRecords.countSide (hs.of_frame (joinBreakList_frame _ _ _ _ _)) _ _
    · rw [replaceBobbin_of_other h hrun hwait]
      exact ShiftRecords.countSide (hs.of_frame (writeSpindle_frame _ _ _ _)) _ _

theorem ShiftRecords.judgeAttempts {s : State} (hs : ShiftRecords s) (side : Side) (pos : Nat) (sp : Spindle) :
    ShiftRecords (judgeAttempts side pos sp s) := by
  unfold Machine.judgeAttempts
  split
  · exact hs.of_frame (writeSpindle_frame _ _ _ _)
  split
  · exact hs.lockSpindle _ _ _ _
  · exact hs.of_frame ((writeSpindle_frame _ _ _ _).wide.next (raise_frame _ _)
      : OnlyChanges [.spindles, .breakList, .bus, .line] _ _)

theorem Op.shiftRecords {ps : List Part} {s t : State} (h : Op ps s t) (hs : ShiftRecords s) : ShiftRecords t := by
  have hf := h.frame
  cases h with
  | sections side n => exact hs.changeSections side n
  | exchange a o => exact hs.makeExchange a o
  | completeDoff byHand => exact hs.completeDoff byHand
  | park side pos =>
    have hmid := ShiftRecords.of_frame ((withdrawForPark_frame side pos _).wide.next (unlist_frame _ ⟨side, pos⟩)
      : OnlyChanges [.carriages, .bus, .roving] _ _) ((hs.creditPossible side).closeInterval side pos)
    unfold parkSpindle
    dsimp only
    split
    · exact hmid.of_frame (writeSpindle_frame _ _ _ _)
    · exact hmid
  | unpark side => exact (hs.creditPossible side).of_frame (joinBreakList_frame _ _ _ _ _)
  | seed side pos =>
    have hclose := hs.closeInterval side pos
    unfold seedRoving
    dsimp only
    split
    · exact hclose.of_frame (writeSpindle_frame _ _ _ _)
    · exact hclose
  | closeShift label stamp => exact hs.closeShift label stamp
  | pieceDone side pos =>
    unfold Machine.pieceDone
    refine ShiftRecords.of_frame (carriageSettles_frame _ _ _) ?_
    split
    · split
      · exact ShiftRecords.countSide (hs.of_frame (writeSpindle_frame _ _ _ _)) _ _
      · exact hs
    · exact hs
  | pieceMissed side pos =>
    rcases pieceMissed_cases side pos s with ⟨old, -, -, h⟩ | h
    · rw [h]
      exact ((hs.countSide side .pieceFailure).judgeAttempts side pos _).of_frame (carriageSettles_frame _ _ _)
    · rw [h]
      exact hs.of_frame (carriageSettles_frame _ _ _)
  | overtakenDone side pos ok =>
    unfold Machine.overtakenDone
    refine ShiftRecords.of_frame (carriageSettles_frame _ _ _) ?_
    split
    · exact hs.countSide side _
    · exact hs
  | lateOutcome side pos ok =>
    have hmid := hs.of_frame (modifyCarriage_frame side s fun c => { c with withdrawn := none })
    unfold Machine.lateOutcome
    dsimp only
    split
    · split
      · split
        · exact ShiftRecords.countSide (hmid.of_frame (writeSpindle_frame _ _ _ _)) _ _
        · exact hmid
      · exact hmid
    · exact hmid
  | closeInterval side pos => exact hs.closeInterval side pos
  | runOut side pos sp =>
    exact ShiftRecords.countSide (hs.of_frame (((writeSpindle_frame side pos s _).wide (rs := [.spindles, .breakList, .bus,
      .roving, .line])).next (placeRunOut_frame _ ⟨side, pos⟩) |>.next (raise_frame _ _))) _ _
  | startUpBreak => exact ShiftRecords.countSide (hs.of_frame (joinBreakList_frame _ _ s _ _)) _ _
  | endBreak side pos sp =>
    unfold takeEndBreak
    refine ShiftRecords.of_frame (countGovernor_frame _) (ShiftRecords.countSide ?_ _ _)
    dsimp only
    split
    · split
      · exact hs.lockSpindle _ _ _ _
      · exact (hs.of_frame (joinBreakList_frame _ _ s _ _)).of_frame (raise_frame _ _)
    · exact hs.of_frame (joinBreakList_frame _ _ s _ _)
  | yarnFound side pos =>
    unfold Machine.yarnFound
    split
    · exact hs
    · split
      · exact ShiftRecords.countSide (hs.of_frame (writeSpindle_frame _ _ _ _)) _ _
      · exact hs.of_frame ((writeSpindle_frame side pos s _).wide.next (overtakeOrder_frame _ _ _)
          : OnlyChanges [.spindles, .breakList, .bus, .carriages] _ _)
      all_goals exact hs
  | replaceSlot y =>
    exact ShiftRecords.of_frame (endingTest_frame _) (ShiftRecords.replaceBobbin (hs.of_frame (emptySlot_frame s)) y)
  | replaceListed y => exact ShiftRecords.replaceBobbin (hs.of_frame (unlist_frame s y)) y
  | _ => exact hs.of_frame hf

theorem shiftRecords_cleared {s : State} (hlive : s.shift.live = ShiftLive.cleared) (hhist : s.shift.history = [])
    (hseq : s.shift.seq = 1) : ShiftRecords s := by
  refine ⟨?_, (countsLaw_iff s).2 (hlive ▸ ShiftLive.cleared_fits)⟩
  simp [HistoryLaw, hhist, hseq]

/-- Settles O12: a count moves one figure and its marker, and a close appends the number in force. -/
theorem shiftRecordLawsAreKept : Obligations.ShiftRecordLawsAreKept := by
  unfold Obligations.ShiftRecordLawsAreKept
  intro s t hhist hcounts hstep
  have free : LineFree ShiftRecords := ⟨fun _ _ h => h, fun _ _ h => h, fun _ _ h => h, fun _ _ h => h⟩
  exact free.step (fun _ _ => shiftRecords_cleared rfl rfl rfl) (fun _ _ => shiftRecords_cleared rfl rfl rfl)
    (fun _ _ h => h) Op.shiftRecords (fun s h => h.of_frame (softReset_frame s)) hstep ⟨hhist, hcounts⟩

end Sys2Proof.Machine
end

