-- ==== Sys2Proof/Proofs/ShiftBooks.lean ====
section
/-!
PROOFS. The live run length against the live possible length (R151): each credit moves a length from what is open to what
is counted, and no change of a record opens a length.
-/
namespace Sys2Proof.Machine

-- One after another: each theorem as a task of its own takes a thread.
set_option Elab.async false

/-! ## Open lengths and the in-service count -/

/-- No change of a record opens a length: a marker is set at FLmm only. -/
theorem Change.openLength_le {x cap : Nat} {k : ChangeKind} {a b : Spindle} (h : Change x cap k a b) :
    b.openLength x ≤ a.openLength x := by
  cases h with
  | close art =>
    unfold Spindle.close
    split
    · next hrun => simp [Spindle.openLength, hrun]
    · exact Nat.le_refl _
  | clamp | zeroCop | renumber | resequence | seed | mark => exact Nat.le_refl _
  | piece | pieceOrdered => simp [Spindle.openLength, Spindle.piecedOpen, Spindle.pieced]
  | join | renew | order | giveBack | lock | wait | park | unpark => exact Nat.zero_le _

/-- Only a park and an unpark move a record in or out of service. -/
theorem Change.parked_iff {x cap : Nat} {k : ChangeKind} {a b : Spindle} (h : Change x cap k a b) (hp : k ≠ .park)
    (hu : k ≠ .unpark) : b.state = .parked ↔ a.state = .parked := by
  cases h with
  | close art =>
    unfold Spindle.close
    split <;> rfl
  | clamp | zeroCop | renumber | resequence | seed | mark => rfl
  | park => exact absurd rfl hp
  | unpark => exact absurd rfl hu
  | renew _ _ _ _ h | order _ h | giveBack _ h | piece _ h | pieceOrdered _ h | wait _ h =>
    exact iff_of_false (by simp [Spindle.joined, Spindle.piecedOpen, Spindle.pieced]) (by simp [h])
  | join _ _ _ _ h | lock _ _ h =>
    exact iff_of_false (by simp [Spindle.joined, Spindle.locked]) (by rcases h with h | h <;> simp [h])

theorem Reforms.openLength_le {x cap : Nat} {ks : List ChangeKind} {a b : Spindle} (h : Reforms x cap ks a b) :
    b.openLength x ≤ a.openLength x := by
  induction h with
  | refl => exact Nat.le_refl _
  | tail _ hlast ih =>
    obtain ⟨k, -, hc⟩ := hlast
    exact hc.openLength_le.trans ih

theorem Reforms.parked_iff {x cap : Nat} {ks : List ChangeKind} {a b : Spindle} (h : Reforms x cap ks a b)
    (hp : .park ∉ ks) (hu : .unpark ∉ ks) : b.state = .parked ↔ a.state = .parked := by
  induction h with
  | refl => rfl
  | tail _ hlast ih =>
    obtain ⟨k, hin, hc⟩ := hlast
    exact (hc.parked_iff (fun e => hp (e ▸ hin)) (fun e => hu (e ▸ hin))).trans ih

theorem openSum_le_of_forall₂ {x cap : Nat} {ks : List ChangeKind} {l m : List Spindle}
    (h : List.Forall₂ (Reforms x cap ks) l m) : openSum m x ≤ openSum l x := by
  induction h with
  | nil => exact Nat.le_refl _
  | cons hab _ ih =>
    simp only [openSum, List.map_cons, List.sum_cons] at ih ⊢
    exact Nat.add_le_add hab.openLength_le ih

theorem Records.openSum_le {x cap : Nat} {ks : List ChangeKind} {s t : State} (h : Records x cap ks s t) (side : Side) :
    openSum (t.spindles.get side) x ≤ openSum (s.spindles.get side) x := openSum_le_of_forall₂ (h.forall₂ side)

theorem Records.inService_eq {x cap : Nat} {ks : List ChangeKind} {s t : State} (h : Records x cap ks s t) (side : Side)
    (hp : .park ∉ ks := by decide) (hu : .unpark ∉ ks := by decide) : inService t side = inService s side := by
  have hall := h.forall₂ side
  unfold inService inServiceOf
  generalize s.spindles.get side = l at hall
  generalize t.spindles.get side = m at hall
  induction hall with
  | nil => rfl
  | cons hab _ ih =>
    have hstate := hab.parked_iff hp hu
    have hb : ∀ {a b : Spindle}, (b.state = .parked ↔ a.state = .parked) → (b.state != .parked) = (a.state != .parked) := by
      intro a b h
      rw [Bool.eq_iff_iff, bne_iff_ne, bne_iff_ne, ne_eq, ne_eq, h]
    rw [List.countP_cons, List.countP_cons, ih, hb hstate]

/-! ## The books of the shift -/

/-- The run length stays within the possible length, which has room, and no mark lies above FLmm. -/
def InBooks (s : State) : Prop :=
  ∀ side, runNow s side ≤ possibleNow s side ∧ possibleNow s side < 2 ^ 64 ∧ s.shift.marks.get side ≤ s.flmm

theorem inBooks_iff (s : State) : InBooks s ↔ ShiftHasRoom s ∧ ShiftLaw s := by
  constructor
  · intro h
    obtain ⟨a1, a2, a3⟩ := h .a
    obtain ⟨b1, b2, b3⟩ := h .b
    exact ⟨⟨a2, b2⟩, ⟨a1, a3⟩, ⟨b1, b3⟩⟩
  · rintro ⟨⟨a2, b2⟩, ⟨a1, a3⟩, ⟨b1, b3⟩⟩ side
    cases side
    exacts [⟨a1, a2, a3⟩, ⟨b1, b2, b3⟩]

/-- Neither length nor mark of a side is moved. -/
def SameLengths (s t : State) : Prop :=
  ∀ side, (t.shift.live.sides.get side).run = (s.shift.live.sides.get side).run ∧
    (t.shift.live.sides.get side).possible = (s.shift.live.sides.get side).possible ∧
    t.shift.marks.get side = s.shift.marks.get side

theorem SameLengths.of_shift {s t : State} (h : t.shift = s.shift) : SameLengths s t := by
  intro side
  rw [h]
  exact ⟨rfl, rfl, rfl⟩

theorem OnlyChanges.sameLengths {ps : List Part} {s t : State} (h : OnlyChanges ps s t)
    (hp : .shift ∉ ps := by decide) : SameLengths s t := .of_shift (h .shift hp)

theorem SameLengths.trans {s t u : State} (h1 : SameLengths s t) (h2 : SameLengths t u) : SameLengths s u := by
  intro side
  obtain ⟨a1, a2, a3⟩ := h1 side
  obtain ⟨b1, b2, b3⟩ := h2 side
  exact ⟨b1.trans a1, b2.trans a2, b3.trans a3⟩

theorem SameLengths.frame {ps : List Part} {s t u : State} (h1 : SameLengths s t) (h2 : OnlyChanges ps t u)
    (hp : .shift ∉ ps := by decide) : SameLengths s u := h1.trans (h2.sameLengths hp)

theorem SameLengths.refl (s : State) : SameLengths s s := .of_shift rfl

theorem countSide_sameLengths (side : Side) (f : SideFigure) (s : State) : SameLengths s (countSide side f s) := by
  intro sd
  rw [countSide, markSaturation_shift]
  by_cases hsd : sd = side
  · subst hsd; simp
  · simp [Sides.get_modify_other _ _ _ _ hsd]

theorem SameLengths.countSide {s t : State} (h : SameLengths s t) (side : Side) (f : SideFigure) :
    SameLengths s (countSide side f t) := h.trans (countSide_sameLengths side f t)

theorem countFrame_sameLengths (f : FrameFigure) (s : State) : SameLengths s (countFrame f s) := by
  intro sd
  cases f <;> simp [countFrame, markSaturation_shift]

/-- Records that move in or out of service only where the mark stands at FLmm, without a credit. -/
theorem InBooks.of_records {x cap : Nat} {ks : List ChangeKind} {s t : State} (hs : InBooks s)
    (hrec : Records x cap ks s t) (hx : s.flmm = x) (hflmm : t.flmm = s.flmm) (hlen : SameLengths s t)
    (hserv : ∀ side, s.shift.marks.get side = s.flmm ∨ inService t side = inService s side) : InBooks t := by
  subst hx
  intro side
  obtain ⟨hle, hroom, hmark⟩ := hs side
  obtain ⟨hrun, hposs, hmarks⟩ := hlen side
  have hposs' : possibleNow t side = possibleNow s side := by
    unfold possibleNow
    rw [hposs, hmarks, hflmm]
    rcases hserv side with h | h
    · simp [h]
    · rw [h]
  have hrun' : runNow t side ≤ runNow s side := by
    unfold runNow
    rw [hrun, hflmm]
    exact Nat.add_le_add_left (hrec.openSum_le side) _
  rw [hposs', hmarks, hflmm]
  exact ⟨hrun'.trans hle, hroom, hmark⟩

/-- The usual case: nothing is parked or unparked. -/
theorem InBooks.of_plain {x cap : Nat} {ks : List ChangeKind} {s t : State} (hs : InBooks s)
    (hrec : Records x cap ks s t) (hx : s.flmm = x) (hflmm : t.flmm = s.flmm) (hlen : SameLengths s t)
    (hp : .park ∉ ks := by decide) (hu : .unpark ∉ ks := by decide) : InBooks t :=
  hs.of_records hrec hx hflmm hlen fun side => .inr (hrec.inService_eq side hp hu)

theorem InBooks.of_frame {ps : List Part} {s t : State} (h : OnlyChanges ps s t) (hs : InBooks s)
    (hr : .roller ∉ ps := by decide) (hsp : .spindles ∉ ps := by decide) (hsh : .shift ∉ ps := by decide) : InBooks t :=
  hs.of_plain (x := s.flmm) (cap := 0) (ks := []) (h.records hsp) rfl (h.flmm hr) (h.sameLengths hsh) (by simp) (by simp)

/-! ## Credits -/

/-- A credit of possible length moves it from the open interval of the mark to the count (R149). -/
theorem creditPossible_possibleNow {s : State} (side sd : Side) (h : possibleNow s side < 2 ^ 64) :
    possibleNow (creditPossible side s) sd = possibleNow s sd := by
  by_cases hsd : sd = side
  · subst hsd
    have hposs := creditPossible_possible sd s h
    have hmark : (creditPossible sd s).shift.marks.get sd = s.flmm := by simp [creditPossible]
    have hflmm : (creditPossible sd s).flmm = s.flmm := rfl
    rw [possibleNow, hposs, hmark, hflmm, Nat.sub_self, Nat.zero_mul, Nat.add_zero]
  · have hserv : inService (creditPossible side s) sd = inService s sd := rfl
    have hflmm : (creditPossible side s).flmm = s.flmm := rfl
    rw [possibleNow, hserv, hflmm]
    simp [creditPossible, Sides.get_modify_other _ _ _ _ hsd, Sides.get_set_other _ _ _ _ hsd, possibleNow]

theorem creditPossible_run (side sd : Side) (s : State) :
    ((creditPossible side s).shift.live.sides.get sd).run = (s.shift.live.sides.get sd).run := by
  by_cases hsd : sd = side
  · subst hsd; simp [creditPossible]
  · simp [creditPossible, Sides.get_modify_other _ _ _ _ hsd]

theorem creditPossible_mark (side : Side) (s : State) : (creditPossible side s).shift.marks.get side = s.flmm := by
  simp [creditPossible]

theorem creditPossible_mark_other {side sd : Side} (s : State) (h : sd ≠ side) :
    (creditPossible side s).shift.marks.get sd = s.shift.marks.get sd := by
  simp [creditPossible, Sides.get_set_other _ _ _ _ h]

theorem InBooks.creditPossible {s : State} (hs : InBooks s) (side : Side) : InBooks (creditPossible side s) := by
  intro sd
  obtain ⟨hle, hroom, hmark⟩ := hs sd
  have hrun : runNow (Machine.creditPossible side s) sd = runNow s sd := by
    unfold runNow
    rw [creditPossible_run]
    rfl
  rw [creditPossible_possibleNow side sd (hs side).2.1, hrun]
  refine ⟨hle, hroom, ?_⟩
  by_cases hsd : sd = side
  · subst hsd
    rw [creditPossible_mark]
    exact Nat.le_refl _
  · rw [creditPossible_mark_other s hsd]
    exact hmark

theorem creditRun_run (side : Side) (dl : Nat) (s : State)
    (h : (s.shift.live.sides.get side).run + dl < 2 ^ 64) :
    ((creditRun side dl s).shift.live.sides.get side).run = (s.shift.live.sides.get side).run + dl := by
  simp [creditRun, add64_exact _ _ h]

theorem creditRun_possible (side sd : Side) (dl : Nat) (s : State) :
    ((creditRun side dl s).shift.live.sides.get sd).possible = (s.shift.live.sides.get sd).possible := by
  by_cases hsd : sd = side
  · subst hsd; simp [creditRun]
  · simp [creditRun, Sides.get_modify_other _ _ _ _ hsd]

theorem creditRun_run_other {side sd : Side} (dl : Nat) (s : State) (h : sd ≠ side) :
    ((creditRun side dl s).shift.live.sides.get sd).run = (s.shift.live.sides.get sd).run := by
  simp [creditRun, Sides.get_modify_other _ _ _ _ h]

/-- A length that records have closed is credited to the run length of their side (R148). -/
theorem InBooks.credited {cap : Nat} {ks : List ChangeKind} {s t : State} {side : Side} {dl : Nat} (hs : InBooks s)
    (hrec : Records s.flmm cap ks s t) (hflmm : t.flmm = s.flmm) (hshift : t.shift = s.shift)
    (hdl : openSum (t.spindles.get side) s.flmm + dl ≤ openSum (s.spindles.get side) s.flmm)
    (hp : .park ∉ ks := by decide) (hu : .unpark ∉ ks := by decide) : InBooks (creditRun side dl t) := by
  intro sd
  obtain ⟨hle, hroom, hmark⟩ := hs sd
  have hposs : possibleNow (creditRun side dl t) sd = possibleNow s sd := by
    have hserv : inService (creditRun side dl t) sd = inService s sd := hrec.inService_eq sd hp hu
    have hx : (creditRun side dl t).flmm = s.flmm := hflmm
    have hm : (creditRun side dl t).shift.marks = s.shift.marks := by
      change t.shift.marks = _
      rw [hshift]
    rw [possibleNow, creditRun_possible, hserv, hx, hm, hshift]
    rfl
  have hrun : runNow (creditRun side dl t) sd ≤ runNow s sd := by
    unfold runNow
    change _ + openSum (t.spindles.get sd) t.flmm ≤ _
    rw [hflmm]
    by_cases hsd : sd = side
    · subst hsd
      have hfit : (t.shift.live.sides.get sd).run + dl < 2 ^ 64 := by
        rw [hshift]
        unfold runNow at hle
        omega
      rw [creditRun_run _ _ _ hfit, hshift]
      omega
    · rw [creditRun_run_other _ _ hsd, hshift]
      exact Nat.add_le_add_left (hrec.openSum_le sd) _
  rw [hposs]
  refine ⟨hrun.trans hle, hroom, ?_⟩
  change t.shift.marks.get sd ≤ t.flmm
  rw [hshift, hflmm]
  exact hmark

/-- The sum of the open lengths after one record of a list has been replaced. -/
theorem openSum_set {l : List Spindle} {i : Nat} {old new : Spindle} (x : Nat) (h : l[i]? = some old) :
    openSum (l.set i new) x + old.openLength x = openSum l x + new.openLength x := by
  induction l generalizing i with
  | nil => simp at h
  | cons a l ih =>
    cases i with
    | zero =>
      simp only [List.getElem?_cons_zero, Option.some.injEq] at h
      subst h
      simp only [List.set_cons_zero, openSum, List.map_cons, List.sum_cons]
      omega
    | succ i =>
      have := ih (by simpa using h)
      simp only [List.set_cons_succ, openSum, List.map_cons, List.sum_cons] at this ⊢
      omega

theorem InBooks.closeInterval {s : State} (hs : InBooks s) (side : Side) (pos : Nat) :
    InBooks (closeInterval side pos s) := by
  cases h : s.spindle side pos with
  | none => rwa [show Machine.closeInterval side pos s = s by simp [Machine.closeInterval, h]]
  | some sp =>
    by_cases hst : sp.state = .running
    · rw [closeInterval_of_running h hst]
      have hframe := writeSpindle_frame side pos s (sp.close s.articles.active s.flmm)
      have hrec : Records s.flmm 0 [.close, .clamp] s (writeSpindle side pos (sp.close s.articles.active s.flmm) s) :=
        writeSpindle_records_of h ((Change.close s.articles.active sp).reforms.next (Change.clamp _))
      refine hs.credited hrec hframe.flmm (hframe .shift (by decide)) ?_
      rw [writeSpindle_spindles side pos _ s sp h, Sides.get_set_same]
      have hget : (s.spindles.get side)[pos - 1]? = some sp := by
        unfold State.spindle at h
        split at h
        · cases h
        · exact h
      have hsum := openSum_set (new := { sp.close s.articles.active s.flmm with
        clamp := (sp.close s.articles.active s.flmm).state.clamp }) s.flmm hget
      have hzero : ({ sp.close s.articles.active s.flmm with
          clamp := (sp.close s.articles.active s.flmm).state.clamp } : Spindle).openLength s.flmm = 0 := by
        simp [Spindle.openLength, Spindle.close, hst]
      rw [hzero, Nat.add_zero] at hsum
      exact hsum.le
    · rwa [show Machine.closeInterval side pos s = s by simp [Machine.closeInterval, h, hst]]

/-- A closed record has no open length (R25). -/
theorem close_openLength (art : Article) (x : Nat) (sp : Spindle) : (sp.close art x).openLength x = 0 := by
  unfold Spindle.close
  split
  · next h => simp [Spindle.openLength, h]
  · next h =>
    unfold Spindle.openLength
    split
    · next hrun _ => exact absurd hrun h
    · rfl

theorem openSum_close (art : Article) (x : Nat) (l : List Spindle) : openSum (l.map (·.close art x)) x = 0 := by
  unfold openSum
  rw [List.map_map, List.sum_eq_zero_iff]
  intro n hn
  obtain ⟨sp, -, rfl⟩ := List.mem_map.1 hn
  exact close_openLength art x sp

theorem InBooks.splitSide {s : State} (hs : InBooks s) (side : Side) : InBooks (splitSide side s) := by
  have hrec : Records s.flmm 0 [.close] s
      (s.setSpindles (s.spindles.modify side (·.map (·.close s.articles.active s.flmm)))) :=
    mapSpindles_records fun sp => (Change.close s.articles.active sp).reforms
  refine hs.credited hrec rfl rfl ?_
  rw [State.setSpindles_spindles, Sides.get_modify_same, openSum_close, Nat.zero_add]

theorem InBooks.split {s : State} (hs : InBooks s) : InBooks (split s) := (hs.splitSide .a).splitSide .b

/-! ## The operations that credit -/

theorem InBooks.makeExchange {s : State} (hs : InBooks s) (a : Article) (o : Occasion) : InBooks (makeExchange a o s) := by
  unfold Machine.makeExchange
  dsimp only
  generalize hu : State.setSpeed _ _ = u
  have hmid : InBooks u := by
    rw [← hu]
    exact hs.split.of_frame ((setArticles_frame _ _).wide.next (setSpeed_frame _ _) : OnlyChanges [.articles, .speed] _ _)
  have hset := hmid.of_frame (((recomputeFill_frame u).wide (rs := [.doff, .speed, .line])).next
    (recomputeSetPoint_frame _))
  have hcount := countFrame_frame (recomputeSetPoint (recomputeFill u)) .exchange
  have hcounted : InBooks (countFrame .exchange (recomputeSetPoint (recomputeFill u))) :=
    hset.of_plain (x := _) (cap := 0) (ks := []) hcount.records rfl hcount.flmm (countFrame_sameLengths _ _) (by simp)
      (by simp)
  exact hcounted.of_frame ((setArticles_frame _ _).wide.next (raise_frame _ .article) : OnlyChanges [.articles, .line] _ _)

theorem InBooks.dueExchange {s : State} (hs : InBooks s) : InBooks (dueExchange s) := by
  rcases dueExchange_cases s with h | ⟨a, -, h⟩ | ⟨r, h⟩
  · rwa [h]
  · rw [h]; exact hs.makeExchange _ _
  · rw [h]; exact hs.of_frame (refuseExchange_frame s _ _)

theorem InBooks.countFrame {s : State} (hs : InBooks s) (f : FrameFigure) : InBooks (countFrame f s) :=
  hs.of_plain (x := _) (cap := 0) (ks := []) (countFrame_frame s f).records rfl (countFrame_frame s f).flmm
    (countFrame_sameLengths f s) (by simp) (by simp)

theorem InBooks.countSide {s : State} (hs : InBooks s) (side : Side) (f : SideFigure) : InBooks (countSide side f s) :=
  hs.of_plain (x := _) (cap := 0) (ks := []) (countSide_frame side s f).records rfl (countSide_frame side s f).flmm
    (countSide_sameLengths side f s) (by simp) (by simp)

theorem InBooks.completeDoff {s : State} (hs : InBooks s) (byHand : Bool) : InBooks (completeDoff byHand s) := by
  have hzero : InBooks (zeroCops (Machine.split s)) :=
    hs.split.of_plain (zeroCops_records (x := s.flmm) (cap := 0)) (split_frame s).flmm rfl (.of_shift rfl)
  have hreset : InBooks (resetCops s) := by
    rw [resetCops_eq]
    exact hzero.of_frame ((setDoff_frame _ _).wide.next (recomputeFill_frame _) : OnlyChanges [.doff, .speed, .line] _ _)
  rw [completeDoff_eq]
  have hdone := hreset.dueExchange.of_frame ((clearDoffHolds_frame _).wide.next (recordOutcome_frame _ .done none)
    : OnlyChanges [.carriages, .doff] _ _)
  exact (hdone.countFrame .doff).of_frame (((stopDoffer_frame _ byHand).wide (rs := [.bus, .doff, .speed, .line])).next
    (endDoffer_frame _) |>.next (changeFrame_frame _ .restartWait))

theorem InBooks.parkSpindle {s : State} (hs : InBooks s) (side : Side) (pos : Nat) : InBooks (parkSpindle side pos s) := by
  have hclose := (hs.creditPossible side).closeInterval side pos
  have hmark : (Machine.closeInterval side pos (Machine.creditPossible side s)).shift.marks.get side =
      (Machine.closeInterval side pos (Machine.creditPossible side s)).flmm := by
    rw [(closeInterval_frame side pos _).flmm]
    have hmarks (u : State) : (Machine.closeInterval side pos u).shift.marks = u.shift.marks := by
      unfold Machine.closeInterval
      split
      · rfl
      · split
        · next sp _ _ =>
          have hsame : (writeSpindle side pos (sp.close u.articles.active u.flmm) u).shift = u.shift :=
            writeSpindle_frame side pos u _ .shift (by decide)
          change (writeSpindle side pos _ u).shift.marks = _
          rw [hsame]
        · rfl
    rw [hmarks, creditPossible_mark]
    rfl
  unfold Machine.parkSpindle
  dsimp only
  generalize Machine.closeInterval side pos (Machine.creditPossible side s) = u at hclose hmark ⊢
  have hframe : OnlyChanges [.carriages, .bus, .roving] u (unlist ⟨side, pos⟩ (withdrawForPark side pos u)) :=
    (withdrawForPark_frame side pos u).wide.next (unlist_frame _ _)
  have hfreed := hclose.of_frame hframe
  have hmark' : (unlist ⟨side, pos⟩ (withdrawForPark side pos u)).shift.marks.get side =
      (unlist ⟨side, pos⟩ (withdrawForPark side pos u)).flmm := by
    rw [hframe .shift (by decide), hframe.flmm, hmark]
  split
  · next sp hsp =>
    have hwrite := writeSpindle_frame side pos (unlist ⟨side, pos⟩ (withdrawForPark side pos u)) sp.parked
    refine hfreed.of_records (cap := 0) (writeSpindle_records_of hsp (Change.park sp).reforms (ks := [.park])) rfl
      hwrite.flmm hwrite.sameLengths fun sd => ?_
    by_cases hsd : sd = side
    · subst hsd
      exact .inl hmark'
    · exact .inr (congrArg inServiceOf (writeSpindle_otherSide side pos _ _ sd hsd).1)
  · exact hfreed

/-! ### Joins -/

theorem advanceSeq_otherSide (side : Side) (s : State) : OtherSideSame side s (advanceSeq side s) := by
  intro sd hsd
  unfold advanceSeq
  dsimp only
  split
  · simp [renumber, Sides.get_set_other _ _ _ _ hsd, Sides.get_modify_other _ _ _ _ hsd]
  · simp [Sides.get_modify_other _ _ _ _ hsd]

theorem joinBreakList_otherSide (side : Side) (pos : Nat) (c : Cause) (sp : Spindle) (s : State) :
    OtherSideSame side s (joinBreakList side pos c sp s) :=
  (advanceSeq_otherSide side s).trans (writeSpindle_otherSide side pos _ _)

theorem InBooks.unpark {s : State} {side : Side} {pos : Nat} {sp : Spindle} (hs : InBooks s)
    (h : s.spindle side pos = some sp) (hst : sp.state = .parked) :
    InBooks (joinBreakList side pos .release { sp with attempts := 0 } (Machine.creditPossible side s)) := by
  have hsp : (Machine.creditPossible side s).spindle side pos = some sp := h
  have hframe := joinBreakList_frame side pos (Machine.creditPossible side s) .release { sp with attempts := 0 }
  have hrec : Records s.flmm 0 [.mark, .unpark, .renumber] (Machine.creditPossible side s)
      (joinBreakList side pos .release { sp with attempts := 0 } (Machine.creditPossible side s)) :=
    joinBreakList_records hsp fun q => (Change.mark 0 sp.stamps sp.rogueUnlocked sp (by decide) (.inl rfl)).reforms.next
      (Change.unpark .release q _ (by decide) hst)
  refine (hs.creditPossible side).of_records hrec rfl hframe.flmm hframe.sameLengths fun sd => ?_
  by_cases hsd : sd = side
  · subst hsd
    exact .inl (creditPossible_mark sd s)
  · exact .inr (congrArg inServiceOf (joinBreakList_otherSide side pos _ _ _ sd hsd).1)

/-! ### The change of a section count -/

theorem openSum_append (l m : List Spindle) (x : Nat) : openSum (l ++ m) x = openSum l x + openSum m x := by
  simp [openSum]

theorem openSum_formed (n x : Nat) : openSum (List.replicate n (Spindle.formed x)) x = 0 := by
  simp [openSum, Spindle.openLength, Spindle.formed]

/-- The lengths of the removed spindles are credited, and the new ones have none (R22, R47). -/
theorem InBooks.changeSections {s : State} (hs : InBooks s) (side : Side) (n : Nat) : InBooks (Machine.changeSections side n s) := by
  have hcredit := hs.creditPossible side
  have hmark := creditPossible_mark side s
  have hspindles := changeSections_spindles side n s
  have hflmm : (Machine.changeSections side n s).flmm = s.flmm := (changeSections_frame side s n).flmm
  have hshift : (Machine.changeSections side n s).shift = (creditRun side
      (openSum ((s.spindles.get side).drop (48 * n)) s.flmm) (Machine.creditPossible side s)).shift := by
    have hafter := ((releaseSlot_frame side (releaseRemoved side (48 * n) (Machine.creditPossible side s)) (48 * n)).wide
      (rs := [.roving, .line, .spindles, .bus, .items, .carriages])).next (resizeSide_frame side _ n) |>.next
      (setItems_frame _ { (resizeSide side n (releaseSlot side (48 * n) (releaseRemoved side (48 * n)
        (Machine.creditPossible side s)))).items with sections := (resizeSide side n (releaseSlot side (48 * n)
        (releaseRemoved side (48 * n) (Machine.creditPossible side s)))).items.sections.set side n }) |>.next
      (recallCarriage_frame side _ (48 * n))
    exact hafter .shift (by decide)
  intro sd
  by_cases hsd : sd = side
  · subst hsd
    obtain ⟨hle, hroom, -⟩ := hcredit sd
    have hsum : openSum (s.spindles.get sd) s.flmm = openSum ((s.spindles.get sd).take (48 * n)) s.flmm +
        openSum ((s.spindles.get sd).drop (48 * n)) s.flmm := by
      rw [← openSum_append, List.take_append_drop]
    have hrun0 : runNow (Machine.creditPossible sd s) sd =
        ((Machine.creditPossible sd s).shift.live.sides.get sd).run + openSum (s.spindles.get sd) s.flmm := rfl
    have hrun : runNow (Machine.changeSections sd n s) sd = runNow (Machine.creditPossible sd s) sd := by
      rw [runNow, hshift, hflmm, hspindles, Sides.get_set_same, openSum_append, openSum_formed,
        creditRun_run _ _ _ (by omega), hrun0]
      omega
    have hposs : possibleNow (Machine.changeSections sd n s) sd = possibleNow (Machine.creditPossible sd s) sd := by
      have hm : (Machine.changeSections sd n s).shift.marks.get sd = s.flmm := by
        rw [hshift]
        exact hmark
      have hm0 : possibleNow (Machine.creditPossible sd s) sd =
          ((Machine.creditPossible sd s).shift.live.sides.get sd).possible := by
        rw [possibleNow, hmark, show (Machine.creditPossible sd s).flmm = s.flmm from rfl, Nat.sub_self, Nat.zero_mul,
          Nat.add_zero]
      rw [possibleNow, hm, hflmm, Nat.sub_self, Nat.zero_mul, Nat.add_zero, hshift, creditRun_possible, hm0]
    refine ⟨by rw [hrun, hposs]; exact hle, by rw [hposs]; exact hroom, ?_⟩
    rw [hshift, hflmm]
    exact hmark.le
  · obtain ⟨hle, hroom, hmk⟩ := hcredit sd
    have hsp : (Machine.changeSections side n s).spindles.get sd = (Machine.creditPossible side s).spindles.get sd := by
      rw [hspindles, Sides.get_set_other _ _ _ _ hsd]
      rfl
    have hposs : possibleNow (Machine.changeSections side n s) sd = possibleNow (Machine.creditPossible side s) sd := by
      unfold possibleNow inService
      rw [hsp, hshift, hflmm, creditRun_possible]
      rfl
    have hrun : runNow (Machine.changeSections side n s) sd = runNow (Machine.creditPossible side s) sd := by
      unfold runNow
      rw [hsp, hshift, hflmm, creditRun_run_other _ _ hsd]
      rfl
    rw [hposs, hrun, hshift, hflmm]
    exact ⟨hle, hroom, hmk⟩

/-- A close leaves nothing counted and nothing open (R152). -/
theorem closeShift_inBooks {s : State} (label stamp : Nat) : InBooks (closeShift label stamp s) := by
  have hframe := ((split_frame s).next (creditPossible_frame .a _)).next (creditPossible_frame .b _)
  have hspindles (side : Side) : (closeShift label stamp s).spindles.get side =
      (s.spindles.get side).map (·.close s.articles.active s.flmm) := by
    cases side <;> rfl
  have hflmm : (closeShift label stamp s).flmm = s.flmm := (closeShift_frame s label stamp).flmm
  intro side
  have hmark : (closeShift label stamp s).shift.marks.get side = s.flmm := by
    cases side <;> rfl
  have hrun : runNow (closeShift label stamp s) side = 0 := by
    rw [runNow, hspindles, hflmm, openSum_close]
    cases side <;> rfl
  have hposs : possibleNow (closeShift label stamp s) side = 0 := by
    rw [possibleNow, hmark, hflmm, Nat.sub_self, Nat.zero_mul]
    cases side <;> rfl
  rw [hrun, hposs, hmark, hflmm]
  exact ⟨Nat.le_refl _, by decide, Nat.le_refl _⟩

/-! ## Every operation -/

theorem lockSpindle_sameLengths (side : Side) (pos : Nat) (c : LockCause) (sp : Spindle) (s : State) :
    SameLengths s (lockSpindle side pos c sp s) :=
  ((((writeSpindle_frame side pos s (sp.locked c)).sameLengths).frame (raise_frame _ _)).countSide _ _)

theorem judgeAttempts_sameLengths (side : Side) (pos : Nat) (sp : Spindle) (s : State) :
    SameLengths s (judgeAttempts side pos sp s) := by
  unfold judgeAttempts
  split
  · exact (writeSpindle_frame _ _ _ _).sameLengths
  split
  · exact lockSpindle_sameLengths _ _ _ _ _
  · exact (writeSpindle_frame _ _ s _).sameLengths.frame (raise_frame _ _)

theorem InBooks.replaceBobbin {s : State} (hs : InBooks s) (y : SpRef) : InBooks (replaceBobbin y s) := by
  have full (u : State) (a : Spindle) : Reforms u.flmm (s.articles.active.bobbin * 1000) [.seed, .mark, .join, .renew,
      .renumber] a { a.renewed s.articles.active with attempts := 0 } :=
    (Change.seed _ a (Nat.le_refl _)).reforms.next (Change.mark 0 a.stamps a.rogueUnlocked _ (by decide) (.inl rfl))
  cases h : s.spindle y.side y.pos with
  | none => simpa [Machine.replaceBobbin, h] using hs
  | some old =>
    by_cases hrun : old.state = .running
    · have hold : (Machine.split s).spindle y.side y.pos = some (old.close s.articles.active s.flmm) := by
        rw [split_spindle, h]; rfl
      have hstate : (old.close s.articles.active s.flmm).state = .running := by simp [Spindle.close, hrun]
      rw [replaceBobbin_of_running h hrun]
      have hjoin := joinBreakList_frame y.side y.pos (Machine.split s) .rovingChange
        { (old.close s.articles.active s.flmm).renewed s.articles.active with attempts := 0 }
      exact (hs.split.of_plain (joinBreakList_records hold fun q => (full _ _).next
        (Change.join .rovingChange q _ (by decide) (.inl hstate))) rfl hjoin.flmm hjoin.sameLengths).countSide _ _
    by_cases hwait : old.state = .waitRoving
    · rw [replaceBobbin_of_waitRoving h hwait]
      have hjoin := joinBreakList_frame y.side y.pos s .rovingChange
        { old.renewed s.articles.active with attempts := 0 }
      exact (hs.of_plain (joinBreakList_records h fun q => (full _ _).next
        (Change.renew .rovingChange q _ (by decide) hwait)) rfl hjoin.flmm hjoin.sameLengths).countSide _ _
    · rw [replaceBobbin_of_other h hrun hwait]
      have hwrite := writeSpindle_frame y.side y.pos s (old.renewed s.articles.active)
      exact (hs.of_plain (ks := [.seed, .clamp]) (writeSpindle_records_of h
        ((Change.seed _ old (Nat.le_refl _)).reforms.next (Change.clamp _))) rfl hwrite.flmm hwrite.sameLengths).countSide
        _ _

theorem Op.inBooks {ps : List Part} {s t : State} (h : Op ps s t) (hs : InBooks s) : InBooks t := by
  have hf := h.frame
  have hx := h.flmm
  cases h with
  | lengthTrim | encoder | motionStops =>
    exact hs.of_plain (x := s.flmm) (cap := 0) (ks := []) hf.records rfl hx hf.sameLengths (by simp) (by simp)
  | sections side n => exact hs.changeSections side n
  | exchange a o => exact hs.makeExchange a o
  | dispatch side => exact hs.of_plain (dispatchTest_records (x := s.flmm) (cap := 0)) rfl hx hf.sameLengths
  | enterDoffing => exact hs.of_plain (enterDoffing_records (x := s.flmm) (cap := 0)) rfl hx hf.sameLengths
  | completeDoff byHand => exact hs.completeDoff byHand
  | park side pos => exact hs.parkSpindle side pos
  | unpark side pos sp _ h hst => exact hs.unpark h hst
  | release side pos sp _ h hst =>
    have hrec : Records s.flmm 0 [.mark, .join, .renumber] s
        (joinBreakList side pos .release { sp with attempts := 0, stamps := [], rogueUnlocked := false } s) :=
      joinBreakList_records h fun q => (Change.mark 0 [] false sp (by decide) (.inr (.inl rfl))).reforms.next
        (Change.join .release q _ (by decide) (.inr hst))
    exact hs.of_plain hrec rfl hx hf.sameLengths
  | seed side pos metres =>
    have hclose := hs.closeInterval side pos
    unfold seedRoving
    dsimp only
    split
    · next sp hsp =>
      have hwrite := writeSpindle_frame side pos (Machine.closeInterval side pos s)
        { sp with roving := some (metres * 1000) }
      exact hclose.of_plain (ks := [.seed, .clamp]) (writeSpindle_records_of hsp
        ((Change.seed _ sp (Nat.le_refl _)).reforms.next (Change.clamp _))) rfl hwrite.flmm hwrite.sameLengths
    · exact hclose
  | closeShift label stamp => exact closeShift_inBooks label stamp
  | arrives => exact hs.of_plain (carriageArrives_records (x := s.flmm) (cap := 0)) rfl hx hf.sameLengths
  | timeout side k => exact hs.of_plain (carriageTimeout_records (x := s.flmm) (cap := 0) k) rfl hx hf.sameLengths
  | silent => exact hs.of_plain (carriageSilent_records (x := s.flmm) (cap := 0)) rfl hx hf.sameLengths
  | pieceDone side pos =>
    refine hs.of_plain (pieceDone_records (cap := 0) rfl) rfl hx ?_
    unfold Machine.pieceDone
    refine SameLengths.frame ?_ (carriageSettles_frame _ _ _)
    split
    · split
      · exact (writeSpindle_frame _ _ s _).sameLengths.countSide _ _
      · exact .refl s
    · exact .refl s
  | pieceMissed side pos =>
    refine hs.of_plain (pieceMissed_records (x := s.flmm) (cap := 0)) rfl hx ?_
    rcases pieceMissed_cases side pos s with ⟨old, -, -, h⟩ | h
    · rw [h]
      exact ((countSide_sameLengths _ _ s).trans (judgeAttempts_sameLengths _ _ _ _)).frame (carriageSettles_frame _ _ _)
    · rw [h]
      exact (carriageSettles_frame _ s _).sameLengths
  | overtakenDone side pos ok =>
    unfold Machine.overtakenDone
    refine InBooks.of_frame (carriageSettles_frame _ _ _) ?_
    split
    · exact hs.countSide side _
    · exact hs
  | lateOutcome side pos ok =>
    refine hs.of_plain (lateOutcome_records (cap := 0) ok rfl) rfl hx ?_
    have hmid := (modifyCarriage_frame side s fun c => { c with withdrawn := none }).sameLengths
    unfold Machine.lateOutcome
    dsimp only
    split
    · split
      · split
        · exact (hmid.frame (writeSpindle_frame _ _ _ _)).countSide _ _
        · exact hmid
      · exact hmid
    · exact hmid
  | closeInterval side pos => exact hs.closeInterval side pos
  | runOut side pos sp _ h =>
    refine hs.of_plain (takeRunOut_records (x := s.flmm) (cap := 0) h) rfl hx ?_
    exact (((writeSpindle_frame side pos s _).sameLengths.frame (placeRunOut_frame _ _)).frame
      (raise_frame _ _)).countSide _ _
  | startUpBreak side pos sp _ h =>
    exact hs.of_plain (takeStartUpBreak_records (x := s.flmm) (cap := 0) h) rfl hx
      ((joinBreakList_frame _ _ s _ _).sameLengths.countSide _ _)
  | endBreak side pos sp _ h =>
    refine hs.of_plain (takeEndBreak_records (cap := 0) h rfl) rfl hx ?_
    unfold takeEndBreak
    refine SameLengths.frame (SameLengths.countSide ?_ _ _) (countGovernor_frame _)
    dsimp only
    split
    · split
      · exact lockSpindle_sameLengths _ _ _ _ _
      · exact (joinBreakList_frame _ _ s _ _).sameLengths.frame (raise_frame _ _)
    · exact (joinBreakList_frame _ _ s _ _).sameLengths
  | yarnFound side pos =>
    refine hs.of_plain (yarnFound_records (cap := 0) rfl) rfl hx ?_
    unfold Machine.yarnFound
    split
    · exact .refl s
    · split
      · exact (writeSpindle_frame _ _ s _).sameLengths.countSide _ _
      · exact (writeSpindle_frame _ _ s _).sameLengths.frame (overtakeOrder_frame _ _ _)
      all_goals exact .refl s
  | replaceSlot y =>
    exact InBooks.of_frame (endingTest_frame _) (InBooks.replaceBobbin (hs.of_frame (emptySlot_frame s)) y)
  | replaceListed y => exact InBooks.replaceBobbin (hs.of_frame (unlist_frame s y)) y
  | _ => exact hs.of_frame hf

/-! ## A pulse -/

theorem dispatchOnEntry_records {x cap : Nat} (f : FrameState) (s : State) :
    Records x cap [.order] s (dispatchOnEntry f s) := by
  unfold dispatchOnEntry
  split
  · exact .refl s
  · exact dispatchTest_records.trans dispatchTest_records

theorem runReader_records {x cap : Nat} (s : State) (r : Reader) : Records x cap [.order] s (runReader s r) := by
  cases r with
  | fill => exact (recomputeFill_frame s).records.trans (dispatchOnEntry_records _ _)
  | window => exact (closeWindow_frame s).records
  | audit => exact (rovingAudit_frame s).records
  | watch => exact (endWatch_frame s).records.trans (dispatchOnEntry_records _ _)

theorem advance_records {x cap : Nat} (old : Nat) (s : State) : Records x cap [.order] s (advance old s) := by
  have folded (l : List Reader) (u : State) : Records x cap [.order] u (l.foldl runReader u) := by
    induction l generalizing u with
    | nil => exact .refl u
    | cons r l ih => exact (runReader_records u r).trans (ih _)
  exact (setFreeCount_frame s _).records.trans (folded _ _)

/-- A pulse moves records by orders alone, and no figure of the shift. -/
theorem pulsed_records {x cap : Nat} (s : State) : Records x cap [.order] s (pulsed s) ∧ (pulsed s).shift = s.shift ∧
    (pulsed s).flmm = (countPulse s).flmm := by
  have hcount : OnlyChanges [.roller] s (countPulse s) := setRoller_frame s _
  unfold pulsed
  dsimp only
  generalize hu : (if (!s.roller.winding && s.doff.frame.motionNotExpected) = true then raise .motion (countPulse s)
    else countPulse s) = u
  have hmoved : OnlyChanges [.line] (countPulse s) u := by
    rw [← hu]
    split
    · exact raise_frame _ _
    · exact .refl _ _
  have hframe : OnlyChanges [.roller, .line] s u := hcount.wide.next hmoved
  split
  · have hadv := advance_frame u s.flmm
    exact ⟨hframe.records.trans (advance_records _ _), (hadv .shift (by decide)).trans (hframe .shift (by decide)),
      hadv.flmm.trans hmoved.flmm⟩
  · exact ⟨hframe.records, hframe .shift (by decide), hmoved.flmm⟩

/-- An advance of FLmm opens no more than itself on each spindle in service. -/
theorem openSum_advance (l : List Spindle) (x d : Nat) : openSum l (x + d) ≤ openSum l x + d * inServiceOf l := by
  induction l with
  | nil => simp [openSum]
  | cons sp l ih =>
    have hone : sp.openLength (x + d) ≤ sp.openLength x + d * (if (sp.state != .parked) = true then 1 else 0) := by
      unfold Spindle.openLength
      split
      · next h _ => simp only [h]; simp; omega
      · exact Nat.zero_le _
    simp only [openSum, List.map_cons, List.sum_cons, inServiceOf, List.countP_cons, Nat.mul_add] at ih ⊢
    omega

theorem pulsed_shiftLaw {s : State} (hroom : LengthHasRoom s) (hs : InBooks s) : ShiftLaw (pulsed s) := by
  obtain ⟨hrec, hshift, hflmm⟩ := pulsed_records (x := (countPulse s).flmm) (cap := 0) s
  have hle := countPulse_flmm_le hroom
  obtain ⟨d, hd⟩ := Nat.le.dest hle
  have one (side : Side) : runNow (pulsed s) side ≤ possibleNow (pulsed s) side ∧
      (pulsed s).shift.marks.get side ≤ (pulsed s).flmm := by
    obtain ⟨hbook, -, hmark⟩ := hs side
    have hopen := hrec.openSum_le side
    have hadv := openSum_advance (s.spindles.get side) s.flmm d
    have hserv : inService (pulsed s) side = inServiceOf (s.spindles.get side) := hrec.inService_eq side
    have hsub : s.flmm + d - s.shift.marks.get side = (s.flmm - s.shift.marks.get side) + d := by omega
    unfold runNow possibleNow inService at hbook
    rw [runNow, possibleNow, hshift, hflmm, hserv, ← hd, hsub, Nat.add_mul]
    rw [← hd] at hopen
    exact ⟨by omega, by omega⟩
  exact ⟨one .a, one .b⟩

/-- Settles O13: a pulse opens on each running spindle what it makes possible for one in service, and each credit moves
what is open. -/
theorem runNeverExceedsPossible : Obligations.RunNeverExceedsPossible := by
  unfold Obligations.RunNeverExceedsPossible
  intro s t hroom hpossible hlaw hstep
  obtain ⟨rest, h⟩ := step_happens hstep
  have hs : InBooks (s.setPending rest) := (inBooks_iff s).2 ⟨hpossible, hlaw⟩
  have hroom' : LengthHasRoom (s.setPending rest) := hroom
  generalize s.setPending rest = u at h hs hroom'
  have lawful {v : State} (h : InBooks v) : ShiftLaw v := ((inBooks_iff v).1 h).2
  have cleared {v : State} (hsp : ∀ side, runNow v side = 0) (hm : v.shift.marks = ⟨0, 0⟩) : ShiftLaw v := by
    refine ⟨⟨?_, ?_⟩, ?_, ?_⟩
    all_goals first | (rw [hsp]; exact Nat.zero_le _) | (rw [hm]; exact Nat.zero_le _)
  cases h with
  | ops h => exact lawful (h.keeps Op.inBooks hs)
  | powerOn => exact cleared (fun side => by cases side <;> rfl) rfl
  | release => exact lawful hs
  | record => exact lawful hs
  | loadEnd =>
    refine cleared (fun side => ?_) rfl
    have hrun : ((formedState u).shift.live.sides.get side).run = 0 := by cases side <;> rfl
    have hopen : openSum ((formedState u).spindles.get side) 0 = 0 := by cases side <;> exact openSum_formed _ 0
    rw [runNow, formedState_flmm, hrun, hopen]
  | pulse => exact pulsed_shiftLaw hroom' hs
  | receive bytes => exact lawful (hs.of_frame (receive_frame bytes u))
  | late =>
    exact lawful (hs.of_frame ((setLine_frame u _).next (discard_frame _ _)))
  | replySent => exact lawful hs
  | reply r h _ _ hops =>
    exact lawful ((hops.keeps Op.inBooks (hs.of_frame (holdRequest_onlyChanges r u))).of_frame (beginReply_frame _ h))
  | softReset =>
    have hframe := softReset_frame u
    exact lawful (hs.of_plain (softReset_records (x := u.flmm) (cap := 0) u) rfl hframe.flmm hframe.sameLengths)

end Sys2Proof.Machine
end

