-- ==== Sys2Proof/Proofs/TableAndLine.lean ====
section
/-!
PROOFS. What the operations leave of the host line and of the station table: they raise and clear classes only, and a
station's entry keeps its shape. From it the table law and the line law are kept by every step (O14).
-/
namespace Sys2Proof.Machine

-- One after another: each theorem as a task of its own takes a thread.
set_option Elab.async false

/-! ## Gentle changes -/

/-- The host line changes in its pending set alone, and the station table keeps its boards and fits where it did. -/
structure Gentle (s t : State) : Prop where
  line : ∃ m, t.line = { s.line with pendingSet := m }
  bus : s.bus.Becomes t.bus

theorem Bus.Becomes.refl (b : Bus) : b.Becomes b := ⟨fun _ => rfl, id⟩

theorem Gentle.of_frame {ps : List Part} {s t : State} (h : OnlyChanges ps s t) (hl : Part.line ∉ ps := by decide)
    (hb : Part.bus ∉ ps := by decide) : Gentle s t :=
  ⟨⟨_, h .line hl⟩, by rw [show t.bus = s.bus from h .bus hb]; exact .refl _⟩

theorem Gentle.refl (s : State) : Gentle s s := .of_frame (.refl [] s)

theorem Gentle.then {s t u : State} (h1 : Gentle s t) (h2 : Gentle t u) : Gentle s u := by
  obtain ⟨⟨m, hm⟩, hb⟩ := h1
  obtain ⟨⟨n, hn⟩, hc⟩ := h2
  exact ⟨⟨n, by rw [hn, hm]⟩, hb.trans hc⟩

/-- One more change outside the host line and the station table. -/
theorem Gentle.same {ps : List Part} {s t u : State} (h1 : Gentle s t) (h2 : OnlyChanges ps t u)
    (hl : Part.line ∉ ps := by decide) (hb : Part.bus ∉ ps := by decide) : Gentle s u := h1.then (.of_frame h2 hl hb)

theorem Gentle.setBus {s : State} {b : Bus} (h : s.bus.Becomes b) : Gentle s (s.setBus b) := ⟨⟨_, rfl⟩, h⟩

section
variable (side : Side) (pos : Nat) (s : State)

theorem raise_gentle (c : PendClass) : Gentle s (raise c s) := ⟨⟨_, rfl⟩, .refl _⟩
theorem clearClasses_gentle (m : ClassSet) : Gentle s (clearClasses m s) := ⟨⟨_, rfl⟩, .refl _⟩

theorem MachineEntry.appendDoffStop_link (e : MachineEntry) : e.appendDoffStop.link = e.link := by
  unfold appendDoffStop
  split <;> rfl

theorem sendCarriage_gentle (c : Command) : Gentle s (sendCarriage side c s) :=
  .setBus (Bus.setMachine_becomes (st := .carriage side) rfl id)

theorem sendHome_gentle : Gentle s (sendHome side s) := .setBus (Bus.setMachine_becomes (st := .carriage side) rfl id)

theorem sendDoffGo_gentle : Gentle s (sendDoffGo s) := .setBus (Bus.setMachine_becomes (st := .doffer) rfl id)

theorem sendDoffStop_gentle : Gentle s (sendDoffStop s) :=
  .setBus (Bus.setMachine_becomes (st := .doffer) rfl (MachineEntry.appendDoffStop_link _ ▸ id))

theorem sendTrain_gentle (c : Command) : Gentle s (sendTrain c s) :=
  .setBus (Bus.setMachine_becomes (st := .train) rfl id)

theorem holdClamp_gentle (c : Clamp) : Gentle s (holdClamp side pos c s) := by
  unfold holdClamp
  split
  · next e he => exact .setBus (Bus.setBoard_becomes he fun h => ⟨by simpa using h.1, h.2⟩)
  · exact .refl s

theorem markSaturation_gentle (n : Nat) : Gentle s (markSaturation n s) := by
  unfold markSaturation
  split
  · split
    · exact .of_frame (setShift_frame s _)
    · exact (raise_gentle s _).same (setShift_frame _ _)
  · exact .refl s

theorem countSide_gentle (f : SideFigure) : Gentle s (countSide side f s) :=
  (Gentle.of_frame (setShift_frame s _)).then (markSaturation_gentle _ _)

theorem countFrame_gentle (f : FrameFigure) : Gentle s (countFrame f s) := by
  cases f <;> exact (Gentle.of_frame (setShift_frame s _)).then (markSaturation_gentle _ _)

theorem writeSpindle_gentle (new : Spindle) : Gentle s (writeSpindle side pos new s) := by
  unfold writeSpindle
  split
  · exact .refl s
  · dsimp only
    split
    · exact (Gentle.of_frame (setSpindles_frame s _)).same (setBreakList_frame _ _)
    · exact ((Gentle.of_frame (setSpindles_frame s _)).same (setBreakList_frame _ _)).then (holdClamp_gentle _ _ _ _)

theorem closeInterval_gentle : Gentle s (closeInterval side pos s) := by
  unfold closeInterval
  split
  · exact .refl s
  · split
    · exact (writeSpindle_gentle _ _ s _).same (creditRun_frame _ _ _)
    · exact .refl s

theorem joinBreakList_gentle (c : Cause) (sp : Spindle) : Gentle s (joinBreakList side pos c sp s) :=
  (Gentle.of_frame (advanceSeq_frame side s)).then (writeSpindle_gentle _ _ _ _)

theorem lockSpindle_gentle (c : LockCause) (sp : Spindle) : Gentle s (lockSpindle side pos c sp s) :=
  ((writeSpindle_gentle _ _ s _).then (raise_gentle _ _)).then (countSide_gentle _ _ _)

theorem endRun_gentle (r : EndReason) : Gentle s (endRun r s) :=
  (Gentle.of_frame (setRoving_frame s _)).then (raise_gentle _ _)

theorem endingTest_gentle : Gentle s (endingTest s) := by
  unfold endingTest
  split
  · exact .refl s
  · exact endRun_gentle s _
  · split
    · exact endRun_gentle s _
    · exact .refl s

/-! ## The carriages -/

theorem issueOrder_gentle (x : Nat) : Gentle s (issueOrder side x pos s) := by
  unfold issueOrder
  dsimp only
  split
  · split
    · split
      · exact ((writeSpindle_gentle _ _ s _).then (sendCarriage_gentle _ _ _)).same (modifyCarriage_frame _ _ _)
      · exact .refl s
    · exact .refl s
  · exact (sendCarriage_gentle _ s _).same (modifyCarriage_frame _ _ _)

theorem dispatchTest_gentle : Gentle s (dispatchTest side s) := by
  unfold dispatchTest
  split
  · dsimp only
    split
    · split
      · exact issueOrder_gentle _ _ s _
      · exact .refl s
    · exact .refl s
  · exact .refl s

theorem returnSpindle_gentle : Gentle s (returnSpindle side pos s) := by
  unfold returnSpindle
  split
  · exact .refl s
  · split
    · exact writeSpindle_gentle _ _ s _
    · exact .refl s

theorem dropWork_gentle : Gentle s (dropWork side s) := by
  unfold dropWork
  split
  · exact (returnSpindle_gentle _ _ s).same (modifyCarriage_frame _ _ _)
  · exact .of_frame (modifyCarriage_frame _ s _)

theorem startHoming_gentle : Gentle s (startHoming side s) :=
  (Gentle.of_frame (modifyCarriage_frame side s _)).then (sendHome_gentle _ _)

theorem carriageFaults_gentle : Gentle s (carriageFaults side s) :=
  (Gentle.of_frame (modifyCarriage_frame side s _)).then (raise_gentle _ _)

theorem cancelOrder_gentle (w : Option Nat) : Gentle s (cancelOrder side w s) :=
  (Gentle.of_frame (modifyCarriage_frame side s _)).then (sendCarriage_gentle _ _ _)

theorem withdrawForDoff_gentle : Gentle s (withdrawForDoff side s) := by
  unfold withdrawForDoff
  dsimp only
  split
  · exact .refl s
  · exact cancelOrder_gentle _ s _
  · exact cancelOrder_gentle _ s _
  · exact (returnSpindle_gentle _ _ s).then (cancelOrder_gentle _ _ _)

theorem withdrawForPark_gentle : Gentle s (withdrawForPark side pos s) := by
  unfold withdrawForPark
  dsimp only
  split
  · exact cancelOrder_gentle _ s _
  split
  · exact cancelOrder_gentle _ s _
  · exact .refl s

theorem carriageTimeout_gentle (k : TimerKind) : Gentle s (carriageTimeout side k s) := by
  unfold carriageTimeout
  split
  · exact (dropWork_gentle _ s).then (carriageFaults_gentle _ _)
  · exact .refl s

theorem recallCarriage_gentle (keep : Nat) : Gentle s (recallCarriage side keep s) := by
  unfold recallCarriage
  dsimp only
  split
  · exact .refl s
  · split
    · exact .refl s
    · split
      · exact startHoming_gentle side s
      · exact startHoming_gentle side s
      · exact .of_frame (modifyCarriage_frame side s _)
      all_goals exact .refl s

theorem carriageArrives_gentle : Gentle s (carriageArrives side s) := by
  have h := (dropWork_gentle side s).then (startHoming_gentle side _)
  unfold carriageArrives
  dsimp only
  split
  · exact h
  · exact h.then (raise_gentle _ _)

theorem carriageSilent_gentle : Gentle s (carriageSilent side s) :=
  ((dropWork_gentle side s).same (modifyCarriage_frame _ _ _)).then (raise_gentle _ _)

theorem loseCarriage_gentle : Gentle s (loseCarriage side s) :=
  (Gentle.of_frame (modifyCarriage_frame side s _)).then (carriageFaults_gentle _ _)

theorem pieceDone_gentle : Gentle s (pieceDone side pos s) := by
  refine Gentle.same ?_ (carriageSettles_frame _ _ _)
  split
  · split
    · exact (writeSpindle_gentle _ _ s _).then (countSide_gentle _ _ _)
    · exact .refl s
  · exact .refl s

theorem judgeAttempts_gentle (sp : Spindle) : Gentle s (judgeAttempts side pos sp s) := by
  unfold judgeAttempts
  split
  · exact writeSpindle_gentle _ _ s _
  split
  · exact lockSpindle_gentle _ _ s _ _
  · exact (writeSpindle_gentle _ _ s _).then (raise_gentle _ _)

theorem pieceMissed_gentle : Gentle s (pieceMissed side pos s) := by
  refine Gentle.same ?_ (carriageSettles_frame _ _ _)
  split
  · split
    · exact (countSide_gentle _ s _).then (judgeAttempts_gentle _ _ _ _)
    · exact .refl s
  · exact .refl s

theorem overtakenDone_gentle (ok : Bool) : Gentle s (overtakenDone side pos ok s) := by
  refine Gentle.same ?_ (carriageSettles_frame _ _ _)
  split
  · exact countSide_gentle _ s _
  · exact .refl s

theorem lateOutcome_gentle (ok : Bool) : Gentle s (lateOutcome side pos ok s) := by
  have h := Gentle.of_frame (modifyCarriage_frame side s fun c => { c with withdrawn := none })
  unfold lateOutcome
  dsimp only
  split
  · split
    · split
      · exact (h.then (writeSpindle_gentle _ _ _ _)).then (countSide_gentle _ _ _)
      · exact h
    · exact h
  · exact h

theorem yarnFound_gentle : Gentle s (yarnFound side pos s) := by
  unfold yarnFound
  split
  · exact .refl s
  · split
    · exact (writeSpindle_gentle _ _ s _).then (countSide_gentle _ _ _)
    · exact (writeSpindle_gentle _ _ s _).same (overtakeOrder_frame _ _ _)
    all_goals exact .refl s

/-! ## The spindles and the roving -/

theorem parkSpindle_gentle : Gentle s (parkSpindle side pos s) := by
  have h := (((Gentle.of_frame (creditPossible_frame side s)).then (closeInterval_gentle side pos _)).then
    (withdrawForPark_gentle side pos _)).same (unlist_frame _ ⟨side, pos⟩)
  unfold parkSpindle
  dsimp only
  split
  · exact h.then (writeSpindle_gentle _ _ _ _)
  · exact h

theorem seedRoving_gentle (metres : Nat) : Gentle s (seedRoving side metres s pos) := by
  unfold seedRoving
  dsimp only
  split
  · exact (closeInterval_gentle side pos s).then (writeSpindle_gentle _ _ _ _)
  · exact closeInterval_gentle side pos s

theorem takeRunOut_gentle (sp : Spindle) : Gentle s (takeRunOut side pos sp s) :=
  (((writeSpindle_gentle _ _ s _).same (placeRunOut_frame _ _)).then (raise_gentle _ _)).then (countSide_gentle _ _ _)

theorem takeStartUpBreak_gentle (sp : Spindle) : Gentle s (takeStartUpBreak side pos sp s) :=
  (joinBreakList_gentle _ _ s _ _).then (countSide_gentle _ _ _)

theorem takeEndBreak_gentle (sp : Spindle) : Gentle s (takeEndBreak side pos sp s) := by
  unfold takeEndBreak
  refine Gentle.same (Gentle.then ?_ (countSide_gentle _ _ _)) (countGovernor_frame _)
  dsimp only
  split
  · split
    · exact lockSpindle_gentle _ _ s _ _
    · exact (joinBreakList_gentle _ _ s _ _).then (raise_gentle _ _)
  · exact joinBreakList_gentle _ _ s _ _

theorem replaceBobbin_gentle (x : SpRef) : Gentle s (replaceBobbin x s) := by
  unfold replaceBobbin
  split
  · exact .refl s
  · next sp0 _ =>
    have h : Gentle s (if sp0.state = .running then split s else s) := by
      split
      · exact .of_frame (split_frame s)
      · exact .refl s
    dsimp only
    refine Gentle.then ?_ (countSide_gentle _ _ _)
    split
    · exact h.then (joinBreakList_gentle _ _ _ _ _)
    · exact h.then (joinBreakList_gentle _ _ _ _ _)
    all_goals exact h.then (writeSpindle_gentle _ _ _ _)

theorem trainNext_gentle : Gentle s (trainNext s) := by
  unfold trainNext
  split
  · exact sendTrain_gentle s _
  · exact sendTrain_gentle s _
  · split
    · exact sendTrain_gentle s _
    · dsimp only
      split
      · exact (Gentle.of_frame (setRoving_frame s _)).then (sendTrain_gentle _ _)
      · exact (Gentle.of_frame (setRoving_frame s _)).then (sendTrain_gentle _ _)
      · exact (sendTrain_gentle s _).then (endRun_gentle _ _)

theorem slotTimeout_gentle : Gentle s (slotTimeout s) := by
  unfold slotTimeout
  split
  · next x _ _ _ =>
    have h := (Gentle.of_frame (emptySlot_frame s)).same (returnToRovingList_frame _ true x)
    dsimp only
    split
    · exact h.then (endRun_gentle _ _)
    · exact h
  · exact .refl s

theorem rovingAudit_gentle : Gentle s (rovingAudit s) := by
  unfold rovingAudit
  dsimp only
  split
  · exact .refl s
  · exact (Gentle.of_frame (setRoving_frame s _)).then (raise_gentle _ _)

/-! ## The frame -/

theorem recomputeSetPoint_gentle : Gentle s (recomputeSetPoint s) := by
  unfold recomputeSetPoint
  split
  · exact .refl s
  · exact (Gentle.of_frame (setSpeed_frame s _)).then (raise_gentle _ _)

theorem changeFrame_gentle (f : FrameState) : Gentle s (changeFrame f s) := by
  have h := (Gentle.of_frame (setDoff_frame s { s.doff with frame := f })).then (raise_gentle _ .frameState)
  unfold changeFrame
  dsimp only
  split
  · exact h.then (recomputeSetPoint_gentle _)
  · exact h

theorem stopForFill_gentle : Gentle s (stopForFill s) :=
  ((changeFrame_gentle s _).same (beginDoff_frame _ _)).then (raise_gentle _ _)

theorem judgeFill_gentle : Gentle s (judgeFill s) := by
  unfold judgeFill
  split
  · split
    · dsimp only
      split
      · exact ((changeFrame_gentle s _).same (swapContext_frame _)).then (stopForFill_gentle _)
      · exact (changeFrame_gentle s _).same (swapContext_frame _)
    · exact .refl s
  · split
    · exact stopForFill_gentle s
    · exact .refl s
  all_goals exact .refl s

theorem recomputeFill_gentle : Gentle s (recomputeFill s) := by
  unfold recomputeFill
  split
  · exact .refl s
  · exact ((Gentle.of_frame (setSpeed_frame s _)).then (judgeFill_gentle _)).then (recomputeSetPoint_gentle _)

theorem closeWindow_gentle : Gentle s (closeWindow s) := by
  have speed (v : Speed) : Gentle s (s.setSpeed v) := .of_frame (setSpeed_frame s v)
  have point (v : Speed) : Gentle s (recomputeSetPoint (s.setSpeed v)) := (speed v).then (recomputeSetPoint_gentle _)
  unfold closeWindow
  dsimp only
  split <;> split
  · exact speed _
  · exact point _
  · exact speed _
  · exact point _

theorem endWatch_gentle : Gentle s (endWatch s) :=
  (((Gentle.of_frame (setDoff_frame s _)).then (changeFrame_gentle _ _)).same (restoreContext_frame _)).then
    (judgeFill_gentle _)

theorem haltFrame_gentle : Gentle s (haltFrame s) := (Gentle.of_frame (setDoff_frame s _)).then (changeFrame_gentle _ _)

theorem startUp_gentle : Gentle s (startUp s) := (Gentle.of_frame (setDoff_frame s _)).then (changeFrame_gentle _ _)

theorem stopByRequest_gentle : Gentle s (stopByRequest s) := by
  have h := (changeFrame_gentle s .doffStopping).same (beginDoff_frame _ .manual)
  unfold stopByRequest
  dsimp only
  split
  · exact h.same (swapContext_frame _)
  · exact h

/-! ## The doff and the exchange -/

theorem makeExchange_gentle (a : Article) (o : Occasion) : Gentle s (makeExchange a o s) := by
  unfold makeExchange
  exact (((((((Gentle.of_frame (split_frame s)).same (setArticles_frame _ _)).same (setSpeed_frame _ _)).then
    (recomputeFill_gentle _)).then (recomputeSetPoint_gentle _)).then (countFrame_gentle _ _)).same
    (setArticles_frame _ _)).then (raise_gentle _ _)

theorem refuseExchange_gentle (r : ExchangeReason) (o : Occasion) : Gentle s (refuseExchange r o s) :=
  (Gentle.of_frame (setArticles_frame s _)).then (raise_gentle _ _)

theorem dueExchange_gentle : Gentle s (dueExchange s) := by
  unfold dueExchange attemptExchange
  split
  · split
    · exact makeExchange_gentle s _ _
    · exact refuseExchange_gentle s _ _
  · exact .refl s

theorem resetCops_gentle : Gentle s (resetCops s) := by
  unfold resetCops
  exact (((Gentle.of_frame (split_frame s)).same (setSpindles_frame _ _)).same (setDoff_frame _ _)).then
    (recomputeFill_gentle _)

theorem startDoffer_gentle : Gentle s (startDoffer s) := (sendDoffGo_gentle s).same (setDoff_frame _ _)

theorem enterDoffing_gentle : Gentle s (enterDoffing s) := by
  have h := ((((changeFrame_gentle s .doffing).then (withdrawForDoff_gentle .a _)).then
    (withdrawForDoff_gentle .b _)).same (setDoffHold_frame .a _)).same (setDoffHold_frame .b _)
  unfold enterDoffing
  dsimp only
  split
  · exact h.then (startDoffer_gentle _)
  · exact h.same (setDoff_frame _ _)

theorem recallDoffer_gentle : Gentle s (recallDoffer s) := by
  unfold recallDoffer
  split
  · exact (sendDoffStop_gentle s).same (setDoff_frame _ _)
  · exact .refl s

theorem abortDoff_gentle : Gentle s (abortDoff s) :=
  ((((recallDoffer_gentle s).same (setDoff_frame _ _)).same (clearDoffHolds_frame _)).same
    (recordOutcome_frame _ _ _)).then (changeFrame_gentle _ _)

theorem failDoff_gentle (c : Option Nat) : Gentle s (failDoff c s) :=
  (((((Gentle.of_frame (endDoffer_frame s)).same (clearDoffHolds_frame _)).same (recordOutcome_frame _ _ _)).then
    (changeFrame_gentle _ _))).then (raise_gentle _ _)

theorem stopDoffer_gentle (byHand : Bool) : Gentle s (stopDoffer byHand s) := by
  unfold stopDoffer
  split
  · exact sendDoffStop_gentle s
  · exact .refl s

theorem completeDoff_gentle (byHand : Bool) : Gentle s (completeDoff byHand s) :=
  (((((((resetCops_gentle s).then (dueExchange_gentle _)).same (clearDoffHolds_frame _)).same
    (recordOutcome_frame _ .done none)).then (countFrame_gentle _ .doff)).then (stopDoffer_gentle _ byHand)).same
    (endDoffer_frame _)).then (changeFrame_gentle _ .restartWait)

theorem trainTakesBack_gentle (b : Bool) (x : SpRef) :
    Gentle s (endingTest (returnToRovingList b x (emptySlot s))) :=
  ((Gentle.of_frame (emptySlot_frame s)).same (returnToRovingList_frame _ _ _)).then (endingTest_gentle _)

theorem replaceSlot_gentle (x : SpRef) : Gentle s (endingTest (replaceBobbin x (emptySlot s))) :=
  ((Gentle.of_frame (emptySlot_frame s)).then (replaceBobbin_gentle _ _)).then (endingTest_gentle _)

end

/-- Each operation is gentle, but the change of a section count, which forms and removes boards. -/
theorem Op.gentle {ps : List Part} {s t : State} (h : Op ps s t) :
    Gentle s t ∨ ∃ side n, s.phase = .running ∧ t = changeSections side n s := by
  have hf := h.frame
  cases h with
  | sections side n _ _ _ hp => exact .inr ⟨side, n, hp, rfl⟩
  | raise c => exact .inl (raise_gentle s c)
  | clearClasses m => exact .inl (clearClasses_gentle s m)
  | speedTrim v => exact .inl ((Gentle.of_frame (setItems_frame s _)).then (recomputeSetPoint_gentle _))
  | refuseExchange r o => exact .inl (refuseExchange_gentle s r o)
  | exchange a o => exact .inl (makeExchange_gentle s a o)
  | startUp => exact .inl (startUp_gentle s)
  | dispatch side => exact .inl (dispatchTest_gentle side s)
  | halt => exact .inl (haltFrame_gentle s)
  | enterDoffing => exact .inl (enterDoffing_gentle s)
  | stopByRequest => exact .inl (stopByRequest_gentle s)
  | abortDoff => exact .inl (abortDoff_gentle s)
  | failDoff code => exact .inl (failDoff_gentle s code)
  | completeDoff b => exact .inl (completeDoff_gentle s b)
  | startDoffer => exact .inl (startDoffer_gentle s)
  | park side pos => exact .inl (parkSpindle_gentle side pos s)
  | unpark side pos sp =>
    exact .inl ((Gentle.of_frame (creditPossible_frame side s)).then (joinBreakList_gentle _ _ _ _ _))
  | release side pos sp => exact .inl (joinBreakList_gentle _ _ s _ _)
  | seed side pos m => exact .inl (seedRoving_gentle side pos s m)
  | home side => exact .inl (startHoming_gentle side s)
  | runAborted => exact .inl (endRun_gentle s _)
  | bus b _ hb => exact .inl (.setBus hb)
  | arrives side => exact .inl (carriageArrives_gentle side s)
  | lose side => exact .inl (loseCarriage_gentle side s)
  | pieceDone side pos => exact .inl (pieceDone_gentle side pos s)
  | pieceMissed side pos => exact .inl (pieceMissed_gentle side pos s)
  | overtakenDone side pos ok => exact .inl (overtakenDone_gentle side pos s ok)
  | lateOutcome side pos ok => exact .inl (lateOutcome_gentle side pos s ok)
  | timeout side k => exact .inl (carriageTimeout_gentle side s k)
  | silent side => exact .inl (carriageSilent_gentle side s)
  | closeInterval side pos => exact .inl (closeInterval_gentle side pos s)
  | runOut side pos sp => exact .inl (takeRunOut_gentle side pos s sp)
  | startUpBreak side pos sp => exact .inl (takeStartUpBreak_gentle side pos s sp)
  | endBreak side pos sp => exact .inl (takeEndBreak_gentle side pos s sp)
  | yarnFound side pos => exact .inl (yarnFound_gentle side pos s)
  | trainNext => exact .inl (trainNext_gentle s)
  | takeBack b x => exact .inl (trainTakesBack_gentle s b x)
  | slotTimeout => exact .inl (slotTimeout_gentle s)
  | replaceSlot x => exact .inl (replaceSlot_gentle s x)
  | replaceListed x => exact .inl ((Gentle.of_frame (unlist_frame s x)).then (replaceBobbin_gentle _ _))
  | fill => exact .inl (recomputeFill_gentle s)
  | window => exact .inl (closeWindow_gentle s)
  | audit => exact .inl (rovingAudit_gentle s)
  | watch => exact .inl (endWatch_gentle s)
  | _ => exact .inl (.of_frame hf)

/-! ## The soft reset and the section change -/

section
variable (side : Side) (s : State)

theorem softResetCarriage_gentle : Gentle s (softResetCarriage side s) := by
  unfold softResetCarriage
  dsimp only
  split
  · exact .of_frame (modifyCarriage_frame side s _)
  · exact (Gentle.of_frame (modifyCarriage_frame side s _)).then (startHoming_gentle _ _)

theorem closePiecing_gentle (pos : Nat) (l : List Spindle) : Gentle s (closePiecing side pos l s) := by
  induction l generalizing pos s with
  | nil => exact .refl s
  | cons sp rest ih =>
    have held : Gentle s (if sp.state = .piecing then holdClamp side pos .closed s else s) := by
      split
      · exact holdClamp_gentle _ _ s _
      · exact .refl s
    exact held.then (ih _ _)

theorem softResetSpindles_gentle : Gentle s (softResetSpindles side s) :=
  (((closePiecing_gentle side s 1 _).same (setSpindles_frame _ _)).same (setBreakList_frame _ _)).same
    (setBreakSeq_frame _ _)

theorem softResetDoff_gentle : Gentle s (softResetDoff s) := by
  have h := (recallDoffer_gentle s).same (standDoff_frame _)
  rw [softResetDoff_eq]
  split
  · exact h
  · exact h.then (raise_gentle _ _)

theorem softResetRoving_gentle : Gentle s (softResetRoving s) := by
  unfold softResetRoving
  dsimp only
  split
  · exact ((Gentle.of_frame (setRoving_frame s _)).same (emptySlot_frame _)).then (endRun_gentle _ _)
  · exact .of_frame (setRoving_frame s _)

theorem softResetTrain_gentle : Gentle s (softResetTrain s) := .setBus (Bus.setMachine_becomes (st := .train) rfl id)

theorem softResetSpeed_gentle : Gentle s (softResetSpeed s) :=
  (Gentle.of_frame (setSpeed_frame s _)).then (recomputeSetPoint_gentle _)

/-- The soft reset is gentle, and is no longer due (R200). -/
theorem softReset_gentle :
    ∃ u, Gentle s u ∧ u.phase = s.phase ∧ softReset s = u.setLine { u.line with resetDue := false } := by
  refine ⟨_, ((((((((softResetCarriage_gentle .a s).then (softResetCarriage_gentle .b _)).then
    (softResetSpindles_gentle .a _)).then (softResetSpindles_gentle .b _)).then (softResetDoff_gentle _)).same
    (setArticles_frame _ _)).then (softResetRoving_gentle _)).then (softResetTrain_gentle _)).then
    (softResetSpeed_gentle _), ?_, rfl⟩
  exact softReset_frame s .phase (by decide)

/-- The boards after a change of a section count (R162). -/
theorem changeSections_boards (n : Nat) :
    ∃ cycle, Bus.Becomes
      { s.bus with
        boards := s.bus.boards.set side ((s.bus.boards.get side).take n ++
          List.replicate (n - (s.bus.boards.get side).length) BoardEntry.initial)
        cycle := cycle }
      (changeSections side n s).bus := by
  have hbus := ((creditPossible_frame side s).wide (rs := [.shift, .breakList, .roving, .line])).next
    (releaseRemoved_frame side _ (48 * n)) |>.next (releaseSlot_frame side _ (48 * n)) |> fun h => h .bus (by decide)
  unfold changeSections
  dsimp only
  refine ⟨?_, ?_⟩
  case refine_2 =>
    refine Bus.Becomes.trans ?_ (recallCarriage_gentle side _ (48 * n)).bus
    rw [State.setItems_bus]
    simp only [resizeSide, State.setBus_bus, State.setSpindles_bus]
    rw [show (releaseSlot side (48 * n) (releaseRemoved side (48 * n) (creditPossible side s))).bus = s.bus from hbus]
    exact .refl _

theorem changeSections_line (n : Nat) : ∃ m, (changeSections side n s).line = { s.line with pendingSet := m } := by
  have released : Gentle s (releaseSlot side (48 * n) (releaseRemoved side (48 * n) (creditPossible side s))) := by
    refine (Gentle.of_frame (((creditPossible_frame side s).wide (rs := [.shift, .breakList, .roving])).next
      (releaseRemoved_frame side _ (48 * n)))).then ?_
    unfold releaseSlot
    split
    · split
      · exact (Gentle.of_frame (emptySlot_frame _)).then (endingTest_gentle _)
      · exact .refl _
    · exact .refl _
  obtain ⟨m, hm⟩ := released.line
  refine ⟨m, ?_⟩
  unfold changeSections
  dsimp only
  rw [recallCarriage_frame side _ (48 * n) .line (by decide), ← hm]
  rfl

end

/-! ## The tables have the shape of the fitted sections -/

/-- The sections that the tables stand for: none before load end. -/
def State.sectionsShown (s : State) (side : Side) : Nat :=
  if s.phase = .running then s.items.sections.get side else 0

/-- Each table has the length that the sections give it, and the station table fits. -/
def Shaped (s : State) : Prop :=
  (∀ side, (s.spindles.get side).length = 48 * s.sectionsShown side ∧
    (s.bus.boards.get side).length = s.sectionsShown side) ∧ s.bus.Fits

theorem tableLaw_iff (s : State) : TableLaw s ↔ Shaped s := by
  have spindles (side : Side) : (if s.phase = .running then 48 * s.items.sections.get side else 0) =
      48 * s.sectionsShown side := by
    unfold State.sectionsShown
    split <;> rfl
  unfold TableLaw
  simp only [spindles]
  constructor
  · rintro ⟨⟨h1, h2, h3⟩, h4, h5, h6⟩
    exact ⟨fun side => by cases side <;> constructor <;> assumption, fun side => by cases side <;> assumption⟩
  · rintro ⟨h1, h2⟩
    have one (side : Side) := And.intro (h1 side).1 (And.intro (h1 side).2 (h2 side))
    exact ⟨one .a, one .b⟩

theorem Shaped.gentle {s t : State} (h : Gentle s t) (hlen : ∀ side, (t.spindles.get side).length = (s.spindles.get side).length)
    (hshown : ∀ side, t.sectionsShown side = s.sectionsShown side) (hs : Shaped s) : Shaped t := by
  refine ⟨fun side => ?_, h.bus.2 hs.2⟩
  rw [hlen side, hshown side, h.bus.1 side]
  exact hs.1 side

theorem put_sections {code v : Nat} {t : Items} (h1 : code ≠ 0x01) (h2 : code ≠ 0x02) :
    (t.put code v).sections = t.sections := by
  unfold Items.put
  split
  all_goals first | rfl | exact absurd rfl h1 | exact absurd rfl h2

/-- Only a change of a section count moves the fitted sections. -/
theorem Op.sections_eq {ps : List Part} {s t : State} (h : Op ps s t) :
    t.items.sections = s.items.sections ∨ ∃ side n, s.phase = .running ∧ t = changeSections side n s := by
  have hf := h.frame
  cases h with
  | sections side n _ _ _ hp => exact .inr ⟨side, n, hp, rfl⟩
  | lengthTrim => exact .inl rfl
  | speedTrim v => exact .inl (by rw [takeSpeedTrim_items])
  | encoder code v _ hc => exact .inl (put_sections (by omega) (by omega))
  | item code v _ hc =>
    unfold plainItem at hc
    exact .inl (put_sections (by omega) (by omega))
  | _ => exact .inl (congrArg Items.sections (hf .items (by decide)))

theorem BoardEntry.initial_fits : BoardEntry.initial.held.length = 48 ∧ BoardEntry.initial.carryPoint ≤ 48 ∧
    BoardEntry.initial.link.Fits := by
  simp [BoardEntry.initial, Link.initial, Link.Fits]

/-- A list cut or filled up to a length. -/
theorem length_take_append_replicate {α : Type} (l : List α) (n : Nat) (x : α) :
    (l.take n ++ List.replicate (n - l.length) x).length = n := by
  simp only [List.length_append, List.length_take, List.length_replicate]
  omega

theorem Shaped.changeSections {s : State} (side : Side) (n : Nat) (hp : s.phase = .running) (hs : Shaped s) :
    Shaped (changeSections side n s) := by
  obtain ⟨hlen, hfits⟩ := hs
  obtain ⟨cycle, hboards, hbus⟩ := changeSections_boards side s n
  have hphase : (Machine.changeSections side n s).phase = .running :=
    (changeSections_frame side s n .phase (by decide)).trans hp
  have hshown : s.sectionsShown = fun sd => s.items.sections.get sd := by funext sd; simp [State.sectionsShown, hp]
  have hshown' : (Machine.changeSections side n s).sectionsShown = fun sd => (s.items.sections.set side n).get sd := by
    funext sd
    simp [State.sectionsShown, hphase, changeSections_items]
  rw [hshown] at hlen
  refine ⟨fun sd => ?_, hbus fun sd => ?_⟩
  · rw [hboards sd, changeSections_spindles, hshown']
    by_cases hsd : sd = side
    · subst hsd
      simp only [Sides.get_set_same]
      exact ⟨length_take_append_replicate _ _ _, length_take_append_replicate _ _ _⟩
    · simp only [Sides.get_set_other _ _ _ _ hsd]
      exact hlen sd
  · obtain ⟨hold, hrest⟩ := hfits sd
    refine ⟨fun e he => ?_, hrest⟩
    by_cases hsd : sd = side
    · subst hsd
      simp only [Sides.get_set_same, List.mem_append] at he
      rcases he with he | he
      · exact hold e (List.mem_of_mem_take he)
      · exact List.eq_of_mem_replicate he ▸ BoardEntry.initial_fits
    · simp only [Sides.get_set_other _ _ _ _ hsd] at he
      exact hold e he

theorem Op.spindles_length {ps : List Part} {s t : State} (h : Op ps s t) :
    (∀ side, (t.spindles.get side).length = (s.spindles.get side).length) ∨
      ∃ side n, s.phase = .running ∧ t = changeSections side n s := by
  rcases h.records_any (Nat.le_refl _) with hr | hr
  · exact .inl fun side => (hr side).1
  · exact .inr hr

theorem Op.shaped {ps : List Part} {s t : State} (h : Op ps s t) (hs : Shaped s) : Shaped t := by
  have hphase : t.phase = s.phase := h.frame .phase (by cases h <;> decide)
  rcases h.gentle with hg | ⟨side, n, hp, rfl⟩
  case inr => exact hs.changeSections side n hp
  rcases h.spindles_length with hlen | ⟨side, n, hp, rfl⟩
  case inr => exact hs.changeSections side n hp
  rcases h.sections_eq with hsec | ⟨side, n, hp, rfl⟩
  case inr => exact hs.changeSections side n hp
  exact hs.gentle hg hlen fun side => by simp [State.sectionsShown, hphase, hsec]

theorem formedState_shaped (s : State) : Shaped (formedState s) := by
  have fresh : Link.initial.Fits := by simp [Link.initial, Link.Fits]
  refine ⟨fun side => ?_, fun side => ⟨fun e he => ?_, ?_, fresh, fresh⟩⟩
  · cases side <;> exact ⟨List.length_replicate, List.length_replicate⟩
  · have : e = BoardEntry.initial := by cases side <;> exact List.eq_of_mem_replicate he
    exact this ▸ BoardEntry.initial_fits
  · cases side <;> exact fresh

theorem reset_shaped (p : List Instr) (n : Nat) : Shaped ((State.reset.setPending p).setFreeCount n) := by
  have fresh : Link.initial.Fits := by simp [Link.initial, Link.Fits]
  refine ⟨fun side => by cases side <;> exact ⟨rfl, rfl⟩, fun side => ⟨fun e he => ?_, ?_, fresh, fresh⟩⟩
  · cases side <;> cases he
  · cases side <;> exact fresh

theorem shaped_lineFree : LineFree Shaped :=
  ⟨fun _ _ h => h, fun _ _ h => h, fun _ _ h => h, fun s hp hs => by
    refine ⟨fun side => ?_, hs.2⟩
    have h := hs.1 side
    simp only [State.sectionsShown, hp] at h
    simpa [State.sectionsShown] using h⟩

theorem softReset_shaped {s : State} (hs : Shaped s) : Shaped (softReset s) := by
  obtain ⟨u, hu, hphase, heq⟩ := softReset_gentle s
  have hlen (side : Side) := (softReset_records (x := 0) (cap := 0) s side).1
  have hitems : (softReset s).items = s.items := softReset_frame s .items (by decide)
  rw [heq] at hlen hitems ⊢
  refine shaped_lineFree.line _ _ (hs.gentle hu hlen fun side => ?_)
  rw [State.sectionsShown, hphase, show u.items = s.items from hitems]
  rfl

/-! ## The host line (R175 to R180) -/

/-- The host line fits the phase of the part. -/
def HostLine.Fits (l : HostLine) (p : Phase) : Prop :=
  l.holding.length ≤ 2 ∧
  (l.tx.isSome → l.holding ≠ []) ∧
  (l.rx = .off ↔ p = .inReset) ∧
  (∀ r ∈ l.tx, p ≠ .inReset ∧ (p = .loading → r.result = .starting)) ∧
  (l.resetDue = true → p = .running ∧ l.tx = none) ∧
  l.discards ≤ 65535 ∧
  l.rx.fits = true

theorem lineLaw_iff (s : State) : LineLaw s ↔ s.line.Fits s.phase := Iff.rfl

theorem HostLine.Fits.of_pendingSet {l l' : HostLine} {p : Phase} (hs : l.Fits p)
    (h : ∃ m, l' = { l with pendingSet := m }) : l'.Fits p := by
  obtain ⟨m, rfl⟩ := h
  exact hs

/-- The receiver hunts again, or collects. -/
theorem HostLine.Fits.withRx {l : HostLine} {p : Phase} (hs : l.Fits p) (rx : Receiver) (hold : l.rx ≠ .off)
    (hnew : rx ≠ .off) (hfits : rx.fits = true) : { l with rx := rx }.Fits p := by
  obtain ⟨hheld, htx, hoff, hstart, hdue, hdis, -⟩ := hs
  exact ⟨hheld, htx, by simp only [hnew, false_iff]; exact mt hoff.2 hold, hstart, hdue, hdis, hfits⟩

theorem discard_lineLaw {s : State} (reason : DiscardReason) (hs : LineLaw s) : LineLaw (discard reason s) := by
  obtain ⟨hheld, htx, hoff, hstart, hdue, -, hrx⟩ := id hs
  unfold discard
  split
  · exact ⟨hheld, htx, hoff, hstart, hdue, Nat.min_le_left _ _, hrx⟩
  · exact hs

theorem offerRequest_lineLaw {s : State} (r : HeldRequest) (hs : LineLaw s) : LineLaw (offerRequest r s) := by
  obtain ⟨hheld, htx, hrest⟩ := id hs
  unfold offerRequest
  split
  · next hroom =>
    exact ⟨by simp only [State.setLine_line, List.length_append, List.length_singleton]; omega,
      fun h => by simp, hrest⟩
  · exact discard_lineLaw _ hs

/-- One byte more of a frame: it is still short of its length, or the receiver hunts (R175). -/
theorem collectByte_lineLaw {s : State} {got : List Byte} (b : Byte) (hgot : s.line.rx = .collecting got)
    (hs : LineLaw s) : LineLaw (collectByte got b s) := by
  have hon : s.line.rx ≠ .off := by simp [hgot]
  have hunt : LineLaw (s.setLine { s.line with rx := .hunting }) :=
    ((lineLaw_iff s).1 hs).withRx .hunting hon (by simp) rfl
  have collect (bytes : List Byte) (h : (Receiver.collecting bytes).fits = true) :
      LineLaw (s.setLine { s.line with rx := .collecting bytes }) :=
    ((lineLaw_iff s).1 hs).withRx (.collecting bytes) hon (by simp) h
  unfold collectByte
  dsimp only
  split
  · next len hbytes =>
    split
    · exact discard_lineLaw _ hunt
    · exact collect _ (by rw [hbytes]; simp [Receiver.fits]; omega)
  · next len rest hne hbytes =>
    split
    · next hshort =>
      refine collect _ ?_
      have hlen : len.toNat ≤ 240 := by
        cases got with
        | nil =>
          simp only [List.nil_append, List.cons.injEq] at hbytes
          exact absurd hbytes.2.symm hne
        | cons l tail =>
          obtain ⟨-, -, -, -, -, -, hrx⟩ := hs
          simp only [List.cons_append, List.cons.injEq] at hbytes
          simp only [hgot, Receiver.fits, Bool.and_eq_true, decide_eq_true_eq] at hrx
          exact hbytes.1 ▸ hrx.1
      rw [hbytes] at hshort ⊢
      simp only [List.length_cons] at hshort
      simp only [Receiver.fits, Bool.and_eq_true, decide_eq_true_eq]
      omega
    · split
      · exact offerRequest_lineLaw _ hunt
      · exact discard_lineLaw _ hunt
  · exact hs

theorem receiveByte_lineLaw {s : State} (b : LineByte) (hs : LineLaw s) : LineLaw (receiveByte s b) := by
  unfold receiveByte
  split
  · split
    · exact hs
    · next h =>
      split
      · exact ((lineLaw_iff s).1 hs).withRx (.collecting []) (by simp [h]) (by simp) rfl
      · exact hs
    · next got h => exact collectByte_lineLaw _ h hs
  · exact hs

theorem receive_lineLaw (bytes : List LineByte) {s : State} (hs : LineLaw s) : LineLaw (bytes.foldl receiveByte s) := by
  induction bytes generalizing s with
  | nil => exact hs
  | cons b rest ih => exact ih (receiveByte_lineLaw b hs)

/-- An operation leaves the host line, but for the pending set, and the phase. -/
theorem Op.line {ps : List Part} {s t : State} (h : Op ps s t) : ∃ m, t.line = { s.line with pendingSet := m } := by
  rcases h.gentle with hg | ⟨side, n, -, rfl⟩
  exacts [hg.line, changeSections_line side s n]

theorem Ops.line {s t : State} (h : Ops s t) : ∃ m, t.line = { s.line with pendingSet := m } :=
  h.keeps (P := fun u => ∃ m, u.line = { s.line with pendingSet := m }) (fun hop hu => by
    obtain ⟨m, hm⟩ := hu
    obtain ⟨n, hn⟩ := hop.line
    exact ⟨n, by rw [hn, hm]⟩) ⟨_, rfl⟩

theorem Ops.lineLaw {s t : State} (h : Ops s t) (hs : LineLaw s) : LineLaw t := by
  rw [lineLaw_iff, h.phase]
  exact ((lineLaw_iff s).1 hs).of_pendingSet h.line

/-- A request that is taken is the oldest held from then on (R178). -/
theorem holdRequest_line (r : HeldRequest) (s : State) :
    ∃ l, l ≠ [] ∧ (s.line.holding.length ≤ 2 → l.length ≤ 2) ∧
      (holdRequest r s).line = { s.line with holding := l } := by
  unfold holdRequest
  split
  · exact ⟨[r], by simp, by simp, rfl⟩
  · next x xs h => exact ⟨s.line.holding, by simp [h], id, rfl⟩

theorem beginReply_lineLaw {r : HeldRequest} {h : Handled} {s : State} (hcan : canTake r s = true)
    (hops : Ops (holdRequest r s) h.state) (hres : s.phase ≠ .running → h.result = .starting) (hs : LineLaw s) :
    LineLaw (beginReply r.kind h) := by
  obtain ⟨hheld, -, hoff, -, -, hdis, hrx⟩ := hs
  simp only [canTake, Bool.and_eq_true, bne_iff_ne, ne_eq, Bool.not_eq_true', Option.isNone_iff_eq_none] at hcan
  obtain ⟨⟨⟨hp, htx⟩, hdue⟩, -⟩ := hcan
  obtain ⟨l, hne, hl, hline⟩ := holdRequest_line r s
  obtain ⟨m, hm⟩ := hops.line
  have hphase : h.state.phase = s.phase := by rw [hops.phase, holdRequest_phase]
  rw [lineLaw_iff]
  simp only [beginReply, State.setLine_line, State.setLine_phase, hm, hline, hphase]
  refine ⟨hl hheld, fun _ => hne, hoff, fun x hx => ?_, fun h => ?_, hdis, hrx⟩
  · obtain rfl := Option.some.inj hx
    exact ⟨hp, fun hload => hres (by simp [hload])⟩
  · simp [hdue] at h

theorem Happens.lineLaw {s t : State} (h : Happens s t) (hs : LineLaw s) : LineLaw t := by
  obtain ⟨hheld, htx, hoff, hstart, hdue, hdis, hrx⟩ := id hs
  cases h with
  | ops h => exact h.lineLaw hs
  | powerOn => simp [LineLaw, State.reset, Receiver.fits]
  | release rate _ hp =>
    have hnone : s.line.tx = none := by
      cases htx : s.line.tx with
      | none => rfl
      | some r => exact absurd hp (hstart r htx).1
    refine ⟨hheld, htx, by simp, by simp [hnone], fun h => ?_, hdis, rfl⟩
    have := (hdue h).1
    simp [hp] at this
  | record => exact hs
  | loadEnd _ _ _ hp =>
    refine ⟨hheld, htx, ?_, fun r hr => ⟨by simp [formedState], by simp [formedState]⟩, fun h => ?_, hdis, hrx⟩
    · simp only [formedState, reduceCtorEq, iff_false]
      exact fun h => by simp [hoff.1 h] at hp
    · have := (hdue h).1
      simp [hp] at this
  | pulse _ _ h => exact h.lineLaw hs
  | receive bytes => exact receive_lineLaw bytes hs
  | late bytes _ h =>
    exact discard_lineLaw _ (((lineLaw_iff s).1 hs).withRx .hunting (by simp [h]) (by simp) rfl)
  | replySent due r _ h hok =>
    refine ⟨by simp only [State.setLine_line, List.length_tail]; omega, by simp, hoff, by simp, fun hd => ⟨?_, rfl⟩, hdis, hrx⟩
    obtain ⟨hp, hload⟩ := hstart r h
    cases hphase : s.phase with
    | inReset => exact absurd hphase hp
    | loading => simp [hload hphase] at hok; simp [hok] at hd
    | running => exact hphase
  | reply r h _ hcan hops hres => exact beginReply_lineLaw hcan hops hres hs
  | softReset =>
    obtain ⟨u, hu, hphase, heq⟩ := softReset_gentle s
    rw [heq, lineLaw_iff]
    simp only [State.setLine_line, State.setLine_phase, hphase]
    obtain ⟨h1, h2, h3, h4, -, h6⟩ := ((lineLaw_iff s).1 hs).of_pendingSet hu.line
    exact ⟨h1, h2, h3, h4, by simp, h6⟩

/-- Settles O14: each operation keeps the shape of the tables and moves of the host line the pending set alone; the
line's own events keep its law. -/
theorem tableAndLineLawsAreKept : Obligations.TableAndLineLawsAreKept := by
  unfold Obligations.TableAndLineLawsAreKept
  constructor
  · intro s t hs hstep
    exact (tableLaw_iff t).2 (shaped_lineFree.step reset_shaped (fun s _ => formedState_shaped s)
      (fun _ _ h => h) Op.shaped (fun _ h => softReset_shaped h) hstep ((tableLaw_iff s).1 hs))
  · intro s t hs hstep
    obtain ⟨rest, h⟩ := step_happens hstep
    exact h.lineLaw hs

end Sys2Proof.Machine
end

