-- ==== Sys2Proof/Proofs/RovingLists.lean ====
section
/-!
PROOFS. The roving change list, the slot and the run in step with the spindles (O11). The list speaks of a spindle's
state alone, so each operation is read as a change of the states and of the roving record.
-/
namespace Sys2Proof.Machine

-- One after another: each theorem as a task of its own takes a thread.
set_option Elab.async false

/-! ## The states of the spindles -/

/-- The state of a spindle, where it has a record. -/
def State.spState (s : State) (x : SpRef) : Option SpState := (s.spindle x.side x.pos).map (·.state)

theorem State.spState_of_some {s : State} {x : SpRef} {sp : Spindle} (h : s.spindle x.side x.pos = some sp) :
    s.spState x = some sp.state := by simp [State.spState, h]

theorem State.spState_eq_some {s : State} {x : SpRef} {st : SpState} :
    s.spState x = some st ↔ ∃ sp, s.spindle x.side x.pos = some sp ∧ sp.state = st := by
  simp [State.spState, Option.map_eq_some_iff]

theorem State.spState_of_spindles {s t : State} (h : t.spindles = s.spindles) : t.spState = s.spState := by
  funext x
  simp [State.spState, State.spindle, h]

theorem OnlyChanges.spState {ps : List Part} {s t : State} (h : OnlyChanges ps s t) (hp : .spindles ∉ ps := by decide) :
    t.spState = s.spState := State.spState_of_spindles (h .spindles hp)

/-- Every spindle waits for roving where it did, and none has been parked or removed. -/
def Sees (f g : SpRef → Option SpState) : Prop :=
  ∀ x, (g x = some .waitRoving ↔ f x = some .waitRoving) ∧ (g x = some .parked → f x = some .parked) ∧
    ((f x).isSome → (g x).isSome)

/-- The changes of a record that neither begin nor end a wait for roving, and do not park it. -/
def quietChanges : List ChangeKind :=
  [.close, .clamp, .zeroCop, .renumber, .resequence, .seed, .mark, .join, .order, .giveBack, .piece, .pieceOrdered,
    .lock, .unpark]

theorem Change.quiet {x cap : Nat} {k : ChangeKind} {a b : Spindle} (h : Change x cap k a b) (hk : k ∈ quietChanges) :
    (b.state = .waitRoving ↔ a.state = .waitRoving) ∧ (b.state = .parked → a.state = .parked) := by
  cases h with
  | close art =>
    unfold Spindle.close
    split
    · exact ⟨Iff.rfl, id⟩
    · exact ⟨Iff.rfl, id⟩
  | clamp | zeroCop | renumber | seed | mark | resequence => exact ⟨Iff.rfl, id⟩
  | join _ _ _ _ h => rcases h with h | h <;> simp [Spindle.joined, h]
  | unpark _ _ _ _ h => simp [Spindle.joined, h]
  | order _ h | giveBack _ h => simp [h]
  | piece _ h | pieceOrdered _ h => simp [Spindle.piecedOpen, Spindle.pieced, h]
  | lock _ _ h => rcases h with h | h <;> simp [Spindle.locked, h]
  | wait | park | renew => simp [quietChanges] at hk

theorem Reforms.quiet {x cap : Nat} {a b : Spindle} (h : Reforms x cap quietChanges a b) :
    (b.state = .waitRoving ↔ a.state = .waitRoving) ∧ (b.state = .parked → a.state = .parked) :=
  h.keeps (P := fun b => (b.state = .waitRoving ↔ a.state = .waitRoving) ∧ (b.state = .parked → a.state = .parked))
    (fun hk hc hb => ⟨(hc.quiet hk).1.trans hb.1, hb.2 ∘ (hc.quiet hk).2⟩) ⟨Iff.rfl, id⟩

theorem Records.sees {x cap : Nat} {s t : State} (h : Records x cap quietChanges s t) : Sees s.spState t.spState := by
  intro y
  cases hold : s.spindle y.side y.pos with
  | none =>
    have hnew : t.spindle y.side y.pos = none := by
      rw [← Option.not_isSome_iff_eq_none, h.isSome_iff, hold]
      simp
    simp [State.spState, hold, hnew]
  | some sp =>
    obtain ⟨sp', hsp', hr⟩ := h.exists_of_old hold
    obtain ⟨hwait, hpark⟩ := hr.quiet
    simpa [State.spState, hold, hsp'] using ⟨hwait, hpark⟩

/-- Each operation outside the roving unit is quiet. -/
theorem Op.quiet {ps : List Part} {s t : State} (h : Op ps s t) (hp : .roving ∉ ps) :
    Records s.flmm (s.articles.active.bobbin * 1000) quietChanges s t := by
  have hf := h.frame
  cases h with
  | sections | park | runOut | replaceSlot | replaceListed => exact absurd hp (by decide)
  | completeDoff byHand => exact (completeDoff_records byHand rfl).mono
  | pieceMissed side pos => exact pieceMissed_records.mono
  | endBreak side pos sp _ h => exact (takeEndBreak_records h rfl).mono
  | exchange a o _ => exact (makeExchange_records a o rfl).mono
  | dispatch => exact dispatchTest_records.mono
  | enterDoffing => exact enterDoffing_records.mono
  | unpark side pos sp _ h hst =>
    have hsp : (creditPossible side s).spindle side pos = some sp := h
    refine (creditPossible_frame side s).records.trans (joinBreakList_records hsp fun q => ?_)
    exact (Change.mark 0 sp.stamps sp.rogueUnlocked sp (by decide) (.inl rfl)).reforms.next
      (Change.unpark .release q _ (by decide) hst)
  | release side pos sp _ h hst =>
    refine joinBreakList_records h fun q => ?_
    exact (Change.mark 0 [] false sp (by decide) (.inr (.inl rfl))).reforms.next
      (Change.join .release q _ (by decide) (.inr hst))
  | seed side pos metres _ h => exact (seedRoving_records rfl (Nat.mul_le_mul_right _ h)).mono
  | closeShift label stamp => exact (closeShift_records label stamp rfl).mono
  | arrives => exact carriageArrives_records.mono
  | pieceDone => exact (pieceDone_records rfl).mono
  | lateOutcome side pos ok => exact (lateOutcome_records ok rfl).mono
  | timeout side k => exact (carriageTimeout_records k).mono
  | silent => exact carriageSilent_records.mono
  | closeInterval => exact (closeInterval_records rfl).mono
  | startUpBreak side pos sp _ h => exact (takeStartUpBreak_records h).mono
  | yarnFound => exact (yarnFound_records rfl).mono
  | _ => exact hf.records

section
variable {s : State}

/-- The one write of a record sets the state of its spindle alone. -/
theorem writeSpindle_spState {x : SpRef} {old : Spindle} (new : Spindle) (h : s.spindle x.side x.pos = some old) :
    (writeSpindle x.side x.pos new s).spState = Function.update s.spState x (some new.state) := by
  funext y
  by_cases hy : y = x
  · subst hy
    rw [Function.update_self]
    simp [State.spState, writeSpindle_same _ _ new s old h]
  · rw [Function.update_of_ne hy]
    have hne : ¬ (y.side = x.side ∧ y.pos = x.pos) := by
      rintro ⟨h1, h2⟩
      exact hy (by cases x; cases y; simp_all)
    simp [State.spState, writeSpindle_other x.side x.pos new s y.side y.pos hne]

/-- Records that keep every state. -/
theorem Records.spState_eq {x cap : Nat} {ks : List ChangeKind} {s t : State} (h : Records x cap ks s t)
    (hk : ∀ {k a b}, k ∈ ks → Change x cap k a b → b.state = a.state) : t.spState = s.spState := by
  funext y
  cases hold : s.spindle y.side y.pos with
  | none =>
    have hnew : t.spindle y.side y.pos = none := by
      rw [← Option.not_isSome_iff_eq_none, h.isSome_iff, hold]
      simp
    simp [State.spState, hold, hnew]
  | some sp =>
    obtain ⟨sp', hsp', hr⟩ := h.exists_of_old hold
    have : sp'.state = sp.state := hr.keeps (P := fun b => b.state = sp.state) (fun hk' hc hb => (hk hk' hc).trans hb) rfl
    simp [State.spState, hold, hsp', this]

theorem Change.state_of_still {x cap : Nat} {k : ChangeKind} {a b : Spindle} (hk : k ∈ [.close, .clamp, .renumber])
    (h : Change x cap k a b) : b.state = a.state := by
  cases h with
  | close art => unfold Spindle.close; split <;> rfl
  | clamp | renumber => rfl
  | _ => simp at hk

theorem advanceSeq_spState (side : Side) : (advanceSeq side s).spState = s.spState :=
  ((advanceSeq_records (x := 0) (cap := 0)).mono (ls := [.close, .clamp, .renumber])).spState_eq Change.state_of_still

theorem split_spState : (split s).spState = s.spState :=
  ((split_records (cap := 0) rfl).mono (ls := [.close, .clamp, .renumber])).spState_eq Change.state_of_still

theorem closeInterval_spState (side : Side) (pos : Nat) : (closeInterval side pos s).spState = s.spState :=
  ((closeInterval_records (cap := 0) rfl).mono (ls := [.close, .clamp, .renumber])).spState_eq Change.state_of_still

theorem joinBreakList_spState {x : SpRef} {old : Spindle} (c : Cause) (sp : Spindle)
    (h : s.spindle x.side x.pos = some old) :
    (joinBreakList x.side x.pos c sp s).spState = Function.update s.spState x (some .broken) := by
  obtain ⟨cur, hcur, -⟩ := (advanceSeq_records (x := 0) (cap := 0) (side := x.side) (s := s)).exists_of_old h
  unfold joinBreakList
  dsimp only
  rw [writeSpindle_spState _ hcur, advanceSeq_spState]

/-- A replacement makes a RUNNING or WAIT_ROVING spindle BROKEN and leaves every other state (R134). -/
theorem replaceBobbin_spState (x : SpRef) :
    (replaceBobbin x s).spState =
      if s.spState x = some .running ∨ s.spState x = some .waitRoving then
        Function.update s.spState x (some .broken) else s.spState := by
  cases h : s.spindle x.side x.pos with
  | none => simp [replaceBobbin, State.spState, h]
  | some old =>
    have hst := State.spState_of_some h
    rw [hst]
    simp only [Option.some.injEq]
    by_cases hrun : old.state = .running
    · have hold : (split s).spindle x.side x.pos = some (old.close s.articles.active s.flmm) := by
        rw [split_spindle, h]; rfl
      rw [replaceBobbin_of_running h hrun, if_pos (.inl hrun), (countSide_frame _ _ _).spState,
        joinBreakList_spState _ _ hold, split_spState]
    by_cases hwait : old.state = .waitRoving
    · rw [replaceBobbin_of_waitRoving h hwait, if_pos (.inr hwait), (countSide_frame _ _ _).spState,
        joinBreakList_spState _ _ h]
    · rw [replaceBobbin_of_other h hrun hwait, if_neg (by simp [hrun, hwait]), (countSide_frame _ _ _).spState,
        writeSpindle_spState _ h]
      exact Function.update_eq_self_iff.2 hst.symm

end

/-! ## The laws of the roving record -/

/-- The lists and the slot by the states of the spindles (R124, R128): the segments hold each spindle once, and the
urgent one those that wait. -/
structure Roving.Lists (r : Roving) (f : SpRef → Option SpState) : Prop where
  urgentOnce : r.urgent.Nodup
  lowOnce : r.low.Nodup
  slotFree : ∀ x, r.slot = some x → x ∉ r.urgent ∧ x ∉ r.low
  urgentWait : ∀ x ∈ r.urgent, f x = some .waitRoving
  lowStays : ∀ x ∈ r.low, (f x).isSome ∧ f x ≠ some .waitRoving ∧ f x ≠ some .parked
  slotFitted : ∀ x, r.slot = some x → (f x).isSome
  waiting : ∀ x, f x = some .waitRoving → x ∈ r.urgent ∨ r.slot = some x

theorem State.everyWaiting_iff {s : State} {P : SpRef → Prop} :
    (EverySpindle s fun side pos sp => sp.state = .waitRoving → P ⟨side, pos⟩) ↔
      ∀ x, s.spState x = some .waitRoving → P x := by
  have one (side : Side) : (∀ pos ∈ List.range' 1 (s.spindles.get side).length, ∀ sp ∈ s.spindle side pos,
      sp.state = .waitRoving → P ⟨side, pos⟩) ↔ ∀ pos, s.spState ⟨side, pos⟩ = some .waitRoving → P ⟨side, pos⟩ := by
    constructor
    · intro h pos hst
      obtain ⟨sp, hsp, hwait⟩ := State.spState_eq_some.1 hst
      have hpos := State.spindle_isSome_iff.1 (by rw [hsp]; rfl : (s.spindle side pos).isSome = true)
      exact h pos (List.mem_range'_1.2 (by omega)) sp hsp hwait
    · exact fun h pos _ sp hsp hwait => h pos (State.spState_eq_some.2 ⟨sp, hsp, hwait⟩)
  refine (and_congr (one .a) (one .b)).trans ⟨fun ⟨ha, hb⟩ x => ?_, fun h => ⟨fun pos => h _, fun pos => h _⟩⟩
  obtain ⟨side, pos⟩ := x
  cases side
  exacts [ha pos, hb pos]

theorem rovingListLaw_iff (s : State) : RovingListLaw s ↔ s.roving.Lists s.spState := by
  have hurgent (x : SpRef) : (∃ sp, s.spindle x.side x.pos = some sp ∧ sp.state = .waitRoving) ↔ s.spState x = some .waitRoving :=
    State.spState_eq_some.symm
  have hlow (x : SpRef) : (∃ sp, s.spindle x.side x.pos = some sp ∧ sp.state ≠ .waitRoving ∧ sp.state ≠ .parked) ↔
      (s.spState x).isSome ∧ s.spState x ≠ some .waitRoving ∧ s.spState x ≠ some .parked := by
    cases h : s.spindle x.side x.pos <;> simp [State.spState, h]
  have hslot (x : SpRef) : (s.spindle x.side x.pos).isSome = (s.spState x).isSome := by simp [State.spState]
  unfold RovingListLaw
  rw [State.everyWaiting_iff (P := fun x => x ∈ s.roving.urgent ∨ s.roving.slot = some x)]
  simp only [hurgent, hlow, hslot, List.nodup_append', Option.mem_def]
  constructor
  · rintro ⟨⟨⟨h1, h2, -⟩, -, h3⟩, h4, h5, h6, h7⟩
    refine ⟨h1, h2, fun x hx => ?_, h4, h5, h6, h7⟩
    have hslot : x ∈ s.roving.inSlot := by simp [Roving.inSlot, hx]
    exact ⟨fun hm => h3 (List.mem_append_left _ hm) hslot, fun hm => h3 (List.mem_append_right _ hm) hslot⟩
  · rintro ⟨h1, h2, h3, h4, h5, h6, h7⟩
    refine ⟨⟨⟨h1, h2, fun x hu hl => (h5 x hl).2.1 (h4 x hu)⟩, ?_, fun x hx hs => ?_⟩, h4, h5, h6, h7⟩
    · cases hs : s.roving.slot <;> simp [Roving.inSlot, hs]
    · have hslot : s.roving.slot = some x := by simpa [Roving.inSlot] using hs
      have := h3 x hslot
      simp only [List.mem_append] at hx
      tauto

/-- The counts of a run (R130, R132). -/
structure Roving.Counted (r : Roving) : Prop where
  runBase : r.run ≠ .idle → r.base.isSome
  current : r.base.isSome ↔ r.current.isSome
  bounds : ∀ b ∈ r.base, 1 ≤ b ∧ b ≤ 240 ∧ ∀ c ∈ r.current, c ≤ b

/-- The slot, its timer and the run (R130, R132). -/
structure Roving.Runs (r : Roving) : Prop extends r.Counted where
  timed : r.slot.isSome ↔ r.timer.isSome
  slotRun : r.slot.isSome → r.run ≠ .idle
  endingSlot : r.run = .ending → r.slot.isSome
  toCome : r.run = .active → r.slot = none → r.current ≠ some 0

theorem runLaw_iff (s : State) : RunLaw s ↔ s.roving.Runs := by
  constructor
  · rintro ⟨h1, h2, h3, h4, h5, h6, h7⟩
    exact ⟨⟨h5, h6, h7⟩, h1, h2, h3, h4⟩
  · rintro ⟨⟨h5, h6, h7⟩, h1, h2, h3, h4⟩
    exact ⟨h1, h2, h3, h4, h5, h6, h7⟩

/-- Both laws of the roving unit. -/
def RovingFits (s : State) : Prop := s.roving.Runs ∧ s.roving.Lists s.spState

theorem rovingLaws_iff (s : State) : RunLaw s ∧ RovingListLaw s ↔ RovingFits s :=
  and_congr (runLaw_iff s) (rovingListLaw_iff s)

/-! ## The lists under changes of state -/

section
variable {r : Roving} {f g : SpRef → Option SpState}

theorem Roving.Lists.sees (h : r.Lists f) (hs : Sees f g) : r.Lists g where
  urgentOnce := h.urgentOnce
  lowOnce := h.lowOnce
  slotFree := h.slotFree
  urgentWait x hx := (hs x).1.2 (h.urgentWait x hx)
  lowStays x hx := by
    obtain ⟨h1, h2, h3⟩ := h.lowStays x hx
    exact ⟨(hs x).2.2 h1, mt (hs x).1.1 h2, mt (hs x).2.1 h3⟩
  slotFitted x hx := (hs x).2.2 (h.slotFitted x hx)
  waiting x hx := h.waiting x ((hs x).1.1 hx)

/-- The lists cut to the spindles that stay; the states of those that stay hold. -/
theorem Roving.Lists.filter (h : r.Lists f) (stays : SpRef → Bool) {slot : Option SpRef}
    (hslot : ∀ x, slot = some x → r.slot = some x ∧ (g x).isSome)
    (hkeep : ∀ x, stays x = true → (f x).isSome → g x = f x)
    (hwait : ∀ x, g x = some .waitRoving → f x = some .waitRoving ∧ stays x = true ∧
      (r.slot = some x → slot = some x)) :
    Roving.Lists
      { r with urgent := r.urgent.filter stays, low := r.low.filter stays, slot := slot } g where
  urgentOnce := h.urgentOnce.filter _
  lowOnce := h.lowOnce.filter _
  slotFree x hx := by
    obtain ⟨h1, h2⟩ := h.slotFree x (hslot x hx).1
    exact ⟨fun hm => h1 (List.mem_filter.1 hm).1, fun hm => h2 (List.mem_filter.1 hm).1⟩
  urgentWait x hx := by
    obtain ⟨hx, hst⟩ := List.mem_filter.1 hx
    have := h.urgentWait x hx
    rw [hkeep x hst (by rw [this]; rfl), this]
  lowStays x hx := by
    obtain ⟨hx, hst⟩ := List.mem_filter.1 hx
    have := h.lowStays x hx
    rwa [hkeep x hst this.1]
  slotFitted x hx := (hslot x hx).2
  waiting x hx := by
    obtain ⟨hf, hst, hsl⟩ := hwait x hx
    exact (h.waiting x hf).imp (fun hm => List.mem_filter.2 ⟨hm, hst⟩) hsl

/-- A spindle that begins to wait joins the urgent tail, or stays in the slot (R125). -/
theorem Roving.Lists.wait (h : r.Lists f) {x : SpRef} (hx : f x = some .running) :
    (if r.slot = some x ∨ x ∈ r.urgent then r
      else { r with low := r.low.filter (· != x), urgent := r.urgent ++ [x] }).Lists
      (Function.update f x (some .waitRoving)) := by
  have hu : x ∉ r.urgent := fun hm => by simp [h.urgentWait x hm] at hx
  have urgent (y : SpRef) (hy : y ∈ r.urgent) : Function.update f x (some .waitRoving) y = some .waitRoving := by
    by_cases hyx : y = x
    · rw [hyx, Function.update_self]
    · rw [Function.update_of_ne hyx, h.urgentWait y hy]
  have fitted (y : SpRef) (hy : (f y).isSome) : (Function.update f x (some .waitRoving) y).isSome := by
    by_cases hyx : y = x
    · rw [hyx, Function.update_self]; rfl
    · rwa [Function.update_of_ne hyx]
  by_cases hslot : r.slot = some x
  · rw [if_pos (.inl hslot)]
    refine ⟨h.urgentOnce, h.lowOnce, h.slotFree, urgent, fun y hy => ?_, fun y hy => fitted y (h.slotFitted y hy),
      fun y hy => ?_⟩
    · have hyx : y ≠ x := fun e => (h.slotFree x hslot).2 (e ▸ hy)
      rw [Function.update_of_ne hyx]
      exact h.lowStays y hy
    · by_cases hyx : y = x
      · exact .inr (hyx ▸ hslot)
      · rw [Function.update_of_ne hyx] at hy
        exact h.waiting y hy
  · rw [if_neg (by simp [hslot, hu])]
    refine ⟨?_, h.lowOnce.filter _, fun y hy => ?_, fun y hy => ?_, fun y hy => ?_, fun y hy => fitted y (h.slotFitted y hy),
      fun y hy => ?_⟩
    · exact List.nodup_append'.2 ⟨h.urgentOnce, List.nodup_singleton x, by simpa using hu⟩
    · obtain ⟨h1, h2⟩ := h.slotFree y hy
      have hyx : y ≠ x := fun e => hslot (e ▸ hy)
      exact ⟨by simp [h1, hyx], by simp [h2]⟩
    · rcases List.mem_append.1 hy with hy | hy
      · exact urgent y hy
      · rw [List.mem_singleton.1 hy, Function.update_self]
    · obtain ⟨hy, hyx⟩ := List.mem_filter.1 hy
      rw [Function.update_of_ne (by simpa using hyx)]
      exact h.lowStays y hy
    · by_cases hyx : y = x
      · exact .inl (by simp [hyx])
      · rw [Function.update_of_ne hyx] at hy
        exact (h.waiting y hy).imp_left (List.mem_append_left _)

/-- The slot emptied: what it held waits no more, or is put back. -/
theorem Roving.Lists.emptySlot (h : r.Lists f) {x : SpRef} (hx : r.slot = some x) (hs : ∀ y, y ≠ x → g y = f y)
    (hwait : g x ≠ some .waitRoving) (t : Option Nat) : { r with slot := none, timer := t }.Lists g := by
  obtain ⟨hu, hl⟩ := h.slotFree x hx
  have off (y : SpRef) (hy : y ∈ r.urgent ∨ y ∈ r.low) : g y = f y :=
    hs y fun e => hy.elim (fun hm => hu (e ▸ hm)) fun hm => hl (e ▸ hm)
  refine ⟨h.urgentOnce, h.lowOnce, by simp, fun y hy => ?_, fun y hy => ?_, by simp, fun y hy => .inl ?_⟩
  · rw [off y (.inl hy)]
    exact h.urgentWait y hy
  · rw [off y (.inr hy)]
    exact h.lowStays y hy
  · have hyx : y ≠ x := fun e => hwait (e ▸ hy)
    rw [hs y hyx] at hy
    rcases h.waiting y hy with hm | hm
    · exact hm
    · exact absurd (Option.some.inj (hm.symm.trans hx)) hyx

/-- The slot spindle put back into the segment that its state gives (R128). -/
theorem Roving.Lists.putBack (h : r.Lists f) {x : SpRef} (hx : r.slot = some x) (atHead : Bool) (t : Option Nat) :
    (f x = some .waitRoving → Roving.Lists
      { r with
        slot := none, timer := t, urgent := if atHead then x :: r.urgent else r.urgent ++ [x] } f) ∧
    (f x ≠ some .waitRoving → f x ≠ some .parked → Roving.Lists
      { r with slot := none, timer := t, low := if atHead then x :: r.low else r.low ++ [x] } f) := by
  obtain ⟨hu, hl⟩ := h.slotFree x hx
  have hmem (l : List SpRef) (y : SpRef) : y ∈ (if atHead then x :: l else l ++ [x]) ↔ y = x ∨ y ∈ l := by
    cases atHead
    · simp [or_comm]
    · simp
  have hnodup (l : List SpRef) (hl : l.Nodup) (hx : x ∉ l) : (if atHead then x :: l else l ++ [x]).Nodup := by
    cases atHead
    · simpa [List.nodup_append'] using ⟨hl, hx⟩
    · simpa using ⟨hx, hl⟩
  have waits (y : SpRef) (hy : f y = some .waitRoving) : y = x ∨ y ∈ r.urgent :=
    (h.waiting y hy).symm.imp_left fun hm => Option.some.inj (hm.symm.trans hx)
  constructor
  · intro hw
    refine ⟨hnodup _ h.urgentOnce hu, h.lowOnce, by simp, fun y hy => ?_, h.lowStays, by simp,
      fun y hy => .inl ((hmem _ y).2 (waits y hy))⟩
    rcases (hmem _ y).1 hy with rfl | hy
    exacts [hw, h.urgentWait y hy]
  · intro hw hp
    refine ⟨h.urgentOnce, hnodup _ h.lowOnce hl, by simp, h.urgentWait, fun y hy => ?_, by simp, fun y hy => .inl ?_⟩
    · rcases (hmem _ y).1 hy with rfl | hy
      exacts [⟨h.slotFitted y hx, hw, hp⟩, h.lowStays y hy]
    · rcases waits y hy with rfl | hm
      exacts [absurd hy hw, hm]

/-- A spindle handed out of the urgent segment to the empty slot (R132). -/
theorem Roving.Lists.handOutUrgent (h : r.Lists f) (hnone : r.slot = none) {x : SpRef} {rest : List SpRef}
    (hu : r.urgent = x :: rest) (t c : Option Nat) :
    { r with urgent := rest, slot := some x, timer := t, current := c }.Lists f := by
  have hx := h.urgentWait x (by simp [hu])
  obtain ⟨hout, honce⟩ := List.nodup_cons.1 (hu ▸ h.urgentOnce)
  refine ⟨honce, h.lowOnce, fun y hy => ?_, fun y hy => h.urgentWait y (by simp [hu, hy]), h.lowStays, fun y hy => ?_,
    fun y hy => ?_⟩
  · cases hy
    exact ⟨hout, fun hm => (h.lowStays x hm).2.1 hx⟩
  · cases hy
    rw [hx]; rfl
  · rcases h.waiting y hy with hm | hm
    · rw [hu] at hm
      rcases List.mem_cons.1 hm with rfl | hm
      exacts [.inr rfl, .inl hm]
    · rw [hnone] at hm
      cases hm

/-- The same out of the low segment. -/
theorem Roving.Lists.handOutLow (h : r.Lists f) (hnone : r.slot = none) {x : SpRef} {rest : List SpRef}
    (hl : r.low = x :: rest) (t c : Option Nat) :
    { r with low := rest, slot := some x, timer := t, current := c }.Lists f := by
  have hx := h.lowStays x (by simp [hl])
  obtain ⟨hout, honce⟩ := List.nodup_cons.1 (hl ▸ h.lowOnce)
  refine ⟨h.urgentOnce, honce, fun y hy => ?_, h.urgentWait, fun y hy => h.lowStays y (by simp [hl, hy]), fun y hy => ?_,
    fun y hy => ?_⟩
  · cases hy
    exact ⟨fun hm => hx.2.1 (h.urgentWait x hm), hout⟩
  · cases hy
    exact hx.1
  · rcases h.waiting y hy with hm | hm
    · exact .inl hm
    · rw [hnone] at hm
      cases hm

/-- Spindles found by an audit, appended to the low segment (R126). -/
theorem Roving.Lists.appendLow (h : r.Lists f) {l : List SpRef} (honce : l.Nodup)
    (hl : ∀ x ∈ l, (f x).isSome ∧ f x ≠ some .parked ∧ x ∉ r.urgent ∧ x ∉ r.low ∧ r.slot ≠ some x) :
    { r with low := r.low ++ l }.Lists f := by
  refine ⟨h.urgentOnce, ?_, fun x hx => ?_, h.urgentWait, fun x hx => ?_, h.slotFitted, h.waiting⟩
  · exact List.nodup_append'.2 ⟨h.lowOnce, honce, fun x hlow hx => (hl x hx).2.2.2.1 hlow⟩
  · obtain ⟨h1, h2⟩ := h.slotFree x hx
    refine ⟨h1, fun hm => ?_⟩
    rcases List.mem_append.1 hm with hm | hm
    exacts [h2 hm, (hl x hm).2.2.2.2 hx]
  · rcases List.mem_append.1 hx with hx | hx
    · exact h.lowStays x hx
    · obtain ⟨h1, h2, h3, -, h5⟩ := hl x hx
      exact ⟨h1, fun hw => (h.waiting x hw).elim h3 h5, h2⟩

end

/-! ## The end of a run -/

theorem endRun_roving (reason : EndReason) (s : State) :
    (endRun reason s).roving = { s.roving with run := .idle, reason := some reason } := rfl

/-- The ending test leaves the lists and the slot. -/
theorem endingTest_roving (s : State) :
    ∃ run reason, (endingTest s).roving = { s.roving with run := run, reason := reason } := by
  unfold endingTest
  split
  · exact ⟨_, _, rfl⟩
  · exact ⟨_, _, rfl⟩
  · split <;> exact ⟨_, _, rfl⟩

theorem Roving.Lists.ofRun {r : Roving} {f : SpRef → Option SpState} (h : r.Lists f) (run : RunState)
    (reason : Option EndReason) : { r with run := run, reason := reason }.Lists f :=
  ⟨h.urgentOnce, h.lowOnce, h.slotFree, h.urgentWait, h.lowStays, h.slotFitted, h.waiting⟩

theorem Roving.Counted.idle {r : Roving} (h : r.Counted) (reason : Option EndReason) :
    { r with run := .idle, reason := reason }.Counted := ⟨fun hr => absurd rfl hr, h.current, h.bounds⟩

/-- A run that has ended, with the slot empty. -/
theorem Roving.Runs.ended {r : Roving} (h : r.Counted) (hslot : r.slot = none) (htimer : r.timer = none)
    (reason : Option EndReason) : { r with run := .idle, reason := reason }.Runs :=
  { h.idle reason with
    timed := by simp [hslot, htimer], slotRun := by simp [hslot], endingSlot := by simp, toCome := by simp }

/-- A position handed out: the slot is taken under its timer, and the count falls (R132). -/
theorem Roving.Runs.handedOut {r : Roving} (h : r.Runs) (hrun : r.run = .active) (x : SpRef) (t : Nat)
    (urgent low : List SpRef) :
    Roving.Runs
      { r with urgent := urgent, low := low, slot := some x, timer := some t, current := r.current.map (· - 1) } where
  runBase := h.runBase
  current := by
    rw [Option.isSome_map]
    exact h.current
  bounds b hb := by
    obtain ⟨h1, h2, h3⟩ := h.bounds b hb
    refine ⟨h1, h2, fun c hc => ?_⟩
    obtain ⟨c', hc', rfl⟩ := Option.map_eq_some_iff.1 hc
    exact (Nat.sub_le _ _).trans (h3 c' hc')
  timed := by simp
  slotRun := by simp [hrun]
  endingSlot := by simp
  toCome := by simp

/-- The ending test after the slot has emptied (R136). -/
theorem endingTest_runs {s : State} (h : s.roving.Counted) (hslot : s.roving.slot = none)
    (htimer : s.roving.timer = none) : (endingTest s).roving.Runs := by
  unfold endingTest
  split
  · next hrun =>
    exact { h with timed := by simp [hslot, htimer], slotRun := by simp [hslot], endingSlot := by simp [hrun],
                   toCome := by simp [hrun] }
  · exact .ended h hslot htimer _
  · next hrun =>
    split
    · exact .ended h hslot htimer _
    · next hcur =>
      exact { h with timed := by simp [hslot, htimer], slotRun := by simp [hslot], endingSlot := by simp [hrun],
                     toCome := fun _ _ => hcur }

/-- The ending test on a slot that has just emptied, the lists as the new states have them. -/
theorem RovingFits.endingTest {s : State} (h : s.roving.Counted) (hslot : s.roving.slot = none)
    (htimer : s.roving.timer = none) (hl : s.roving.Lists s.spState) : RovingFits (endingTest s) := by
  refine ⟨endingTest_runs h hslot htimer, ?_⟩
  obtain ⟨run, reason, heq⟩ := endingTest_roving s
  rw [heq, (endingTest_frame s).spState]
  exact hl.ofRun run reason

/-! ## The audit -/

/-- The spindles that an audit finds on a side (R126). -/
theorem mem_auditSide {s : State} {side : Side} {pos : Nat} {l : List Spindle} {e : SpRef × Nat}
    (h : e ∈ auditSide s side pos l) :
    e.1.side = side ∧ pos ≤ e.1.pos ∧ ∃ sp, l[e.1.pos - pos]? = some sp ∧ auditSelects s e.1 sp = some e.2 := by
  induction l generalizing pos with
  | nil => simp [auditSide] at h
  | cons sp rest ih =>
    have later (h : e ∈ auditSide s side (pos + 1) rest) : e.1.side = side ∧ pos ≤ e.1.pos ∧
        ∃ sp', (sp :: rest)[e.1.pos - pos]? = some sp' ∧ auditSelects s e.1 sp' = some e.2 := by
      obtain ⟨h1, h2, sp', h3, h4⟩ := ih h
      refine ⟨h1, by omega, sp', ?_, h4⟩
      rwa [show e.1.pos - pos = (e.1.pos - (pos + 1)) + 1 by omega, List.getElem?_cons_succ]
    unfold auditSide at h
    split at h
    · next rp hrp =>
      rcases List.mem_cons.1 h with rfl | h
      · exact ⟨rfl, Nat.le_refl _, sp, by simp, hrp⟩
      · exact later h
    · exact later h

theorem auditSide_nodup (s : State) (side : Side) (pos : Nat) (l : List Spindle) :
    ((auditSide s side pos l).map (·.1)).Nodup := by
  induction l generalizing pos with
  | nil => exact List.nodup_nil
  | cons sp rest ih =>
    unfold auditSide
    split
    · refine List.nodup_cons.2 ⟨fun hm => ?_, ih _⟩
      obtain ⟨e, he, heq⟩ := List.mem_map.1 hm
      have := (mem_auditSide he).2.1
      rw [heq] at this
      simp at this
    · exact ih _

theorem insertByRp_perm (e : SpRef × Nat) (l : List (SpRef × Nat)) : (insertByRp e l).Perm (e :: l) := by
  induction l with
  | nil => exact .refl _
  | cons f fs ih =>
    unfold insertByRp
    split
    · exact .refl _
    · exact (ih.cons f).trans (.swap e f fs)

theorem sortByRp_perm (l : List (SpRef × Nat)) : (sortByRp l).Perm l := by
  have fold (acc l : List (SpRef × Nat)) : (l.foldl (fun acc e => insertByRp e acc) acc).Perm (acc ++ l) := by
    induction l generalizing acc with
    | nil => simp
    | cons e l ih =>
      exact (ih _).trans (((insertByRp_perm e acc).append_right l).trans List.perm_middle.symm)
  exact fold [] l

/-- What the audit finds, in the order that it appends (R126). -/
def auditFound (s : State) : List SpRef :=
  (sortByRp (auditSide s .a 1 s.spindles.a ++ auditSide s .b 1 s.spindles.b)).map (·.1)

theorem rovingAudit_eq (s : State) :
    rovingAudit s = if auditFound s = [] then s
      else raise .rovingLow (s.setRoving { s.roving with low := s.roving.low ++ auditFound s }) := by
  simp only [rovingAudit, auditFound, List.isEmpty_iff, List.map_eq_nil_iff]

theorem auditFound_perm (s : State) :
    (auditFound s).Perm ((auditSide s .a 1 s.spindles.a ++ auditSide s .b 1 s.spindles.b).map (·.1)) :=
  (sortByRp_perm _).map _

theorem auditFound_nodup (s : State) : (auditFound s).Nodup := by
  rw [(auditFound_perm s).nodup_iff, List.map_append, List.nodup_append']
  refine ⟨auditSide_nodup _ _ _ _, auditSide_nodup _ _ _ _, fun x ha hb => ?_⟩
  obtain ⟨e, he, rfl⟩ := List.mem_map.1 ha
  obtain ⟨e', he', heq⟩ := List.mem_map.1 hb
  have h1 := (mem_auditSide he).1
  have h2 := (mem_auditSide he').1
  rw [heq, h1] at h2
  cases h2

theorem mem_auditFound {s : State} {x : SpRef} (h : x ∈ auditFound s) :
    ∃ sp rp, s.spindle x.side x.pos = some sp ∧ auditSelects s x sp = some rp := by
  have hmem := (auditFound_perm s).mem_iff.1 h
  obtain ⟨e, he, rfl⟩ := List.mem_map.1 hmem
  have one (side : Side) (he : e ∈ auditSide s side 1 (s.spindles.get side)) :
      ∃ sp rp, s.spindle e.1.side e.1.pos = some sp ∧ auditSelects s e.1 sp = some rp := by
    obtain ⟨h1, h2, sp, h3, h4⟩ := mem_auditSide he
    exact ⟨sp, e.2, by rw [State.spindle, h1, if_neg (by omega)]; exact h3, h4⟩
  rcases List.mem_append.1 he with he | he
  exacts [one .a he, one .b he]

theorem auditSelects_some {s : State} {x : SpRef} {sp : Spindle} {rp : Nat} (h : auditSelects s x sp = some rp) :
    sp.state ≠ .parked ∧ s.roving.listed x = false ∧ s.roving.slot ≠ some x := by
  unfold auditSelects at h
  split at h
  · split at h
    · next hsel => exact ⟨hsel.1, by simpa using hsel.2.1, hsel.2.2.1⟩
    · cases h
  · cases h

theorem RovingFits.audit {s : State} (h : RovingFits s) : RovingFits (rovingAudit s) := by
  rw [rovingAudit_eq]
  split
  · exact h
  · refine ⟨{ h.1 with }, h.2.appendLow (auditFound_nodup s) fun x hx => ?_⟩
    obtain ⟨sp, rp, hsp, hsel⟩ := mem_auditFound hx
    obtain ⟨h1, h2, h3⟩ := auditSelects_some hsel
    simp only [Roving.listed, Bool.or_eq_false_iff, List.contains_eq_mem, decide_eq_false_iff_not] at h2
    rw [State.spState_of_some hsp]
    exact ⟨rfl, by simpa using h1, h2.1, h2.2, h3⟩

/-! ## Each operation of the roving unit -/

theorem Roving.Lists.congr {r q : Roving} {f : SpRef → Option SpState} (h : r.Lists f) (hu : q.urgent = r.urgent)
    (hl : q.low = r.low) (hs : q.slot = r.slot) : q.Lists f := by
  obtain ⟨h1, h2, h3, h4, h5, h6, h7⟩ := h
  constructor <;> simp only [hu, hl, hs] <;> assumption

section
variable {s : State}

theorem RovingFits.of_sees {t : State} (h : RovingFits s) (hr : t.roving = s.roving) (hs : Sees s.spState t.spState) :
    RovingFits t := by
  unfold RovingFits
  rw [hr]
  exact ⟨h.1, h.2.sees hs⟩

theorem RovingFits.runOut (h : RovingFits s) {side : Side} {pos : Nat} {sp : Spindle} (hc : sp.ClosedAt side pos s) :
    RovingFits (takeRunOut side pos sp s) := by
  obtain ⟨hsp, hst, -⟩ := hc
  have hx : s.spState ⟨side, pos⟩ = some .running := (State.spState_of_some hsp).trans (by rw [hst])
  have hwait := h.2.wait hx
  have hstate := writeSpindle_spState (x := ⟨side, pos⟩)
    { sp with state := .waitRoving, marker := none, cause := some .rovingOut, attempts := 0, seq := none } hsp
  have hroving : (writeSpindle side pos
      { sp with state := .waitRoving, marker := none, cause := some .rovingOut, attempts := 0, seq := none } s).roving =
      s.roving := writeSpindle_frame side pos s _ .roving (by decide)
  unfold takeRunOut RovingFits
  rw [(countSide_frame _ _ _).spState, (raise_frame _ _).spState, (placeRunOut_frame _ _).spState, hstate,
    countSide_frame side _ .rovingOutBreak .roving (by decide), raise_frame _ .rovingOut .roving (by decide)]
  unfold placeRunOut
  rw [hroving]
  split_ifs at hwait ⊢
  · rw [hroving]
    exact ⟨h.1, hwait⟩
  · exact ⟨{ h.1 with }, hwait⟩

theorem RovingFits.trainNext (h : RovingFits s) : RovingFits (trainNext s) := by
  obtain ⟨hr, hl⟩ := id h
  unfold Machine.trainNext
  split
  · exact h
  · exact h
  · next hrun =>
    split
    · exact h
    · next hslot =>
      dsimp only
      split
      · next hu => exact ⟨hr.handedOut hrun _ _ _ _, hl.handOutUrgent hslot hu _ _⟩
      · next hu hlow =>
        exact ⟨hr.handedOut hrun _ _ _ _, (hl.handOutLow hslot hlow none none).congr hu.symm rfl rfl⟩
      · have htimer : s.roving.timer = none := by
          have := hr.timed
          simpa [hslot] using this
        exact ⟨.ended hr.toCounted hslot htimer _, hl.ofRun _ _⟩

/-- The slot spindle is put back into its segment, and the slot is empty (R128). -/
theorem returnToRovingList_lists (h : s.roving.Lists s.spState) {x : SpRef} (hx : s.roving.slot = some x)
    (atHead : Bool) :
    (returnToRovingList atHead x (emptySlot s)).roving.Lists s.spState := by
  have hstate : (emptySlot s).spindle x.side x.pos = s.spindle x.side x.pos := rfl
  unfold returnToRovingList
  rw [hstate]
  split
  · next hsp => exact h.emptySlot hx (fun _ _ => rfl) (by simp [State.spState, hsp]) none
  · next sp hsp =>
    have hst := State.spState_of_some hsp
    obtain ⟨hwait, hlow⟩ := h.putBack hx atHead none
    split
    · next hp => exact h.emptySlot hx (fun _ _ => rfl) (by simp [hst, hp]) none
    · next hp => exact hwait (by simp [hst, hp])
    all_goals next hp => exact hlow (by simp [hst, hp]) (by simp [hst, hp])

theorem returnToRovingList_run (atHead : Bool) (x : SpRef) (s : State) :
    ∃ urgent low, (returnToRovingList atHead x (emptySlot s)).roving =
      { s.roving with slot := none, timer := none, urgent := urgent, low := low } := by
  unfold returnToRovingList
  split
  · exact ⟨_, _, rfl⟩
  · split <;> exact ⟨_, _, rfl⟩

theorem returnToRovingList_spState (atHead : Bool) (x : SpRef) (s : State) :
    (returnToRovingList atHead x (emptySlot s)).spState = s.spState :=
  ((emptySlot_frame s).next (returnToRovingList_frame _ atHead x)).spState

theorem RovingFits.takeBack (h : RovingFits s) {x : SpRef} (hx : s.roving.slot = some x) (b : Bool) :
    RovingFits (Machine.endingTest (returnToRovingList b x (emptySlot s))) := by
  have hl := returnToRovingList_lists h.2 hx b
  obtain ⟨urgent, low, heq⟩ := returnToRovingList_run b x s
  rw [← returnToRovingList_spState b x s] at hl
  obtain ⟨h1, h2, h3⟩ := h.1.toCounted
  exact .endingTest (heq ▸ ⟨h1, h2, h3⟩) (by rw [heq]) (by rw [heq]) hl

theorem RovingFits.slotTimeout (h : RovingFits s) : RovingFits (slotTimeout s) := by
  unfold Machine.slotTimeout
  split
  · next x _ hx _ =>
    have hl := returnToRovingList_lists h.2 hx true
    obtain ⟨urgent, low, heq⟩ := returnToRovingList_run true x s
    rw [← returnToRovingList_spState true x s] at hl
    obtain ⟨h1, h2, h3⟩ := h.1.toCounted
    have hc : (returnToRovingList true x (emptySlot s)).roving.Counted := heq ▸ ⟨h1, h2, h3⟩
    dsimp only
    split
    · exact ⟨.ended hc (by rw [heq]) (by rw [heq]) _, hl.ofRun _ _⟩
    · next hn =>
      rw [not_or] at hn
      refine ⟨{ hc with timed := by rw [heq]; simp, slotRun := by rw [heq]; simp, endingSlot := fun he => absurd he hn.1,
                        toCome := fun _ _ => hn.2 }, hl⟩
  · exact h

theorem replaceBobbin_roving (x : SpRef) (s : State) : (replaceBobbin x s).roving = s.roving :=
  replaceBobbin_frame s x .roving (by decide)

/-- After a replacement the spindle waits no more, and the others stand as they did. -/
theorem replaceBobbin_sees (x : SpRef) (s : State) :
    (∀ y, y ≠ x → (replaceBobbin x s).spState y = s.spState y) ∧ (replaceBobbin x s).spState x ≠ some .waitRoving ∧
      ((s.spState x).isSome → ((replaceBobbin x s).spState x).isSome) := by
  rw [replaceBobbin_spState]
  split
  · refine ⟨fun y hy => Function.update_of_ne hy _ _, ?_, fun _ => ?_⟩ <;> simp
  · next hn =>
    rw [not_or] at hn
    exact ⟨fun _ _ => rfl, hn.2, id⟩

theorem RovingFits.replaceSlot (h : RovingFits s) {x : SpRef} (hx : s.roving.slot = some x) :
    RovingFits (Machine.endingTest (replaceBobbin x (emptySlot s))) := by
  have hroving := replaceBobbin_roving x (emptySlot s)
  obtain ⟨hoff, hnot, -⟩ := replaceBobbin_sees x (emptySlot s)
  obtain ⟨h1, h2, h3⟩ := h.1.toCounted
  refine .endingTest (hroving ▸ ⟨h1, h2, h3⟩) (by rw [hroving]; rfl) (by rw [hroving]; rfl) ?_
  rw [hroving]
  exact h.2.emptySlot hx hoff hnot none

theorem RovingFits.replaceListed (h : RovingFits s) {x : SpRef} (hn : s.roving.slot ≠ some x) :
    RovingFits (replaceBobbin x (unlist x s)) := by
  obtain ⟨hoff, hnot, hsome⟩ := replaceBobbin_sees x (unlist x s)
  unfold RovingFits
  rw [replaceBobbin_roving]
  refine ⟨{ h.1 with }, h.2.filter _ (fun y hy => ⟨hy, ?_⟩) (fun y hy _ => ?_) fun y hy => ?_⟩
  · rw [hoff y fun e => hn (e ▸ hy)]
    exact h.2.slotFitted y hy
  · exact hoff y (by simpa using hy)
  · have hyx : y ≠ x := fun e => hnot (e ▸ hy)
    rw [hoff y hyx] at hy
    exact ⟨hy, by simpa using hyx, id⟩

theorem parkSpindle_spState (side : Side) (pos : Nat) (s : State) :
    (parkSpindle side pos s).spState = if (s.spState ⟨side, pos⟩).isSome then
      Function.update s.spState ⟨side, pos⟩ (some .parked) else s.spState := by
  have hstate : (unlist ⟨side, pos⟩ (withdrawForPark side pos (closeInterval side pos (creditPossible side s)))).spState =
      s.spState := by
    rw [(unlist_frame _ _).spState, (withdrawForPark_frame _ _ _).spState, closeInterval_spState,
      (creditPossible_frame _ _).spState]
  unfold parkSpindle
  dsimp only
  rw [← hstate]
  split
  · next sp hsp =>
    rw [writeSpindle_spState (x := ⟨side, pos⟩) _ hsp, if_pos (by rw [State.spState_of_some hsp]; rfl)]
    rfl
  · next hsp => rw [if_neg (by simp [State.spState, hsp])]

theorem parkSpindle_roving (side : Side) (pos : Nat) (s : State) :
    (parkSpindle side pos s).roving = { s.roving with
      urgent := s.roving.urgent.filter (· != ⟨side, pos⟩), low := s.roving.low.filter (· != ⟨side, pos⟩) } := by
  have hf : OnlyChanges [.shift, .spindles, .breakList, .bus, .carriages] s
      (withdrawForPark side pos (closeInterval side pos (creditPossible side s))) :=
    ((creditPossible_frame side s).wide.next (closeInterval_frame side pos _)).next (withdrawForPark_frame side pos _)
  have hroving : (withdrawForPark side pos (closeInterval side pos (creditPossible side s))).roving = s.roving :=
    hf .roving (by decide)
  have h : (unlist ⟨side, pos⟩ (withdrawForPark side pos (closeInterval side pos (creditPossible side s)))).roving =
      { s.roving with
        urgent := s.roving.urgent.filter (· != ⟨side, pos⟩), low := s.roving.low.filter (· != ⟨side, pos⟩) } := by
    rw [← hroving]
    rfl
  unfold parkSpindle
  dsimp only
  split
  · exact (writeSpindle_frame side pos _ _ .roving (by decide)).trans h
  · exact h

theorem RovingFits.park (h : RovingFits s) (side : Side) (pos : Nat) : RovingFits (parkSpindle side pos s) := by
  have off (y : SpRef) (hy : y ≠ ⟨side, pos⟩) : (parkSpindle side pos s).spState y = s.spState y := by
    rw [parkSpindle_spState]
    split
    · exact Function.update_of_ne hy _ _
    · rfl
  have hnot : (parkSpindle side pos s).spState ⟨side, pos⟩ ≠ some .waitRoving := by
    rw [parkSpindle_spState]
    split
    · simp
    · next hn =>
      intro e
      simp [e] at hn
  have hsome (y : SpRef) (hy : (s.spState y).isSome) : ((parkSpindle side pos s).spState y).isSome := by
    by_cases hyx : y = ⟨side, pos⟩
    · subst hyx
      rw [parkSpindle_spState, if_pos hy, Function.update_self]
      rfl
    · rwa [off y hyx]
  unfold RovingFits
  rw [parkSpindle_roving]
  refine ⟨{ h.1 with }, h.2.filter _ (fun y hy => ⟨hy, hsome y (h.2.slotFitted y hy)⟩) (fun y hy _ => off y (by simpa using hy))
    fun y hy => ?_⟩
  have hyx : y ≠ ⟨side, pos⟩ := fun e => hnot (e ▸ hy)
  rw [off y hyx] at hy
  exact ⟨hy, by simpa using hyx, id⟩

end

/-! ## The change of a section count -/

/-- Whether a spindle stays where a side is cut to `keep` positions. -/
def staysWithin (side : Side) (keep : Nat) (x : SpRef) : Bool := !(x.side == side && decide (keep < x.pos))

theorem staysWithin_iff {side : Side} {keep : Nat} {x : SpRef} :
    staysWithin side keep x = true ↔ x.side = side → x.pos ≤ keep := by
  simp [staysWithin, imp_iff_not_or]

/-- The states after a change of a section count: those within it stay, the others go, and new spindles run (R22, R47). -/
theorem changeSections_spState (side : Side) (n : Nat) (s : State) (x : SpRef) :
    (changeSections side n s).spState x =
      if staysWithin side (48 * n) x = true ∧ (s.spState x).isSome then s.spState x
      else if x.side = side ∧ 1 ≤ x.pos ∧ x.pos ≤ 48 * n then some .running else none := by
  obtain ⟨sd, pos⟩ := x
  unfold State.spState State.spindle
  rw [changeSections_spindles]
  simp only [staysWithin_iff]
  by_cases h0 : pos = 0
  · simp [h0]
  by_cases hsd : sd = side
  · subst hsd
    simp only [Sides.get_set_same, h0, if_false, true_implies, true_and, Option.isSome_map, isSome_getElem?]
    by_cases hkeep : pos ≤ 48 * n
    · by_cases hold : pos - 1 < (s.spindles.get sd).length
      · have h1 : pos - 1 < ((s.spindles.get sd).take (48 * n)).length := by simp; omega
        rw [List.getElem?_append_left h1, List.getElem?_take_of_lt (by omega), if_pos ⟨hkeep, hold⟩]
      · have h1 : ((s.spindles.get sd).take (48 * n)).length ≤ pos - 1 := by simp; omega
        rw [List.getElem?_append_right h1, if_neg (by omega), if_pos (by omega), List.getElem?_replicate,
          if_pos (by simp; omega)]
        rfl
    · rw [if_neg (by omega), if_neg (by omega), List.getElem?_eq_none]
      · rfl
      · rw [length_take_append_replicate]
        omega
  · simp only [Sides.get_set_other _ _ _ _ hsd, h0, if_false, hsd, false_implies, true_and, false_and,
      Option.isSome_map, isSome_getElem?]
    split
    · rfl
    · next h => rw [List.getElem?_eq_none (by omega)]; rfl

/-- The roving unit after a change of a section count: the lists are cut, and a removed spindle leaves the slot, with
the ending test (R143). -/
theorem changeSections_roving (side : Side) (n : Nat) (s : State) :
    ∃ u : State, u.roving = { s.roving with
        urgent := s.roving.urgent.filter (staysWithin side (48 * n))
        low := s.roving.low.filter (staysWithin side (48 * n)) } ∧
      (changeSections side n s).roving = (releaseSlot side (48 * n) u).roving := by
  refine ⟨releaseRemoved side (48 * n) (creditPossible side s), rfl, ?_⟩
  unfold changeSections
  dsimp only
  rw [recallCarriage_frame side _ (48 * n) .roving (by decide)]
  rfl

theorem RovingFits.changeSections {s : State} (h : RovingFits s) (side : Side) (n : Nat) :
    RovingFits (changeSections side n s) := by
  obtain ⟨hr, hl⟩ := id h
  have hstate := changeSections_spState side n s
  have keep (x : SpRef) (hx : staysWithin side (48 * n) x = true) (hf : (s.spState x).isSome) :
      (Machine.changeSections side n s).spState x = s.spState x := by rw [hstate, if_pos ⟨hx, hf⟩]
  have waits (x : SpRef) (hx : (Machine.changeSections side n s).spState x = some .waitRoving) :
      s.spState x = some .waitRoving ∧ staysWithin side (48 * n) x = true := by
    rw [hstate] at hx
    split at hx
    · next hst => exact ⟨hx, hst.1⟩
    · split at hx <;> cases hx
  obtain ⟨u, hu, heq⟩ := changeSections_roving side n s
  have hslot : u.roving.slot = s.roving.slot := by rw [hu]
  unfold RovingFits
  rw [heq]
  unfold releaseSlot
  split
  · next x hx =>
    rw [hslot] at hx
    split
    · next hgone =>
      have hout : staysWithin side (48 * n) x ≠ true := by
        rw [ne_eq, staysWithin_iff]
        exact fun hst => absurd (hst hgone.1) (by omega)
      obtain ⟨h1, h2, h3⟩ := hr.toCounted
      have hc : (Machine.emptySlot u).roving.Counted := by
        refine ⟨?_, ?_, ?_⟩ <;> simp only [Machine.emptySlot, State.setRoving_roving, hu] <;> assumption
      refine ⟨endingTest_runs hc rfl rfl, ?_⟩
      obtain ⟨run, reason, hend⟩ := endingTest_roving (Machine.emptySlot u)
      rw [hend]
      refine Roving.Lists.congr (hl.filter (staysWithin side (48 * n)) (slot := none) (by simp) keep fun y hy => ?_)
        (by simp [Machine.emptySlot, hu]) (by simp [Machine.emptySlot, hu]) (by simp [Machine.emptySlot])
      obtain ⟨hf, hst⟩ := waits y hy
      exact ⟨hf, hst, fun hs => absurd (Option.some.inj (hs.symm.trans hx) ▸ hst) hout⟩
    · next hstays =>
      have hst : staysWithin side (48 * n) x = true := staysWithin_iff.2 fun e => by
        rw [not_and] at hstays
        exact Nat.not_lt.1 (hstays e)
      rw [hu]
      refine ⟨{ hr with }, hl.filter _ (fun y hy => ⟨hy, ?_⟩) keep fun y hy => ⟨(waits y hy).1, (waits y hy).2, id⟩⟩
      obtain rfl : x = y := Option.some.inj (hx.symm.trans hy)
      rw [keep x hst (hl.slotFitted x hx)]
      exact hl.slotFitted x hx
  · next hx =>
    rw [hslot] at hx
    rw [hu]
    exact ⟨{ hr with }, hl.filter _ (fun y hy => by simp [hx] at hy) keep
      fun y hy => ⟨(waits y hy).1, (waits y hy).2, id⟩⟩

/-! ## Every operation, load end and the soft reset -/

theorem Op.rovingFits {ps : List Part} {s t : State} (h : Op ps s t) (hs : RovingFits s) : RovingFits t := by
  by_cases hp : Part.roving ∈ ps
  case neg => exact hs.of_sees (h.frame .roving hp) (h.quiet hp).sees
  obtain ⟨hr, hl⟩ := id hs
  have hf := h.frame
  have stopped (hrun : s.roving.run = .idle) : s.roving.slot = none := by
    by_contra hslot
    exact hr.slotRun (Option.isSome_iff_ne_none.2 hslot) hrun
  have untimed (hslot : s.roving.slot = none) : s.roving.timer = none := by
    have := hr.timed
    simpa [hslot] using this
  cases h with
  | sections side n => exact hs.changeSections side n
  | park side pos => exact hs.park side pos
  | runStart n _ hn hrun =>
    have hslot := stopped hrun
    exact ⟨⟨⟨by simp, by simp, by simp; omega⟩, hr.timed, by simp, by simp, by simp; omega⟩, hl.congr rfl rfl rfl⟩
  | runEnding _ hrun hslot =>
    refine ⟨⟨⟨fun _ => hr.runBase (by simp [hrun]), hr.current, hr.bounds⟩, hr.timed, by simp, fun _ => hslot, by simp⟩,
      hl.congr rfl rfl rfl⟩
  | runAborted _ _ hslot => exact ⟨.ended hr.toCounted hslot (untimed hslot) _, hl.ofRun _ _⟩
  | runOut side pos sp _ hc => exact hs.runOut hc
  | trainNext => exact hs.trainNext
  | takeBack b x _ hx => exact hs.takeBack hx b
  | slotTimeout => exact hs.slotTimeout
  | replaceSlot x _ hx => exact hs.replaceSlot hx
  | replaceListed x _ hn => exact hs.replaceListed hn
  | audit => exact hs.audit
  | _ => exact absurd hp (by decide)

/-- The WAIT_ROVING spindles of a side from a position on, each once. -/
theorem mem_waitingFrom {side : Side} {pos : Nat} {l : List Spindle} {x : SpRef} :
    x ∈ waitingFrom side pos l ↔
      x.side = side ∧ pos ≤ x.pos ∧ ∃ sp, l[x.pos - pos]? = some sp ∧ sp.state = .waitRoving := by
  induction l generalizing pos with
  | nil => simp [waitingFrom]
  | cons sp rest ih =>
    have later : x ∈ waitingFrom side (pos + 1) rest ↔ x.side = side ∧ pos + 1 ≤ x.pos ∧
        ∃ sp', (sp :: rest)[x.pos - pos]? = some sp' ∧ sp'.state = .waitRoving := by
      rw [ih]
      refine and_congr_right fun _ => and_congr_right fun hlt => ?_
      rw [show x.pos - pos = (x.pos - (pos + 1)) + 1 by omega, List.getElem?_cons_succ]
    have here (hx : x.side = side) (hp : x.pos = pos) : x = ⟨side, pos⟩ := by cases x; simp_all
    unfold waitingFrom
    split
    · next hst =>
      rw [List.mem_cons, later]
      constructor
      · rintro (rfl | ⟨h1, h2, h3⟩)
        · exact ⟨rfl, Nat.le_refl _, sp, by simp, hst⟩
        · exact ⟨h1, by omega, h3⟩
      · rintro ⟨h1, h2, h3⟩
        by_cases hp : x.pos = pos
        · exact .inl (here h1 hp)
        · exact .inr ⟨h1, by omega, h3⟩
    · next hst =>
      rw [later]
      constructor
      · rintro ⟨h1, h2, h3⟩
        exact ⟨h1, by omega, h3⟩
      · rintro ⟨h1, h2, sp', h3, h4⟩
        refine ⟨h1, ?_, sp', h3, h4⟩
        by_contra hlt
        have hp : x.pos = pos := by omega
        rw [hp, Nat.sub_self, List.getElem?_cons_zero, Option.some.injEq] at h3
        exact hst (h3 ▸ h4)

theorem waitingFrom_nodup (side : Side) (pos : Nat) (l : List Spindle) : (waitingFrom side pos l).Nodup := by
  induction l generalizing pos with
  | nil => exact List.nodup_nil
  | cons sp rest ih =>
    unfold waitingFrom
    split
    · refine List.nodup_cons.2 ⟨fun hm => ?_, ih _⟩
      have := (mem_waitingFrom.1 hm).2.1
      simp at this
    · exact ih _

/-- The list that the soft reset forms: the spindles that wait (R144). -/
theorem mem_waiting (s : State) (x : SpRef) :
    x ∈ waitingFrom .a 1 s.spindles.a ++ waitingFrom .b 1 s.spindles.b ↔ s.spState x = some .waitRoving := by
  have one (side : Side) : x ∈ waitingFrom side 1 (s.spindles.get side) ↔
      x.side = side ∧ s.spState x = some .waitRoving := by
    rw [mem_waitingFrom, State.spState_eq_some]
    refine and_congr_right fun hside => ?_
    subst hside
    unfold State.spindle
    by_cases h0 : x.pos = 0
    · simp [h0]
    · rw [if_neg h0]
      exact and_iff_right (by omega)
  rw [List.mem_append, show s.spindles.a = s.spindles.get .a from rfl, show s.spindles.b = s.spindles.get .b from rfl,
    one .a, one .b, ← or_and_right]
  exact and_iff_right (by cases x.side <;> simp)

theorem waiting_nodup (s : State) :
    (waitingFrom .a 1 s.spindles.a ++ waitingFrom .b 1 s.spindles.b).Nodup := by
  refine List.nodup_append'.2 ⟨waitingFrom_nodup _ _ _, waitingFrom_nodup _ _ _, fun x ha hb => ?_⟩
  have h1 := (mem_waitingFrom.1 ha).1
  rw [(mem_waitingFrom.1 hb).1] at h1
  cases h1

/-- The roving unit's part of the soft reset forms the list anew and ends the run (R144). -/
theorem softResetRoving_fits {s : State} (hr : s.roving.Runs) : RovingFits (softResetRoving s) := by
  have formed (q : Roving) (hu : q.urgent = waitingFrom .a 1 s.spindles.a ++ waitingFrom .b 1 s.spindles.b)
      (hl : q.low = []) (hs : q.slot = none) : q.Lists s.spState :=
    ⟨hu ▸ waiting_nodup s, by simp [hl], by simp [hs], fun x hx => (mem_waiting s x).1 (hu ▸ hx), by simp [hl],
      by simp [hs], fun x hx => .inl (hu ▸ (mem_waiting s x).2 hx)⟩
  unfold RovingFits
  rw [(softResetRoving_frame s).spState]
  unfold softResetRoving
  dsimp only
  split
  · refine ⟨?_, formed _ rfl rfl rfl⟩
    rw [endRun_roving]
    refine Roving.Runs.ended ?_ rfl rfl _
    exact ⟨hr.runBase, hr.current, hr.bounds⟩
  · next hrun =>
    have hslot : s.roving.slot = none := by
      by_contra hslot
      exact hr.slotRun (Option.isSome_iff_ne_none.2 hslot) (not_not.1 hrun)
    exact ⟨{ hr with }, formed _ rfl rfl hslot⟩

theorem softReset_rovingFits {s : State} (hs : RovingFits s) : RovingFits (softReset s) := by
  have hframe := ((((((softResetCarriage_frame .a s).wide
    (rs := [.carriages, .bus, .spindles, .breakList, .breakSeq, .doff, .line, .articles])).next
    (softResetCarriage_frame .b _)).next (softResetSpindles_frame .a _)).next (softResetSpindles_frame .b _)).next
    (softResetDoff_frame _))
  unfold softReset
  dsimp only
  generalize softResetDoff _ = u at hframe ⊢
  have hroving : u.roving = s.roving := hframe .roving (by decide)
  have h := softResetRoving_fits (s := u.setArticles { u.articles with request := false }) (hroving ▸ hs.1)
  generalize softResetRoving _ = v at h ⊢
  have hrest := ((softResetTrain_frame v).wide (rs := [.bus, .speed, .line])).next (softResetSpeed_frame _)
  generalize softResetSpeed _ = w at hrest ⊢
  have hdone : OnlyChanges [.bus, .speed, .line] v (w.setLine { w.line with resetDue := false }) :=
    hrest.next (setLine_frame _ _)
  exact h.of_sees (hdone .roving (by decide)) (by rw [hdone.spState]; exact fun x => ⟨Iff.rfl, id, id⟩)

theorem formedState_rovingFits (s : State) : RovingFits (formedState s) := by
  have none (x : SpRef) : (formedState s).spState x ≠ some .waitRoving := by
    intro hx
    obtain ⟨sp, hsp, hst⟩ := State.spState_eq_some.1 hx
    rw [formedState_mem (State.mem_of_spindle hsp)] at hst
    cases hst
  refine ⟨⟨⟨?_, ?_, ?_⟩, ?_, ?_, ?_, ?_⟩, ⟨?_, ?_, ?_, ?_, ?_, ?_, fun x hx => absurd hx (none x)⟩⟩ <;>
    simp [formedState, State.reset]

/-- Settles O11: each operation of the roving unit keeps its lists, and the others neither begin nor end a wait. -/
theorem rovingLawsAreKept : Obligations.RovingLawsAreKept := by
  unfold Obligations.RovingLawsAreKept
  intro s t hrun hlist hstep
  have free : LineFree RovingFits := ⟨fun _ _ h => h, fun _ _ h => h, fun _ _ h => h, fun _ _ h => h⟩
  refine (rovingLaws_iff t).2 (free.step (fun _ _ => ?_) (fun s _ => formedState_rovingFits s) (fun _ _ h => h)
    Op.rovingFits (fun _ h => softReset_rovingFits h) hstep ((rovingLaws_iff s).1 ⟨hrun, hlist⟩))
  refine (rovingLaws_iff _).1 ⟨?_, ?_⟩
  · simp [RunLaw, State.reset]
  · refine ⟨List.nodup_nil, by simp [State.reset], by simp [State.reset], by simp [State.reset], ?_⟩
    exact ⟨fun pos hpos => absurd hpos List.not_mem_nil, fun pos hpos => absurd hpos List.not_mem_nil⟩

end Sys2Proof.Machine
end

