-- ==== Sys2Proof/Proofs/BreakLists.lean ====
section
/-!
PROOFS. The break lists in step with the BROKEN spindles and their sequences (O9). A list sees of a side the state and the
break sequence at each position, so each operation is read as a change of that view.
-/
namespace Sys2Proof.Machine

-- One after another: each theorem as a task of its own takes a thread.
set_option Elab.async false

/-! ## What a break list sees -/

/-- The state and the break sequence at each position of a side. -/
abbrev QueueView := Nat → Option (SpState × Option Nat)

/-- What a record shows its break list. -/
def Spindle.shown (sp : Spindle) : SpState × Option Nat := (sp.state, sp.seq)

def State.queueView (s : State) (side : Side) : QueueView := fun pos => (s.spindle side pos).map (·.shown)

/-- The break sequence at a position, 0 where it has none. -/
def QueueView.key (v : QueueView) (pos : Nat) : Nat := ((v pos).bind (·.2)).getD 0

/-- A break list with its side's counter (R49, R50): each BROKEN spindle once, in ascending sequence, the sequences
unique and up to the counter. -/
structure Queue (v : QueueView) (list : List Nat) (top : Nat) : Prop where
  ascending : list.Pairwise fun p q => v.key p < v.key q
  broken : ∀ pos, pos ∈ list ↔ ∃ q, v pos = some (.broken, q)
  numbered : ∀ pos st q, v pos = some (st, q) → (q.isSome ↔ st = .broken ∨ st = .piecing)
  unique : ∀ p p' st st' q, v p = some (st, some q) → v p' = some (st', some q) → p = p'
  bounds : ∀ pos st q, v pos = some (st, some q) → 1 ≤ q ∧ q ≤ top
  limit : top ≤ 4294967295

/-- The break list of a side. -/
def State.Queued (s : State) (side : Side) : Prop :=
  Queue (s.queueView side) (s.breakList.get side) (s.breakSeq.get side)

theorem State.queueView_of_some {s : State} {side : Side} {pos : Nat} {sp : Spindle} (h : s.spindle side pos = some sp) :
    s.queueView side pos = some sp.shown := by simp [State.queueView, h]

theorem State.queueView_eq_some {s : State} {side : Side} {pos : Nat} {x : SpState × Option Nat} :
    s.queueView side pos = some x ↔ ∃ sp, s.spindle side pos = some sp ∧ sp.shown = x := Option.map_eq_some_iff

theorem seqAt_eq_key (s : State) (side : Side) {pos : Nat} (h : 1 ≤ pos) :
    seqAt (s.spindles.get side) pos = (s.queueView side).key pos := by
  unfold seqAt QueueView.key State.queueView State.spindle
  rw [if_neg (by omega)]
  cases (s.spindles.get side)[pos - 1]? <;> rfl

/-- The sequences of a table are those of its positions. -/
theorem mem_seqs_iff {s : State} {side : Side} {q : Nat} :
    q ∈ (s.spindles.get side).filterMap (·.seq) ↔ ∃ pos st, s.queueView side pos = some (st, some q) := by
  rw [List.mem_filterMap]
  constructor
  · rintro ⟨sp, hsp, hq⟩
    obtain ⟨pos, -, hpos⟩ := State.exists_spindle_of_mem hsp
    exact ⟨pos, sp.state, by rw [State.queueView_of_some hpos, ← hq]; rfl⟩
  · rintro ⟨pos, st, h⟩
    obtain ⟨sp, hsp, hshown⟩ := State.queueView_eq_some.1 h
    exact ⟨sp, State.mem_of_spindle hsp, congrArg Prod.snd hshown⟩

theorem nodup_seqs_iff {s : State} {side : Side} :
    ((s.spindles.get side).filterMap (·.seq)).Nodup ↔
      ∀ p p' st st' q, s.queueView side p = some (st, some q) → s.queueView side p' = some (st', some q) → p = p' := by
  rw [List.Nodup, List.pairwise_filterMap, List.pairwise_iff_getElem]
  constructor
  · intro h p p' st st' q hp hp'
    obtain ⟨sp, hsp, hshown⟩ := State.queueView_eq_some.1 hp
    obtain ⟨sp', hsp', hshown'⟩ := State.queueView_eq_some.1 hp'
    have hseq : sp.seq = some q := congrArg Prod.snd hshown
    have hseq' : sp'.seq = some q := congrArg Prod.snd hshown'
    unfold State.spindle at hsp hsp'
    split at hsp
    · cases hsp
    split at hsp'
    · cases hsp'
    obtain ⟨hlt, rfl⟩ := List.getElem?_eq_some_iff.1 hsp
    obtain ⟨hlt', rfl⟩ := List.getElem?_eq_some_iff.1 hsp'
    rcases Nat.lt_trichotomy (p - 1) (p' - 1) with hc | hc | hc
    · exact absurd rfl (h _ _ hlt hlt' hc q hseq q hseq')
    · omega
    · exact absurd rfl (h _ _ hlt' hlt hc q hseq' q hseq)
  · intro h i j hi hj hij q hq q' hq' e
    have at' (i : Nat) (hi : i < (s.spindles.get side).length) :
        s.queueView side (i + 1) = some ((s.spindles.get side)[i].shown) :=
      State.queueView_of_some (by simp [State.spindle, hi])
    have hone := h (i + 1) (j + 1) (s.spindles.get side)[i].state (s.spindles.get side)[j].state q
      (by rw [at' i hi, ← hq]; rfl) (by rw [at' j hj, e, ← hq']; rfl)
    omega

theorem breakLaw_iff (s : State) : BreakLaw s ↔ ∀ side, s.Queued side := by
  have one (side : Side) :
      ((s.breakList.get side).Pairwise
        (fun p q => seqAt (s.spindles.get side) p < seqAt (s.spindles.get side) q) ∧
      (∀ pos ∈ s.breakList.get side, ∃ sp ∈ s.spindle side pos, sp.state = .broken) ∧
      (∀ pos ∈ List.range' 1 (s.spindles.get side).length, ∀ sp ∈ s.spindle side pos,
        (sp.state = .broken → pos ∈ s.breakList.get side) ∧
        (sp.seq.isSome ↔ sp.state = .broken ∨ sp.state = .piecing)) ∧
      ((s.spindles.get side).filterMap (·.seq)).Nodup ∧
      (∀ q ∈ (s.spindles.get side).filterMap (·.seq), 1 ≤ q ∧ q ≤ s.breakSeq.get side) ∧
      s.breakSeq.get side ≤ 4294967295) ↔ s.Queued side := by
    rw [nodup_seqs_iff]
    have inRange {pos : Nat} {sp : Spindle} (h : s.spindle side pos = some sp) :
        pos ∈ List.range' 1 (s.spindles.get side).length := by
      have := State.spindle_isSome_iff.1 (by rw [h]; rfl : (s.spindle side pos).isSome = true)
      exact List.mem_range'_1.2 (by omega)
    have ascends (hpos : ∀ pos ∈ s.breakList.get side, 1 ≤ pos) :
        (s.breakList.get side).Pairwise (fun p q => seqAt (s.spindles.get side) p < seqAt (s.spindles.get side) q) ↔
        (s.breakList.get side).Pairwise fun p q => (s.queueView side).key p < (s.queueView side).key q := by
      refine List.Pairwise.iff_of_mem fun hp hq => ?_
      rw [seqAt_eq_key s side (hpos _ hp), seqAt_eq_key s side (hpos _ hq)]
    constructor
    · rintro ⟨h1, h2, h3, h4, h5, h6⟩
      refine ⟨(ascends fun pos hp => ?_).1 h1, fun pos => ⟨fun hp => ?_, ?_⟩, fun pos st q h => ?_, h4,
        fun pos st q h => h5 q (mem_seqs_iff.2 ⟨pos, st, h⟩), h6⟩
      · obtain ⟨sp, hsp, -⟩ := h2 pos hp
        exact (State.spindle_isSome_iff.1 (by rw [show s.spindle side pos = some sp from hsp]; rfl)).1
      · obtain ⟨sp, hsp, hst⟩ := h2 pos hp
        exact ⟨sp.seq, by rw [State.queueView_of_some hsp, ← hst]; rfl⟩
      · rintro ⟨q, hq⟩
        obtain ⟨sp, hsp, hshown⟩ := State.queueView_eq_some.1 hq
        exact (h3 pos (inRange hsp) sp hsp).1 (congrArg Prod.fst hshown)
      · obtain ⟨sp, hsp, rfl, rfl⟩ := State.queueView_eq_some.1 h
        exact (h3 pos (inRange hsp) sp hsp).2
    · rintro ⟨h1, h2, h3, h4, h5, h6⟩
      have hbroken (pos : Nat) (hp : pos ∈ s.breakList.get side) :
          ∃ sp, s.spindle side pos = some sp ∧ sp.state = .broken := by
        obtain ⟨q, hq⟩ := (h2 pos).1 hp
        obtain ⟨sp, hsp, hshown⟩ := State.queueView_eq_some.1 hq
        exact ⟨sp, hsp, congrArg Prod.fst hshown⟩
      refine ⟨(ascends fun pos hp => ?_).2 h1, hbroken, fun pos _ sp hsp => ⟨fun hst => ?_, ?_⟩, h4, fun q hq => ?_, h6⟩
      · obtain ⟨sp, hsp, -⟩ := hbroken pos hp
        exact (State.spindle_isSome_iff.1 (by rw [hsp]; rfl)).1
      · exact (h2 pos).2 ⟨sp.seq, by rw [State.queueView_of_some hsp, ← hst]; rfl⟩
      · exact h3 pos sp.state sp.seq (State.queueView_of_some hsp)
      · obtain ⟨pos, st, h⟩ := mem_seqs_iff.1 hq
        exact h5 pos st q h
  exact (and_congr (one .a) (one .b)).trans ⟨fun ⟨ha, hb⟩ side => by cases side; exacts [ha, hb], fun h => ⟨h .a, h .b⟩⟩

/-! ## A queue under changes -/

section
variable {v : QueueView} {l : List Nat} {n : Nat}

/-- The key of a list entry's neighbours does not move with another position. -/
theorem QueueView.key_update_of_ne {pos p : Nat} (x : SpState × Option Nat) (h : p ≠ pos) :
    QueueView.key (Function.update v pos (some x)) p = v.key p := by
  unfold QueueView.key
  rw [Function.update_of_ne h]

theorem insertByKey_congr {key key' : Nat → Nat} {pos : Nat} {l : List Nat} (hp : key pos = key' pos)
    (hl : ∀ q ∈ l, key q = key' q) : insertByKey key pos l = insertByKey key' pos l := by
  induction l with
  | nil => rfl
  | cons q qs ih =>
    unfold insertByKey
    rw [hp, hl q List.mem_cons_self, ih fun x hx => hl x (List.mem_cons_of_mem q hx)]

/-- The break list after one record has changed (R49, R52 to R54). -/
def QueueView.synced (v : QueueView) (pos : Nat) (old new : SpState) (l : List Nat) : List Nat :=
  if old = new then l
  else if new = .broken then insertByKey v.key pos l
  else if old = .broken then l.filter (· != pos)
  else l

/-- One record changed, with its list: a sequence that it takes is its own and within the counter, and a BROKEN spindle
that stays BROKEN keeps its sequence. -/
theorem Queue.write (h : Queue v l n) {pos : Nat} {old new : SpState} {oldSeq seq : Option Nat}
    (hold : v pos = some (old, oldSeq)) (hnum : seq.isSome ↔ new = .broken ∨ new = .piecing)
    (hseq : ∀ q, seq = some q → (1 ≤ q ∧ q ≤ n) ∧ ∀ p st, p ≠ pos → v p ≠ some (st, some q))
    (hstays : old = .broken → new = .broken → seq = oldSeq) :
    Queue (Function.update v pos (some (new, seq)))
      (QueueView.synced (Function.update v pos (some (new, seq))) pos old new l) n := by
  have hmem : pos ∈ l ↔ old = .broken := by
    rw [h.broken pos, hold]
    simp
  have off {p : Nat} (hp : p ≠ pos) : Function.update v pos (some (new, seq)) p = v p := Function.update_of_ne hp _ _
  refine ⟨?_, fun p => ?_, fun p st q hp => ?_, fun p p' st st' q hp hp' => ?_, fun p st q hp => ?_, h.limit⟩
  · have same (hne : pos ∉ l) : l.Pairwise fun p q =>
        QueueView.key (Function.update v pos (some (new, seq))) p <
          QueueView.key (Function.update v pos (some (new, seq))) q := by
      refine h.ascending.imp_of_mem fun {p q} hp hq hlt => ?_
      have hp' : p ≠ pos := fun e => hne (e ▸ hp)
      have hq' : q ≠ pos := fun e => hne (e ▸ hq)
      rwa [QueueView.key_update_of_ne _ hp', QueueView.key_update_of_ne _ hq']
    unfold QueueView.synced
    split
    · next heq =>
      by_cases hb : old = .broken
      · have hv : Function.update v pos (some (new, seq)) = v := by
          rw [hstays hb (heq ▸ hb), ← heq]
          exact Function.update_eq_self_iff.2 hold.symm
        rw [hv]
        exact h.ascending
      · exact same (mt hmem.1 hb)
    split
    · next hne hb =>
      have hout : pos ∉ l := fun hp => hne ((hmem.1 hp).trans hb.symm)
      refine insertByKey_sorted _ _ _ (same hout) fun p hp => ?_
      have hpp : p ≠ pos := fun e => hout (e ▸ hp)
      obtain ⟨q, hq⟩ := Option.isSome_iff_exists.1 (hnum.2 (.inl hb))
      obtain ⟨q', hq'⟩ := (h.broken p).1 hp
      obtain ⟨k, rfl⟩ := Option.isSome_iff_exists.1 ((h.numbered p _ _ hq').2 (.inl rfl))
      rw [QueueView.key_update_of_ne _ hpp]
      intro e
      have hk : k = q := by simpa [QueueView.key, hq', hq] using e
      exact (hseq q hq).2 p .broken hpp (hk ▸ hq')
    split
    · refine (h.ascending.filter _).imp_of_mem fun {p q} hp hq hlt => ?_
      have hp' : p ≠ pos := by simpa using (List.mem_filter.1 hp).2
      have hq' : q ≠ pos := by simpa using (List.mem_filter.1 hq).2
      rwa [QueueView.key_update_of_ne _ hp', QueueView.key_update_of_ne _ hq']
    · next hb => exact same (mt hmem.1 hb)
  · have listed : p ∈ QueueView.synced (Function.update v pos (some (new, seq))) pos old new l ↔
        if p = pos then new = .broken else p ∈ l := by
      unfold QueueView.synced
      by_cases hp : p = pos
      · subst hp
        rw [if_pos rfl]
        split
        · next heq => rw [hmem, heq]
        split
        · next hb => simp [mem_insertByKey, hb]
        split
        · next hb _ => simp [hb]
        · next hb ho => simp [hmem, hb, ho]
      · rw [if_neg hp]
        split
        · rfl
        split
        · simp [mem_insertByKey, hp]
        split
        · simp [hp]
        · rfl
    rw [listed]
    split
    · next hp => subst hp; simp
    · next hp => rw [off hp]; exact h.broken p
  · by_cases hpp : p = pos
    · subst hpp
      rw [Function.update_self, Option.some.injEq, Prod.mk.injEq] at hp
      obtain ⟨rfl, rfl⟩ := hp
      exact hnum
    · rw [off hpp] at hp
      exact h.numbered p st q hp
  · have one {p : Nat} {st : SpState} (hp : Function.update v pos (some (new, seq)) p = some (st, some q)) :
        p = pos ∧ seq = some q ∨ p ≠ pos ∧ v p = some (st, some q) := by
      by_cases hpp : p = pos
      · subst hpp
        rw [Function.update_self, Option.some.injEq, Prod.mk.injEq] at hp
        exact .inl ⟨rfl, hp.2⟩
      · exact .inr ⟨hpp, by rwa [off hpp] at hp⟩
    rcases one hp with ⟨rfl, hq⟩ | ⟨hne, hv⟩ <;> rcases one hp' with ⟨rfl, hq'⟩ | ⟨hne', hv'⟩
    · rfl
    · exact absurd hv' ((hseq q hq).2 p' st' hne')
    · exact absurd hv ((hseq q hq').2 p st hne)
    · exact h.unique p p' st st' q hv hv'
  · by_cases hpp : p = pos
    · subst hpp
      rw [Function.update_self, Option.some.injEq, Prod.mk.injEq] at hp
      exact (hseq q hp.2).1
    · rw [off hpp] at hp
      exact h.bounds p st q hp

/-- A side renumbered: its sequences keep their order and come within the new counter (R51). -/
theorem Queue.renumber (h : Queue v l n) {m : Nat} (g : Nat → Nat) (hm : m ≤ 4294967295)
    (hg : ∀ p st q, v p = some (st, some q) → 1 ≤ g q ∧ g q ≤ m)
    (hlt : ∀ p p' st st' q q', v p = some (st, some q) → v p' = some (st', some q') → q < q' → g q < g q') :
    Queue (fun pos => (v pos).map fun x => (x.1, x.2.map g)) l m := by
  have back {p : Nat} {st : SpState} {q : Option Nat}
      (hp : (v p).map (fun x => (x.1, x.2.map g)) = some (st, q)) : ∃ q0, v p = some (st, q0) ∧ q0.map g = q := by
    obtain ⟨⟨st0, q0⟩, hv, heq⟩ := Option.map_eq_some_iff.1 hp
    obtain ⟨rfl, rfl⟩ := Prod.mk.inj heq
    exact ⟨q0, hv, rfl⟩
  have backSome {p : Nat} {st : SpState} {q : Nat}
      (hp : (v p).map (fun x => (x.1, x.2.map g)) = some (st, some q)) : ∃ q0, v p = some (st, some q0) ∧ g q0 = q := by
    obtain ⟨q0, hv, hq⟩ := back hp
    obtain ⟨k, rfl, rfl⟩ := Option.map_eq_some_iff.1 hq
    exact ⟨k, hv, rfl⟩
  refine ⟨h.ascending.imp_of_mem fun {p q} hp hq hpq => ?_, fun p => ?_, fun p st q hp => ?_,
    fun p p' st st' q hp hp' => ?_, fun p st q hp => ?_, hm⟩
  · have seqOf {p : Nat} (hp : p ∈ l) : ∃ k, v p = some (.broken, some k) := by
      obtain ⟨q, hq⟩ := (h.broken p).1 hp
      obtain ⟨k, rfl⟩ := Option.isSome_iff_exists.1 ((h.numbered p _ _ hq).2 (.inl rfl))
      exact ⟨k, hq⟩
    obtain ⟨k, hk⟩ := seqOf hp
    obtain ⟨k', hk'⟩ := seqOf hq
    have : k < k' := by simpa [QueueView.key, hk, hk'] using hpq
    simpa [QueueView.key, hk, hk'] using hlt p q _ _ k k' hk hk' this
  · rw [h.broken p]
    constructor
    · rintro ⟨q, hq⟩
      exact ⟨q.map g, by simp [hq]⟩
    · rintro ⟨q, hq⟩
      obtain ⟨q0, hv, -⟩ := back hq
      exact ⟨q0, hv⟩
  · obtain ⟨q0, hv, rfl⟩ := back hp
    rw [Option.isSome_map]
    exact h.numbered p st q0 hv
  · obtain ⟨a, ha, rfl⟩ := backSome hp
    obtain ⟨b, hb, hab⟩ := backSome hp'
    rcases Nat.lt_trichotomy a b with hc | rfl | hc
    · have := hlt _ _ _ _ _ _ ha hb hc
      omega
    · exact h.unique p p' st st' a ha hb
    · have := hlt _ _ _ _ _ _ hb ha hc
      omega
  · obtain ⟨k, hk, rfl⟩ := backSome hp
    exact hg p st k hk

/-- The counter raised. -/
theorem Queue.raise (h : Queue v l n) {m : Nat} (hn : n ≤ m) (hm : m ≤ 4294967295) : Queue v l m :=
  ⟨h.ascending, h.broken, h.numbered, h.unique, fun p st q hp =>
    ⟨(h.bounds p st q hp).1, (h.bounds p st q hp).2.trans hn⟩, hm⟩

end

/-! ## The shared operations on the queues -/

/-- The break lists of `t` are in order where those of `s` are, on sides of at most 20 sections. -/
def Queues (s t : State) : Prop :=
  ∀ side, (t.spindles.get side).length = (s.spindles.get side).length ∧
    ((s.spindles.get side).length ≤ 960 → s.Queued side → t.Queued side)

theorem Queues.trans {s t u : State} (h1 : Queues s t) (h2 : Queues t u) : Queues s u := fun side =>
  ⟨(h2 side).1.trans (h1 side).1, fun hlen hs => (h2 side).2 ((h1 side).1 ▸ hlen) ((h1 side).2 hlen hs)⟩

theorem OnlyChanges.queues {ps : List Part} {s t : State} (h : OnlyChanges ps s t) (h1 : .spindles ∉ ps := by decide)
    (h2 : .breakList ∉ ps := by decide) (h3 : .breakSeq ∉ ps := by decide) : Queues s t := by
  intro side
  unfold State.Queued State.queueView State.spindle
  rw [h .spindles h1, h .breakList h2, h .breakSeq h3]
  exact ⟨rfl, fun _ => id⟩

theorem Queues.refl (s : State) : Queues s s := (OnlyChanges.refl [] s).queues

theorem Queues.frame {ps : List Part} {s t u : State} (h : Queues s t) (hf : OnlyChanges ps t u)
    (h1 : .spindles ∉ ps := by decide) (h2 : .breakList ∉ ps := by decide) (h3 : .breakSeq ∉ ps := by decide) :
    Queues s u := h.trans (hf.queues h1 h2 h3)

/-- The changes of a record that its break list does not see. -/
def unseenChanges : List ChangeKind := [.close, .clamp, .zeroCop, .seed, .mark]

theorem Change.shown {x cap : Nat} {k : ChangeKind} {a b : Spindle} (hk : k ∈ unseenChanges) (h : Change x cap k a b) :
    b.shown = a.shown := by
  cases h with
  | close art => unfold Spindle.close; split <;> rfl
  | clamp | zeroCop | seed | mark => rfl
  | _ => simp [unseenChanges] at hk

/-- Changes that no break list sees. -/
theorem Records.queueView {x cap : Nat} {s t : State} (h : Records x cap unseenChanges s t) (side : Side) :
    t.queueView side = s.queueView side := by
  funext pos
  cases hold : s.spindle side pos with
  | none =>
    have hnew : t.spindle side pos = none := by
      rw [← Option.not_isSome_iff_eq_none, h.isSome_iff, hold]
      simp
    simp [State.queueView, hold, hnew]
  | some sp =>
    obtain ⟨sp', hsp', hr⟩ := h.exists_of_old hold
    rw [State.queueView_of_some hold, State.queueView_of_some hsp']
    exact congrArg some (hr.keeps (P := fun b => b.shown = sp.shown) (fun hk hc hb => (hc.shown hk).trans hb) rfl)

theorem Records.queues {x cap : Nat} {s t : State} {ps : List Part} (h : Records x cap unseenChanges s t)
    (hf : OnlyChanges ps s t) (h2 : .breakList ∉ ps := by decide) (h3 : .breakSeq ∉ ps := by decide) : Queues s t := by
  intro side
  unfold State.Queued
  rw [h.queueView side, hf .breakList h2, hf .breakSeq h3]
  exact ⟨(h side).1, fun _ => id⟩

theorem OtherSideSame.queued {side sd : Side} {s t : State} (h : OtherSideSame side s t) (hsd : sd ≠ side) :
    (t.spindles.get sd).length = (s.spindles.get sd).length ∧ (s.Queued sd → t.Queued sd) := by
  obtain ⟨h1, h2, h3, -⟩ := h sd hsd
  unfold State.Queued State.queueView State.spindle
  rw [h1, h2, h3]
  exact ⟨rfl, id⟩

/-- The side of a written record, as its break list sees it. -/
theorem writeSpindle_queue {side : Side} {pos : Nat} {s : State} {old : Spindle} (new : Spindle)
    (hold : s.spindle side pos = some old) (hlist : ∀ p ∈ s.breakList.get side, 1 ≤ p) :
    (writeSpindle side pos new s).queueView side = Function.update (s.queueView side) pos (some new.shown) ∧
      (writeSpindle side pos new s).breakList.get side =
        QueueView.synced (Function.update (s.queueView side) pos (some new.shown)) pos old.state new.state
          (s.breakList.get side) := by
  have hview : (writeSpindle side pos new s).queueView side =
      Function.update (s.queueView side) pos (some new.shown) := by
    funext p
    by_cases hp : p = pos
    · subst hp
      rw [Function.update_self, State.queueView_of_some (writeSpindle_same side p new s old hold)]
      rfl
    · rw [Function.update_of_ne hp]
      unfold State.queueView
      rw [writeSpindle_other side pos new s side p fun e => hp e.2]
  refine ⟨hview, ?_⟩
  have hpos : 1 ≤ pos := (State.spindle_isSome_iff.1 (by rw [hold]; rfl : (s.spindle side pos).isSome = true)).1
  have htable : (s.spindles.get side).set (pos - 1) { new with clamp := new.state.clamp } =
      (writeSpindle side pos new s).spindles.get side := by
    rw [writeSpindle_spindles side pos new s old hold, Sides.get_set_same]
  rw [writeSpindle_breakList side pos new hold, Sides.get_modify_same, htable, ← hview]
  unfold syncBreakList QueueView.synced
  split
  · rfl
  split
  · exact insertByKey_congr (seqAt_eq_key _ _ hpos) fun q hq => seqAt_eq_key _ _ (hlist q hq)
  · rfl

theorem State.Queued.pos_of_mem {s : State} {side : Side} (h : s.Queued side) {p : Nat} (hp : p ∈ s.breakList.get side) :
    1 ≤ p := by
  obtain ⟨q, hq⟩ := (h.broken p).1 hp
  obtain ⟨sp, hsp, -⟩ := State.queueView_eq_some.1 hq
  exact (State.spindle_isSome_iff.1 (by rw [hsp]; rfl : (s.spindle side p).isSome = true)).1

theorem writeSpindle_breakSeq (side : Side) (pos : Nat) (new : Spindle) (s : State) :
    (writeSpindle side pos new s).breakSeq = s.breakSeq := writeSpindle_frame side pos s new .breakSeq (by decide)

/-- What a record may become without a new break sequence: it keeps its own in BROKEN or PIECING, or has none outside
them. -/
def Requeues (old new : Spindle) : Prop :=
  (new.seq = old.seq ∧
    ((new.state = .broken ∨ new.state = .piecing) ↔ (old.state = .broken ∨ old.state = .piecing))) ∨
  (new.seq = none ∧ new.state ≠ .broken ∧ new.state ≠ .piecing)

theorem writeSpindle_queues {side : Side} {pos : Nat} {s : State} {old new : Spindle}
    (hold : s.spindle side pos = some old) (h : Requeues old new) : Queues s (writeSpindle side pos new s) := by
  intro sd
  by_cases hsd : sd = side
  case neg =>
    obtain ⟨h1, h2⟩ := (writeSpindle_otherSide side pos new s).queued hsd
    exact ⟨h1, fun _ => h2⟩
  subst hsd
  refine ⟨by rw [writeSpindle_spindles sd pos new s old hold]; simp, fun _ hs => ?_⟩
  have hview := State.queueView_of_some hold
  obtain ⟨hnew, hlist⟩ := writeSpindle_queue new hold fun p hp => hs.pos_of_mem hp
  unfold State.Queued
  rw [hnew, hlist, writeSpindle_breakSeq]
  have hnum := hs.numbered pos _ _ hview
  refine Queue.write hs hview ?_ (fun q hq => ?_) fun hb hb' => ?_
  · rcases h with ⟨hseq, hst⟩ | ⟨hseq, h1, h2⟩
    · rw [hseq, hst]
      exact hnum
    · simp [hseq, h1, h2]
  · rcases h with ⟨hseq, -⟩ | ⟨hseq, -⟩
    · rw [hseq] at hq
      have hv : s.queueView sd pos = some (old.state, some q) := by rw [hview, ← hq]; rfl
      exact ⟨hs.bounds pos _ q hv, fun p st hp hpv => hp (hs.unique p pos st _ q hpv hv)⟩
    · rw [hseq] at hq
      cases hq
  · rcases h with ⟨hseq, -⟩ | ⟨-, h1, -⟩
    · exact hseq
    · exact absurd hb' h1

/-! ### Joins -/

theorem countP_lt_countP {α : Type} {p q : α → Bool} {l : List α} (hpq : ∀ x ∈ l, p x = true → q x = true) {x : α}
    (hx : x ∈ l) (hq : q x = true) (hp : p x = false) : l.countP p < l.countP q := by
  obtain ⟨l1, l2, rfl⟩ := List.append_of_mem hx
  have h1 : l1.countP p ≤ l1.countP q := List.countP_mono_left fun y hy => hpq y (by simp [hy])
  have h2 : l2.countP p ≤ l2.countP q := List.countP_mono_left fun y hy => hpq y (by simp [hy])
  simp only [List.countP_append, List.countP_cons, hq, hp, if_true, Bool.false_eq_true, if_false]
  omega

/-- The sequence of a record is below another. -/
def Spindle.below (q : Nat) (sp : Spindle) : Bool := sp.seq.any (· < q)

theorem rankOf_eq (l : List Spindle) (q : Nat) : rankOf l q = 1 + l.countP (·.below q) := by
  unfold rankOf
  congr 1
  refine List.countP_congr fun sp _ => ?_
  cases h : sp.seq <;> simp [Spindle.below, h]

/-- The places of the sequences present stand in their order, within the number of them (R51). -/
theorem rankOf_bounds {l : List Spindle} {q : Nat} (h : ∃ sp ∈ l, sp.seq = some q) :
    1 ≤ rankOf l q ∧ rankOf l q ≤ l.countP (·.seq.isSome) := by
  obtain ⟨sp, hsp, hq⟩ := h
  rw [rankOf_eq]
  have := countP_lt_countP (p := (·.below q)) (q := (·.seq.isSome)) (l := l) (x := sp)
    (fun x _ hx => by cases h : x.seq <;> simp [Spindle.below, h] at hx ⊢) hsp (by simp [hq]) (by simp [Spindle.below, hq])
  omega

theorem rankOf_lt {l : List Spindle} {q q' : Nat} (h : ∃ sp ∈ l, sp.seq = some q) (hlt : q < q') :
    rankOf l q < rankOf l q' := by
  obtain ⟨sp, hsp, hq⟩ := h
  rw [rankOf_eq, rankOf_eq]
  have := countP_lt_countP (p := (·.below q)) (q := (·.below q')) (l := l) (x := sp)
    (fun x _ hx => by
      cases h : x.seq with
      | none => simp [Spindle.below, h] at hx
      | some k =>
        simp only [Spindle.below, h, Option.any_some, decide_eq_true_eq] at hx ⊢
        omega) hsp (by simp [Spindle.below, hq, hlt]) (by simp [Spindle.below, hq])
  omega

theorem renumber_queueView (side : Side) (s : State) :
    (renumber side s).queueView side =
      fun pos => (s.queueView side pos).map fun x => (x.1, x.2.map (rankOf (s.spindles.get side))) := by
  funext pos
  have htable : (renumber side s).spindles.get side =
      (s.spindles.get side).map fun sp => { sp with seq := sp.seq.map (rankOf (s.spindles.get side)) } := by
    simp [renumber]
  unfold State.queueView State.spindle
  rw [htable]
  split
  · rfl
  · rw [List.getElem?_map, Option.map_map, Option.map_map]
    rfl

theorem State.Queued.renumbered {side : Side} {s : State} (hs : s.Queued side) (hlen : (s.spindles.get side).length ≤ 960) :
    (Machine.renumber side s).Queued side := by
  have present {p : Nat} {st : SpState} {q : Nat} (h : s.queueView side p = some (st, some q)) :
      ∃ sp ∈ s.spindles.get side, sp.seq = some q := by
    obtain ⟨sp, hsp, hshown⟩ := State.queueView_eq_some.1 h
    exact ⟨sp, State.mem_of_spindle hsp, congrArg Prod.snd hshown⟩
  have hcount : (s.spindles.get side).countP (·.seq.isSome) ≤ 960 := List.countP_le_length.trans hlen
  have h := Queue.renumber hs (m := (s.spindles.get side).countP (·.seq.isSome)) (rankOf (s.spindles.get side))
    (by omega) (fun p st q hq => rankOf_bounds (present hq)) fun p p' st st' q q' hq _ hlt => rankOf_lt (present hq) hlt
  unfold State.Queued
  rw [renumber_queueView]
  simpa [renumber] using h

/-- The side after its counter has been advanced for a join: in order, with the counter above every sequence (R50, R51). -/
theorem State.Queued.advanced {side : Side} {s : State} (hs : s.Queued side) (hlen : (s.spindles.get side).length ≤ 960) :
    (advanceSeq side s).Queued side ∧
      ∀ p st q, (advanceSeq side s).queueView side p = some (st, some q) → q < (advanceSeq side s).breakSeq.get side := by
  have raised {u : State} (hu : u.Queued side) (htop : u.breakSeq.get side < 4294967295) :
      (u.setBreakSeq (u.breakSeq.modify side (· + 1))).Queued side ∧
        ∀ p st q, (u.setBreakSeq (u.breakSeq.modify side (· + 1))).queueView side p = some (st, some q) →
          q < (u.setBreakSeq (u.breakSeq.modify side (· + 1))).breakSeq.get side := by
    have hnew : (u.setBreakSeq (u.breakSeq.modify side (· + 1))).breakSeq.get side = u.breakSeq.get side + 1 := by simp
    unfold State.Queued
    rw [hnew]
    refine ⟨Queue.raise hu (Nat.le_succ _) htop, fun p st q hq => ?_⟩
    exact Nat.lt_succ_of_le (Queue.bounds hu p st q hq).2
  unfold advanceSeq
  dsimp only
  split
  · refine raised (hs.renumbered hlen) ?_
    have hcount : (s.spindles.get side).countP (·.seq.isSome) ≤ 960 := List.countP_le_length.trans hlen
    simp only [renumber, State.setBreakSeq_breakSeq, Sides.get_set_same]
    omega
  · next hne => exact raised hs (by have := hs.limit; omega)

theorem advanceSeq_length (side sd : Side) (s : State) :
    ((advanceSeq side s).spindles.get sd).length = (s.spindles.get sd).length :=
  (advanceSeq_records (x := 0) (cap := 0) (side := side) (s := s) sd).1

theorem advanceSeq_spindle {side : Side} {pos : Nat} {s : State} {old : Spindle} (h : s.spindle side pos = some old) :
    ∃ cur, (advanceSeq side s).spindle side pos = some cur ∧ cur.state = old.state := by
  obtain ⟨cur, hcur, hr⟩ := (advanceSeq_records (x := 0) (cap := 0) (side := side) (s := s)).exists_of_old h
  refine ⟨cur, hcur, hr.keeps (P := fun b => b.state = old.state) (fun hk hc hb => ?_) rfl⟩
  exact (hc.state_of_still (by rw [List.mem_singleton.1 hk]; decide)).trans hb

/-- A spindle joins its list with the next sequence (R50, R52). -/
theorem joinBreakList_queues {side : Side} {pos : Nat} {s : State} {old : Spindle} {c : Cause} {sp : Spindle}
    (hold : s.spindle side pos = some old) (hst : old.state ≠ .broken) : Queues s (joinBreakList side pos c sp s) := by
  obtain ⟨cur, hcur, hcurst⟩ := advanceSeq_spindle hold
  intro sd
  by_cases hsd : sd = side
  case neg =>
    obtain ⟨h1, h2⟩ := (joinBreakList_otherSide side pos c sp s).queued hsd
    exact ⟨h1, fun _ => h2⟩
  subst hsd
  unfold joinBreakList
  dsimp only
  refine ⟨?_, fun hlen hs => ?_⟩
  · rw [writeSpindle_spindles sd pos _ _ cur hcur, Sides.get_set_same, List.length_set, advanceSeq_length]
  obtain ⟨hadv, habove⟩ := hs.advanced hlen
  obtain ⟨hnew, hlist⟩ := writeSpindle_queue { sp with
    state := .broken, marker := none, seq := some ((advanceSeq sd s).breakSeq.get sd), cause := some c
    lockCause := none } hcur fun p hp => hadv.pos_of_mem hp
  unfold State.Queued
  rw [hnew, hlist, writeSpindle_breakSeq]
  have hpos : 1 ≤ (advanceSeq sd s).breakSeq.get sd := by
    unfold advanceSeq
    simp
  refine Queue.write hadv (State.queueView_of_some hcur) (by simp) (fun q hq => ?_)
    fun hb => absurd (hcurst ▸ hb) hst
  obtain rfl := Option.some.inj hq
  exact ⟨⟨hpos, Nat.le_refl _⟩, fun p st _ hp => absurd (habove p st _ hp) (Nat.lt_irrefl _)⟩

/-! ## The operations of the blocks -/

section
variable {s : State} {side : Side} {pos : Nat} {sp : Spindle}

theorem closeInterval_queues : Queues s (closeInterval side pos s) := by
  unfold closeInterval
  split
  · exact .refl s
  · next sp hsp =>
    split
    · next hst =>
      refine (writeSpindle_queues hsp (.inl ?_)).frame (creditRun_frame _ _ _)
      simp [Spindle.close, hst]
    · exact .refl s

theorem split_queues : Queues s (split s) :=
  ((split_records (cap := 0) rfl).mono (ls := unseenChanges)).queues (split_frame s)

theorem makeExchange_queues (a : Article) (o : Occasion) : Queues s (makeExchange a o s) :=
  ((makeExchange_records (cap := 0) a o rfl).mono (ls := unseenChanges)).queues (makeExchange_frame s a o)

theorem completeDoff_queues (b : Bool) : Queues s (completeDoff b s) :=
  ((completeDoff_records (cap := 0) b rfl).mono (ls := unseenChanges)).queues (completeDoff_frame s b)

theorem closeShift_queues (label stamp : Nat) : Queues s (closeShift label stamp s) :=
  ((closeShift_records (cap := 0) label stamp rfl).mono (ls := unseenChanges)).queues (closeShift_frame s label stamp)

theorem dispatchTest_queues : Queues s (dispatchTest side s) := by
  unfold dispatchTest
  split
  · dsimp only
    split
    · split
      · unfold issueOrder
        dsimp only
        split
        · split
          · next sp hsp =>
            split
            · next hst _ =>
              have ordered : Requeues sp { sp with state := .piecing } := .inl ⟨rfl, by simp [hst]⟩
              exact ((writeSpindle_queues hsp ordered).frame (sendCarriage_frame _ _ _)).frame
                (modifyCarriage_frame _ _ _)
            · exact .refl s
          · exact .refl s
        · exact (issueTransit_frame _ s _).queues
      · exact .refl s
    · exact .refl s
  · exact .refl s

theorem returnSpindle_queues : Queues s (returnSpindle side pos s) := by
  unfold returnSpindle
  split
  · exact .refl s
  · next sp hsp =>
    split
    · next hst => exact writeSpindle_queues hsp (.inl ⟨rfl, by simp [Spindle.returned, hst]⟩)
    · exact .refl s

theorem dropWork_queues : Queues s (dropWork side s) := by
  unfold dropWork
  split
  · exact returnSpindle_queues.frame (modifyCarriage_frame _ _ _)
  · exact (modifyCarriage_frame _ s _).queues

theorem withdrawForDoff_queues : Queues s (withdrawForDoff side s) := by
  unfold withdrawForDoff
  dsimp only
  split
  · exact .refl s
  · exact (cancelOrder_frame _ s _).queues
  · exact (cancelOrder_frame _ s _).queues
  · exact returnSpindle_queues.frame (cancelOrder_frame _ _ _)

theorem enterDoffing_queues : Queues s (enterDoffing s) := by
  have h : Queues s
      (setDoffHold .b (setDoffHold .a (withdrawForDoff .b (withdrawForDoff .a (changeFrame .doffing s))))) :=
    ((((changeFrame_frame s _).queues.trans withdrawForDoff_queues).trans withdrawForDoff_queues).frame
      (setDoffHold_frame _ _)).frame (setDoffHold_frame _ _)
  unfold enterDoffing
  dsimp only
  split
  · exact h.frame (startDoffer_frame _)
  · exact h.frame (setDoff_frame _ _)

theorem parkSpindle_queues : Queues s (parkSpindle side pos s) := by
  have h : Queues s
      (unlist ⟨side, pos⟩ (withdrawForPark side pos (closeInterval side pos (creditPossible side s)))) :=
    (((creditPossible_frame side s).queues.trans closeInterval_queues).frame (withdrawForPark_frame _ _ _)).frame
      (unlist_frame _ _)
  unfold parkSpindle
  dsimp only
  split
  · next sp hsp => exact h.trans (writeSpindle_queues hsp (.inr ⟨rfl, by simp [Spindle.parked], by simp [Spindle.parked]⟩))
  · exact h

theorem seedRoving_queues {metres : Nat} : Queues s (seedRoving side metres s pos) := by
  unfold seedRoving
  dsimp only
  split
  · next sp hsp => exact closeInterval_queues.trans (writeSpindle_queues hsp (.inl ⟨rfl, Iff.rfl⟩))
  · exact closeInterval_queues

theorem carriageArrives_queues : Queues s (carriageArrives side s) := by
  have h : Queues s (startHoming side (dropWork side s)) := dropWork_queues.frame (startHoming_frame _ _)
  unfold carriageArrives
  dsimp only
  split
  · exact h
  · exact h.frame (raise_frame _ _)

theorem carriageTimeout_queues (k : TimerKind) : Queues s (carriageTimeout side k s) := by
  unfold carriageTimeout
  split
  · exact dropWork_queues.frame (carriageFaults_frame _ _)
  · exact .refl s

theorem carriageSilent_queues : Queues s (carriageSilent side s) :=
  (dropWork_queues.frame (modifyCarriage_frame _ _ _)).frame (raise_frame _ _)

/-- A record that a piece has made RUNNING leaves the list (R37, R38, R74). -/
theorem pieced_requeues (old : Spindle) (x : Nat) : Requeues old (old.pieced x) :=
  .inr ⟨rfl, by simp [Spindle.pieced], by simp [Spindle.pieced]⟩

theorem locked_requeues (old sp : Spindle) (c : LockCause) : Requeues old (sp.locked c) :=
  .inr ⟨rfl, by simp [Spindle.locked], by simp [Spindle.locked]⟩

theorem pieceDone_queues : Queues s (pieceDone side pos s) := by
  unfold pieceDone
  refine Queues.frame ?_ (carriageSettles_frame _ _ _)
  split
  · next sp hsp =>
    split
    · exact (writeSpindle_queues hsp (pieced_requeues sp _)).frame (countSide_frame _ _ _)
    · exact .refl s
  · exact .refl s

theorem lockSpindle_queues {old : Spindle} {c : LockCause} (hold : s.spindle side pos = some old) :
    Queues s (lockSpindle side pos c sp s) :=
  ((writeSpindle_queues hold (locked_requeues old sp c)).frame (raise_frame _ _)).frame (countSide_frame _ _ _)

theorem judgeAttempts_queues {n : Nat} {old : Spindle} (hold : s.spindle side pos = some old)
    (hst : old.state = .piecing) : Queues s (judgeAttempts side pos { old with attempts := n } s) := by
  have returned (b : Bool) : Requeues old { old with attempts := n, state := .broken, rogueUnlocked := b } :=
    .inl ⟨rfl, by simp [hst]⟩
  unfold judgeAttempts
  split
  · exact writeSpindle_queues hold (returned old.rogueUnlocked)
  split
  · exact lockSpindle_queues hold
  · exact (writeSpindle_queues hold (returned true)).frame (raise_frame _ _)

theorem pieceMissed_queues : Queues s (pieceMissed side pos s) := by
  rcases pieceMissed_cases side pos s with ⟨old, hold, hst, h⟩ | h
  · rw [h]
    exact ((countSide_frame side s .pieceFailure).queues.trans (judgeAttempts_queues hold hst)).frame
      (carriageSettles_frame _ _ _)
  · rw [h]
    exact (carriageSettles_frame side s _).queues

theorem lateOutcome_queues (ok : Bool) : Queues s (lateOutcome side pos ok s) := by
  have h : Queues s (modifyCarriage side (fun c => { c with withdrawn := none }) s) := (modifyCarriage_frame side s _).queues
  unfold lateOutcome
  dsimp only
  split
  · split
    · next sp hsp =>
      split
      · exact h.trans ((writeSpindle_queues hsp (pieced_requeues sp _)).frame (countSide_frame _ _ _))
      · exact h
    · exact h
  · exact h

theorem yarnFound_queues : Queues s (yarnFound side pos s) := by
  unfold yarnFound
  split
  · exact .refl s
  · next sp hsp =>
    split
    · exact (writeSpindle_queues hsp (pieced_requeues sp _)).frame (countSide_frame _ _ _)
    · exact (writeSpindle_queues hsp (pieced_requeues sp _)).frame (overtakeOrder_frame _ _ _)
    all_goals exact .refl s

theorem takeRunOut_queues (h : sp.ClosedAt side pos s) : Queues s (takeRunOut side pos sp s) :=
  (((writeSpindle_queues h.1 (.inr ⟨rfl, by simp, by simp⟩)).frame (placeRunOut_frame _ _)).frame (raise_frame _ _)).frame
    (countSide_frame _ _ _)

theorem Spindle.ClosedAt.join_queues (h : sp.ClosedAt side pos s) (c : Cause) (new : Spindle) :
    Queues s (joinBreakList side pos c new s) := by
  obtain ⟨hsp, hst, -⟩ := h
  exact joinBreakList_queues hsp (by simp [hst])

theorem takeStartUpBreak_queues (h : sp.ClosedAt side pos s) : Queues s (takeStartUpBreak side pos sp s) :=
  (h.join_queues _ _).frame (countSide_frame _ _ _)

theorem takeEndBreak_queues (h : sp.ClosedAt side pos s) : Queues s (takeEndBreak side pos sp s) := by
  unfold takeEndBreak
  refine Queues.frame (Queues.frame ?_ (countSide_frame _ _ _)) (countGovernor_frame _)
  dsimp only
  split
  · split
    · exact lockSpindle_queues h.1
    · exact (h.join_queues _ _).frame (raise_frame _ _)
  · exact h.join_queues _ _

theorem replaceBobbin_queues (y : SpRef) : Queues s (replaceBobbin y s) := by
  cases h : s.spindle y.side y.pos with
  | none => simpa [replaceBobbin, h] using Queues.refl s
  | some old =>
    by_cases hrun : old.state = .running
    · have hold : (split s).spindle y.side y.pos = some (old.close s.articles.active s.flmm) := by
        rw [split_spindle, h]; rfl
      have hstate : (old.close s.articles.active s.flmm).state = .running := by simp [Spindle.close, hrun]
      rw [replaceBobbin_of_running h hrun]
      exact (split_queues.trans (joinBreakList_queues hold (by simp [hstate]))).frame (countSide_frame _ _ _)
    by_cases hwait : old.state = .waitRoving
    · rw [replaceBobbin_of_waitRoving h hwait]
      exact (joinBreakList_queues h (by simp [hwait])).frame (countSide_frame _ _ _)
    · rw [replaceBobbin_of_other h hrun hwait]
      have full : Requeues old (old.renewed s.articles.active) := .inl ⟨rfl, Iff.rfl⟩
      exact (writeSpindle_queues h full).frame (countSide_frame _ _ _)

end

/-- Each operation but the change of a section count keeps the break lists in order. -/
theorem Op.queues {ps : List Part} {s t : State} (h : Op ps s t) :
    Queues s t ∨ ∃ side n, n ≤ 20 ∧ t = changeSections side n s := by
  have hf := h.frame
  cases h with
  | sections side n _ hn => exact .inr ⟨side, n, hn.2, rfl⟩
  | exchange a o => exact .inl (makeExchange_queues a o)
  | dispatch => exact .inl dispatchTest_queues
  | enterDoffing => exact .inl enterDoffing_queues
  | completeDoff b => exact .inl (completeDoff_queues b)
  | park => exact .inl parkSpindle_queues
  | unpark side pos sp _ h hst =>
    have hsp : (creditPossible side s).spindle side pos = some sp := h
    exact .inl ((creditPossible_frame side s).queues.trans (joinBreakList_queues hsp (by simp [hst])))
  | release side pos sp _ h hst => exact .inl (joinBreakList_queues h (by simp [hst]))
  | seed => exact .inl seedRoving_queues
  | closeShift label stamp => exact .inl (closeShift_queues label stamp)
  | arrives => exact .inl carriageArrives_queues
  | pieceDone => exact .inl pieceDone_queues
  | pieceMissed => exact .inl pieceMissed_queues
  | lateOutcome side pos ok => exact .inl (lateOutcome_queues ok)
  | timeout side k => exact .inl (carriageTimeout_queues k)
  | silent => exact .inl carriageSilent_queues
  | closeInterval => exact .inl closeInterval_queues
  | runOut side pos sp _ h => exact .inl (takeRunOut_queues h)
  | startUpBreak side pos sp _ h => exact .inl (takeStartUpBreak_queues h)
  | endBreak side pos sp _ h => exact .inl (takeEndBreak_queues h)
  | yarnFound => exact .inl yarnFound_queues
  | replaceSlot x =>
    exact .inl (((emptySlot_frame s).queues.trans (replaceBobbin_queues x)).frame (endingTest_frame _))
  | replaceListed x => exact .inl ((unlist_frame s x).queues.trans (replaceBobbin_queues x))
  | _ => exact .inl hf.queues

/-! ## The change of a section count -/

/-- A queue cut to the positions that stay; the new positions hold no sequence. -/
theorem Queue.cut {v w : QueueView} {l : List Nat} {n keep : Nat} (h : Queue v l n)
    (hkeep : ∀ p, p ≤ keep → (v p).isSome → w p = v p)
    (hback : ∀ p st q, w p = some (st, q) → (p ≤ keep ∧ v p = some (st, q)) ∨ (st = .running ∧ q = none)) :
    Queue w (l.filter (· ≤ keep)) n := by
  have back {p st q} (hp : w p = some (st, some q)) : v p = some (st, some q) := by
    rcases hback p st _ hp with ⟨-, hv⟩ | ⟨-, hq⟩
    exacts [hv, absurd hq (by simp)]
  have kept {p : Nat} (hp : p ∈ l.filter (· ≤ keep)) : p ∈ l ∧ w p = v p := by
    obtain ⟨hp, hle⟩ := List.mem_filter.1 hp
    obtain ⟨q, hq⟩ := (h.broken p).1 hp
    exact ⟨hp, hkeep p (by simpa using hle) (by rw [hq]; rfl)⟩
  refine ⟨(h.ascending.filter _).imp_of_mem fun {p q} hp hq hlt => ?_, fun p => ⟨fun hp => ?_, ?_⟩, fun p st q hp => ?_,
    fun p p' st st' q hp hp' => h.unique p p' st st' q (back hp) (back hp'), fun p st q hp => h.bounds p st q (back hp),
    h.limit⟩
  · unfold QueueView.key
    rw [(kept hp).2, (kept hq).2]
    exact hlt
  · obtain ⟨hl, hw⟩ := kept hp
    rw [hw]
    exact (h.broken p).1 hl
  · rintro ⟨q, hq⟩
    rcases hback p _ q hq with ⟨hle, hv⟩ | ⟨hst, -⟩
    · exact List.mem_filter.2 ⟨(h.broken p).2 ⟨q, hv⟩, by simpa using hle⟩
    · cases hst
  · rcases hback p st q hp with ⟨-, hv⟩ | ⟨rfl, rfl⟩
    · exact h.numbered p st q hv
    · simp

/-- The record at a position of the changed side (R22, R47). -/
theorem changeSections_spindle (side : Side) (n : Nat) (s : State) (pos : Nat) :
    (changeSections side n s).spindle side pos =
      if pos ≤ 48 * n ∧ (s.spindle side pos).isSome then s.spindle side pos
      else if 1 ≤ pos ∧ pos ≤ 48 * n then some (Spindle.formed s.flmm) else none := by
  unfold State.spindle
  rw [changeSections_spindles, Sides.get_set_same]
  by_cases h0 : pos = 0
  · simp [h0]
  simp only [h0, if_false, isSome_getElem?]
  by_cases hkeep : pos ≤ 48 * n
  · by_cases hold : pos - 1 < (s.spindles.get side).length
    · have h1 : pos - 1 < ((s.spindles.get side).take (48 * n)).length := by simp; omega
      rw [List.getElem?_append_left h1, List.getElem?_take_of_lt (by omega), if_pos ⟨hkeep, hold⟩]
    · have h1 : ((s.spindles.get side).take (48 * n)).length ≤ pos - 1 := by simp; omega
      rw [List.getElem?_append_right h1, if_neg (by omega), if_pos (by omega), List.getElem?_replicate,
        if_pos (by simp; omega)]
  · rw [if_neg (by omega), if_neg (by omega), List.getElem?_eq_none]
    rw [length_take_append_replicate]
    omega

theorem changeSections_breakList (side : Side) (n : Nat) (s : State) :
    (changeSections side n s).breakList = s.breakList.modify side (·.filter (· ≤ 48 * n)) := by
  have hslot (u : State) : (releaseSlot side (48 * n) u).breakList = u.breakList :=
    releaseSlot_frame side u (48 * n) .breakList (by decide)
  have hremoved : (releaseRemoved side (48 * n) (creditPossible side s)).breakList =
      s.breakList.modify side (·.filter (· ≤ 48 * n)) := rfl
  unfold changeSections
  dsimp only
  rw [recallCarriage_frame side _ (48 * n) .breakList (by decide), ← hremoved,
    ← hslot (releaseRemoved side (48 * n) (creditPossible side s))]
  rfl

theorem changeSections_queued {s : State} (side : Side) (n : Nat) (hs : ∀ sd, s.Queued sd) (sd : Side) :
    (changeSections side n s).Queued sd := by
  unfold State.Queued
  rw [changeSections_breakList, changeSections_frame side s n .breakSeq (by decide)]
  by_cases hsd : sd = side
  · subst hsd
    rw [Sides.get_modify_same]
    refine Queue.cut (hs sd) (fun p hp hsome => ?_) fun p st q hq => ?_
    · unfold State.queueView at hsome ⊢
      rw [Option.isSome_map] at hsome
      rw [changeSections_spindle, if_pos ⟨hp, hsome⟩]
    · obtain ⟨sp, hsp, hshown⟩ := State.queueView_eq_some.1 hq
      rw [changeSections_spindle] at hsp
      split at hsp
      · next h => exact .inl ⟨h.1, State.queueView_eq_some.2 ⟨sp, hsp, hshown⟩⟩
      · split at hsp
        · obtain rfl := Option.some.inj hsp
          exact .inr (Prod.mk.inj hshown |>.imp Eq.symm Eq.symm)
        · cases hsp
  · rw [Sides.get_modify_other _ _ _ _ hsd]
    have hview : (changeSections side n s).queueView sd = s.queueView sd := by
      funext pos
      simp [State.queueView, State.spindle, changeSections_spindles, Sides.get_set_other _ _ _ _ hsd]
    rw [hview]
    exact hs sd

/-! ## The soft reset -/

/-- The BROKEN positions of a list from a position on, ascending. -/
theorem mem_brokenFrom {pos : Nat} {l : List Spindle} {p : Nat} :
    p ∈ brokenFrom pos l ↔ pos ≤ p ∧ ∃ sp, l[p - pos]? = some sp ∧ sp.state = .broken := by
  induction l generalizing pos with
  | nil => simp [brokenFrom]
  | cons sp rest ih =>
    have later : p ∈ brokenFrom (pos + 1) rest ↔ pos + 1 ≤ p ∧
        ∃ sp', (sp :: rest)[p - pos]? = some sp' ∧ sp'.state = .broken := by
      rw [ih]
      refine and_congr_right fun hlt => ?_
      rw [show p - pos = (p - (pos + 1)) + 1 by omega, List.getElem?_cons_succ]
    unfold brokenFrom
    split
    · next hst =>
      rw [List.mem_cons, later]
      constructor
      · rintro (rfl | ⟨h2, h3⟩)
        · exact ⟨Nat.le_refl _, sp, by simp, hst⟩
        · exact ⟨by omega, h3⟩
      · rintro ⟨h2, h3⟩
        by_cases hp : p = pos
        · exact .inl hp
        · exact .inr ⟨by omega, h3⟩
    · next hst =>
      rw [later]
      constructor
      · rintro ⟨h2, h3⟩
        exact ⟨by omega, h3⟩
      · rintro ⟨h2, sp', h3, h4⟩
        refine ⟨?_, sp', h3, h4⟩
        by_contra hlt
        have hp : p = pos := by omega
        rw [hp, Nat.sub_self, List.getElem?_cons_zero, Option.some.injEq] at h3
        exact hst (h3 ▸ h4)

theorem brokenFrom_ascending (pos : Nat) (l : List Spindle) : (brokenFrom pos l).Pairwise (· < ·) := by
  induction l generalizing pos with
  | nil => exact .nil
  | cons sp rest ih =>
    unfold brokenFrom
    split
    · exact List.pairwise_cons.2 ⟨fun p hp => (mem_brokenFrom.1 hp).1, ih _⟩
    · exact ih _

theorem brokenFrom_length (pos : Nat) (l : List Spindle) :
    (brokenFrom pos l).length = l.countP (·.state = .broken) := by
  induction l generalizing pos with
  | nil => rfl
  | cons sp rest ih =>
    unfold brokenFrom
    split
    · next h => simp [ih, h]
    · next h => simp [ih, h]

/-- The records given their sequences by position: each BROKEN one its place among them (R48). -/
theorem renumberByPosition_getElem? (n : Nat) (l : List Spindle) (i : Nat) :
    (renumberByPosition n l)[i]? = l[i]?.map fun sp =>
      if sp.state = .broken then { sp with seq := some (n + 1 + (l.take i).countP (·.state = .broken)) } else sp := by
  induction l generalizing n i with
  | nil => simp [renumberByPosition]
  | cons sp rest ih =>
    unfold renumberByPosition
    cases i with
    | zero => split <;> simp [*]
    | succ i =>
      split
      · next h =>
        simp only [List.getElem?_cons_succ, ih, List.take_succ_cons, List.countP_cons, h]
        congr 1
        funext x
        split
        · congr 2
          simp
          omega
        · rfl
      · next h => simp [ih, h]

theorem countP_take_lt {α : Type} {p : α → Bool} {l : List α} {i : Nat} {x : α} (hx : l[i]? = some x) (hp : p x = true) :
    (l.take i).countP p < l.countP p ∧ ∀ j, i < j → (l.take i).countP p < (l.take j).countP p := by
  have htake {j : Nat} (hij : i < j) : (l.take i).countP p < (l.take j).countP p := by
    have hsucc : l.take (i + 1) = l.take i ++ [x] := by rw [List.take_add_one, hx]; rfl
    have hle : (l.take (i + 1)).countP p ≤ (l.take j).countP p :=
      (List.take_sublist_take_left (by omega : i + 1 ≤ j)).countP_le
    rw [hsucc, List.countP_append, List.countP_singleton, if_pos hp] at hle
    omega
  obtain ⟨hlt, -⟩ := List.getElem?_eq_some_iff.1 hx
  refine ⟨?_, fun j hj => htake hj⟩
  have := htake (j := l.length) hlt
  rwa [List.take_length] at this

/-- The list and the sequences formed anew by position are in order (R48, R65). -/
theorem Queue.byPosition {v : QueueView} {l : List Spindle} (hl : l.length ≤ 4294967295)
    (hnum : ∀ sp ∈ l, sp.seq.isSome ↔ sp.state = .broken) (hpiece : ∀ sp ∈ l, sp.state ≠ .piecing)
    (hv : ∀ pos, v pos = if pos = 0 then none else ((renumberByPosition 0 l)[pos - 1]?).map (·.shown)) :
    Queue v (brokenFrom 1 (renumberByPosition 0 l)) (brokenFrom 1 (renumberByPosition 0 l)).length := by
  have hat (pos : Nat) (x : SpState × Option Nat) : v pos = some x ↔
      1 ≤ pos ∧ ∃ sp, l[pos - 1]? = some sp ∧ x = (sp.state,
        if sp.state = .broken then some (1 + (l.take (pos - 1)).countP (·.state = .broken)) else sp.seq) := by
    rw [hv, renumberByPosition_getElem?]
    by_cases h0 : pos = 0
    · simp [h0]
    · simp only [h0, if_false, Option.map_map, Option.map_eq_some_iff, Function.comp_apply]
      rw [and_iff_right (by omega)]
      refine exists_congr fun sp => and_congr_right fun _ => ?_
      split <;> simp [Spindle.shown, eq_comm]
  have hbroken (pos : Nat) (st : SpState) (q : Nat) (h : v pos = some (st, some q)) :
      st = .broken ∧ 1 ≤ pos ∧ (∃ sp, l[pos - 1]? = some sp ∧ sp.state = .broken) ∧
        q = 1 + (l.take (pos - 1)).countP (·.state = .broken) := by
    obtain ⟨h1, sp, hsp, hx⟩ := (hat pos _).1 h
    obtain ⟨rfl, hq⟩ := Prod.mk.inj hx
    have hst : sp.state = .broken := by
      by_contra hne
      rw [if_neg hne] at hq
      exact hne ((hnum sp (List.mem_of_getElem? hsp)).1 (by rw [← hq]; rfl))
    rw [if_pos hst, Option.some.injEq] at hq
    exact ⟨hst, h1, ⟨sp, hsp, hst⟩, hq⟩
  have hcount : (brokenFrom 1 (renumberByPosition 0 l)).length = l.countP (·.state = .broken) := by
    rw [brokenFrom_length]
    have hlen : ∀ n, (renumberByPosition n l).countP (·.state = .broken) = l.countP (·.state = .broken) := by
      clear hat hbroken hv hnum hpiece hl
      induction l with
      | nil => intro n; rfl
      | cons sp rest ih =>
        intro n
        unfold renumberByPosition
        split
        · next h => simp [ih, h]
        · next h => simp [ih, h]
    exact hlen 0
  have hmem (p : Nat) : p ∈ brokenFrom 1 (renumberByPosition 0 l) ↔ ∃ q, v p = some (.broken, q) := by
    rw [mem_brokenFrom]
    constructor
    · rintro ⟨h1, sp, hsp, hst⟩
      refine ⟨sp.seq, ?_⟩
      rw [hv, if_neg (by omega), hsp, ← hst]
      rfl
    · rintro ⟨q, hq⟩
      rw [hv] at hq
      split at hq
      · cases hq
      · obtain ⟨sp, hsp, hshown⟩ := Option.map_eq_some_iff.1 hq
        exact ⟨by omega, sp, hsp, congrArg Prod.fst hshown⟩
  have hlt (p p' : Nat) (st st' : SpState) (q q' : Nat) (hp : v p = some (st, some q)) (hp' : v p' = some (st', some q'))
      (hlt : p < p') : q < q' := by
    obtain ⟨-, h1, ⟨sp, hsp, hst⟩, rfl⟩ := hbroken p st q hp
    obtain ⟨-, h1', -, rfl⟩ := hbroken p' st' q' hp'
    have := (countP_take_lt (p := fun x : Spindle => decide (x.state = .broken)) hsp (by simpa using hst)).2 (p' - 1) (by omega)
    omega
  refine ⟨(brokenFrom_ascending 1 _).imp_of_mem fun {p q} hp hq hpq => ?_, hmem, fun p st q hp => ?_,
    fun p p' st st' q hp hp' => ?_, fun p st q hp => ?_, ?_⟩
  · have seqOf {p : Nat} (hp : p ∈ brokenFrom 1 (renumberByPosition 0 l)) : ∃ k, v p = some (.broken, some k) := by
      obtain ⟨q, hq⟩ := (hmem p).1 hp
      obtain ⟨-, sp, -, hx⟩ := (hat p _).1 hq
      obtain ⟨hst, hq'⟩ := Prod.mk.inj hx
      rw [if_pos hst.symm] at hq'
      exact ⟨_, by rw [hq, hq']⟩
    obtain ⟨k, hk⟩ := seqOf hp
    obtain ⟨k', hk'⟩ := seqOf hq
    simpa [QueueView.key, hk, hk'] using hlt p q _ _ k k' hk hk' hpq
  · obtain ⟨-, sp, hsp, hx⟩ := (hat p _).1 hp
    obtain ⟨rfl, rfl⟩ := Prod.mk.inj hx
    have hmem := List.mem_of_getElem? hsp
    split
    · next hst => simp [hst]
    · next hst =>
      rw [hnum sp hmem]
      simp [hst, hpiece sp hmem]
  · rcases Nat.lt_trichotomy p p' with hc | hc | hc
    · exact absurd (hlt p p' st st' q q hp hp' hc) (Nat.lt_irrefl _)
    · exact hc
    · exact absurd (hlt p' p st' st q q hp' hp hc) (Nat.lt_irrefl _)
  · obtain ⟨-, -, ⟨sp, hsp, hst⟩, rfl⟩ := hbroken p st q hp
    have := (countP_take_lt (p := fun x : Spindle => decide (x.state = .broken)) hsp (by simpa using hst)).1
    rw [hcount]
    omega
  · rw [hcount]
    exact List.countP_le_length.trans hl

/-- The Spindle Table's and the Dispatcher's part of the soft reset on one side. -/
theorem softResetSpindles_queued {s : State} (side : Side) (hlen : (s.spindles.get side).length ≤ 960)
    (hs : s.Queued side) : (softResetSpindles side s).Queued side := by
  have hview : ∀ pos, (softResetSpindles side s).queueView side pos =
      if pos = 0 then none
      else ((renumberByPosition 0 ((s.spindles.get side).map (·.softReset)))[pos - 1]?).map (·.shown) := by
    intro pos
    unfold State.queueView State.spindle
    rw [softResetSpindles_spindles, Sides.get_set_same]
    split <;> rfl
  have hlist : (softResetSpindles side s).breakList.get side =
      brokenFrom 1 (renumberByPosition 0 ((s.spindles.get side).map (·.softReset))) := by
    simp [softResetSpindles]
  have htop : (softResetSpindles side s).breakSeq.get side =
      (brokenFrom 1 (renumberByPosition 0 ((s.spindles.get side).map (·.softReset)))).length := by
    simp [softResetSpindles]
  have numbered (sp : Spindle) (hsp : sp ∈ s.spindles.get side) :
      sp.seq.isSome ↔ sp.state = .broken ∨ sp.state = .piecing := by
    obtain ⟨pos, -, hpos⟩ := State.exists_spindle_of_mem hsp
    exact hs.numbered pos sp.state sp.seq (State.queueView_of_some hpos)
  unfold State.Queued
  rw [hlist, htop]
  refine Queue.byPosition (by simp; omega) (fun sp hsp => ?_) (fun sp hsp => ?_) hview
  · obtain ⟨old, hold, rfl⟩ := List.mem_map.1 hsp
    have hnum := numbered old hold
    unfold Spindle.softReset
    split
    · next h => simpa [h] using hnum
    · next h => simpa [h] using hnum
  · obtain ⟨old, -, rfl⟩ := List.mem_map.1 hsp
    unfold Spindle.softReset
    split
    · simp
    · next h => exact h

theorem softResetSpindles_otherSide {side sd : Side} (hsd : sd ≠ side) (s : State) :
    (softResetSpindles side s).spindles.get sd = s.spindles.get sd ∧
      (softResetSpindles side s).breakList.get sd = s.breakList.get sd ∧
      (softResetSpindles side s).breakSeq.get sd = s.breakSeq.get sd := by
  have hf := closePiecing_frame side s 1 (s.spindles.get side)
  refine ⟨by rw [softResetSpindles_spindles, Sides.get_set_other _ _ _ _ hsd], ?_, ?_⟩
  · change (((closePiecing side 1 (s.spindles.get side) s).breakList.set side _).get sd) = _
    rw [Sides.get_set_other _ _ _ _ hsd, hf .breakList (by decide)]
  · change (((closePiecing side 1 (s.spindles.get side) s).breakSeq.set side _).get sd) = _
    rw [Sides.get_set_other _ _ _ _ hsd, hf .breakSeq (by decide)]

theorem softResetSpindles_queues (side : Side) (s : State) : Queues s (softResetSpindles side s) := by
  intro sd
  refine ⟨((softResetSpindles_records (x := 0) (cap := 0) side s) sd).1, fun hlen hs => ?_⟩
  by_cases hsd : sd = side
  · subst hsd
    exact softResetSpindles_queued sd hlen hs
  · obtain ⟨h1, h2, h3⟩ := softResetSpindles_otherSide hsd s
    unfold State.Queued State.queueView State.spindle
    rw [h1, h2, h3]
    exact hs

theorem softReset_queues (s : State) : Queues s (softReset s) :=
  ((((((((((softResetCarriage_frame .a s).queues.frame (softResetCarriage_frame .b _)).trans
    (softResetSpindles_queues .a _)).trans (softResetSpindles_queues .b _)).frame (softResetDoff_frame _)).frame
    (setArticles_frame _ _)).frame (softResetRoving_frame _)).frame (softResetTrain_frame _)).frame
    (softResetSpeed_frame _)).frame (setLine_frame _ _))

/-! ## Every step -/

/-- Each side is of at most 20 sections, and its break list is in order. -/
def InQueue (s : State) : Prop := ∀ side, (s.spindles.get side).length ≤ 960 ∧ s.Queued side

theorem InQueue.queues {s t : State} (hs : InQueue s) (h : Queues s t) : InQueue t := fun side => by
  obtain ⟨hlen, hq⟩ := hs side
  exact ⟨(h side).1.le.trans hlen, (h side).2 hlen hq⟩

theorem Op.inQueue {ps : List Part} {s t : State} (h : Op ps s t) (hs : InQueue s) : InQueue t := by
  rcases h.queues with h | ⟨side, n, hn, rfl⟩
  · exact hs.queues h
  · refine fun sd => ⟨?_, changeSections_queued side n (fun sd => (hs sd).2) sd⟩
    rw [changeSections_spindles]
    by_cases hsd : sd = side
    · subst hsd
      rw [Sides.get_set_same, length_take_append_replicate]
      omega
    · rw [Sides.get_set_other _ _ _ _ hsd]
      exact (hs sd).1

theorem InQueue.frame {ps : List Part} {s t : State} (hs : InQueue s) (h : OnlyChanges ps s t)
    (h1 : .spindles ∉ ps := by decide) (h2 : .breakList ∉ ps := by decide) (h3 : .breakSeq ∉ ps := by decide) :
    InQueue t := hs.queues (h.queues h1 h2 h3)

/-- A side on which every spindle has just been formed. -/
theorem queued_of_formed {s : State} {side : Side} (h : ∀ sp ∈ s.spindles.get side, sp = Spindle.formed 0)
    (hlist : s.breakList.get side = []) (htop : s.breakSeq.get side = 0) : s.Queued side := by
  have view {pos : Nat} {x : SpState × Option Nat} (hx : s.queueView side pos = some x) : x = (.running, none) := by
    obtain ⟨sp, hsp, rfl⟩ := State.queueView_eq_some.1 hx
    rw [h sp (State.mem_of_spindle hsp)]
    rfl
  unfold State.Queued
  rw [hlist, htop]
  refine ⟨.nil, fun pos => ⟨fun hp => absurd hp List.not_mem_nil, ?_⟩, fun pos st q hx => ?_, fun p p' st st' q hx => ?_,
    fun pos st q hx => ?_, by omega⟩
  · rintro ⟨q, hq⟩
    cases view hq
  · obtain ⟨rfl, rfl⟩ := Prod.mk.inj (view hx)
    simp
  · cases view hx
  · cases view hx

theorem Happens.queued {s t : State} (h : Happens s t) (hs : InQueue s) (side : Side) : t.Queued side := by
  cases h with
  | ops h => exact (h.keeps Op.inQueue hs side).2
  | powerOn => exact queued_of_formed (by cases side <;> exact List.forall_mem_nil _) (by cases side <;> rfl) (by cases side <;> rfl)
  | release => exact (hs side).2
  | record => exact (hs side).2
  | loadEnd =>
    exact queued_of_formed (fun sp hsp => formedState_mem hsp) (by cases side <;> rfl) (by cases side <;> rfl)
  | pulse _ _ h => exact ((h.keeps Op.inQueue (hs.frame (setRoller_frame s _))) side).2
  | receive bytes => exact ((hs.frame (receive_frame bytes s)) side).2
  | late => exact ((hs.frame ((setLine_frame s _).next (discard_frame _ _))) side).2
  | replySent => exact (hs side).2
  | reply r h _ _ hops =>
    exact (((hops.keeps Op.inQueue (hs.frame (holdRequest_onlyChanges r s))).frame (beginReply_frame _ h)) side).2
  | softReset => exact ((hs.queues (softReset_queues s)) side).2

/-- Settles O9: a record moves with its place in the list, and a renumbering keeps the order. -/
theorem breakListLawIsKept : Obligations.BreakListLawIsKept := by
  unfold Obligations.BreakListLawIsKept
  intro s t hitems htable hbreak hstep
  obtain ⟨rest, h⟩ := step_happens hstep
  have hlaw := (breakLaw_iff s).1 hbreak
  have hshape := ((tableLaw_iff s).1 htable).1
  have hsections (side : Side) : s.items.sections.get side ≤ 20 := by
    obtain ⟨hrange, -⟩ := hitems
    have h1 := hrange 0x01 (by decide)
    have h2 := hrange 0x02 (by decide)
    simp only [configRange, Items.value, Bool.and_eq_true, decide_eq_true_eq] at h1 h2
    cases side
    exacts [h1.2, h2.2]
  have hs : InQueue (s.setPending rest) := fun side => by
    refine ⟨?_, hlaw side⟩
    have hshown : s.sectionsShown side ≤ 20 := by
      unfold State.sectionsShown
      split
      · exact hsections side
      · exact Nat.zero_le _
    have := (hshape side).1
    change (s.spindles.get side).length ≤ 960
    omega
  exact (breakLaw_iff t).2 fun side => h.queued hs side

end Sys2Proof.Machine
end

