-- ==== Sys2Proof/Proofs/CarriagesAndDoff.lean ====
section
/-!
PROOFS. The carriages in step with the PIECING spindles and the doff in step with its frame state (O10). The carriage of a
side sees of its spindles which one is PIECING, so each operation is read as a change of that and of the record.
-/
namespace Sys2Proof.Machine

-- One after another: each theorem as a task of its own takes a thread.
set_option Elab.async false

/-! ## A carriage and its spindle -/

/-- The spindle of a carriage's piece order is the one PIECING spindle of its side, and the record is one that R68
allows. -/
def State.Carried (s : State) (side : Side) : Prop :=
  (∀ pos, s.spState ⟨side, pos⟩ = some .piecing ↔ (s.carriages.get side).pieceTarget = some pos) ∧
    (s.carriages.get side).Fits

theorem carriageLaw_iff (s : State) : CarriageLaw s ↔ ∀ side, s.Carried side := by
  have one (side : Side) :
      ((∀ pos ∈ List.range' 1 (s.spindles.get side).length, ∀ sp ∈ s.spindle side pos,
        (sp.state = .piecing ↔ (s.carriages.get side).pieceTarget = some pos)) ∧
      (∀ pos ∈ (s.carriages.get side).pieceTarget, (s.spindle side pos).isSome) ∧
      (s.carriages.get side).Fits) ↔ s.Carried side := by
    rw [← and_assoc]
    refine and_congr_left fun _ => ⟨fun ⟨h1, h2⟩ pos => ⟨fun h => ?_, fun h => ?_⟩, fun h => ⟨fun pos _ sp hsp => ?_,
      fun pos hpos => ?_⟩⟩
    · obtain ⟨sp, hsp, hst⟩ := State.spState_eq_some.1 h
      have hpos := State.spindle_isSome_iff.1 (by rw [hsp]; rfl : (s.spindle side pos).isSome = true)
      exact (h1 pos (List.mem_range'_1.2 (by omega)) sp hsp).1 hst
    · obtain ⟨sp, hsp⟩ := Option.isSome_iff_exists.1 (h2 pos h)
      have hpos := State.spindle_isSome_iff.1 (by rw [hsp]; rfl : (s.spindle side pos).isSome = true)
      exact State.spState_eq_some.2 ⟨sp, hsp, (h1 pos (List.mem_range'_1.2 (by omega)) sp hsp).2 h⟩
    · rw [← h pos, State.spState_of_some (x := ⟨side, pos⟩) hsp, Option.some.injEq]
    · obtain ⟨sp, hsp, -⟩ := State.spState_eq_some.1 ((h pos).2 hpos)
      rw [hsp]; rfl
  exact (and_congr (one .a) (one .b)).trans ⟨fun ⟨ha, hb⟩ side => by cases side; exacts [ha, hb], fun h => ⟨h .a, h .b⟩⟩

/-- The law of each carriage is kept, and none that rests takes an order. -/
def Carries (s t : State) : Prop :=
  ∀ side, s.Carried side → t.Carried side ∧ ((s.carriages.get side).order = none → (t.carriages.get side).order = none)

theorem Carries.trans {s t u : State} (h1 : Carries s t) (h2 : Carries t u) : Carries s u := fun side hs =>
  ⟨(h2 side (h1 side hs).1).1, fun ho => (h2 side (h1 side hs).1).2 ((h1 side hs).2 ho)⟩

/-- The same spindles are PIECING. -/
def SamePiecing (s t : State) : Prop := ∀ x, t.spState x = some .piecing ↔ s.spState x = some .piecing

theorem SamePiecing.carries {s t : State} {ps : List Part} (h : SamePiecing s t) (hf : OnlyChanges ps s t)
    (hc : .carriages ∉ ps := by decide) : Carries s t := by
  intro side hs
  unfold State.Carried
  rw [hf .carriages hc]
  exact ⟨⟨fun pos => (h _).trans (hs.1 pos), hs.2⟩, id⟩

theorem SamePiecing.of_frame {s t : State} {ps : List Part} (hf : OnlyChanges ps s t)
    (h : .spindles ∉ ps := by decide) : SamePiecing s t := fun x => by rw [hf.spState h]

theorem SamePiecing.trans {s t u : State} (h1 : SamePiecing s t) (h2 : SamePiecing t u) : SamePiecing s u :=
  fun x => (h2 x).trans (h1 x)

theorem OnlyChanges.carries {ps : List Part} {s t : State} (hf : OnlyChanges ps s t)
    (h : .spindles ∉ ps := by decide) (hc : .carriages ∉ ps := by decide) : Carries s t :=
  (SamePiecing.of_frame hf h).carries hf hc

theorem Carries.frame {ps : List Part} {s t u : State} (h : Carries s t) (hf : OnlyChanges ps t u)
    (h1 : .spindles ∉ ps := by decide) (h2 : .carriages ∉ ps := by decide) : Carries s u := h.trans (hf.carries h1 h2)

theorem Carries.refl (s : State) : Carries s s := (OnlyChanges.refl [] s).carries

/-- The changes of a record that neither begin nor end a piecing. -/
def unpiecedChanges : List ChangeKind :=
  [.close, .clamp, .zeroCop, .renumber, .resequence, .seed, .mark, .join, .renew, .piece, .wait, .unpark]

theorem Change.piecing_iff {x cap : Nat} {k : ChangeKind} {a b : Spindle} (hk : k ∈ unpiecedChanges)
    (h : Change x cap k a b) : b.state = .piecing ↔ a.state = .piecing := by
  cases h with
  | close art => unfold Spindle.close; split <;> rfl
  | clamp | zeroCop | renumber | seed | mark | resequence => rfl
  | join _ _ _ _ h => rcases h with h | h <;> simp [Spindle.joined, h]
  | renew _ _ _ _ h | unpark _ _ _ _ h => simp [Spindle.joined, h]
  | piece _ h => simp [Spindle.piecedOpen, Spindle.pieced, h]
  | wait _ h => simp [h]
  | order | giveBack | pieceOrdered | lock | park => simp [unpiecedChanges] at hk

theorem Records.samePiecing {x cap : Nat} {s t : State} (h : Records x cap unpiecedChanges s t) : SamePiecing s t := by
  intro y
  cases hold : s.spindle y.side y.pos with
  | none =>
    have hnew : t.spindle y.side y.pos = none := by
      rw [← Option.not_isSome_iff_eq_none, h.isSome_iff, hold]
      simp
    simp [State.spState, hold, hnew]
  | some sp =>
    obtain ⟨sp', hsp', hr⟩ := h.exists_of_old hold
    rw [State.spState_of_some hold, State.spState_of_some hsp', Option.some.injEq, Option.some.injEq]
    exact hr.keeps (P := fun b => b.state = .piecing ↔ sp.state = .piecing)
      (fun hk hc hb => (hc.piecing_iff hk).trans hb) Iff.rfl

/-- Changes of the records alone. -/
theorem Records.carries {x cap : Nat} {s t : State} {ps : List Part} (h : Records x cap unpiecedChanges s t)
    (hf : OnlyChanges ps s t) (hc : .carriages ∉ ps := by decide) : Carries s t := h.samePiecing.carries hf hc

/-! ## One carriage changed -/

theorem modifyCarriage_get (side : Side) (f : Carriage → Carriage) (s : State) :
    (modifyCarriage side f s).carriages.get side = f (s.carriages.get side) := by simp [modifyCarriage]

theorem modifyCarriage_get_other {side sd : Side} (h : sd ≠ side) (f : Carriage → Carriage) (s : State) :
    (modifyCarriage side f s).carriages.get sd = s.carriages.get sd := by
  simp [modifyCarriage, Sides.get_modify_other _ _ _ _ h]

@[simp] theorem modifyCarriage_spState (side : Side) (f : Carriage → Carriage) (s : State) :
    (modifyCarriage side f s).spState = s.spState := (modifyCarriage_frame side s f).spState

/-- A change of one carriage that leaves its law and takes no order. -/
theorem modifyCarriage_carries {side : Side} {f : Carriage → Carriage} {s : State}
    (htarget : s.Carried side → (f (s.carriages.get side)).pieceTarget = (s.carriages.get side).pieceTarget)
    (horder : s.Carried side → (s.carriages.get side).order = none → (f (s.carriages.get side)).order = none)
    (hfits : s.Carried side → (f (s.carriages.get side)).Fits) : Carries s (modifyCarriage side f s) := by
  intro sd hs
  by_cases hsd : sd = side
  · subst hsd
    unfold State.Carried
    rw [modifyCarriage_get, modifyCarriage_spState, htarget hs]
    exact ⟨⟨hs.1, hfits hs⟩, horder hs⟩
  · unfold State.Carried
    rw [modifyCarriage_get_other hsd, modifyCarriage_spState]
    exact ⟨hs, id⟩

/-- A carriage that has no piece order has no PIECING spindle. -/
theorem State.Carried.none_piecing {s : State} {side : Side} (h : s.Carried side)
    (hn : (s.carriages.get side).pieceTarget = none) (pos : Nat) : s.spState ⟨side, pos⟩ ≠ some .piecing := by
  rw [ne_eq, h.1 pos, hn]
  simp

/-- A carriage in any other state than SERVING has no piece order (R68). -/
theorem Carriage.Fits.pieceTarget_none {c : Carriage} (h : c.Fits) (hst : c.state ≠ .serving) : c.pieceTarget = none := by
  have horder := h.1
  unfold Carriage.orderFits at horder
  unfold Carriage.pieceTarget
  split
  · next t o k ho =>
    exfalso
    split at horder <;> simp_all [Carriage.onLeg]
  · rfl

/-- The carriage at rest: no order and no return. -/
theorem Carriage.Fits.order_none {c : Carriage} (h : c.Fits)
    (hst : c.state = .absent ∨ c.state = .homing ∨ c.state = .ready ∨ c.state = .held ∨ c.state = .fault) :
    c.order = none ∧ c.returning = false := by
  have horder := h.1
  unfold Carriage.orderFits at horder
  rcases hst with hst | hst | hst | hst | hst <;> simp_all

theorem Carriage.settled_fits {c : Carriage} {x : Option Nat} (hx : x.isSome) :
    ({ c with state := c.settled, x := x, order := none, returning := false, timer := none } : Carriage).Fits := by
  unfold Carriage.settled
  cases hh : c.hostHold <;> cases hd : c.doffHold <;>
    simp [Carriage.Fits, Carriage.orderFits, Carriage.timerKind, hx]

/-- A carriage whose work ends without a piece order. -/
theorem carriageSettles_carries {side : Side} {x : Option Nat} {s : State}
    (hst : (s.carriages.get side).pieceTarget = none) (hx : s.Carried side → x.isSome) :
    Carries s (carriageSettles side x s) :=
  modifyCarriage_carries (fun _ => by rw [hst]; rfl) (fun _ _ => rfl) fun hs => Carriage.settled_fits (hx hs)

/-! ## A carriage that drops its order -/

/-- On one side the carriage drops what it holds and no spindle is PIECING; the other side is as it was. -/
theorem carries_of_idle {side : Side} {s t : State}
    (hpiece : s.Carried side → ∀ pos, t.spState ⟨side, pos⟩ ≠ some .piecing)
    (hcar : s.Carried side → (t.carriages.get side).order = none ∧ (t.carriages.get side).Fits)
    (hother : ∀ sd, sd ≠ side → (∀ pos, t.spState ⟨sd, pos⟩ = s.spState ⟨sd, pos⟩) ∧
      t.carriages.get sd = s.carriages.get sd) : Carries s t := by
  intro sd hs
  by_cases hsd : sd = side
  · subst hsd
    obtain ⟨horder, hfits⟩ := hcar hs
    refine ⟨⟨fun pos => iff_of_false (hpiece hs pos) ?_, hfits⟩, fun _ => horder⟩
    simp [Carriage.pieceTarget, horder]
  · obtain ⟨hstate, hsame⟩ := hother sd hsd
    unfold State.Carried
    rw [hsame]
    exact ⟨⟨fun pos => by rw [hstate]; exact hs.1 pos, hs.2⟩, id⟩

theorem returnSpindle_spState {side : Side} {pos : Nat} {s : State} (h : s.spState ⟨side, pos⟩ = some .piecing) :
    (returnSpindle side pos s).spState = Function.update s.spState ⟨side, pos⟩ (some .broken) := by
  obtain ⟨sp, hsp, hst⟩ := State.spState_eq_some.1 h
  unfold returnSpindle
  rw [hsp]
  dsimp only
  rw [if_pos hst, writeSpindle_spState (x := ⟨side, pos⟩) _ hsp]
  rfl

/-- The one PIECING spindle of a side set to another state leaves none. -/
theorem State.Carried.update_not_piecing {s : State} {side : Side} {target : Nat} (h : s.Carried side)
    (ht : (s.carriages.get side).pieceTarget = some target) {st : SpState} (hst : st ≠ .piecing) (pos : Nat) :
    Function.update s.spState ⟨side, target⟩ (some st) ⟨side, pos⟩ ≠ some .piecing := by
  by_cases hp : pos = target
  · subst hp
    simp [hst]
  · rw [Function.update_of_ne (by simpa using hp), ne_eq, h.1 pos, ht, Option.some.injEq]
    exact fun e => hp e.symm

theorem update_otherSide {f : SpRef → Option SpState} {side sd : Side} (h : sd ≠ side) (target pos : Nat)
    (st : Option SpState) : Function.update f ⟨side, target⟩ st ⟨sd, pos⟩ = f ⟨sd, pos⟩ :=
  Function.update_of_ne (by simp [h]) _ _

/-- What is left after the order has been dropped: on this side nothing PIECING, the record but for order, return and
withdrawn spindle, and the other side (R69, R71, R77). -/
theorem dropWork_idle (side : Side) (s : State) :
    (s.Carried side → ∀ pos, (dropWork side s).spState ⟨side, pos⟩ ≠ some .piecing) ∧
    (∃ w, (dropWork side s).carriages.get side =
      { s.carriages.get side with order := none, returning := false, withdrawn := w }) ∧
    ∀ sd, sd ≠ side → (∀ pos, (dropWork side s).spState ⟨sd, pos⟩ = s.spState ⟨sd, pos⟩) ∧
      (dropWork side s).carriages.get sd = s.carriages.get sd := by
  have hcar (pos : Nat) : (returnSpindle side pos s).carriages = s.carriages :=
    returnSpindle_frame side pos s .carriages (by decide)
  unfold dropWork
  split
  · next target ht =>
    refine ⟨fun hs pos => ?_, ⟨some target, by rw [modifyCarriage_get, hcar]⟩, fun sd hsd => ⟨fun pos => ?_, ?_⟩⟩
    · rw [modifyCarriage_spState, returnSpindle_spState ((hs.1 target).2 ht)]
      exact hs.update_not_piecing ht (by simp) pos
    · rw [modifyCarriage_spState]
      unfold returnSpindle
      split
      · rfl
      · next sp hsp =>
        split
        · rw [writeSpindle_spState (x := ⟨side, target⟩) _ hsp, update_otherSide hsd]
        · rfl
    · rw [modifyCarriage_get_other hsd, hcar]
  · next ht =>
    refine ⟨fun hs pos => ?_, ⟨(s.carriages.get side).withdrawn, by rw [modifyCarriage_get]⟩,
      fun sd hsd => ⟨fun pos => by rw [modifyCarriage_spState], modifyCarriage_get_other hsd _ _⟩⟩
    rw [modifyCarriage_spState]
    exact hs.none_piecing ht pos

/-- A carriage that has dropped its order takes a state without one. -/
theorem dropWork_then_carries {side : Side} {s : State} {f : Carriage → Carriage} {t : State} {ps : List Part}
    (hf : OnlyChanges ps (modifyCarriage side f (dropWork side s)) t)
    (hfits : ∀ w, (f { s.carriages.get side with order := none, returning := false, withdrawn := w }).order = none ∧
      (f { s.carriages.get side with order := none, returning := false, withdrawn := w }).Fits)
    (h1 : .spindles ∉ ps := by decide) (h2 : .carriages ∉ ps := by decide) : Carries s t := by
  obtain ⟨hpiece, ⟨w, hw⟩, hother⟩ := dropWork_idle side s
  have hcar : t.carriages = (modifyCarriage side f (dropWork side s)).carriages := hf .carriages h2
  have hstate : t.spState = (dropWork side s).spState := (hf.spState h1).trans (modifyCarriage_spState _ _ _)
  refine carries_of_idle (side := side) (fun hs pos => ?_) (fun _ => ?_) fun sd hsd => ?_
  · rw [hstate]
    exact hpiece hs pos
  · rw [hcar, modifyCarriage_get, hw]
    exact hfits w
  · rw [hstate, hcar, modifyCarriage_get_other hsd]
    exact hother sd hsd

section
variable {s : State} {side : Side} {pos : Nat}

theorem Carriage.homing_fits (c : Carriage) (t : Nat) :
    ({ c with
      state := .homing, x := none, order := none, returning := false, timer := some ⟨.homing, t⟩ } : Carriage).Fits := by
  simp [Carriage.Fits, Carriage.orderFits, Carriage.timerKind]

theorem Carriage.fault_fits (c : Carriage) :
    ({ c with state := .fault, timer := none, order := none, returning := false } : Carriage).Fits := by
  simp [Carriage.Fits, Carriage.orderFits, Carriage.timerKind]

theorem startHoming_carries (hst : (s.carriages.get side).state ≠ .serving) : Carries s (startHoming side s) := by
  refine Carries.frame (modifyCarriage_carries (fun hs => ?_) (fun _ _ => rfl) fun _ => Carriage.homing_fits _ _)
    (sendHome_frame _ _)
  rw [hs.2.pieceTarget_none hst]
  rfl

theorem carriageArrives_carries : Carries s (carriageArrives side s) := by
  have h : Carries s (startHoming side (dropWork side s)) :=
    dropWork_then_carries (sendHome_frame _ _) fun w => ⟨rfl, Carriage.homing_fits _ _⟩
  unfold carriageArrives
  dsimp only
  split
  · exact h
  · exact h.frame (raise_frame _ _)

theorem carriageTimeout_carries (k : TimerKind) : Carries s (carriageTimeout side k s) := by
  unfold carriageTimeout
  split
  · exact dropWork_then_carries (raise_frame _ _) fun w => ⟨rfl, Carriage.fault_fits _⟩
  · exact .refl s

theorem carriageSilent_carries : Carries s (carriageSilent side s) :=
  dropWork_then_carries (raise_frame _ _) fun w =>
    ⟨rfl, by simp [Carriage.Fits, Carriage.orderFits, Carriage.timerKind]⟩

/-- A carriage with an order stands somewhere (R68). -/
theorem Carriage.Fits.x_of_order {c : Carriage} (h : c.Fits) (ho : c.order ≠ none) : c.x.isSome := by
  obtain ⟨horder, -, -, -, -, hx⟩ := h
  refine hx ?_
  cases hst : c.state with
  | moving => simp
  | serving => simp
  | absent | homing | ready | held | fault => simp [Carriage.orderFits, hst, ho] at horder

theorem Carriage.cancelled_fits {c : Carriage} (hx : c.x.isSome) (t : Nat) (w : Option Nat) :
    ({ c with
      state := .moving, order := none, returning := true, timer := some ⟨.returning, t⟩, withdrawn := w } :
      Carriage).Fits := by
  simp [Carriage.Fits, Carriage.orderFits, Carriage.timerKind, hx]

/-- A withdrawal with CANCEL of an order that is no piece order (R78). -/
theorem cancelOrder_carries (w : Option Nat) (ht : (s.carriages.get side).pieceTarget = none)
    (ho : (s.carriages.get side).order ≠ none) : Carries s (cancelOrder side w s) :=
  Carries.frame (modifyCarriage_carries (fun _ => by rw [ht]; rfl) (fun _ _ => rfl) fun hs =>
    Carriage.cancelled_fits (hs.2.x_of_order ho) _ _) (sendCarriage_frame _ _ _)

theorem Carriage.pieceTarget_of_order {c : Carriage} {t : Nat} {o : Int} {k : PieceKind}
    (h : c.order = some (.piece t o k)) : c.pieceTarget = some t := by simp [Carriage.pieceTarget, h]

theorem withdrawForDoff_carries : Carries s (withdrawForDoff side s) := by
  unfold withdrawForDoff
  dsimp only
  split
  · exact .refl s
  · next ho => exact cancelOrder_carries _ (by simp [Carriage.pieceTarget, ho]) (by simp [ho])
  · next ho => exact cancelOrder_carries _ (by simp [Carriage.pieceTarget, ho]) (by simp [ho])
  · next target o k ho =>
    have ht := Carriage.pieceTarget_of_order ho
    have hcar : (returnSpindle side target s).carriages = s.carriages :=
      returnSpindle_frame side target s .carriages (by decide)
    have hstate : (cancelOrder side (some target) (returnSpindle side target s)).spState =
        (returnSpindle side target s).spState := (cancelOrder_frame side _ _).spState
    refine carries_of_idle (side := side) (fun hs pos => ?_) (fun hs => ?_) fun sd hsd => ⟨fun pos => ?_, ?_⟩
    · rw [hstate, returnSpindle_spState ((hs.1 target).2 ht)]
      exact hs.update_not_piecing ht (by simp) pos
    · rw [show (cancelOrder side (some target) (returnSpindle side target s)).carriages.get side = _ from
        modifyCarriage_get side _ _, hcar]
      exact ⟨rfl, Carriage.cancelled_fits (hs.2.x_of_order (by simp [ho])) _ _⟩
    · rw [hstate]
      unfold returnSpindle
      split
      · rfl
      · next sp hsp =>
        split
        · rw [writeSpindle_spState (x := ⟨side, target⟩) _ hsp, update_otherSide hsd]
        · rfl
    · rw [show (cancelOrder side (some target) (returnSpindle side target s)).carriages.get sd = _ from
        modifyCarriage_get_other hsd _ _, hcar]

/-- At entry to DOFFING no carriage keeps an order (R94). -/
theorem withdrawForDoff_order : ((withdrawForDoff side s).carriages.get side).order = none := by
  have cancelled (w : Option Nat) (u : State) : ((cancelOrder side w u).carriages.get side).order = none := by
    rw [show (cancelOrder side w u).carriages.get side = _ from modifyCarriage_get side _ _]
  unfold withdrawForDoff
  dsimp only
  split
  · assumption
  all_goals exact cancelled _ _

/-! ## Holds -/

/-- A hold set: a READY carriage becomes HELD (R80). -/
theorem Carriage.Fits.hold {c : Carriage} (hc : c.Fits) {h d : Bool} (hset : h = true ∨ d = true) :
    ({ c with hostHold := h, doffHold := d } : Carriage).nowHeld.Fits := by
  obtain ⟨h1, h2, h3, h4, h5, h6⟩ := hc
  unfold Carriage.nowHeld
  split
  · next hst =>
    simp only at hst
    simp only [Carriage.orderFits, Carriage.timerKind, hst] at h1 h2
    exact ⟨h1, h2, by simp, fun _ => hset, by simp, fun _ => h6 (.inl hst)⟩
  · next hst => exact ⟨h1, h2, fun hr => absurd hr hst, fun _ => hset, h5, h6⟩

/-- A hold cleared: a HELD carriage without a hold becomes READY (R80). -/
theorem Carriage.Fits.free {c : Carriage} (hc : c.Fits) {h d : Bool} (hready : c.state = .ready → h = false ∧ d = false) :
    ({ c with hostHold := h, doffHold := d } : Carriage).nowFree.Fits := by
  obtain ⟨h1, h2, h3, h4, h5, h6⟩ := hc
  unfold Carriage.nowFree
  split
  · next hst =>
    obtain ⟨hst, hh, hd⟩ := hst
    simp only at hst hh hd
    simp only [Carriage.orderFits, Carriage.timerKind, hst] at h1 h2
    exact ⟨h1, h2, fun _ => ⟨by simpa using hh, by simpa using hd⟩, by simp, by simp, fun _ => h6 (.inr (.inl hst))⟩
  · next hst =>
    refine ⟨h1, h2, hready, fun hheld => ?_, h5, h6⟩
    simp only [not_and_or] at hst
    rcases hst with hst | hst | hst
    · exact absurd hheld hst
    · exact .inl (by simpa using hst)
    · exact .inr (by simpa using hst)

theorem Carriage.nowHeld_order (c : Carriage) : c.nowHeld.order = c.order := by
  unfold Carriage.nowHeld
  split <;> rfl

theorem Carriage.nowFree_order (c : Carriage) : c.nowFree.order = c.order := by
  unfold Carriage.nowFree
  split <;> rfl

theorem Carriage.pieceTarget_congr {c d : Carriage} (h : c.order = d.order) : c.pieceTarget = d.pieceTarget := by
  unfold Carriage.pieceTarget
  rw [h]

theorem setHostHold_carries : Carries s (setHostHold side s) :=
  modifyCarriage_carries (fun _ => Carriage.pieceTarget_congr (Carriage.nowHeld_order _))
    (fun _ ho => (Carriage.nowHeld_order _).trans ho) fun hs => hs.2.hold (.inl rfl)

theorem setDoffHold_carries : Carries s (setDoffHold side s) :=
  modifyCarriage_carries (fun _ => Carriage.pieceTarget_congr (Carriage.nowHeld_order _))
    (fun _ ho => (Carriage.nowHeld_order _).trans ho) fun hs => hs.2.hold (.inr rfl)

theorem clearDoffHold_carries : Carries s (clearDoffHold side s) :=
  modifyCarriage_carries (fun _ => Carriage.pieceTarget_congr (Carriage.nowFree_order _))
    (fun _ ho => (Carriage.nowFree_order _).trans ho) fun hs => hs.2.free fun hst => ⟨(hs.2.2.2.1 hst).1, rfl⟩

theorem clearDoffHolds_carries : Carries s (clearDoffHolds s) := clearDoffHold_carries.trans clearDoffHold_carries

theorem hostFree_carries :
    Carries s (modifyCarriage side (fun c => ({ c with hostHold := false } : Carriage).nowFree) s) :=
  modifyCarriage_carries (fun _ => Carriage.pieceTarget_congr (Carriage.nowFree_order _))
    (fun _ ho => (Carriage.nowFree_order _).trans ho) fun hs => hs.2.free fun hst => ⟨rfl, (hs.2.2.2.1 hst).2⟩

/-! ## Outcomes -/

/-- A carriage that is HOMING or MOVING has no piece order. -/
theorem State.Carried.unordered (hs : s.Carried side)
    (hst : (s.carriages.get side).state = .homing ∨ (s.carriages.get side).state = .moving) :
    (s.carriages.get side).pieceTarget = none :=
  hs.2.pieceTarget_none (by rcases hst with hst | hst <;> simp [hst])

theorem settleAt_carries {x : Option Nat} (d : Dir)
    (hst : (s.carriages.get side).state = .homing ∨ (s.carriages.get side).state = .moving)
    (hx : x.isSome ∨ (s.carriages.get side).state = .moving ∧ x = (s.carriages.get side).x) :
    Carries s (settleAt side x d s) := by
  have heq : settleAt side x d s = modifyCarriage side
      (fun c => { c with d := d, state := c.settled, x := x, order := none, returning := false, timer := none }) s := by
    simp only [settleAt, carriageSettles, modifyCarriage, State.setCarriages]
    cases side <;> rfl
  rw [heq]
  refine modifyCarriage_carries (fun hs => by rw [hs.unordered hst]; rfl) (fun _ _ => rfl) fun hs => ?_
  refine Carriage.settled_fits (c := { s.carriages.get side with d := d }) ?_
  rcases hx with hx | ⟨hmove, rfl⟩
  · exact hx
  · exact hs.2.2.2.2.2.2 (.inr (.inr (.inl hmove)))

theorem loseCarriage_carries
    (hst : (s.carriages.get side).state = .homing ∨ (s.carriages.get side).state = .moving) :
    Carries s (loseCarriage side s) := by
  have heq : modifyCarriage side (fun c => { c with state := .fault, timer := none, order := none, returning := false })
      (modifyCarriage side (fun c => { c with x := none }) s) = modifyCarriage side
      (fun c => { c with x := none, state := .fault, timer := none, order := none, returning := false }) s := by
    simp only [modifyCarriage, State.setCarriages]
    cases side <;> rfl
  unfold loseCarriage carriageFaults
  rw [heq]
  refine Carries.frame (modifyCarriage_carries (fun hs => by rw [hs.unordered hst]; rfl) (fun _ _ => rfl) fun _ => ?_)
    (raise_frame _ _)
  exact Carriage.fault_fits { s.carriages.get side with x := none }

/-- The order's spindle is no more PIECING and the carriage settles at its place. -/
theorem settled_carries {t : State} {ps : List Part} (ht : (s.carriages.get side).pieceTarget = some pos)
    {st : SpState} (hst : st ≠ .piecing)
    (hstate : s.Carried side → t.spState = Function.update s.spState ⟨side, pos⟩ (some st))
    (hf : OnlyChanges ps s t) (hc : .carriages ∉ ps := by decide)
    (hother : ∀ sd, sd ≠ side → ∀ p, t.spState ⟨sd, p⟩ = s.spState ⟨sd, p⟩) :
    Carries s (carriageSettles side (some pos) t) := by
  have hcar : t.carriages = s.carriages := hf .carriages hc
  have hsettle : (carriageSettles side (some pos) t).spState = t.spState := modifyCarriage_spState _ _ _
  refine carries_of_idle (side := side) (fun hs p => ?_) (fun _ => ?_) fun sd hsd => ⟨fun p => ?_, ?_⟩
  · rw [hsettle, hstate hs]
    exact hs.update_not_piecing ht hst p
  · rw [carriageSettles, modifyCarriage_get, hcar]
    exact ⟨rfl, Carriage.settled_fits rfl⟩
  · rw [hsettle]
    exact hother sd hsd p
  · rw [carriageSettles, modifyCarriage_get_other hsd, hcar]

theorem spState_otherSide {t : State} (h : OtherSideSame side s t) (sd : Side) (hsd : sd ≠ side) (p : Nat) :
    t.spState ⟨sd, p⟩ = s.spState ⟨sd, p⟩ := by
  obtain ⟨hspindles, -⟩ := h sd hsd
  simp only [State.spState, State.spindle, hspindles]

/-- The spindle of a piece order is PIECING (R68). -/
theorem State.Carried.target (hs : s.Carried side) (ht : (s.carriages.get side).pieceTarget = some pos) {sp : Spindle}
    (hsp : s.spindle side pos = some sp) : sp.state = .piecing := by
  have h := (hs.1 pos).2 ht
  rw [State.spState_of_some (x := ⟨side, pos⟩) hsp] at h
  exact Option.some.inj h

theorem State.Carried.target_isSome (hs : s.Carried side) (ht : (s.carriages.get side).pieceTarget = some pos) :
    s.spindle side pos ≠ none := by
  obtain ⟨sp, hsp, -⟩ := State.spState_eq_some.1 ((hs.1 pos).2 ht)
  rw [hsp]
  simp

theorem pieceDone_carries (ht : (s.carriages.get side).pieceTarget = some pos) : Carries s (pieceDone side pos s) := by
  unfold pieceDone
  split
  · next sp hsp =>
    split
    · refine settled_carries ht (st := .running) (by simp) (fun _ => ?_)
        ((writeSpindle_frame side pos s _).wide.next (countSide_frame _ _ _) :
          OnlyChanges [.spindles, .breakList, .bus, .shift, .line] _ _) (by decide)
        (spState_otherSide ((writeSpindle_otherSide _ _ _ _).trans (countSide_otherSide _ _ _)))
      rw [(countSide_frame _ _ _).spState, writeSpindle_spState (x := ⟨side, pos⟩) _ hsp]
      rfl
    · next hst =>
      exact settled_carries ht (st := .running) (by simp) (fun hs => absurd (hs.target ht hsp) hst) (.refl [] s)
        (by decide) fun _ _ _ => rfl
  · next hsp =>
    exact settled_carries ht (st := .running) (by simp) (fun hs => absurd hsp (hs.target_isSome ht)) (.refl [] s)
      (by decide) fun _ _ _ => rfl

/-- The write of a record that is not PIECING and does not become so. -/
theorem writeSpindle_carries {old new : Spindle} (hold : s.spindle side pos = some old)
    (hne : s.Carried side → old.state ≠ .piecing) (hnew : new.state ≠ .piecing) : Carries s (writeSpindle side pos new s) := by
  have hcar : (writeSpindle side pos new s).carriages = s.carriages := writeSpindle_frame side pos s new .carriages (by decide)
  intro sd hs
  unfold State.Carried
  rw [hcar, writeSpindle_spState (x := ⟨side, pos⟩) _ hold]
  refine ⟨⟨fun p => ?_, hs.2⟩, id⟩
  rw [← hs.1 p]
  by_cases hp : (⟨sd, p⟩ : SpRef) = ⟨side, pos⟩
  · obtain ⟨rfl, rfl⟩ := SpRef.mk.inj hp
    rw [Function.update_self, State.spState_of_some (x := ⟨sd, p⟩) hold, Option.some.injEq, Option.some.injEq]
    exact iff_of_false hnew (hne hs)
  · rw [Function.update_of_ne hp]

theorem lockSpindle_carries {old sp : Spindle} (cause : LockCause) (hold : s.spindle side pos = some old)
    (hne : s.Carried side → old.state ≠ .piecing) : Carries s (lockSpindle side pos cause sp s) :=
  (Carries.frame (writeSpindle_carries hold hne (by simp [Spindle.locked])) (raise_frame _ _)).frame (countSide_frame _ _ _)

theorem takeEndBreak_carries {sp : Spindle} (h : sp.ClosedAt side pos s) : Carries s (takeEndBreak side pos sp s) := by
  rcases takeEndBreak_cases (cap := 0) h rfl with ⟨-, heq⟩ | hr
  · rw [heq]
    obtain ⟨hsp, hst, -⟩ := h
    exact ((lockSpindle_carries _ hsp fun _ => by simp [hst]).frame (countSide_frame _ _ _)).frame (countGovernor_frame _)
  · exact hr.mono.carries (takeEndBreak_frame side pos s sp)

/-- A judged spindle is BROKEN or LOCKED (R75). -/
theorem judgeAttempts_spState {old sp : Spindle} (hold : s.spindle side pos = some old) :
    ∃ st, st ≠ .piecing ∧ (judgeAttempts side pos sp s).spState = Function.update s.spState ⟨side, pos⟩ (some st) := by
  unfold judgeAttempts
  split
  · exact ⟨.broken, by simp, writeSpindle_spState (x := ⟨side, pos⟩) _ hold⟩
  split
  · refine ⟨.locked, by simp, ?_⟩
    have hframe : OnlyChanges [.line, .shift] (writeSpindle side pos (sp.locked .pieceFail) s)
        (lockSpindle side pos .pieceFail sp s) := (raise_frame _ _).wide.next (countSide_frame _ _ _)
    rw [hframe.spState, writeSpindle_spState (x := ⟨side, pos⟩) _ hold]
    rfl
  · refine ⟨.broken, by simp, ?_⟩
    rw [(raise_frame _ _).spState, writeSpindle_spState (x := ⟨side, pos⟩) _ hold]
    rfl

theorem judgeAttempts_otherSide (sp : Spindle) : OtherSideSame side s (judgeAttempts side pos sp s) := by
  unfold judgeAttempts
  split
  · exact writeSpindle_otherSide _ _ _ _
  split
  · exact (writeSpindle_otherSide _ _ _ _).trans (countSide_otherSide _ _ _)
  · exact writeSpindle_otherSide _ _ _ _

theorem pieceMissed_carries (ht : (s.carriages.get side).pieceTarget = some pos) : Carries s (pieceMissed side pos s) := by
  have hcount (u : State) : (countSide side .pieceFailure u).spState = u.spState := (countSide_frame _ _ _).spState
  unfold pieceMissed
  split
  · next sp hsp =>
    split
    · have hold : (countSide side .pieceFailure s).spindle side pos = some sp := by
        unfold State.spindle
        rw [countSide_frame side s .pieceFailure .spindles (by decide)]
        exact hsp
      obtain ⟨st, hst, heq⟩ := judgeAttempts_spState (sp := { sp with attempts := min 3 (sp.attempts + 1) }) hold
      exact settled_carries ht hst (fun _ => heq.trans (by rw [hcount]))
        ((countSide_frame side s _).wide.next (judgeAttempts_frame _ _ _ _) :
          OnlyChanges [.spindles, .breakList, .shift, .bus, .line] _ _) (by decide)
        (spState_otherSide ((countSide_otherSide _ _ _).trans (judgeAttempts_otherSide _)))
    · next hst =>
      exact settled_carries ht (st := .broken) (by simp) (fun hs => absurd (hs.target ht hsp) hst) (.refl [] s)
        (by decide) fun _ _ _ => rfl
  · next hsp =>
    exact settled_carries ht (st := .broken) (by simp) (fun hs => absurd hsp (hs.target_isSome ht)) (.refl [] s)
      (by decide) fun _ _ _ => rfl

theorem Carriage.pieceTarget_of_overtaken {c : Carriage} (h : c.overtakenTarget = some pos) : c.pieceTarget = none := by
  unfold Carriage.overtakenTarget at h
  unfold Carriage.pieceTarget
  split at h
  · next ho => rw [ho]
  · cases h

theorem overtakenDone_carries (ok : Bool) (ht : (s.carriages.get side).overtakenTarget = some pos) :
    Carries s (overtakenDone side pos ok s) := by
  have counted : OnlyChanges [.shift, .line] s (if ok then countSide side .carriagePiece s else s) := by
    split
    · exact countSide_frame _ _ _
    · exact .refl _ _
  refine counted.carries.trans (carriageSettles_carries ?_ fun _ => rfl)
  rw [counted .carriages (by decide)]
  exact Carriage.pieceTarget_of_overtaken ht

theorem lateOutcome_carries (ok : Bool) : Carries s (lateOutcome side pos ok s) := by
  have h : Carries s (modifyCarriage side (fun c => { c with withdrawn := none }) s) :=
    modifyCarriage_carries (fun _ => rfl) (fun _ ho => ho) fun hs => hs.2
  unfold lateOutcome
  dsimp only
  split
  · split
    · next sp hsp =>
      split
      · next hst =>
        exact h.trans ((writeSpindle_carries hsp (fun _ => by simp [hst]) (by simp [Spindle.pieced])).frame (countSide_frame _ _ _))
      · exact h
    · exact h
  · exact h

theorem Carriage.pieceTarget_eq_some {c : Carriage} :
    c.pieceTarget = some pos ↔ ∃ o k, c.order = some (.piece pos o k) := by
  unfold Carriage.pieceTarget
  split
  · next t o k ho => simp [ho]
  · next hno =>
    refine iff_of_false (by simp) ?_
    rintro ⟨o, k, ho⟩
    exact hno pos o k ho

/-- A carriage with a piece order is SERVING, and stays so with the order overtaken (R38). -/
theorem Carriage.Fits.overtaken {c : Carriage} (hc : c.Fits) {o : Int} {k : PieceKind}
    (ho : c.order = some (.piece pos o k)) : ({ c with order := some (.overtaken pos o k) } : Carriage).Fits := by
  obtain ⟨horder, htimer, hready, hheld, hnone, hx⟩ := hc
  have hserve : c.state = .serving := by
    cases hst : c.state <;> simp [Carriage.orderFits, Carriage.onLeg, hst, ho] at horder ⊢
  refine ⟨?_, ?_, hready, hheld, hnone, hx⟩
  · simpa [Carriage.orderFits, hserve, Carriage.overtakenTarget, Carriage.pieceTarget, ho] using horder
  · simpa [Carriage.timerKind, hserve] using htimer

/-- Yarn found on the spindle of the order held: the order is overtaken (R38). -/
theorem overtaken_carries {sp : Spindle} (hsp : s.spindle side pos = some sp) (hst : sp.state = .piecing) :
    Carries s (overtakeOrder side pos (writeSpindle side pos (sp.pieced s.flmm) s)) := by
  have hcar : (writeSpindle side pos (sp.pieced s.flmm) s).carriages = s.carriages :=
    writeSpindle_frame side pos s _ .carriages (by decide)
  have hstate := writeSpindle_spState (x := ⟨side, pos⟩) (sp.pieced s.flmm) hsp
  intro sd hs
  unfold State.Carried overtakeOrder
  rw [modifyCarriage_spState, hstate]
  by_cases hsd : sd = side
  · subst hsd
    have ht := (hs.1 pos).1 ((State.spState_of_some (x := ⟨sd, pos⟩) hsp).trans (by rw [hst]))
    obtain ⟨o, k, ho⟩ := Carriage.pieceTarget_eq_some.1 ht
    rw [modifyCarriage_get, hcar]
    simp only [ho, if_true]
    refine ⟨⟨fun p => iff_of_false (hs.update_not_piecing ht (by simp [Spindle.pieced]) p) (by simp [Carriage.pieceTarget]),
      ?_⟩, by simp⟩
    exact hs.2.overtaken ho
  · rw [modifyCarriage_get_other hsd, hcar]
    exact ⟨⟨fun p => by rw [update_otherSide hsd]; exact hs.1 p, hs.2⟩, id⟩

theorem yarnFound_carries : Carries s (yarnFound side pos s) := by
  unfold yarnFound
  split
  · exact .refl s
  · next sp hsp =>
    split
    · next hst =>
      exact (writeSpindle_carries hsp (fun _ => by simp [hst]) (by simp [Spindle.pieced])).frame (countSide_frame _ _ _)
    · next hst => exact overtaken_carries hsp hst
    all_goals exact .refl s

/-! ## Parking -/

/-- The carriage after a park of a spindle: withdrawn where it was to serve that spindle (R78). -/
theorem withdrawForPark_get : ∃ w, (withdrawForPark side pos s).carriages.get side =
    if (s.carriages.get side).pieceTarget = some pos ∨ (s.carriages.get side).overtakenTarget = some pos then
      { s.carriages.get side with
        state := .moving, order := none, returning := true, timer := some ⟨.returning, s.items.legTimeout⟩, withdrawn := w }
    else s.carriages.get side := by
  have cancelled (w : Option Nat) : (cancelOrder side w s).carriages.get side = _ := modifyCarriage_get side _ s
  unfold withdrawForPark
  dsimp only
  split
  · next h => exact ⟨some pos, by rw [if_pos (.inl h), cancelled]⟩
  · next h =>
    split
    · next h' => exact ⟨(s.carriages.get side).withdrawn, by rw [if_pos (.inr h'), cancelled]⟩
    · next h' => exact ⟨none, by rw [if_neg (by simp [h, h'])]⟩

theorem withdrawForPark_get_other {sd : Side} (h : sd ≠ side) :
    (withdrawForPark side pos s).carriages.get sd = s.carriages.get sd := by
  unfold withdrawForPark
  dsimp only
  split
  · exact modifyCarriage_get_other h _ s
  split
  · exact modifyCarriage_get_other h _ s
  · rfl

theorem parkSpindle_carriages (side : Side) (pos : Nat) (s : State) : (parkSpindle side pos s).carriages =
    (withdrawForPark side pos (closeInterval side pos (creditPossible side s))).carriages := by
  have hun (u : State) : (unlist ⟨side, pos⟩ u).carriages = u.carriages := unlist_frame u _ .carriages (by decide)
  unfold parkSpindle
  dsimp only
  split
  · exact (writeSpindle_frame _ _ _ _ .carriages (by decide)).trans (hun _)
  · exact hun _

theorem parkSpindle_carries {sp : Spindle} (hsp : s.spindle side pos = some sp) : Carries s (parkSpindle side pos s) := by
  have hv : OnlyChanges [.spindles, .breakList, .bus, .shift] s (closeInterval side pos (creditPossible side s)) :=
    (creditPossible_frame side s).wide.next (closeInterval_frame _ _ _)
  have hstate : (parkSpindle side pos s).spState = Function.update s.spState ⟨side, pos⟩ (some .parked) := by
    rw [parkSpindle_spState, if_pos (by rw [State.spState_of_some (x := ⟨side, pos⟩) hsp]; rfl)]
  intro sd hs
  unfold State.Carried
  rw [hstate, parkSpindle_carriages]
  by_cases hsd : sd = side
  · subst hsd
    obtain ⟨w, hw⟩ := withdrawForPark_get (side := sd) (pos := pos) (s := closeInterval sd pos (creditPossible sd s))
    rw [hw, hv .carriages (by decide)]
    have hpark (hne : ∀ p, p ≠ pos → (s.carriages.get sd).pieceTarget ≠ some p) (p : Nat) :
        Function.update s.spState ⟨sd, pos⟩ (some .parked) ⟨sd, p⟩ ≠ some .piecing := by
      by_cases hp : p = pos
      · subst hp
        simp
      · rw [Function.update_of_ne (by simpa using hp), ne_eq, hs.1 p]
        exact hne p hp
    split
    · next ht =>
      have horder : (s.carriages.get sd).order ≠ none := fun ho => by
        simp [Carriage.pieceTarget, Carriage.overtakenTarget, ho] at ht
      refine ⟨⟨fun p => iff_of_false (hpark (fun p hp => ?_) p) (by simp [Carriage.pieceTarget]),
        Carriage.cancelled_fits (hs.2.x_of_order horder) _ w⟩, fun _ => rfl⟩
      rcases ht with ht | ht
      · rw [ht]
        exact fun e => hp (Option.some.inj e).symm
      · rw [Carriage.pieceTarget_of_overtaken ht]
        simp
    · next ht =>
      refine ⟨⟨fun p => ?_, hs.2⟩, id⟩
      rw [← hs.1 p]
      by_cases hp : p = pos
      · subst hp
        rw [Function.update_self, hs.1 p]
        exact iff_of_false (by simp) fun e => ht (.inl e)
      · rw [Function.update_of_ne (by simpa using hp)]
  · rw [withdrawForPark_get_other hsd, hv .carriages (by decide)]
    exact ⟨⟨fun p => by rw [update_otherSide hsd]; exact hs.1 p, hs.2⟩, id⟩

/-! ## Orders -/

/-- A piece order makes its spindle the PIECING one of the side (R60, R72). -/
theorem issuePiece_carried {sp : Spindle} {offset : Int} {kind : PieceKind} (hsp : s.spindle side pos = some sp)
    (hst : (s.carriages.get side).state = .ready) {sd : Side} (hs : s.Carried sd) :
    (issuePiece side pos offset kind sp s).Carried sd := by
  have hcar : (sendCarriage side (.piece offset kind) (writeSpindle side pos { sp with state := .piecing } s)).carriages =
      s.carriages :=
    ((writeSpindle_frame side pos s _).next (sendCarriage_frame _ _ _) :
      OnlyChanges [.spindles, .breakList, .bus] _ _) .carriages (by decide)
  have hstate : (issuePiece side pos offset kind sp s).spState = Function.update s.spState ⟨side, pos⟩ (some .piecing) := by
    unfold issuePiece
    rw [modifyCarriage_spState, (sendCarriage_frame _ _ _).spState, writeSpindle_spState (x := ⟨side, pos⟩) _ hsp]
  unfold State.Carried
  rw [hstate]
  unfold issuePiece
  by_cases hsd : sd = side
  · subst hsd
    have hnone := hs.none_piecing (hs.2.pieceTarget_none (by simp [hst]))
    have hx := hs.2.2.2.2.2.2 (.inl hst)
    have horder := hs.2.order_none (.inr (.inr (.inl hst)))
    rw [modifyCarriage_get, hcar]
    refine ⟨fun p => ?_, by simp [Carriage.Fits, Carriage.orderFits, Carriage.timerKind, Carriage.pieceTarget, hx, horder]⟩
    by_cases hp : p = pos
    · subst hp
      simp [Carriage.pieceTarget]
    · rw [Function.update_of_ne (by simpa using hp)]
      refine iff_of_false (hnone p) ?_
      simpa [Carriage.pieceTarget] using fun e => hp e.symm
  · rw [modifyCarriage_get_other hsd, hcar]
    exact ⟨fun p => by rw [update_otherSide hsd]; exact hs.1 p, hs.2⟩

theorem issueTransit_carried {offset : Int} (hst : (s.carriages.get side).state = .ready) {sd : Side} (hs : s.Carried sd) :
    (issueTransit side offset s).Carried sd := by
  have hcar : (sendCarriage side (.transit offset) s).carriages = s.carriages :=
    sendCarriage_frame _ _ _ .carriages (by decide)
  unfold State.Carried issueTransit
  rw [modifyCarriage_spState, (sendCarriage_frame _ _ _).spState]
  by_cases hsd : sd = side
  · subst hsd
    have hnone := hs.2.pieceTarget_none (by simp [hst])
    have hx := hs.2.2.2.2.2.2 (.inl hst)
    have horder := hs.2.order_none (.inr (.inr (.inl hst)))
    rw [modifyCarriage_get, hcar]
    refine ⟨fun p => (hs.1 p).trans (by rw [hnone]; rfl), ?_⟩
    simp [Carriage.Fits, Carriage.orderFits, Carriage.timerKind, Carriage.onLeg, hx, horder]
  · rw [modifyCarriage_get_other hsd, hcar]
    exact hs

/-- A dispatch test keeps the law of each carriage; it issues an order only where the frame dispatches (R55). -/
theorem dispatchTest_carried {sd : Side} (hs : s.Carried sd) : (dispatchTest side s).Carried sd := by
  unfold dispatchTest
  split
  · next hcan =>
    have hst : (s.carriages.get side).state = .ready := by
      simp only [canDispatch, Bool.and_eq_true, beq_iff_eq] at hcan
      exact hcan.1.1.1.1
    dsimp only
    split
    · split
      · unfold issueOrder
        dsimp only
        split
        · split
          · next sp hsp =>
            split
            · exact issuePiece_carried hsp hst hs
            · exact hs
          · exact hs
        · exact issueTransit_carried hst hs
      · exact hs
    · exact hs
  · exact hs

theorem dispatchTest_of_not_dispatches (h : s.doff.frame.dispatches = false) : dispatchTest side s = s := by
  unfold dispatchTest
  rw [if_neg (by simp [canDispatch, h])]

/-! ## Where no carriage holds an order -/

/-- No carriage holds an order (R78, R94). -/
def State.Unordered (s : State) : Prop := ∀ side, (s.carriages.get side).order = none

/-- A side of a frame without orders has no PIECING spindle. -/
theorem State.Carried.of_unordered (hs : s.Carried side) (h : s.Unordered) (pos : Nat) :
    s.spState ⟨side, pos⟩ ≠ some .piecing :=
  hs.none_piecing (by simp [Carriage.pieceTarget, h side]) pos

/-- A lowering leaves a carriage above the fitted positions without its position (R198). -/
theorem recallCarriage_carries (keep : Nat) : Carries s (recallCarriage side keep s) := by
  unfold recallCarriage
  dsimp only
  split
  · exact .refl s
  split
  · exact .refl s
  split
  · next hst => exact startHoming_carries (by simp [hst])
  · next hst => exact startHoming_carries (by simp [hst])
  · next hst =>
    refine modifyCarriage_carries (fun _ => rfl) (fun _ ho => ho) fun hs => ?_
    obtain ⟨h1, h2, h3, h4, h5, h6⟩ := hs.2
    exact ⟨h1, h2, h3, h4, fun _ => rfl, by simp [hst]⟩
  all_goals exact .refl s

/-- The change of a section count, made where no carriage holds an order (R198). -/
theorem changeSections_carried {n : Nat} (h : s.Unordered) (hs : ∀ side, s.Carried side) :
    (∀ sd, (changeSections side n s).Carried sd) ∧ (changeSections side n s).Unordered := by
  have hf : OnlyChanges [.shift, .breakList, .roving, .line, .spindles, .bus, .items] s
      ((resizeSide side n (releaseSlot side (48 * n) (releaseRemoved side (48 * n) (creditPossible side s)))).setItems
        { (resizeSide side n (releaseSlot side (48 * n) (releaseRemoved side (48 * n) (creditPossible side s)))).items with
          sections := (resizeSide side n (releaseSlot side (48 * n) (releaseRemoved side (48 * n)
            (creditPossible side s)))).items.sections.set side n }) :=
    ((((creditPossible_frame side s).wide.next (releaseRemoved_frame side _ _)).next (releaseSlot_frame side _ _)).next
      (resizeSide_frame side _ n)).next (setItems_frame _ _)
  have hstate := changeSections_spState side n s
  unfold changeSections at hstate ⊢
  dsimp only at hstate ⊢
  generalize State.setItems _ _ = u at hf hstate ⊢
  have hcar : u.carriages = s.carriages := hf .carriages (by decide)
  have hu (sd : Side) : u.Carried sd := by
    unfold State.Carried
    rw [hcar]
    refine ⟨fun p => iff_of_false ?_ (by simp [Carriage.pieceTarget, h sd]), (hs sd).2⟩
    rw [← (recallCarriage_frame side u (48 * n)).spState, hstate]
    split
    · exact (hs sd).of_unordered h p
    · split <;> simp
  exact ⟨fun sd => (recallCarriage_carries _ sd (hu sd)).1,
    fun sd => (recallCarriage_carries _ sd (hu sd)).2 (by rw [hcar]; exact h sd)⟩

end

/-! ## Each operation and the carriages -/

/-- An operation that issues no order keeps the law of each carriage and takes no order. A change of a section count is
made where the frame is STOPPED. -/
theorem Op.carries {ps : List Part} {s t : State} (h : Op ps s t) :
    Carries s t ∨ (∃ side, t = dispatchTest side s) ∨
      ∃ side n, s.doff.frame = .stopped ∧ t = changeSections side n s := by
  have hf := h.frame
  have free (hs : .spindles ∉ ps) (hc : .carriages ∉ ps) : Carries s t := hf.carries hs hc
  have same {x cap : Nat} {ks : List ChangeKind} (hr : Records x cap ks s t) (hc : .carriages ∉ ps := by decide)
      (hks : ks ⊆ unpiecedChanges := by decide) : Carries s t := (hr.mono hks).carries hf hc
  cases h with
  | dispatch side => exact .inr (.inl ⟨side, rfl⟩)
  | sections side n _ _ hstop => exact .inr (.inr ⟨side, n, hstop, rfl⟩)
  | exchange a o _ => exact .inl (same (makeExchange_records (cap := 0) a o rfl))
  | enterDoffing =>
    have hstart (u : State) : Carries u
        (if u.doff.ready then Machine.startDoffer u else u.setDoff { u.doff with go := .waiting }) := by
      split
      · exact (startDoffer_frame u).carries
      · exact (setDoff_frame u _).carries
    exact .inl ((((((changeFrame_frame s _).carries.trans withdrawForDoff_carries).trans withdrawForDoff_carries).trans
      setDoffHold_carries).trans setDoffHold_carries).trans (hstart _))
  | abortDoff =>
    refine .inl ?_
    have h : Carries s (if s.doff.go = .sent then
        (sendDoffStop s).setDoff { (sendDoffStop s).doff with timer := none, ready := false } else s) := by
      split
      · exact (((sendDoffStop_frame s).wide (rs := [.bus, .doff])).next (setDoff_frame _ _)).carries
      · exact .refl s
    exact (((h.frame (setDoff_frame _ _)).trans clearDoffHolds_carries).frame (recordOutcome_frame _ _ _)).frame
      (changeFrame_frame _ _)
  | failDoff code =>
    exact .inl (((((endDoffer_frame s).carries.trans clearDoffHolds_carries).frame (recordOutcome_frame _ _ _)).frame
      (changeFrame_frame _ _)).frame (raise_frame _ _))
  | completeDoff byHand =>
    refine .inl ?_
    rw [completeDoff_eq]
    have hreset : Carries s (dueExchange (resetCops s)) :=
      (((resetCops_records (cap := 0) rfl).mono : Records s.flmm 0 unpiecedChanges s _).carries (resetCops_frame s)).trans
        (((dueExchange_records (cap := 0) (resetCops_frame s).flmm).mono :
          Records s.flmm 0 unpiecedChanges (resetCops s) _).carries (dueExchange_frame _))
    exact (((((hreset.trans clearDoffHolds_carries).frame (recordOutcome_frame _ _ _)).frame (countFrame_frame _ _)).frame
      (stopDoffer_frame _ byHand)).frame (endDoffer_frame _)).frame (changeFrame_frame _ _)
  | park side pos sp _ h => exact .inl (parkSpindle_carries h)
  | unpark side pos sp _ h hst =>
    have hsp : (creditPossible side s).spindle side pos = some sp := h
    refine .inl (((creditPossible_frame side s).carries).trans ?_)
    refine (joinBreakList_records (x := 0) (cap := 0) (ks := [.mark, .unpark, .renumber]) hsp fun q => ?_).mono.carries
      (joinBreakList_frame _ _ _ _ _)
    exact (Change.mark 0 sp.stamps sp.rogueUnlocked sp (by decide) (.inl rfl)).reforms.next
      (Change.unpark .release q _ (by decide) hst)
  | release side pos sp _ h hst =>
    refine .inl (same (joinBreakList_records (x := 0) (cap := 0) (ks := [.mark, .join, .renumber]) h fun q => ?_))
    exact (Change.mark 0 [] false sp (by decide) (.inr (.inl rfl))).reforms.next
      (Change.join .release q _ (by decide) (.inr hst))
  | seed side pos metres _ _ => exact .inl (same (seedRoving_records (cap := metres * 1000) rfl le_rfl))
  | hostHold side => exact .inl setHostHold_carries
  | hostFree side => exact .inl hostFree_carries
  | home side _ h => exact .inl (startHoming_carries (by rcases h with h | h <;> simp [h]))
  | closeShift label stamp => exact .inl (same (closeShift_records (cap := 0) label stamp rfl))
  | arrives side => exact .inl carriageArrives_carries
  | settle side x d _ h hx => exact .inl (settleAt_carries d h hx)
  | lose side _ h => exact .inl (loseCarriage_carries h)
  | pieceDone side pos _ _ ht => exact .inl (pieceDone_carries ht)
  | pieceMissed side pos _ _ ht => exact .inl (pieceMissed_carries ht)
  | overtakenDone side pos ok _ _ ht => exact .inl (overtakenDone_carries ok ht)
  | lateOutcome side pos ok => exact .inl (lateOutcome_carries ok)
  | timeout side k => exact .inl (carriageTimeout_carries k)
  | silent side => exact .inl carriageSilent_carries
  | closeInterval side pos => exact .inl (same (closeInterval_records (cap := 0) rfl))
  | runOut side pos sp _ h => exact .inl (same (takeRunOut_records (x := 0) (cap := 0) h))
  | startUpBreak side pos sp _ h => exact .inl (same (takeStartUpBreak_records (x := 0) (cap := 0) h))
  | endBreak side pos sp _ h => exact .inl (takeEndBreak_carries h)
  | yarnFound side pos => exact .inl yarnFound_carries
  | replaceSlot x _ h =>
    have hr : Records s.flmm (s.articles.active.bobbin * 1000) unpiecedChanges s (endingTest (replaceBobbin x (emptySlot s))) :=
      (((emptySlot_frame s).records.trans (replaceBobbin_records x rfl le_rfl)).frame (endingTest_frame _)).mono
    exact .inl (hr.carries hf)
  | replaceListed x _ _ _ =>
    have hr : Records s.flmm (s.articles.active.bobbin * 1000) unpiecedChanges s (replaceBobbin x (unlist x s)) :=
      ((unlist_frame s x).records.trans (replaceBobbin_records x rfl le_rfl)).mono
    exact .inl (hr.carries hf)
  | _ => exact .inl (free (by decide) (by decide))

/-! ## The Doff Controller -/

/-- What the Doff Controller holds in each frame state (R85, R92, R94, R104). -/
structure Doff.Lawful (d : Doff) : Prop where
  watch : d.watchStart.isSome ↔ d.frame = .startUp
  saved : d.frame = .doffPending ∨ d.frame = .doffStopping ∨ d.frame = .doffing ∨ d.frame = .restartWait → d.saved.isSome
  unsaved : d.frame = .stopped ∨ d.frame = .spinning → d.saved = none
  go : d.go ≠ .none ↔ d.frame = .doffing
  timer : d.go = .sent ↔ d.timer.isSome
  record : d.inProgress ↔ d.frame = .doffStopping ∨ d.frame = .doffing
  number : d.number ≤ 65535 ∧ (d.last.isSome ↔ 1 ≤ d.number) ∧ ∀ r ∈ d.last, r.number = d.number

/-- The frame states in which no carriage holds an order (R78, R94). -/
def FrameState.resting (f : FrameState) : Prop := f = .stopped ∨ f = .doffing ∨ f = .restartWait

theorem doffLaw_iff (s : State) : DoffLaw s ↔ s.doff.Lawful ∧ (s.doff.frame.resting → s.Unordered) := by
  have unordered : BothSides (fun side => (s.carriages.get side).order = none) ↔ s.Unordered :=
    ⟨fun ⟨ha, hb⟩ side => by cases side; exacts [ha, hb], fun h => ⟨h .a, h .b⟩⟩
  constructor
  · rintro ⟨h1, h2, h3, h4, h5, h6, h7, h8⟩
    exact ⟨⟨h1, h2, h3, h4, h5, h6, h7⟩, fun h => unordered.1 (h8 h)⟩
  · rintro ⟨h, h8⟩
    exact ⟨h.watch, h.saved, h.unsaved, h.go, h.timer, h.record, h.number, fun h => unordered.2 (h8 h)⟩

theorem nextDoffNumber_bounds (n : Nat) : 1 ≤ nextDoffNumber n ∧ nextDoffNumber n ≤ 65535 := by
  unfold nextDoffNumber
  split <;> omega

namespace Doff.Lawful

variable {d : Doff}

/-- A frame that is not DOFFING has sent no DOFF_GO. -/
theorem go_none (h : d.Lawful) (hf : d.frame ≠ .doffing) : d.go = .none := by
  by_contra hg
  exact hf (h.go.1 hg)

/-- Where no DOFF_GO is sent the doffer timer stands. -/
theorem timer_none (h : d.Lawful) (hf : d.frame ≠ .doffing) : d.timer = none := by
  rw [← Option.not_isSome_iff_eq_none, ← h.timer, h.go_none hf]
  simp

theorem not_inProgress (h : d.Lawful) (h1 : d.frame ≠ .doffStopping) (h2 : d.frame ≠ .doffing) : ¬ d.inProgress := by
  rw [h.record]
  simp [h1, h2]

/-- The frame state is one without a doff in progress, before and after. -/
theorem moved (h : d.Lawful) (h1 : d.frame ≠ .doffStopping) (h2 : d.frame ≠ .doffing) {f : FrameState}
    {w : Option Nat} {e : Context} {c : Option Context} (hf1 : f ≠ .doffStopping) (hf2 : f ≠ .doffing)
    (hw : w.isSome ↔ f = .startUp) (hc : f = .doffPending ∨ f = .restartWait → c.isSome)
    (hn : f = .stopped ∨ f = .spinning → c = none) :
    ({ d with frame := f, watchStart := w, effective := e, saved := c } : Doff).Lawful where
  watch := hw
  saved := by simpa [hf1, hf2] using hc
  unsaved := hn
  go := by simp [h.go_none h2, hf2]
  timer := h.timer
  record := iff_of_false (h.not_inProgress h1 h2) (by simp [hf1, hf2])
  number := h.number

/-- A doff is begun from a state where none is in progress (R92). -/
theorem begun {c : Option Context} {e : Context} (h : d.Lawful) (hf : d.frame ≠ .doffing) (hw : d.watchStart = none)
    (hc : c.isSome) (k : DoffKind) (fill : Nat) :
    ({ (({ d with frame := .doffStopping } : Doff).begun k fill) with saved := c, effective := e } : Doff).Lawful where
  watch := by simp [Doff.begun, hw]
  saved _ := hc
  unsaved := by simp [Doff.begun]
  go := by simp [Doff.begun, h.go_none hf]
  timer := h.timer
  record := by simp [Doff.begun, Doff.inProgress]
  number := ⟨(nextDoffNumber_bounds _).2, by simpa [Doff.begun] using (nextDoffNumber_bounds _).1, by simp [Doff.begun]⟩

/-- The watch start is held in START_UP alone (R85). -/
theorem watchStart_none (h : d.Lawful) (hf : d.frame ≠ .startUp) : d.watchStart = none := by
  rw [← Option.not_isSome_iff_eq_none, h.watch]
  exact hf

/-- The doff in progress ends with an outcome (R98 to R100). -/
theorem ended (h : d.Lawful) (hf : d.frame = .doffStopping ∨ d.frame = .doffing) (o : DoffOutcome) (code : Option Nat)
    {f : FrameState} (hto : f = .halted ∨ f = .restartWait) (b : Bool) (x : Nat) :
    ({ d.outcomeIs o code with frame := f, go := .none, timer := none, ready := b, copBase := x } : Doff).Lawful where
  watch := by
    rw [Doff.outcomeIs, h.watchStart_none (by rcases hf with hf | hf <;> simp [hf])]
    rcases hto with rfl | rfl <;> simp
  saved _ := h.saved (by rcases hf with hf | hf <;> simp [hf])
  unsaved := by rcases hto with rfl | rfl <;> simp
  go := by rcases hto with rfl | rfl <;> simp
  timer := by simp
  record := by rcases hto with rfl | rfl <;> simp [Doff.outcomeIs, Doff.inProgress]
  number := by
    obtain ⟨h1, h2, h3⟩ := h.number
    refine ⟨h1, by simpa [Doff.outcomeIs] using h2, ?_⟩
    intro r hr
    simp only [Doff.outcomeIs, Option.mem_def, Option.map_eq_some_iff] at hr
    obtain ⟨q, hq, rfl⟩ := hr
    exact h3 q hq

/-- A record that keeps its number and outcome (R97). -/
theorem recorded (h : d.Lawful) {f : DoffRecord → DoffRecord} (hf : ∀ r, (f r).outcome = r.outcome ∧ (f r).number = r.number)
    (sets : Sides (List Nat)) : ({ d with done := sets, last := d.last.map f } : Doff).Lawful where
  watch := h.watch
  saved := h.saved
  unsaved := h.unsaved
  go := h.go
  timer := h.timer
  record := by
    rw [← h.record]
    cases hl : d.last <;> simp [Doff.inProgress, hl, (hf _).1]
  number := by
    obtain ⟨h1, h2, h3⟩ := h.number
    refine ⟨h1, by simpa using h2, fun r hr => ?_⟩
    obtain ⟨q, hq, rfl⟩ := Option.map_eq_some_iff.1 (Option.mem_def.1 hr)
    exact (hf q).2.trans (h3 q hq)

/-- DOFFING with its go state and timer (R94, R96). -/
theorem going (h : d.Lawful) (hf : d.frame = .doffStopping ∨ d.frame = .doffing) {g : GoState} {t : Option Nat} (b : Bool)
    (hg : g ≠ .none) (ht : g = .sent ↔ t.isSome) :
    ({ d with frame := .doffing, ready := b, go := g, timer := t } : Doff).Lawful where
  watch := by
    rw [h.watchStart_none (by rcases hf with hf | hf <;> simp [hf])]
    simp
  saved _ := h.saved (by rcases hf with hf | hf <;> simp [hf])
  unsaved := by simp
  go := by simp [hg]
  timer := ht
  record := iff_of_true (h.record.2 hf) (by simp)
  number := h.number

end Doff.Lawful

section
variable {s : State}

/-- What a Doff Controller that obeys its law may become without an entry to a state at rest. -/
def Doff.Moves (d e : Doff) : Prop := d.Lawful → e.Lawful ∧ (e.frame.resting → d.frame.resting)

theorem Doff.Moves.of_eq {d e : Doff} (h : e = d) : d.Moves e := fun hd => ⟨h ▸ hd, fun hr => h ▸ hr⟩

/-- A move from within the law to a frame state not at rest. -/
theorem Doff.Moves.of_lawful {d e : Doff} (h : d.Lawful → e.Lawful) (hr : ¬ e.frame.resting) : d.Moves e :=
  fun hd => ⟨h hd, fun he => absurd he hr⟩

theorem Doff.Moves.pending {d : Doff} (hf : d.frame = .spinning) : d.Moves ({ d with frame := .doffPending }).swapped :=
  .of_lawful (fun hd => hd.moved (by simp [hf]) (by simp [hf]) (by simp) (by simp) (by simp [hd.watchStart_none, hf])
    (by simp) (by simp)) (by simp [FrameState.resting, Doff.swapped])

theorem Doff.Moves.stopping {d : Doff} (hf : d.frame = .doffPending) (fill : Nat) :
    d.Moves (({ d with frame := .doffStopping }).begun .auto fill) :=
  .of_lawful (fun hd => hd.begun (by simp [hf]) (hd.watchStart_none (by simp [hf])) (hd.saved (.inl hf)) .auto fill)
    (by simp [FrameState.resting, Doff.begun])

theorem Doff.Moves.trans {d e f : Doff} (h1 : d.Moves e) (h2 : e.Moves f) : d.Moves f := fun hd => by
  obtain ⟨he, hr⟩ := h1 hd
  obtain ⟨hf, hr'⟩ := h2 he
  exact ⟨hf, fun h => hr (hr' h)⟩

theorem recomputeFill_moves : s.doff.Moves (recomputeFill s).doff :=
  recomputeFill_doff_keeps (P := fun e => s.doff.Moves e) s (fun _ hf h => h.trans (.pending hf))
    (fun _ f hf h => h.trans (.stopping hf f)) (.of_eq rfl)

theorem judgeFill_moves : s.doff.Moves (judgeFill s).doff :=
  judgeFill_doff_keeps (P := fun e => s.doff.Moves e) s (fun _ hf h => h.trans (.pending hf))
    (fun _ f hf h => h.trans (.stopping hf f)) (.of_eq rfl)

/-- The Doff Controller over an exchange: the fill is judged anew (R117). -/
theorem makeExchange_doff (a : Article) (o : Occasion) : ∃ u, u.doff = s.doff ∧ (makeExchange a o s).doff = (recomputeFill u).doff := by
  refine ⟨(((split s).setArticles { (split s).articles with
    active := a, staged := some (split s).articles.active, request := false }).setSpeed
      { (split s).speed with step := 0 }), split_frame s .doff (by decide), ?_⟩
  have hrest (v : State) : (countFrame .exchange (recomputeSetPoint v)).doff = v.doff :=
    (countFrame_frame _ _ .doff (by decide)).trans (recomputeSetPoint_doff v)
  exact hrest _

theorem endWatch_moves (hf : s.doff.frame = .startUp) : s.doff.Moves (endWatch s).doff := by
  rw [endWatch_eq]
  refine Doff.Moves.trans ?_ judgeFill_moves
  refine .of_lawful (fun hd => ?_) (by simp [FrameState.resting, Doff.restored])
  rw [restoreContext_doff, changeFrame_doff]
  exact hd.moved (by simp [hf]) (by simp [hf]) (by simp) (by simp) (by simp) (by simp) (by simp)

/-- A fill judged in a frame state other than SPINNING and DOFF_PENDING moves nothing (R91). -/
theorem recomputeFill_doff_of_still (h1 : s.doff.frame ≠ .spinning) (h2 : s.doff.frame ≠ .doffPending) :
    (recomputeFill s).doff = s.doff :=
  recomputeFill_doff_keeps (P := fun e => e = s.doff) s (fun _ hf he => absurd (he ▸ hf) h1)
    (fun _ _ hf he => absurd (he ▸ hf) h2) rfl

/-- The Doff Controller after a doff completed in DOFFING (R99). -/
theorem completeDoff_doff (byHand : Bool) (h1 : s.doff.frame ≠ .spinning) (h2 : s.doff.frame ≠ .doffPending) :
    (completeDoff byHand s).doff = { s.doff.outcomeIs .done none with
      frame := .restartWait, go := .none, timer := none, ready := false, copBase := s.flmm } := by
  have hreset : (resetCops s).doff = { s.doff with copBase := s.flmm } := by
    have hz : OnlyChanges [.spindles, .shift] s (zeroCops (split s)) := (split_frame s).next (setSpindles_frame _ _)
    have hdoff : ((zeroCops (split s)).setDoff { (zeroCops (split s)).doff with copBase := (zeroCops (split s)).flmm }).doff =
        { s.doff with copBase := s.flmm } := by
      rw [State.setDoff_doff, hz .doff (by decide), hz.flmm]
    rw [resetCops_eq, recomputeFill_doff_of_still (by rw [hdoff]; exact h1) (by rw [hdoff]; exact h2), hdoff]
  have hdue (v : State) (hv1 : v.doff.frame ≠ .spinning) (hv2 : v.doff.frame ≠ .doffPending) : (dueExchange v).doff = v.doff := by
    rcases dueExchange_cases v with h | ⟨a, -, h⟩ | ⟨r, h⟩ <;> rw [h]
    · obtain ⟨u, hu, heq⟩ := makeExchange_doff (s := v) a (.doff v.doff.number)
      rw [heq, recomputeFill_doff_of_still (by rwa [hu]) (by rwa [hu]), hu]
    · rfl
  rw [completeDoff_eq, changeFrame_doff, endDoffer_doff, stopDoffer_frame _ byHand .doff (by decide),
    countFrame_frame _ _ .doff (by decide), recordOutcome_doff, clearDoffHolds_doff, hdue _ (by rw [hreset]; exact h1)
      (by rw [hreset]; exact h2), hreset]
  rfl

/-- The frame DOFFING with its orders withdrawn (R94). -/
theorem enterDoffing_unordered : (enterDoffing s).Unordered := by
  have hrest (u : State) : (if u.doff.ready then startDoffer u else u.setDoff { u.doff with go := .waiting }).carriages =
      u.carriages := by
    split
    · exact startDoffer_frame u .carriages (by decide)
    · rfl
  have hheld {u : State} {side sd : Side} (h : (u.carriages.get sd).order = none) :
      ((setDoffHold side u).carriages.get sd).order = none := by
    unfold setDoffHold
    by_cases hsd : sd = side
    · subst hsd
      rw [modifyCarriage_get, Carriage.nowHeld_order]
      exact h
    · rw [modifyCarriage_get_other hsd]
      exact h
  have hkept {u : State} {side sd : Side} (hsd : sd ≠ side) :
      (withdrawForDoff side u).carriages.get sd = u.carriages.get sd := by
    have hcancel (w : Option Nat) (v : State) : (cancelOrder side w v).carriages.get sd = v.carriages.get sd :=
      modifyCarriage_get_other hsd _ v
    unfold withdrawForDoff
    dsimp only
    split
    · rfl
    · exact hcancel _ _
    · exact hcancel _ _
    · rw [hcancel, returnSpindle_frame _ _ _ .carriages (by decide)]
  intro sd
  unfold enterDoffing
  dsimp only
  rw [hrest]
  refine hheld (hheld ?_)
  cases sd
  · rw [hkept (by simp)]
    exact withdrawForDoff_order
  · exact withdrawForDoff_order

/-- A DOFF_GO that is sent or awaited belongs to DOFFING (R94). -/
theorem Doff.Lawful.doffing_of_go {d : Doff} (h : d.Lawful) (hg : d.go ≠ .none) : d.frame = .doffing := h.go.1 hg

theorem abortDoff_moves (hf : s.doff.frame = .doffStopping ∨ s.doff.frame = .doffing) : s.doff.Moves (abortDoff s).doff := by
  rw [abortDoff_doff]
  refine .of_lawful (fun hd => ?_) (by simp [FrameState.resting])
  have htimer : (if s.doff.go = .sent then none else s.doff.timer) = none := by
    split
    · rfl
    · next hgo => rwa [hd.timer, Option.not_isSome_iff_eq_none] at hgo
  rw [htimer]
  exact hd.ended hf .aborted none (.inl rfl) _ s.doff.copBase

theorem failDoff_moves (code : Option Nat) (hg : s.doff.go = .sent) : s.doff.Moves (failDoff code s).doff := by
  rw [failDoff_doff]
  exact .of_lawful (fun hd => hd.ended (.inr (hd.doffing_of_go (by simp [hg]))) .fault code (.inl rfl) false s.doff.copBase)
    (by simp [FrameState.resting])

theorem completeDoff_moves (byHand : Bool) (h : s.doff.frame = .doffing ∨ s.doff.go = .sent) :
    s.doff.Moves (completeDoff byHand s).doff := by
  intro hd
  have hf : s.doff.frame = .doffing := h.elim id fun hg => hd.doffing_of_go (by simp [hg])
  rw [completeDoff_doff byHand (by simp [hf]) (by simp [hf])]
  exact ⟨hd.ended (.inr hf) .done none (.inr rfl) false s.flmm, fun _ => .inr (.inl hf)⟩

/-- A change within DOFFING of the go state and the doffer's timer (R94, R96, R97). -/
theorem Doff.Moves.going {d : Doff} {g : GoState} {t : Option Nat} (b : Bool) (hgo : d.go ≠ .none) (hg : g ≠ .none)
    (ht : g = .sent ↔ t.isSome) : d.Moves { d with ready := b, go := g, timer := t } := fun hd => by
  have hf := hd.doffing_of_go hgo
  have h := hd.going (.inr hf) b hg ht
  rw [← hf] at h
  exact ⟨h, id⟩

theorem stopByRequest_moves (hf : s.doff.frame = .spinning ∨ s.doff.frame = .doffPending ∨ s.doff.frame = .halted) :
    s.doff.Moves (stopByRequest s).doff := by
  rw [stopByRequest_doff]
  have hne (f : FrameState) (h1 : .spinning ≠ f) (h2 : .doffPending ≠ f) (h3 : .halted ≠ f) : s.doff.frame ≠ f := by
    rcases hf with hf | hf | hf <;> rw [hf] <;> assumption
  split
  · exact .of_lawful (fun hd => hd.begun (hne _ (by simp) (by simp) (by simp))
      (hd.watchStart_none (hne _ (by simp) (by simp) (by simp))) rfl .manual _)
      (by simp [FrameState.resting, Doff.swapped, Doff.begun])
  · next hsaved =>
    exact .of_lawful (fun hd => hd.begun (hne _ (by simp) (by simp) (by simp))
      (hd.watchStart_none (hne _ (by simp) (by simp) (by simp))) (by simpa [Option.isSome_iff_ne_none] using hsaved) .manual _)
      (by simp [FrameState.resting, Doff.begun])

theorem enterDoffing_lawful (hf : s.doff.frame = .doffStopping) (hd : s.doff.Lawful) : (enterDoffing s).doff.Lawful := by
  rw [enterDoffing_doff]
  split
  · exact hd.going (.inl hf) false (by simp) (by simp)
  · exact hd.going (.inl hf) _ (by simp) (by simp [hd.timer_none (by simp [hf])])

/-- Each operation keeps the law of the Doff Controller, and none but the entry to DOFFING brings the frame to rest. -/
theorem Op.moves {ps : List Part} {s t : State} (h : Op ps s t) :
    s.doff.Moves t.doff ∨ t.Unordered ∧ (s.doff.Lawful → t.doff.Lawful) := by
  have hf := h.frame
  have same (hp : .doff ∉ ps) : s.doff.Moves t.doff := .of_eq (hf .doff hp)
  cases h with
  | context e c m _ hc =>
    refine .inl fun hd => ⟨⟨hd.watch, fun h => ?_, fun h => ?_, hd.go, hd.timer, hd.record, hd.number⟩, id⟩
    · exact hc.trans (hd.saved h)
    · rw [← Option.not_isSome_iff_eq_none]
      exact fun hsome => by simp [hd.unsaved h, hc] at hsome
  | exchange a o _ =>
    obtain ⟨u, hu, heq⟩ := makeExchange_doff (s := s) a o
    rw [heq, ← hu]
    exact .inl recomputeFill_moves
  | startUp _ h =>
    have hne (f : FrameState) (h1 : .stopped ≠ f) (h2 : .halted ≠ f) (h3 : .restartWait ≠ f) : s.doff.frame ≠ f := by
      rcases h with h | h | h <;> rw [h] <;> assumption
    rw [startUp_doff]
    exact .inl (.of_lawful (fun hd => hd.moved (hne _ (by simp) (by simp) (by simp)) (hne _ (by simp) (by simp) (by simp))
      (by simp) (by simp) (by simp) (by simp) (by simp)) (by simp [FrameState.resting]))
  | halt _ h =>
    rw [haltFrame_doff]
    exact .inl (.of_lawful (fun hd => hd.moved (fun e => by simp [e, FrameState.motionExpected] at h)
      (fun e => by simp [e, FrameState.motionExpected] at h) (by simp) (by simp) (by simp) (by simp) (by simp))
      (by simp [FrameState.resting]))
  | enterDoffing _ h => exact .inr ⟨enterDoffing_unordered, enterDoffing_lawful h⟩
  | stopByRequest _ h => exact .inl (stopByRequest_moves h)
  | abortDoff _ h => exact .inl (abortDoff_moves h)
  | failDoff code _ h => exact .inl (failDoff_moves code h)
  | completeDoff byHand _ h => exact .inl (completeDoff_moves byHand h)
  | startDoffer _ h => exact .inl (.going false (by simp [h]) (by simp) (by simp))
  | dofferTimer _ h =>
    have hm := Doff.Moves.going (d := s.doff) (g := .sent) (t := some s.items.dofferTimeout) s.doff.ready (by simp [h]) (by simp) (by simp)
    rw [← h] at hm
    exact .inl hm
  | sectionDone side sec _ h =>
    have hm := Doff.Moves.going (d := s.doff) (g := .sent) (t := some s.items.dofferTimeout) s.doff.ready (by simp [h]) (by simp) (by simp)
    rw [← h] at hm
    exact .inl (hm.trans fun hd => ⟨hd.recorded (by cases side <;> intro r <;> exact ⟨rfl, rfl⟩) _, id⟩)
  | dofferReady b =>
    exact .inl fun hd => ⟨⟨hd.watch, hd.saved, hd.unsaved, hd.go, hd.timer, hd.record, hd.number⟩, id⟩
  | fill => exact .inl recomputeFill_moves
  | watch _ h => exact .inl (endWatch_moves h)
  | _ => exact .inl (same (by decide))

/-! ## The soft reset -/

/-- A carriage after its part of the soft reset holds no order (R84). -/
theorem softResetCarriage_get (hs : (s.carriages.get side).Fits) :
    ((softResetCarriage side s).carriages.get side).order = none ∧ ((softResetCarriage side s).carriages.get side).Fits := by
  have hhome (u : State) : (startHoming side u).carriages.get side = _ := modifyCarriage_get side _ u
  unfold softResetCarriage
  dsimp only
  split
  · next hst =>
    rw [modifyCarriage_get] at hst ⊢
    obtain ⟨-, htimer, -, -, hx, -⟩ := hs
    dsimp only at hst
    refine ⟨rfl, by simp [Carriage.orderFits, hst], ?_, by simp [hst], by simp [hst], fun _ => hx (.inl hst), by simp [hst]⟩
    simpa [Carriage.timerKind, hst] using htimer
  · rw [hhome]
    exact ⟨rfl, Carriage.homing_fits _ _⟩

theorem softResetCarriage_get_other {sd : Side} (h : sd ≠ side) :
    (softResetCarriage side s).carriages.get sd = s.carriages.get sd := by
  have hhome (u : State) : (startHoming side u).carriages.get sd = u.carriages.get sd := modifyCarriage_get_other h _ u
  unfold softResetCarriage
  dsimp only
  split
  · exact modifyCarriage_get_other h _ s
  · rw [hhome, modifyCarriage_get_other h]

theorem softReset_carriages : (softReset s).carriages = (softResetCarriage .b (softResetCarriage .a s)).carriages :=
  ((((((((softResetSpindles_frame .a (softResetCarriage .b (softResetCarriage .a s))).wide.next
    (softResetSpindles_frame .b _)).next (softResetDoff_frame _)).next (setArticles_frame _ _)).next
    (softResetRoving_frame _)).next (softResetTrain_frame _)).next (softResetSpeed_frame _)).next (setLine_frame _ _) :
    OnlyChanges [.spindles, .breakList, .breakSeq, .doff, .articles, .roving, .bus, .speed, .line] _ (softReset s))
    .carriages (by decide)

theorem softReset_spindles (side : Side) : (softReset s).spindles.get side =
    renumberByPosition 0 ((s.spindles.get side).map (·.softReset)) := by
  have hbefore : (softResetCarriage .b (softResetCarriage .a s)).spindles = s.spindles :=
    ((softResetCarriage_frame .a s).next (softResetCarriage_frame .b _)) .spindles (by decide)
  have hafter : (softReset s).spindles =
      (softResetSpindles .b (softResetSpindles .a (softResetCarriage .b (softResetCarriage .a s)))).spindles :=
    ((((((softResetDoff_frame (softResetSpindles .b (softResetSpindles .a (softResetCarriage .b
      (softResetCarriage .a s))))).wide.next (setArticles_frame _ _)).next (softResetRoving_frame _)).next
      (softResetTrain_frame _)).next (softResetSpeed_frame _)).next (setLine_frame _ _) :
      OnlyChanges [.doff, .articles, .roving, .bus, .speed, .line] _ (softReset s)) .spindles (by decide)
  rw [hafter, softResetSpindles_spindles, softResetSpindles_spindles, hbefore]
  cases side <;> rfl

/-- The soft reset leaves no spindle PIECING (R48). -/
theorem softReset_not_piecing (x : SpRef) : (softReset s).spState x ≠ some .piecing := by
  intro h
  obtain ⟨sp, hsp, hst⟩ := State.spState_eq_some.1 h
  have hmem := State.mem_of_spindle hsp
  rw [softReset_spindles] at hmem
  obtain ⟨i, hi⟩ := List.getElem?_of_mem hmem
  rw [renumberByPosition_getElem?, Option.map_eq_some_iff] at hi
  obtain ⟨sp', hsp', rfl⟩ := hi
  obtain ⟨old, -, rfl⟩ := List.mem_map.1 (List.mem_of_getElem? hsp')
  have hne : old.softReset.state ≠ .piecing := by
    unfold Spindle.softReset
    split <;> simp [*]
  split at hst <;> exact hne hst

/-! ## Every step -/

/-- The law of the carriages and the law of the Doff Controller. -/
structure Steady (s : State) : Prop where
  doff : s.doff.Lawful
  rests : s.doff.frame.resting → s.Unordered
  carried : ∀ side, s.Carried side

theorem steady_iff : DoffLaw s ∧ CarriageLaw s ↔ Steady s := by
  rw [doffLaw_iff, carriageLaw_iff]
  exact ⟨fun ⟨⟨h1, h2⟩, h3⟩ => ⟨h1, h2, h3⟩, fun h => ⟨⟨h.doff, h.rests⟩, h.carried⟩⟩

theorem Op.steady {ps : List Part} {t : State} (h : Op ps s t) (hs : Steady s) : Steady t := by
  rcases h.carries with hc | ⟨side, rfl⟩ | ⟨side, n, hstop, rfl⟩
  · have hcarried (side : Side) : t.Carried side := (hc side (hs.carried side)).1
    rcases h.moves with hm | ⟨hu, hd⟩
    · obtain ⟨hd, hr⟩ := hm hs.doff
      exact ⟨hd, fun ht side => (hc side (hs.carried side)).2 (hs.rests (hr ht) side), hcarried⟩
    · exact ⟨hd hs.doff, fun _ => hu, hcarried⟩
  · have hdoff : (dispatchTest side s).doff = s.doff := dispatchTest_frame side s .doff (by decide)
    refine ⟨hdoff ▸ hs.doff, fun ht => ?_, fun sd => dispatchTest_carried (hs.carried sd)⟩
    rw [hdoff] at ht
    rw [dispatchTest_of_not_dispatches (by rcases ht with ht | ht | ht <;> rw [ht] <;> rfl)]
    exact hs.rests ht
  · obtain ⟨hcarried, hunordered⟩ := changeSections_carried (side := side) (n := n) (hs.rests (.inl hstop)) hs.carried
    have hdoff : (changeSections side n s).doff = s.doff := changeSections_frame side s n .doff (by decide)
    exact ⟨hdoff ▸ hs.doff, fun _ => hunordered, hcarried⟩

/-- The Doff Controller after the soft reset: STOPPED, no context saved and no doff in progress (R107). -/
theorem softResetDoff_doff : (softResetDoff s).doff = ({ (recallDoffer s).doff with
    go := .none
    last := s.doff.last.map fun r => if r.outcome.isNone then { r with outcome := some .aborted } else r
    done := ⟨[], []⟩
    watchStart := none
    frame := .stopped } : Doff).restored := by
  have hlast : (recallDoffer s).doff.last = s.doff.last := by
    unfold recallDoffer
    split <;> rfl
  have hstand : (standDoff (recallDoffer s)).doff = ({ (recallDoffer s).doff with
      go := .none
      last := s.doff.last.map fun r => if r.outcome.isNone then { r with outcome := some .aborted } else r
      done := ⟨[], []⟩
      watchStart := none
      frame := .stopped } : Doff).restored := by
    unfold standDoff
    rw [restoreContext_doff, ← hlast]
    rfl
  rw [softResetDoff_eq]
  split
  · exact hstand
  · exact (raise_frame _ _ .doff (by decide)).trans hstand

theorem softResetDoff_lawful (hs : s.doff.Lawful) : (softResetDoff s).doff.Lawful := by
  have htimer : (recallDoffer s).doff.timer = none := by
    unfold recallDoffer
    split
    · rfl
    · next hgo => rwa [hs.timer, Option.not_isSome_iff_eq_none] at hgo
  have hnumber : (recallDoffer s).doff.number = s.doff.number := by
    unfold recallDoffer
    split <;> rfl
  rw [softResetDoff_doff]
  refine ⟨by simp [Doff.restored], by simp [Doff.restored], by simp [Doff.restored], by simp [Doff.restored],
    by simp [Doff.restored, htimer], ?_, ?_⟩
  · refine iff_of_false ?_ (by simp [Doff.restored])
    rintro ⟨r, hr, hnone⟩
    obtain ⟨q, -, rfl⟩ := Option.map_eq_some_iff.1 (Option.mem_def.1 hr)
    split at hnone
    · cases hnone
    · next hq => simp [hnone] at hq
  · obtain ⟨h1, h2, h3⟩ := hs.number
    refine ⟨hnumber ▸ h1, by simpa [Doff.restored, hnumber] using h2, fun r hr => ?_⟩
    obtain ⟨q, hq, rfl⟩ := Option.map_eq_some_iff.1 (Option.mem_def.1 hr)
    have := h3 q hq
    split <;> simpa [Doff.restored, hnumber] using this

theorem softReset_steady (hs : Steady s) : Steady (softReset s) := by
  have hget (side : Side) : ((softReset s).carriages.get side).order = none ∧ ((softReset s).carriages.get side).Fits := by
    rw [softReset_carriages]
    cases side
    · rw [softResetCarriage_get_other (by simp)]
      exact softResetCarriage_get (hs.carried .a).2
    · refine softResetCarriage_get ?_
      rw [softResetCarriage_get_other (by simp)]
      exact (hs.carried .b).2
  have hbefore : OnlyChanges [.carriages, .bus, .spindles, .breakList, .breakSeq] s
      (softResetSpindles .b (softResetSpindles .a (softResetCarriage .b (softResetCarriage .a s)))) :=
    (((softResetCarriage_frame .a s).wide.next (softResetCarriage_frame .b _)).next (softResetSpindles_frame .a _)).next
      (softResetSpindles_frame .b _)
  have hafter : OnlyChanges [.articles, .roving, .bus, .speed, .line]
      (softResetDoff (softResetSpindles .b (softResetSpindles .a (softResetCarriage .b (softResetCarriage .a s)))))
      (softReset s) :=
    (((((setArticles_frame _ _).wide.next (softResetRoving_frame _)).next (softResetTrain_frame _)).next
      (softResetSpeed_frame _)).next (setLine_frame _ _))
  refine ⟨?_, fun _ side => (hget side).1, fun side => ⟨fun pos => ?_, (hget side).2⟩⟩
  · rw [hafter .doff (by decide)]
    exact softResetDoff_lawful (by rw [hbefore .doff (by decide)]; exact hs.doff)
  · exact iff_of_false (softReset_not_piecing _) (by simp [Carriage.pieceTarget, (hget side).1])

/-- A state whose doff and carriages are those of reset and whose spindles have just been formed. -/
theorem steady_of_formed (hdoff : s.doff.Lawful) (hcar : s.carriages = State.reset.carriages)
    (h : ∀ side, ∀ sp ∈ s.spindles.get side, sp.state = .running) : Steady s := by
  have hinit (side : Side) : s.carriages.get side = Carriage.initial := by
    rw [hcar]
    cases side <;> rfl
  refine ⟨hdoff, fun _ side => by rw [hinit]; rfl, fun side => ?_⟩
  unfold State.Carried
  rw [hinit]
  refine ⟨fun pos => iff_of_false (fun hx => ?_) (by simp [Carriage.pieceTarget, Carriage.initial]),
    by simp [Carriage.Fits, Carriage.orderFits, Carriage.timerKind, Carriage.initial]⟩
  obtain ⟨sp, hsp, hst⟩ := State.spState_eq_some.1 hx
  simp [h side sp (State.mem_of_spindle hsp)] at hst

theorem formed_doff_lawful (e : Context) (m : ClassSet) : ({ State.reset.doff with effective := e, doffMask := m } : Doff).Lawful := by
  refine ⟨?_, ?_, ?_, ?_, ?_, ?_, ?_⟩ <;> simp [State.reset, Doff.inProgress]

/-- Settles O10: an order and its spindle change together, and the frame comes to rest with no order held. -/
theorem carriageAndDoffLawsAreKept : Obligations.CarriageAndDoffLawsAreKept := by
  unfold Obligations.CarriageAndDoffLawsAreKept
  intro s t hdoff hcar hstep
  have free : LineFree Steady :=
    ⟨fun _ _ h => ⟨h.doff, h.rests, h.carried⟩, fun _ _ h => ⟨h.doff, h.rests, h.carried⟩,
      fun _ _ h => ⟨h.doff, h.rests, h.carried⟩, fun _ _ h => ⟨h.doff, h.rests, h.carried⟩⟩
  refine steady_iff.2 (free.step (fun _ _ => ?_) (fun s _ => ?_) (fun _ _ h => ⟨h.doff, h.rests, h.carried⟩) Op.steady
    (fun _ h => softReset_steady h) hstep (steady_iff.1 ⟨hdoff, hcar⟩))
  · exact steady_of_formed (formed_doff_lawful State.reset.doff.effective State.reset.doff.doffMask) rfl
      fun side sp hsp => by cases side <;> cases hsp
  · exact steady_of_formed (formed_doff_lawful _ _) rfl fun side sp hsp => by rw [formedState_mem hsp]; rfl

end

end Sys2Proof.Machine
end

