-- ==== Sys2Proof/Proofs/ResetAndLoading.lean ====
section
/-!
PROOFS. POWER_ON_RESET and RESET_RELEASE (O15), a store record as it is judged (O16), and the state that load end forms
(O17).
-/
namespace Sys2Proof.Machine

-- One after another: each theorem as a task of its own takes a thread.
set_option Elab.async false

/-! ## Reset -/

theorem strappedRate_eq (straps : BitVec 2) : strappedRate straps =
    if straps = 0 then .b57600 else if straps = 1 then .b115200 else if straps = 2 then .b230400 else .b460800 := by
  revert straps
  decide

theorem exec_powerOnReset (s : State) :
    exec .powerOnReset s = .next ((State.reset.setPending s.pending).setFreeCount s.freeCount) := rfl

theorem exec_resetRelease {s : State} (straps : BitVec 2) (h : s.phase = .inReset) : exec (.resetRelease straps) s =
    .next (((s.setPhase .loading).setLine { s.line with rx := .hunting, rate := strappedRate straps }).setLoader
      { s.loader with stage := .reading, index := 0, lastCode := none, applied := [] }) :=
  if_pos h

/-- Settles O15: the state of reset is closed, and the release writes three of its parts. -/
theorem powerOnResetAndReleaseComplete : Obligations.PowerOnResetAndReleaseComplete := by
  unfold Obligations.PowerOnResetAndReleaseComplete
  intro s straps
  refine ⟨_, _, exec_powerOnReset s, exec_resetRelease straps rfl, rfl, rfl, ?_⟩
  have hcounts : ∀ n ∈ liveCounts State.reset, n = 0 := by decide
  have hsides : BothSides fun side => State.reset.spindles.get side = [] ∧ State.reset.breakList.get side = [] ∧
      State.reset.breakSeq.get side = 0 ∧
      State.reset.carriages.get side = ⟨.absent, none, .up, none, false, false, false, none, none⟩ ∧
      State.reset.doff.done.get side = [] ∧ State.reset.shift.marks.get side = 0 ∧
      (State.reset.shift.live.sides.get side).run = 0 ∧ (State.reset.shift.live.sides.get side).possible = 0 ∧
      (State.reset.shift.live.sides.get side).mass = 0 := by decide
  refine ⟨rfl, rfl, rfl, rfl, rfl, rfl, rfl, rfl, hsides, rfl, rfl, rfl, rfl, rfl, rfl, rfl, rfl, rfl, rfl, rfl, rfl, rfl,
    rfl, hcounts, rfl, rfl, rfl, rfl, rfl, rfl, rfl, rfl, rfl, ?_, rfl, ?_, rfl, rfl, rfl, rfl⟩
  · simp [onlyChanges_iff]
  · rw [← strappedRate_eq]
    rfl

/-! ## Reading the store -/

theorem exec_storeRecord {s : State} (read : Option (List Byte)) (hp : s.phase = .loading)
    (hr : s.loader.stage = .reading) : exec (.storeRecord read) s = .next (s.setLoader (s.loader.take read)) :=
  if_pos ⟨hp, hr⟩

/-- A record applied by a Loader that reads: index 63 passing ends the reading (R194). -/
theorem Loader.apply_eq {t : Loader} (hr : t.stage = .reading) (c v : Nat) : t.apply c v = { t with
    applied := t.applied ++ [(c, v)]
    lastCode := some c
    index := t.index + 1
    stage := if t.index + 1 < 64 then .reading else .stopped .fault (some 64) } := by
  unfold Loader.apply
  dsimp only
  by_cases h : t.index + 1 < 64
  · rw [if_neg (by omega), if_pos h, ← hr]
  · rw [if_pos (by omega), if_neg h]
    rfl

theorem Loader.take_cons {t : Loader} (hr : t.stage = .reading) (code : Byte) (rest : List Byte) :
    t.take (some (code :: rest)) =
      if code.toNat = 0xFF then { t with stage := .stopped .ok none }
      else if 7 ≤ rest.length ∧ (∀ b ∈ t.lastCode, b < code.toNat) ∧
          (if isConfigCode code.toNat then configRange code.toNat (numAt rest 0 4)
            else articleCodeRange code.toNat (numAt rest 0 4)) = true ∧
          (code.toNat = 0x16 → numAt rest 0 4 < (appliedValue t.applied 0x15).getD 20) then
        { t with
          applied := t.applied ++ [(code.toNat, numAt rest 0 4)]
          lastCode := some code.toNat
          index := t.index + 1
          stage := if t.index + 1 < 64 then .reading else .stopped .fault (some 64) }
      else { t with stage := .stopped .fault (some t.index) } := by
  have hend : code = 0xFF#8 ↔ code.toNat = 0xFF := BitVec.toNat_inj.symm
  unfold Loader.take
  dsimp only
  by_cases h : code.toNat = 0xFF
  · rw [if_pos (hend.2 h), if_pos h]
    rfl
  rw [if_neg (hend.not.2 h), if_neg h]
  by_cases hlen : rest.length < 7
  · rw [if_pos hlen, if_neg (by omega)]
    rfl
  rw [if_neg hlen]
  by_cases hpass : recordPasses t code.toNat (numAt rest 0 4) = true
  · rw [if_pos hpass, if_pos ⟨by omega, (recordPasses_iff _ _ _).1 hpass⟩, Loader.apply_eq hr]
  · rw [if_neg hpass, if_neg fun hc => hpass ((recordPasses_iff _ _ _).2 hc.2)]
    rfl

/-- An alternative of two values gives an equation in each branch. -/
theorem eq_in_branch {α : Type} {p : Prop} [Decidable p] {x a b : α} (h : x = if p then a else b) :
    if p then x = a else x = b := by
  by_cases hp : p
  · rwa [if_pos hp] at h ⊢
  · rwa [if_neg hp] at h ⊢

/-- Settles O16: by the record that the memory gives. -/
theorem storeRecordIsJudged : Obligations.StoreRecordIsJudged := by
  unfold Obligations.StoreRecordIsJudged
  intro s read hp hr
  have hframe : OnlyChanges [.loader] s (s.setLoader (s.loader.take read)) := by simp [onlyChanges_iff]
  refine ⟨_, exec_storeRecord read hp hr, hframe, ?_⟩
  match read with
  | none =>
    change (if s.loader.index = 0 then _ else _) = _
    split <;> rfl
  | some [] => rfl
  | some (code :: rest) =>
    dsimp only
    rw [State.setLoader_loader, Loader.take_cons hr]
    split
    · rfl
    · exact eq_in_branch rfl

/-! ## Load end -/

/-- The codes whose value is the number stored (R190). -/
theorem put_value_same {t : Items} {c v : Nat} (h1 : 1 ≤ c) (h2 : c ≤ 0x16) (h5 : c ≠ 0x05) : (t.put c v).value c = v := by
  interval_cases c <;> first | rfl | exact absurd rfl h5

/-- Each item that is not signed stands at the value applied last, or at its default (R195). -/
theorem putAll_value {l : List (Nat × Nat)} {c : Nat} (h1 : 1 ≤ c) (h2 : c ≤ 0x16) (h5 : c ≠ 0x05) :
    (putAll l).value c = (appliedValue l c).getD (Items.defaults.value c) := by
  induction l using List.reverseRecOn with
  | nil => rfl
  | append_singleton l e ih =>
    rw [putAll_append, appliedValue_append]
    split
    · next h =>
      rw [h, put_value_same h1 h2 h5]
      rfl
    · next h => rw [put_value_of_ne (Ne.symm h), ih]

theorem putAll_lengthTrim (l : List (Nat × Nat)) :
    (putAll l).lengthTrim = ((appliedValue l 0x05).map signed32).getD 0 := by
  induction l using List.reverseRecOn with
  | nil => rfl
  | append_singleton l e ih =>
    rw [putAll_append, appliedValue_append]
    split
    · next h => rw [h]; rfl
    · next h => rw [put_lengthTrim_of_ne h, ih]

theorem putAll_speedTrim (l : List (Nat × Nat)) :
    (putAll l).speedTrim = ((appliedValue l 0x17).map signed32).getD 0 := by
  induction l using List.reverseRecOn with
  | nil => rfl
  | append_singleton l e ih =>
    rw [putAll_append, appliedValue_append]
    split
    · next h => rw [h]; rfl
    · next h => rw [put_speedTrim_of_ne h, ih]

/-- Only GOV_LOW is completed beyond its default (R195). -/
theorem completeItems_cases (l : List (Nat × Nat)) : completeItems l = { putAll l with govLow := (completeItems l).govLow } := by
  rw [completeItems_eq]
  split <;> rfl

theorem completeItems_govLow (l : List (Nat × Nat)) : (completeItems l).govLow = (appliedValue l 0x16).getD
    (if 8 < (completeItems l).govHigh then 8 else (completeItems l).govHigh - 1) := by
  have hhigh : (completeItems l).govHigh = (putAll l).govHigh := by rw [completeItems_cases]
  rw [hhigh, completeItems_eq, putAll_govLow]
  cases h : appliedValue l 0x16 with
  | some v => simp [putAll_govLow, h]
  | none =>
    by_cases hlt : 8 < (putAll l).govHigh
    · simp [hlt, putAll_govLow, h]
    · simp [hlt]

theorem completeItems_value {l : List (Nat × Nat)} {c : Nat} (h1 : 1 ≤ c) (h2 : c ≤ 0x15) (h5 : c ≠ 0x05) :
    (completeItems l).value c = (appliedValue l c).getD (Items.defaults.value c) := by
  rw [← putAll_value h1 (by omega) h5, completeItems_cases]
  exact put_value_of_ne (v := (completeItems l).govLow) (code := 0x16) (by omega)

theorem articlePasses_iff (t : Items) (a : Article) : articlePasses t a = true ↔
    a.failingField = none ∧ t.rovingThreshold + t.runoutMargin < a.bobbin := by
  simp only [articlePasses, rovingCross, Bool.and_eq_true, decide_eq_true_eq, Option.isNone_iff_eq_none]
  exact and_congr_right fun _ => by omega

theorem exec_loadEnd {s : State} {o : LoadOutcome} {i : Option Nat} (hp : s.phase = .loading)
    (hs : s.loader.stage = .stopped o i) : exec .loadEnd s = .next (formedState s) := by
  change execLoadEnd s = _
  unfold execLoadEnd
  rw [hp, hs]

/-- Settles O17: the items by induction on what the Loader has applied; the other parts are those of the state formed. -/
theorem loadEndFormsTheState : Obligations.LoadEndFormsTheState := by
  unfold Obligations.LoadEndFormsTheState
  intro s o i hp hs
  have hitems : (formedState s).items = completeItems s.loader.applied := rfl
  have hunsigned : ∀ code ∈ [0x01, 0x02, 0x03, 0x04, 0x06, 0x07, 0x08, 0x09, 0x0A, 0x0B, 0x0C, 0x0D, 0x0E, 0x0F, 0x10,
      0x11, 0x12, 0x13, 0x14, 0x15], 1 ≤ code ∧ code ≤ 0x15 ∧ code ≠ 0x05 := by decide
  refine ⟨_, exec_loadEnd hp hs, rfl, rfl, ?loader, ?values, ?length, ?speed, completeItems_govLow _, ?article, rfl, rfl, rfl,
    rfl, rfl, rfl, rfl, ?sides, rfl, rfl, rfl, rfl, rfl, rfl, ?attn⟩
  case loader =>
    change ({ s.loader with
      stage := .done, outcome := s.loader.stage.outcome.1, failIndex := s.loader.stage.outcome.2,
      defaulted := _ } : Loader) = _
    rw [hs]
    rfl
  case values =>
    intro code hcode
    obtain ⟨h1, h2, h5⟩ := hunsigned code hcode
    exact completeItems_value h1 h2 h5
  case length => rw [hitems, completeItems_cases]; exact putAll_lengthTrim _
  case speed => rw [hitems, completeItems_cases]; exact putAll_speedTrim _
  case article =>
    have hpass := articlePasses_iff (completeItems s.loader.applied) (storedArticle s.loader.applied)
    have hgood : (formedState s).articles = ⟨if articlePasses (completeItems s.loader.applied)
        (storedArticle s.loader.applied) = true then storedArticle s.loader.applied else Article.default, none, false, none⟩ ∧
        (formedState s).loader.defaulted =
          !articlePasses (completeItems s.loader.applied) (storedArticle s.loader.applied) := ⟨rfl, rfl⟩
    obtain ⟨hart, hdef⟩ := hgood
    change if (storedArticle s.loader.applied).failingField = none ∧ (formedState s).items.rovingThreshold +
      (formedState s).items.runoutMargin < (storedArticle s.loader.applied).bobbin then _ else _
    rw [hitems]
    by_cases h : articlePasses (completeItems s.loader.applied) (storedArticle s.loader.applied) = true
    · rw [if_pos (hpass.1 h), hart, hdef, if_pos h, h]
      exact ⟨rfl, rfl⟩
    · rw [if_neg fun hc => h (hpass.2 hc), hart, hdef, if_neg h, Bool.eq_false_iff.2 h]
      exact ⟨rfl, rfl⟩
  case sides => exact ⟨⟨rfl, rfl, rfl, rfl, rfl, rfl⟩, rfl, rfl, rfl, rfl, rfl, rfl⟩
  case attn =>
    change (true && (PendClass.config.bit &&& (formedState s).doff.effective.mask != 0)) = _
    rw [Bool.true_and, BitVec.and_comm]
    rfl

end Sys2Proof.Machine
end

