-- ==== Sys2Proof/Proofs/HostLine.lean ====
section
/-!
PROOFS. The receiver over the bytes of a frame (O21, O22), and the judgement of a request in its order (O24).
-/
namespace Sys2Proof.Machine

-- One after another: each theorem as a task of its own takes a thread.
set_option Elab.async false

/-! ## Discards -/

section
variable {s : State}

/-- A discard leaves the receiver hunting, and is counted from load end (R175, R188). -/
theorem discard_discarded (reason : DiscardReason) :
    Discarded reason s (discard reason (s.setLine { s.line with rx := .hunting })) := by
  refine ⟨(setLine_frame s _).next (discard_frame _ _), ?_⟩
  unfold discard
  rw [State.setLine_phase]
  split
  · rw [raise_line]
    rfl
  · rfl

theorem setLine_hunting (h : s.line.rx = .hunting) : s.setLine { s.line with rx := .hunting } = s := by
  rw [← h]
  rfl

theorem discard_discarded_of_hunting (h : s.line.rx = .hunting) (reason : DiscardReason) :
    Discarded reason s (discard reason s) := by
  have hd := discard_discarded (s := s) reason
  rwa [setLine_hunting h] at hd

/-! ## The bytes of a frame -/

theorem onWire_append (l r : List Byte) : onWire (l ++ r) = onWire l ++ onWire r := List.map_append

theorem receive_append (l r : List Byte) : (onWire (l ++ r)).foldl receiveByte s =
    (onWire r).foldl receiveByte ((onWire l).foldl receiveByte s) := by
  rw [onWire_append, List.foldl_append]

theorem receive_sync (h : s.line.rx = .hunting) :
    (onWire [0xA5#8]).foldl receiveByte s = s.setLine { s.line with rx := .collecting [] } := by
  simp [onWire, receiveByte, h]

/-- A body length above 240 ends the frame when it arrives (R175). -/
theorem receive_longBody (h : s.line.rx = .hunting) {len : Byte} (hlen : 240 < len.toNat) :
    (onWire ([0xA5#8] ++ [len])).foldl receiveByte s = discard .length s := by
  rw [receive_append, receive_sync h]
  simp only [onWire, List.map_cons, List.map_nil, List.foldl_cons, List.foldl_nil, receiveByte, State.setLine_line,
    if_true, collectByte, List.nil_append, hlen]
  exact congrArg (discard .length) (setLine_hunting h)

/-- What a frame that has arrived whole becomes (R175, R177). -/
def judgeFrame (bytes : List Byte) (s : State) : State :=
  match frameRequest bytes with
  | some r => offerRequest r s
  | none => discard .crc s

/-- A byte after the body length: the frame is collected until its last byte, and then judged. -/
theorem collectByte_cons (len : Byte) (bs : List Byte) (b : Byte) (u : State) : collectByte (len :: bs) b u =
    if bs.length < len.toNat + 2 then u.setLine { u.line with rx := .collecting (len :: (bs ++ [b])) }
    else judgeFrame (len :: (bs ++ [b])) (u.setLine { u.line with rx := .hunting }) := by
  have hshort : (len :: (bs ++ [b])).length < len.toNat + 4 ↔ bs.length < len.toNat + 2 := by
    simp only [List.length_cons, List.length_append, List.length_nil]
    omega
  unfold collectByte judgeFrame
  cases bs with
  | nil => simp
  | cons c cs =>
    simp only [List.cons_append]
    exact if_congr hshort rfl rfl

/-- The bytes of a frame that is not yet whole are collected. -/
theorem receive_part (h : s.line.rx = .hunting) {len : Byte} (hlen : len.toNat ≤ 240) {bs : List Byte}
    (hbs : bs.length < len.toNat + 3) : (onWire ([0xA5#8] ++ len :: bs)).foldl receiveByte s =
      s.setLine { s.line with rx := .collecting (len :: bs) } := by
  induction bs using List.reverseRecOn with
  | nil =>
    rw [receive_append, receive_sync h]
    simp [onWire, receiveByte, collectByte, Nat.not_lt.2 hlen, State.setLine]
  | append_singleton bs b ih =>
    rw [List.length_append, List.length_singleton] at hbs
    rw [← List.cons_append, ← List.append_assoc, receive_append, ih (by omega)]
    simp only [onWire, List.map_cons, List.map_nil, List.foldl_cons, List.foldl_nil, receiveByte, State.setLine_line,
      if_true, collectByte_cons]
    rw [if_pos (by omega)]
    rfl

/-- With its last byte a frame is judged (R175, R177). -/
theorem receive_whole (h : s.line.rx = .hunting) {len : Byte} (hlen : len.toNat ≤ 240) {bs : List Byte} {b : Byte}
    (hbs : bs.length = len.toNat + 2) :
    (onWire ([0xA5#8] ++ len :: (bs ++ [b]))).foldl receiveByte s = judgeFrame (len :: (bs ++ [b])) s := by
  rw [← List.cons_append, ← List.append_assoc, receive_append, receive_part h hlen (by omega)]
  simp only [onWire, List.map_cons, List.map_nil, List.foldl_cons, List.foldl_nil, receiveByte, State.setLine_line,
    if_true, collectByte_cons]
  rw [if_neg (by omega)]
  exact congrArg (judgeFrame _) (setLine_hunting h)

/-- The request of a frame whose CRC matches (R174). -/
theorem frameRequest_eq (kind : Byte) {body crc : List Byte} (hbody : body.length ≤ 240) (hcrc : crc.length = 2) :
    frameRequest (BitVec.ofNat 8 body.length :: kind :: body ++ crc) =
      if fromBytes crc = (crc16 (BitVec.ofNat 8 body.length :: kind :: body)).toNat then some ⟨kind, body⟩ else none := by
  have hlen : (BitVec.ofNat 8 body.length).toNat = body.length := by
    rw [BitVec.toNat_ofNat]
    omega
  have hnum : numAt (body ++ crc) body.length 2 = fromBytes crc := by
    rw [numAt, List.drop_left, List.take_of_length_le hcrc.le]
  unfold frameRequest
  simp only [List.cons_append, hlen, hnum, List.take_left]

/-- Two bytes that stand for a 16-bit number are its bytes. -/
theorem pair_eq_beBytes {c1 c2 : Byte} {n : Nat} (h : fromBytes [c1, c2] = n) : [c1, c2] = beBytes 2 n := by
  have h1 := c1.isLt
  have h2 := c2.isLt
  subst h
  simp only [fromBytes, List.foldl_cons, List.foldl_nil, beBytes, List.cons.injEq, and_true]
  refine ⟨BitVec.eq_of_toNat_eq ?_, BitVec.eq_of_toNat_eq ?_⟩ <;> rw [BitVec.toNat_ofNat] <;> omega

/-- A frame of a hunting receiver up to its last CRC byte. -/
theorem receive_frameBytes (h : s.line.rx = .hunting) (kind : Byte) {body : List Byte} (hbody : body.length ≤ 240)
    (c1 c2 : Byte) : (onWire (0xA5#8 :: BitVec.ofNat 8 body.length :: kind :: body ++ [c1, c2])).foldl receiveByte s =
      if fromBytes [c1, c2] = (crc16 (BitVec.ofNat 8 body.length :: kind :: body)).toNat then offerRequest ⟨kind, body⟩ s
      else discard .crc s := by
  have hlen : (BitVec.ofNat 8 body.length).toNat = body.length := by
    rw [BitVec.toNat_ofNat]
    omega
  have hsplit : 0xA5#8 :: BitVec.ofNat 8 body.length :: kind :: body ++ [c1, c2] =
      [0xA5#8] ++ BitVec.ofNat 8 body.length :: ((kind :: body ++ [c1]) ++ [c2]) := by simp
  rw [hsplit, receive_whole h (by omega) (by simp [hlen]), judgeFrame]
  have hreq := frameRequest_eq kind (crc := [c1, c2]) hbody rfl
  rw [show BitVec.ofNat 8 body.length :: (kind :: body ++ [c1] ++ [c2]) =
    BitVec.ofNat 8 body.length :: kind :: body ++ [c1, c2] by simp, hreq]
  split_ifs <;> rfl

/-- Settles O21: the bytes of the frame are collected up to the last, and its CRC matches. -/
theorem hostFrameIsAccepted : Obligations.HostFrameIsAccepted := by
  unfold Obligations.HostFrameIsAccepted
  intro kind body s hbody h
  obtain ⟨c1, c2, hpair⟩ : ∃ c1 c2, beBytes 2 (crc16 (BitVec.ofNat 8 body.length :: kind :: body)).toNat = [c1, c2] :=
    ⟨_, _, rfl⟩
  refine ⟨offerRequest ⟨kind, body⟩ s, ?_, ?_⟩
  · have hreceive := receive_frameBytes h kind hbody c1 c2
    rw [if_pos (by rw [← hpair, fromBytes_beBytes _ _ (by simpa using (crc16 _).isLt)])] at hreceive
    change Host.Outcome.next _ = _
    rw [← hreceive, frameBytes, hpair]
  · unfold offerRequest
    split
    · exact ⟨setLine_frame s _, rfl⟩
    · exact discard_discarded_of_hunting h _

/-- Settles O22: by the byte that ends the frame. -/
theorem framesAreDiscarded : Obligations.FramesAreDiscarded := by
  unfold Obligations.FramesAreDiscarded
  refine ⟨fun s len h hlen => ?length, fun s kind body c1 c2 h hbody hcrc => ?crc, fun s bytes h => ?late, fun s h => ?idle,
    fun s b h hb => ?noise, fun s b => rfl⟩
  case length => exact ⟨_, congrArg Host.Outcome.next (receive_longBody h hlen), discard_discarded_of_hunting h _⟩
  case crc =>
    refine ⟨_, congrArg Host.Outcome.next ((receive_frameBytes h kind hbody c1 c2).trans (if_neg fun e => ?_)),
      discard_discarded_of_hunting h _⟩
    exact hcrc (pair_eq_beBytes e)
  case late =>
    refine ⟨discard .late (s.setLine { s.line with rx := .hunting }), ?_, discard_discarded _⟩
    change execFrameTimerExpiry s = _
    rw [execFrameTimerExpiry, h]
  case idle =>
    change execFrameTimerExpiry s = _
    unfold execFrameTimerExpiry
    split
    · next bytes hrx => exact absurd hrx (h bytes)
    all_goals rfl
  case noise =>
    refine congrArg Host.Outcome.next ?_
    simp [onWire, receiveByte, h, hb]

end

/-! ## The judgement of a request -/

section
variable {r : HeldRequest} (owner : List Byte → State → Handled) {s : State}

theorem judgeRequest_unknown (h : s.phase = .running) (hkind : bodyLength r.kind = none) :
    judgeRequest r owner s = Handled.refuse s .unknownKind := by
  simp [judgeRequest, h, hkind]

theorem judgeRequest_known (h : s.phase = .running) {n : Nat} (hkind : bodyLength r.kind = some n) :
    judgeRequest r owner s = if r.body.length = n then owner r.body s else Handled.refuse s .badLength := by
  simp [judgeRequest, h, hkind]

end

/-- A request that is taken and refused by the judgement changes nothing but the reply. -/
theorem refuses_of_judged {i : Instr} {s : State} {r : HeldRequest} {res : Result} (hreq : requestOf i = some r)
    (hp : s.phase ≠ .inReset) (hreach : Reaches r s)
    (h : ∀ owner, judgeRequest r owner (holdRequest r s) = Handled.refuse (holdRequest r s) res) : Refuses i s res 0 := by
  obtain ⟨owner, -, hexec⟩ := exec_takeRequest hreq
  refine ⟨r, hreq, holdRequest r s, ?_, rfl⟩
  rw [hexec s, takeRequest_of_reaches _ _ _ _ hp hreach, h owner, refuse_eq _ _ _ (by decide)]
  rfl

/-- Settles O24: by the order of the judgement; no kind of the catalogue is 80h or above. -/
theorem requestsAreJudgedInOrder : Obligations.RequestsAreJudgedInOrder := by
  unfold Obligations.RequestsAreJudgedInOrder
  refine ⟨fun i s r hreq hp hreach => ⟨fun hload => ?starting, fun hrun hkind => ?unknown, fun hrun n hkind hlen => ?length⟩,
    fun i s r hreq hnot => ?untaken, fun kind => ⟨fun hk => ?low, fun hk => ⟨?high, ?none⟩⟩⟩
  case starting =>
    exact refuses_of_judged hreq hp hreach fun owner => if_pos (by simp [hload])
  case unknown =>
    exact refuses_of_judged hreq hp hreach fun owner => judgeRequest_unknown owner (by simpa) hkind
  case length =>
    refine refuses_of_judged hreq hp hreach fun owner => ?_
    rw [judgeRequest_known owner (by simpa) hkind]
    exact if_neg hlen
  case untaken =>
    obtain ⟨owner, -, hexec⟩ := exec_takeRequest hreq
    have hcan : canTake r s = false := by
      unfold canTake
      rcases hnot with h | h | h | ⟨held, hhead, hne⟩
      · simp [h]
      · obtain ⟨x, hx⟩ := Option.isSome_iff_exists.1 h
        simp [hx]
      · simp [h]
      · cases hl : s.line.holding with
        | nil => simp [hl] at hhead
        | cons a l =>
          simp only [hl, List.head?_cons, Option.mem_def, Option.some.injEq] at hhead
          simp [hhead, hne]
    rw [hexec s, takeRequest, if_neg (by rw [hcan]; decide)]
  case low =>
    rw [replyKind, if_pos hk, BitVec.toNat_add]
    exact Nat.mod_eq_of_lt (Nat.add_lt_add_right hk 0x80)
  case high => exact if_neg (by omega)
  case none =>
    unfold bodyLength
    split
    case h_36 => rfl
    all_goals omega

end Sys2Proof.Machine
end

