-- ==== Sys2Proof/Proofs/Readings.lean ====
section
/-!
PROOFS. The readings: each owner's reply is what the rule of the reading shows (O25), and the fields of STATUS and
IDENTIFY stand at their places (O26).
-/
namespace Sys2Proof.Machine

-- One after another: each theorem as a task of its own takes a thread.
set_option Elab.async false

/-! ## A reading that is answered -/

/-- A reading is answered OK, shows its figures and changes nothing (R181). -/
def Reads (i : Instr) (s : State) : Prop :=
  ∃ left content, Replies i s .ok (fun _ => content) (OnlyChanges [.freeCount]) ∧
    (∀ secs ∈ timerShown i s, 1 ≤ left ∧ (1 ≤ secs → left ≤ secs)) ∧ (∀ c ∈ shown i s left, content = c)

section
variable {i : Instr} {r : HeldRequest} {owner : List Byte → State → Handled} {s : State} {content : List Byte}

/-- A reading that shows no timer. -/
theorem Served.reads (hs : Served i s) (hexec : exec i s = .next (takeRequest r.kind r.body owner s))
    (hreq : requestOf i = some r) (htimer : timerShown i s = none) (hshown : ∀ c ∈ shown i s 0, content = c)
    (howner : ∀ l s', s' = s.setLine { s.line with holding := l } → owner r.body s' = Handled.ok s' content) :
    Reads i s :=
  ⟨0, content, hs.replies hexec hreq fun l s' h => ⟨s', howner l s' h, .refl _ _⟩, by simp [htimer], hshown⟩

/-- The seconds left that a reading shows for a timer (R181). -/
def leftOn (s : State) (timer : Option Nat) : Nat := 1 + Config.secondsLeft s.freeCount % timer.getD 0

theorem leftOn_bounds (s : State) {timer : Option Nat} {secs : Nat} (h : timer = some secs) :
    1 ≤ leftOn s timer ∧ (1 ≤ secs → leftOn s timer ≤ secs) := by
  subst h
  refine ⟨Nat.le_add_right _ _, fun hpos => ?_⟩
  have := Nat.mod_lt (Config.secondsLeft s.freeCount) hpos
  simp only [leftOn, Option.getD_some]
  omega

theorem secondsLeft_eq (s : State) (timer : Option Nat) :
    secondsLeft s timer = timer.map fun _ => field 2 (leftOn s timer) := by
  cases timer <;> rfl

/-- A reading that shows a timer draws a free value for its seconds. -/
theorem Served.readsTimer (hs : Served i s) (hexec : exec i s = .next (takeRequest r.kind r.body owner s))
    (hreq : requestOf i = some r) (hshown : ∀ c ∈ shown i s (leftOn s (timerShown i s)), content = c)
    (howner : ∀ l s', s' = s.setLine { s.line with holding := l } →
      owner r.body s' = Handled.ok (s'.setFreeCount (s'.freeCount + 1)) content) : Reads i s :=
  ⟨leftOn s (timerShown i s), content,
    hs.replies hexec hreq fun l s' h => ⟨_, howner l s' h, setFreeCount_frame _ _⟩,
    fun _ h => leftOn_bounds s h, hshown⟩

end

/-! ## The figures of each reading -/

section
variable (body : List Byte) (s : State)

theorem configValue_eq (code : Nat) (h : (1 ≤ code ∧ code ≤ 0x19) ∨ (0x40 ≤ code ∧ code ≤ 0x57)) :
    configValue code s = some (shownConfig s code) := by
  unfold configValue shownConfig
  by_cases h18 : code = 0x18
  · rw [if_pos h18, if_pos h18]
    cases s.doff.saved <;> rfl
  by_cases h19 : code = 0x19
  · rw [if_neg h18, if_pos h19, if_neg h18, if_pos h19]
  rw [if_neg h18, if_neg h19]
  dsimp only
  rw [if_neg h18, if_neg h19]
  rcases h with h | h
  · rw [if_pos (by simp [isConfigCode]; omega), if_pos (by omega)]
  · rw [if_neg (by simp [isConfigCode]; omega), if_neg (by omega)]
    obtain ⟨h1, h2⟩ := h
    interval_cases code <;> rfl

theorem configValue_none {code : Nat} (h1 : ¬(1 ≤ code ∧ code ≤ 0x19)) (h2 : ¬(0x40 ≤ code ∧ code ≤ 0x57)) :
    configValue code s = none := by
  have hconfig : isConfigCode code = false := by simp [isConfigCode]; omega
  unfold configValue articleCodeValue
  rw [if_neg (by omega), if_neg (by omega), hconfig]
  split
  · contradiction
  · split
    all_goals first | omega | exact if_neg (by omega)

theorem shownArticles_eq (a : Option Article) : articleGetContent a s = shownArticles a s.articles := by
  unfold articleGetContent shownArticles
  congr 1
  · congr 1
    cases a <;> rfl
  · cases s.articles.last with
    | none => rfl
    | some o =>
      simp only [Option.map_some, optField, outcomeBytes]
      cases o.occasion <;> simp [optField, List.replicate]

theorem blind_eq (side : Side) (pos : Nat) :
    blind s side pos = (s.bus.board side ((pos - 1) / 48 + 1)).any (·.link.status == .silent) := by
  unfold blind sectionOf
  split <;> simp [*]

theorem clampCode_eq (c : Clamp) : clampCode c = if c = .opened then 0 else 1 := by cases c <;> rfl

theorem spindleEntry_eq (side : Side) (pos : Nat) :
    spindleEntry side pos s = ((s.spindle side pos).map (shownSpindle s side pos)).getD [] := by
  unfold spindleEntry
  split
  · next h => rw [h]; rfl
  · next sp h =>
    rw [h]
    simp only [Option.map_some, Option.getD_some, shownSpindle, optNumber_eq, rovingAsRead_eq, blind_eq, clampCode_eq,
      Option.map_map, Function.comp_def]

theorem spindlePage_eq (first count fitted : Nat) :
    spindlePage first count fitted = min (min count 5) (fitted + 1 - first) := by
  rw [spindlePage, show entriesThatFit 2 44 = 5 from rfl, Nat.min_comm]

theorem spindleEntries_eq (side : Side) (first n : Nat) :
    ((List.range n).flatMap fun i => spindleEntry side (first + i) s) =
      (List.range' first n).flatMap fun pos => ((s.spindle side pos).map (shownSpindle s side pos)).getD [] := by
  rw [List.range'_eq_map_range, List.flatMap_map]
  exact List.flatMap_congr fun i _ => spindleEntry_eq s side (first + i)

theorem breakEntry_eq (side : Side) (pos : Nat) : breakEntry side s pos = ((s.spindle side pos).map fun sp =>
    field 2 pos ++ field 4 (sp.seq.getD 0) ++ field 1 ((sp.cause.map (·.code)).getD 0) ++ field 1 sp.attempts ++
      flagField sp.rogueUnlocked).getD [] := by
  unfold breakEntry
  split <;> simp [*]

theorem projectedAt_eq (x : SpRef) : projectedAt s x = (s.spindle x.side x.pos).bind (rovingAsRead s) := rfl

theorem rovingEntry_eq (e : SpRef × Nat) : rovingEntry s e = shownRoving s e.1 (field 1 e.2) := by
  simp [rovingEntry, shownRoving, stateCodeAt, projectedAt_eq]

theorem slotBytes_eq (x : SpRef) : slotBytes s x = shownRoving s x [] := by
  simp [slotBytes, shownRoving, stateCodeAt, projectedAt_eq]

theorem orderBytes_eq (side : Side) (o : Order) : orderBytes side s o = shownOrder s side o := by
  cases o <;> simp [orderBytes, shownOrder]

theorem lengthBytes_eq (c : ClosedSide) : lengthBytes c =
    field 8 c.run ++ field 8 c.possible ++ field 4 c.massDg ++ optNumber 2 c.efficiency := by
  simp [lengthBytes]

theorem closedBytes_eq (r : ClosedShift) : closedBytes r = shownClosed r := by
  simp [closedBytes, shownClosed, lengthBytes_eq, countBytes, ShiftCounts.list]

end

/-! ## What each owner answers -/

section
variable {body : List Byte} {s : State}

theorem reads_configGet (hs : Served (.configGet body) s)
    (h : (1 ≤ (byteAt body 0).toNat ∧ (byteAt body 0).toNat ≤ 0x19) ∨
      (0x40 ≤ (byteAt body 0).toNat ∧ (byteAt body 0).toNat ≤ 0x57)) : Reads (.configGet body) s := by
  refine hs.reads (owner := configGet) rfl rfl rfl (fun _ hc => Option.some.inj hc) fun l s' e => ?_
  subst e
  rw [configGet, configValue_eq _ _ h]
  rfl

theorem reads_articleGet (hs : Served (.articleGet body) s) (h : (byteAt body 0).toNat ≤ 1) :
    Reads (.articleGet body) s := by
  refine hs.reads (owner := articleGet) rfl rfl rfl (fun _ hc => Option.some.inj hc) fun l s' e => ?_
  subst e
  have hzero : byteAt body 0 = 0#8 ↔ (byteAt body 0).toNat = 0 := BitVec.toNat_inj.symm
  unfold articleGet
  rcases Nat.le_one_iff_eq_zero_or_eq_one.1 h with h | h
  · rw [if_pos (hzero.2 h), ← shownArticles_eq s]
    dsimp only
    rw [h]
    rfl
  · rw [if_neg (hzero.not.2 (by omega)), ← shownArticles_eq s]
    dsimp only
    rw [h]
    rfl

theorem shown_doffGet : shown (.doffGet body) s (leftOn s s.doff.timer) = some (doffGetContent s) := by
  simp only [shown, doffGetContent, secondsLeft_eq, optNumber_eq, Option.map_map, Function.comp_def]
  cases s.doff.last <;> simp [optField, doffRecordBytes, classField, List.replicate]

theorem reads_doffGet (hs : Served (.doffGet body) s) : Reads (.doffGet body) s := by
  refine hs.readsTimer (owner := doffGet) (content := doffGetContent s) rfl rfl (fun c hc => ?_) fun l s' e => ?_
  case refine_2 => subst e; rfl
  · rw [timerShown, shown_doffGet] at hc
    exact Option.some.inj hc

theorem reads_spindleGet (hs : Served (.spindleGet body) s) {side : Side} (hside : sideAt body 0 = some side)
    (hfirst : (s.spindle side (numAt body 1 2)).isSome) (h1 : 1 ≤ (byteAt body 3).toNat)
    (h2 : (byteAt body 3).toNat ≤ 40) : Reads (.spindleGet body) s := by
  have hn := spindlePage_eq (numAt body 1 2) (byteAt body 3).toNat (s.spindles.get side).length
  refine hs.reads (owner := spindleGet) (content := field 2 (spindlePage (numAt body 1 2) (byteAt body 3).toNat
    (s.spindles.get side).length) ++ (List.range (spindlePage (numAt body 1 2) (byteAt body 3).toNat
    (s.spindles.get side).length)).flatMap fun i => spindleEntry side (numAt body 1 2 + i) s)
    rfl rfl rfl (fun _ hc => ?_) fun l s' e => ?_
  case refine_2 =>
    subst e
    simp only [spindleGet, hside]
    rw [if_pos ⟨h1, h2, hfirst⟩]
    rfl
  · simp only [shown, hside, Option.map_some, Option.mem_def, Option.some.injEq] at hc
    rw [← hc, spindleEntries_eq, hn]

theorem reads_breakListGet (hs : Served (.breakListGet body) s) {side : Side} (hside : sideAt body 0 = some side)
    (h : numAt body 1 2 ≤ (s.breakList.get side).length) : Reads (.breakListGet body) s := by
  refine hs.reads (owner := breakListGet) (content := field 2 (s.breakList.get side).length ++
    field 2 (page (s.breakList.get side) (numAt body 1 2) (entriesThatFit 4 9)).length ++
    (page (s.breakList.get side) (numAt body 1 2) (entriesThatFit 4 9)).flatMap (breakEntry side s))
    rfl rfl rfl (fun _ hc => ?_) fun l s' e => ?_
  case refine_2 =>
    subst e
    simp only [breakListGet, hside]
    exact if_pos h
  · simp only [shown, hside, Option.map_some, Option.mem_def, Option.some.injEq] at hc
    rw [← hc]
    simp only [← breakEntry_eq]
    rfl

theorem reads_rovingListGet (hs : Served (.rovingListGet body) s)
    (h : numAt body 0 2 ≤ s.roving.urgent.length + s.roving.low.length) : Reads (.rovingListGet body) s := by
  refine hs.reads (owner := rovingListGet) (content := field 2 (rovingEntries s).length ++ field 2 s.roving.urgent.length ++
    field 2 (page (rovingEntries s) (numAt body 0 2) (entriesThatFit 6 10)).length ++
    (page (rovingEntries s) (numAt body 0 2) (entriesThatFit 6 10)).flatMap (rovingEntry s))
    rfl rfl rfl (fun _ hc => ?_) fun l s' e => ?_
  case refine_2 =>
    subst e
    have hlen : numAt body 0 2 ≤ (rovingEntries s).length := by simpa [rovingEntries] using h
    exact if_pos hlen
  · simp only [shown, Option.mem_def, Option.some.injEq] at hc
    rw [← hc]
    simp only [← rovingEntry_eq]
    rfl

theorem shown_carriageGet {side : Side} (hside : sideAt body 0 = some side) :
    shown (.carriageGet body) s (leftOn s (timerShown (.carriageGet body) s)) = some (carriageContent side s) := by
  simp only [shown, timerShown, hside, Option.map_some, Option.bind_some, carriageContent, optNumber_eq]
  cases (s.carriages.get side).order <;> cases (s.carriages.get side).timer <;>
    simp [optField, orderBytes_eq, secondsLeft_eq, List.replicate]

theorem reads_carriageGet (hs : Served (.carriageGet body) s) {side : Side} (hside : sideAt body 0 = some side) :
    Reads (.carriageGet body) s := by
  refine hs.readsTimer (owner := carriageGet) (content := carriageContent side s) rfl rfl (fun _ hc => ?_) fun l s' e => ?_
  case refine_2 =>
    subst e
    simp only [carriageGet, hside]
    rfl
  · rw [shown_carriageGet hside] at hc
    exact Option.some.inj hc

theorem shown_rovingRunGet : shown (.rovingRunGet body) s (leftOn s s.roving.timer) = some (rovingRunContent s) := by
  simp only [shown, rovingRunContent, secondsLeft_eq, optNumber_eq, Option.map_map, Function.comp_def, runContent,
    Link.present]
  cases s.roving.slot <;> simp [optField, slotBytes_eq, List.replicate]

theorem reads_rovingRunGet (hs : Served (.rovingRunGet body) s) : Reads (.rovingRunGet body) s := by
  refine hs.readsTimer (owner := rovingRunGet) (content := rovingRunContent s) rfl rfl (fun _ hc => ?_) fun l s' e => ?_
  case refine_2 => subst e; rfl
  · rw [timerShown, shown_rovingRunGet] at hc
    exact Option.some.inj hc

theorem shiftGet_live (s : State) (h : byteAt body 0 = 0#8) : shiftGet body s = Handled.ok s (liveContent s) := by
  simp [shiftGet, h]

theorem shiftGet_history {r : ClosedShift} (h : byteAt body 0 = 1#8)
    (hr : s.shift.history.reverse[(byteAt body 1).toNat]? = some r) : shiftGet body s = Handled.ok s (closedBytes r) := by
  simp [shiftGet, h, hr]

theorem shiftGet_refused (h0 : byteAt body 0 ≠ 0#8)
    (h1 : ¬(byteAt body 0 = 1#8 ∧ (byteAt body 1).toNat < s.shift.history.length)) :
    shiftGet body s = Handled.refuse s .badValue := by
  unfold shiftGet
  split
  · next h => exact absurd (BitVec.eq_of_toNat_eq h) h0
  · next h =>
    split
    · next r hr =>
      have hlt := (List.getElem?_eq_some_iff.1 hr).1
      exact absurd ⟨BitVec.eq_of_toNat_eq h, by simpa using hlt⟩ h1
    · rfl
  · rfl

/-- The two rows of SHIFT_GET are one request, judged by its selector (R158, R159). -/
theorem reads_shiftGet {i : Instr} (hi : i = .shiftGetLive body ∨ i = .shiftGetHistory body) (hs : Served i s)
    (h : byteAt body 0 = 0#8 ∨ byteAt body 0 = 1#8 ∧ (byteAt body 1).toNat < s.shift.history.length) : Reads i s := by
  have hexec (u : State) : exec i u = .next (takeRequest 0x49#8 body shiftGet u) := by rcases hi with rfl | rfl <;> rfl
  have hreq : requestOf i = some ⟨0x49#8, body⟩ := by rcases hi with rfl | rfl <;> rfl
  have htimer : timerShown i s = none := by rcases hi with rfl | rfl <;> rfl
  have hshown (n : Nat) : shown i s n = if byteAt body 0 = 1#8 then
      (s.shift.history.reverse[(byteAt body 1).toNat]?).map shownClosed else none := by rcases hi with rfl | rfl <;> rfl
  rcases h with h | ⟨h, hlt⟩
  · refine hs.reads (hexec s) hreq htimer (content := liveContent s) (fun c hc => ?_) fun l s' e => ?_
    · rw [hshown, h] at hc
      cases hc
    · subst e
      exact shiftGet_live _ h
  · obtain ⟨r, hr⟩ : ∃ r, s.shift.history.reverse[(byteAt body 1).toNat]? = some r :=
      ⟨_, List.getElem?_eq_getElem (by simpa using hlt)⟩
    refine hs.reads (hexec s) hreq htimer (content := closedBytes r) (fun c hc => ?_) fun l s' e => ?_
    · rw [hshown, if_pos h, hr] at hc
      rw [closedBytes_eq]
      exact Option.some.inj hc
    · subst e
      exact shiftGet_history h hr

/-- What a reading that names nothing readable is refused with. -/
theorem refuses_reading {i : Instr} {r : HeldRequest} {owner : List Byte → State → Handled} (hs : Served i s)
    (hexec : exec i s = .next (takeRequest r.kind r.body owner s)) (hreq : requestOf i = some r)
    (howner : ∀ l s', s' = s.setLine { s.line with holding := l } → owner r.body s' = Handled.refuse s' .badValue) :
    Refuses i s .badValue 0 := hs.refuses hexec hreq (by decide) howner

theorem shiftGet_judged {i : Instr} {b : Bool} (hi : i = .shiftGetLive body ∨ i = .shiftGetHistory body)
    (hb : (decide ((byteAt body 0).toNat = 0) || (decide ((byteAt body 0).toNat = 1) &&
      decide ((byteAt body 1).toNat < s.shift.history.length))) = b) (hs : Served i s) :
    if b = true then Reads i s else Refuses i s .badValue 0 := by
  have hzero : byteAt body 0 = 0#8 ↔ (byteAt body 0).toNat = 0 := BitVec.toNat_inj.symm
  have hone : byteAt body 0 = 1#8 ↔ (byteAt body 0).toNat = 1 := BitVec.toNat_inj.symm
  have hiff : b = true ↔ byteAt body 0 = 0#8 ∨ byteAt body 0 = 1#8 ∧ (byteAt body 1).toNat < s.shift.history.length := by
    rw [← hb, hzero, hone]
    simp
  split
  · next h => exact reads_shiftGet hi hs (hiff.1 h)
  · next h =>
    rw [hiff, not_or] at h
    have hexec : exec i s = .next (takeRequest 0x49#8 body shiftGet s) := by rcases hi with rfl | rfl <;> rfl
    have hreq : requestOf i = some ⟨0x49#8, body⟩ := by rcases hi with rfl | rfl <;> rfl
    refine refuses_reading hs hexec hreq fun l s' e => ?_
    subst e
    exact shiftGet_refused h.1 h.2

/-- A readable reading is answered, and any other is refused. -/
theorem reading_judged {i : Instr} {b : Bool} (hb : readable i s = some b) (hs : Served i s) :
    if b = true then Reads i s else Refuses i s .badValue 0 := by
  cases i <;> simp only [readable, Option.some.injEq, reduceCtorEq] at hb
  case identify body =>
    subst hb
    exact hs.reads (owner := fun _ s => Handled.ok s (identifyContent s)) (content := identifyContent s) rfl rfl rfl (by simp [shown])
      fun l s' e => by subst e; rfl
  case status body =>
    subst hb
    exact hs.reads (owner := fun _ s => Handled.ok s (statusContent s)) (content := statusContent s) rfl rfl rfl (by simp [shown])
      fun l s' e => by subst e; rfl
  case configGet body =>
    split
    · next h =>
      subst h
      exact reads_configGet hs (by simpa using hb)
    · next h =>
      obtain rfl := Bool.not_eq_true _ ▸ h
      simp only [Bool.or_eq_false_iff, Bool.and_eq_false_iff, decide_eq_false_iff_not] at hb
      refine refuses_reading hs (owner := configGet) rfl rfl fun l s' e => ?_
      change configGet body s' = _
      rw [configGet, configValue_none s' (by omega) (by omega)]
  case articleGet body =>
    split
    · next h => exact reads_articleGet hs (by simpa [h] using hb)
    · next h =>
      refine refuses_reading hs (owner := articleGet) rfl rfl fun l s' e => ?_
      have hcode : 1 < (byteAt body 0).toNat := by
        by_contra hle
        exact h (by rw [← hb]; simpa using hle)
      change articleGet body s' = _
      unfold articleGet
      split
      · omega
      · omega
      · rfl
  case doffGet body =>
    subst hb
    exact reads_doffGet hs
  case spindleGet body =>
    cases hside : sideAt body 0 with
    | none =>
      rw [hside] at hb
      subst hb
      exact refuses_reading hs (owner := spindleGet) rfl rfl fun l s' e => by simp only [spindleGet, hside]
    | some side =>
      rw [hside] at hb
      split
      · next h =>
        rw [h] at hb
        simp only [Bool.and_eq_true, decide_eq_true_eq] at hb
        exact reads_spindleGet hs hside hb.1.1 hb.1.2 hb.2
      · next h =>
        refine refuses_reading hs (owner := spindleGet) rfl rfl fun l s' e => ?_
        subst e
        simp only [spindleGet, hside]
        refine if_neg fun hc => h ?_
        rw [← hb]
        simp only [Bool.and_eq_true, decide_eq_true_eq]
        exact ⟨⟨hc.2.2, hc.1⟩, hc.2.1⟩
  case breakListGet body =>
    cases hside : sideAt body 0 with
    | none =>
      rw [hside] at hb
      subst hb
      exact refuses_reading hs (owner := breakListGet) rfl rfl fun l s' e => by simp only [breakListGet, hside]
    | some side =>
      rw [hside] at hb
      split
      · next h => exact reads_breakListGet hs hside (by simpa [h] using hb)
      · next h =>
        refine refuses_reading hs (owner := breakListGet) rfl rfl fun l s' e => ?_
        subst e
        simp only [breakListGet, hside]
        exact if_neg fun hc => h (by rw [← hb]; simpa using hc)
  case rovingListGet body =>
    split
    · next h => exact reads_rovingListGet hs (by simpa [h] using hb)
    · next h =>
      refine refuses_reading hs (owner := rovingListGet) rfl rfl fun l s' e => ?_
      subst e
      refine if_neg fun hc => h ?_
      rw [← hb]
      simpa [rovingEntries] using hc
  case carriageGet body =>
    cases hside : sideAt body 0 with
    | none =>
      rw [hside] at hb
      subst hb
      exact refuses_reading hs (owner := carriageGet) rfl rfl fun l s' e => by simp only [carriageGet, hside]
    | some side =>
      rw [hside] at hb
      subst hb
      exact reads_carriageGet hs hside
  case rovingRunGet body =>
    subst hb
    exact reads_rovingRunGet hs
  case shiftGetLive body => exact shiftGet_judged (.inl rfl) hb hs
  case shiftGetHistory body => exact shiftGet_judged (.inr rfl) hb hs

end

/-- A field is the number it carries, most significant byte first (R181). -/
theorem field_reads (w n : Nat) (h : n < 256 ^ w) : (field w n).length = w ∧ fromBytes (field w n) = n := by
  rw [field, if_pos h]
  exact ⟨beBytes_length w n, fromBytes_beBytes w n h⟩

/-- Settles O25: each reading by its owner, whose content is what the rule shows. -/
theorem readingsChangeNothing : Obligations.ReadingsChangeNothing := by
  unfold Obligations.ReadingsChangeNothing
  refine ⟨fun i s b hb hs => reading_judged hb hs, fun i s left hread hshown => ?_, field_reads⟩
  have history {body : List Byte} (hread : (decide ((byteAt body 0).toNat = 0) || (decide ((byteAt body 0).toNat = 1) &&
      decide ((byteAt body 1).toNat < s.shift.history.length))) = true)
      (hshown : (if byteAt body 0 = 1#8 then
        (s.shift.history.reverse[(byteAt body 1).toNat]?).map shownClosed else none) = none) : byteAt body 0 = 0#8 := by
    simp only [Bool.or_eq_true, Bool.and_eq_true, decide_eq_true_eq] at hread
    rcases hread with h | ⟨h, hlt⟩
    · exact BitVec.eq_of_toNat_eq h
    · rw [if_pos (BitVec.eq_of_toNat_eq h), Option.map_eq_none_iff, List.getElem?_eq_none_iff, List.length_reverse] at hshown
      omega
  have named {body : List Byte} {f : Side → List Byte} {b : Side → Bool}
      (hread : (match sideAt body 0 with | some side => b side | none => false) = true)
      (hshown : (sideAt body 0).map f = none) : False := by
    rw [Option.map_eq_none_iff] at hshown
    simp [hshown] at hread
  cases i <;> simp only [readable, Option.some.injEq, reduceCtorEq] at hread
  case identify body => exact ⟨body, .inr (.inl rfl)⟩
  case status body => exact ⟨body, .inl rfl⟩
  case shiftGetLive body => exact ⟨body, .inr (.inr ⟨history hread hshown, .inl rfl⟩)⟩
  case shiftGetHistory body => exact ⟨body, .inr (.inr ⟨history hread hshown, .inr rfl⟩)⟩
  case spindleGet body => exact (named hread hshown).elim
  case breakListGet body => exact (named hread hshown).elim
  case carriageGet body =>
    obtain ⟨side, hside⟩ := Option.isSome_iff_exists.1 hread
    simp [shown, hside] at hshown
  all_goals cases hshown

end Sys2Proof.Machine
end

