-- ==== Sys2Proof/Proofs/StatusAndIdentify.lean ====
section
/-!
PROOFS. STATUS and IDENTIFY: a reply is a run of parts of known widths, and each figure stands in its part (O26).
-/
namespace Sys2Proof.Machine

-- One after another: each theorem as a task of its own takes a thread.
set_option Elab.async false

/-! ## A run of parts -/

section
variable {ps : List (List Byte)} {ws : List Nat} (hws : ps.map (·.length) = ws) {j i : Nat}
include hws

/-- The bytes from a place within part `j`, which begins at `i`. -/
theorem drop_flatten (hj : j < ps.length) (hi : (ws.take j).sum = i) {k : Nat} (hk : k ≤ ps[j].length) :
    ∃ rest, ps.flatten.drop (i + k) = ps[j].drop k ++ rest := by
  refine ⟨(ps.drop (j + 1)).flatten, ?_⟩
  have hsplit : ps.flatten = (ps.take j).flatten ++ (ps[j] ++ (ps.drop (j + 1)).flatten) := by
    conv_lhs => rw [← List.take_append_drop j ps, List.drop_eq_getElem_cons hj]
    rw [List.flatten_append, List.flatten_cons]
  have hlen : (ps.take j).flatten.length = i := by rw [List.length_flatten, List.map_take, hws, hi]
  rw [hsplit, ← hlen, List.drop_append, List.drop_of_length_le (Nat.le_add_right _ _), List.nil_append,
    Nat.add_sub_cancel_left, List.drop_append_of_le_length hk]

theorem numAt_flatten (hj : j < ps.length) (hi : (ws.take j).sum = i) {k w : Nat}
    (hk : k + w ≤ ps[j].length) : numAt ps.flatten (i + k) w = numAt ps[j] k w := by
  obtain ⟨rest, h⟩ := drop_flatten hws hj hi (k := k) (by omega)
  rw [numAt, h, List.take_append_of_le_length (by rw [List.length_drop]; omega)]
  rfl

theorem byteAt_flatten (hj : j < ps.length) (hi : (ws.take j).sum = i) {k : Nat}
    (hk : k < ps[j].length) : byteAt ps.flatten (i + k) = byteAt ps[j] k := by
  obtain ⟨rest, h⟩ := drop_flatten hws hj hi (k := k) (by omega)
  have at_drop (l : List Byte) (n : Nat) : byteAt l n = (l.drop n).headD 0 := by
    rw [byteAt, List.getD_eq_getElem?_getD, List.headD_eq_head?_getD, List.head?_drop]
  have hne : ps[j].drop k ≠ [] := by
    rw [ne_eq, List.drop_eq_nil_iff]
    omega
  rw [at_drop, at_drop, h]
  obtain ⟨b, l, hl⟩ := List.exists_cons_of_ne_nil hne
  rw [hl]
  rfl

end

/-! ## Fields -/

@[simp] theorem field_length (w n : Nat) : (field w n).length = w := by
  unfold field
  split <;> exact beBytes_length _ _

theorem numAt_field {w n : Nat} (h : n < 256 ^ w) : numAt (field w n) 0 w = n := by
  rw [numAt, List.drop_zero, List.take_of_length_le (field_length w n).le]
  exact (field_reads w n h).2

theorem byteAt_field {n : Nat} (h : n < 256) : (byteAt (field 1 n) 0).toNat = n := by
  rw [field_one n h]
  exact (BitVec.toNat_ofNat n 8).trans (Nat.mod_eq_of_lt h)

theorem byteAt_flagField (b : Bool) : byteAt (flagField b) 0 = 1#8 ↔ b = true := by cases b <;> decide

/-- A signed byte gives its number back (R181). -/
theorem byteAt_signedField {i : Int} (h : -128 ≤ i ∧ i ≤ 127) : (byteAt (signedField 1 i) 0).toInt = i := by
  change (BitVec.ofNat 8 ((i % (256 ^ 1 : Int)).toNat / 256 ^ 0)).toInt = i
  rw [pow_zero, Nat.div_one, pow_one, BitVec.toInt_eq_toNat_cond, BitVec.toNat_ofNat]
  split <;> omega

theorem numAt_classField (m : ClassSet) : numAt (classField m) 0 2 = m.toNat := by
  rw [numAt, List.drop_zero, classField, List.take_of_length_le (beBytes_length _ _).le]
  exact fromBytes_beBytes 2 m.toNat (m.isLt.trans (by decide))

/-- The parts of STATUS in the order of R184. -/
def statusParts (s : State) : List (List Byte) :=
  [field 1 s.doff.frame.code, flagField s.roller.winding, field 8 s.flmm, field 2 s.speed.fill, field 2 s.speed.setPoint,
    field 1 s.speed.step, signedField 1 s.items.speedTrim, signedField 1 s.items.lengthTrim, classField s.line.pendingSet,
    classField s.doff.effective.mask, flagField s.doff.saved.isSome, field 2 (lockedCount s),
    field 2 s.breakList.a.length, field 2 s.breakList.b.length,
    field 2 (s.roving.urgent.length + s.roving.low.length), field 1 s.roving.run.code, field 2 s.line.discards,
    optField 1 (s.line.lastDiscard.map fun r => field 1 r.code)]

theorem statusContent_eq (s : State) : statusContent s = (statusParts s).flatten := by
  simp [statusContent, statusParts]

/-- The parts of IDENTIFY in the order of R183. -/
def identifyParts (s : State) : List (List Byte) :=
  [field 2 7460, field 1 siliconRevision, field 1 s.loader.outcome.code, optField 2 (s.loader.failIndex.map (field 2)),
    flagField s.loader.defaulted, field 1 s.line.rate.code, field 4 s.items.sections.a, field 4 s.items.sections.b]

theorem identifyContent_eq (s : State) : identifyContent s = (identifyParts s).flatten := by
  simp [identifyContent, identifyParts]

@[simp] theorem flagField_length (b : Bool) : (flagField b).length = 1 := rfl

@[simp] theorem signedField_length (w : Nat) (i : Int) : (signedField w i).length = w := beBytes_length _ _

@[simp] theorem classField_length (m : ClassSet) : (classField m).length = 2 := beBytes_length _ _

@[simp] theorem optField_field_length (w : Nat) (x : Option Nat) : (optField w (x.map (field w))).length = w + 1 := by
  cases x <;> simp [optField]

/-! ## A figure in its part -/

section
variable {ps : List (List Byte)} {ws : List Nat} {c : List Byte}
  (hc : c = ps.flatten) (hws : ps.map (·.length) = ws) {j i w n : Nat}
include hc hws

theorem numAt_part (h : ps[j]? = some (field w n)) (hi : (ws.take j).sum = i) (hn : n < 256 ^ w) :
    numAt c i w = n := by
  obtain ⟨hj, hget⟩ := List.getElem?_eq_some_iff.1 h
  have := numAt_flatten hws hj hi (k := 0) (w := w) (by rw [hget]; simp)
  rw [Nat.add_zero, ← hc, hget, numAt_field hn] at this
  exact this

theorem byteAt_part {l : List Byte} (h : ps[j]? = some l) (hi : (ws.take j).sum = i) (hl : 0 < l.length) :
    byteAt c i = byteAt l 0 := by
  obtain ⟨hj, rfl⟩ := List.getElem?_eq_some_iff.1 h
  rw [hc]
  exact byteAt_flatten hws hj hi (k := 0) hl

theorem codeAt_part (h : ps[j]? = some (field 1 n)) (hi : (ws.take j).sum = i) (hn : n < 256) :
    (byteAt c i).toNat = n := by
  rw [byteAt_part hc hws h hi (by simp), byteAt_field hn]

theorem flagAt_part {b : Bool} (h : ps[j]? = some (flagField b)) (hi : (ws.take j).sum = i) :
    byteAt c i = 1#8 ↔ b = true := by
  rw [byteAt_part hc hws h hi (by simp), byteAt_flagField]

theorem classAt_part {m : ClassSet} (h : ps[j]? = some (classField m)) (hi : (ws.take j).sum = i) :
    numAt c i 2 = m.toNat := by
  obtain ⟨hj, hget⟩ := List.getElem?_eq_some_iff.1 h
  have := numAt_flatten hws hj hi (k := 0) (w := 2) (by rw [hget]; simp)
  rw [Nat.add_zero, ← hc, hget, numAt_classField] at this
  exact this

theorem signedAt_part {x : Int} (h : ps[j]? = some (signedField 1 x)) (hi : (ws.take j).sum = i)
    (hx : -128 ≤ x ∧ x ≤ 127) : (byteAt c i).toInt = x := by
  rw [byteAt_part hc hws h hi (by simp), byteAt_signedField hx]

end

/-! ## The obligation -/

theorem statusParts_widths (s : State) :
    (statusParts s).map (·.length) = [1, 1, 8, 2, 2, 1, 1, 1, 2, 2, 1, 2, 2, 2, 2, 1, 2, 2] := by
  have hlast : (optField 1 (s.line.lastDiscard.map fun r => field 1 r.code)).length = 2 := by
    cases s.line.lastDiscard <;> simp [optField]
  simp [statusParts, hlast]

theorem identifyParts_widths (s : State) : (identifyParts s).map (·.length) = [2, 1, 1, 3, 1, 1, 4, 4] := by
  simp [identifyParts]

theorem status_figures (s : State) (c : List Byte) (hc : c = statusContent s) :
    c.length = 35 ∧ (byteAt c 0).toNat = s.doff.frame.code ∧ (byteAt c 1 = 1#8 ↔ s.roller.winding = true) ∧
      (s.flmm < 2 ^ 64 → numAt c 2 8 = s.flmm) ∧ (s.speed.fill < 65536 → numAt c 10 2 = s.speed.fill) ∧
      (s.speed.setPoint < 65536 → numAt c 12 2 = s.speed.setPoint) ∧
      (s.speed.step < 256 → (byteAt c 14).toNat = s.speed.step) ∧
      (-128 ≤ s.items.speedTrim ∧ s.items.speedTrim ≤ 127 → (byteAt c 15).toInt = s.items.speedTrim) ∧
      (-128 ≤ s.items.lengthTrim ∧ s.items.lengthTrim ≤ 127 → (byteAt c 16).toInt = s.items.lengthTrim) ∧
      numAt c 17 2 = s.line.pendingSet.toNat ∧ numAt c 19 2 = s.doff.effective.mask.toNat ∧
      (byteAt c 21 = 1#8 ↔ s.doff.saved.isSome) ∧ (lockedCount s < 65536 → numAt c 22 2 = lockedCount s) ∧
      (s.breakList.a.length < 65536 → numAt c 24 2 = s.breakList.a.length) ∧
      (s.breakList.b.length < 65536 → numAt c 26 2 = s.breakList.b.length) ∧
      (s.roving.urgent.length + s.roving.low.length < 65536 →
        numAt c 28 2 = s.roving.urgent.length + s.roving.low.length) ∧
      (byteAt c 30).toNat = s.roving.run.code ∧ (s.line.discards < 65536 → numAt c 31 2 = s.line.discards) ∧
      ((byteAt c 33 = 1#8 ↔ s.line.lastDiscard.isSome) ∧
        ∀ r ∈ s.line.lastDiscard, (byteAt c 34).toNat = r.code) := by
  rw [statusContent_eq] at hc
  have hlast : (optField 1 (s.line.lastDiscard.map fun r => field 1 r.code)).length = 2 := by
    cases s.line.lastDiscard <;> simp [optField]
  have hlen : (statusParts s).length = 18 := rfl
  have hws := statusParts_widths s
  have hreason (k : Nat) (hk : k < 2) : byteAt c (33 + k) =
      byteAt (optField 1 (s.line.lastDiscard.map fun r => field 1 r.code)) k := by
    rw [hc]
    exact byteAt_flatten hws (j := 17) (by rw [hlen]; decide) rfl (hk.trans_eq hlast.symm)
  refine ⟨?_, ?_, ?_, fun h => ?_, fun h => ?_, fun h => ?_, fun h => ?_, fun h => ?_, fun h => ?_, ?_, ?_, ?_,
    fun h => ?_, fun h => ?_, fun h => ?_, fun h => ?_, ?_, fun h => ?_, ?_, fun r hr => ?_⟩
  · rw [hc, List.length_flatten, hws]
    rfl
  · exact codeAt_part hc hws (j := 0) rfl rfl (by cases s.doff.frame <;> decide)
  · exact flagAt_part hc hws (j := 1) rfl rfl
  · exact numAt_part hc hws (j := 2) rfl rfl (by simpa using h)
  · exact numAt_part hc hws (j := 3) rfl rfl (by simpa using h)
  · exact numAt_part hc hws (j := 4) rfl rfl (by simpa using h)
  · exact codeAt_part hc hws (j := 5) rfl rfl h
  · exact signedAt_part hc hws (j := 6) rfl rfl h
  · exact signedAt_part hc hws (j := 7) rfl rfl h
  · exact classAt_part hc hws (j := 8) rfl rfl
  · exact classAt_part hc hws (j := 9) rfl rfl
  · exact flagAt_part hc hws (j := 10) rfl rfl
  · exact numAt_part hc hws (j := 11) rfl rfl (by simpa using h)
  · exact numAt_part hc hws (j := 12) rfl rfl (by simpa using h)
  · exact numAt_part hc hws (j := 13) rfl rfl (by simpa using h)
  · exact numAt_part hc hws (j := 14) rfl rfl (by simpa using h)
  · exact codeAt_part hc hws (j := 15) rfl rfl (by cases s.roving.run <;> decide)
  · exact numAt_part hc hws (j := 16) rfl rfl (by simpa using h)
  · rw [hreason 0 (by decide)]
    cases s.line.lastDiscard <;> simp [optField, byteAt]
  · rw [hreason 1 (by decide), Option.mem_def.1 hr]
    exact byteAt_field (by cases r <;> decide)

theorem identify_figures (s : State) (c : List Byte) (hc : c = identifyContent s) :
    numAt c 0 2 = 7460 ∧ 1 ≤ (byteAt c 2).toNat ∧ (byteAt c 3).toNat = s.loader.outcome.code ∧
      (byteAt c 4 = 1#8 ↔ s.loader.failIndex.isSome) ∧
      (∀ n ∈ s.loader.failIndex, n < 65536 → numAt c 5 2 = n) ∧
      (byteAt c 7 = 1#8 ↔ s.loader.defaulted = true) ∧ (byteAt c 8).toNat = s.line.rate.code ∧
      (s.items.sections.a < 2 ^ 32 → numAt c 9 4 = s.items.sections.a) ∧
      (s.items.sections.b < 2 ^ 32 → numAt c 13 4 = s.items.sections.b) := by
  rw [identifyContent_eq] at hc
  have hlen : (identifyParts s).length = 8 := rfl
  have hws := identifyParts_widths s
  have hrevision : siliconRevision < 256 ∧ 1 ≤ siliconRevision := by
    unfold siliconRevision
    omega
  refine ⟨numAt_part hc hws (j := 0) rfl rfl (by decide), ?_,
    codeAt_part hc hws (j := 2) rfl rfl (by cases s.loader.outcome <;> decide), ?_, fun n hn h => ?_,
    flagAt_part hc hws (j := 4) rfl rfl, codeAt_part hc hws (j := 5) rfl rfl (by cases s.line.rate <;> decide),
    fun h => numAt_part hc hws (j := 6) rfl rfl (by simpa using h),
    fun h => numAt_part hc hws (j := 7) rfl rfl (by simpa using h)⟩
  · rw [codeAt_part hc hws (i := 2) (j := 1) rfl rfl hrevision.1]
    exact hrevision.2
  · rw [byteAt_part hc hws (i := 4) (j := 3) rfl rfl (by simp)]
    cases s.loader.failIndex <;> simp [optField, byteAt]
  · have hpart := numAt_flatten hws (j := 3) (i := 4) (k := 1) (w := 2) (by rw [hlen]; decide) rfl
      (by simp [identifyParts])
    rw [hc]
    refine hpart.trans ?_
    change numAt (optField 2 (s.loader.failIndex.map (field 2))) 1 2 = n
    rw [Option.mem_def.1 hn]
    exact numAt_field (by simpa using h)

/-- Settles O26: a figure stands in the part that its rule gives it, and the parts before it have their widths. -/
theorem statusAndIdentifyShowTheState : Obligations.StatusAndIdentifyShowTheState := by
  unfold Obligations.StatusAndIdentifyShowTheState
  refine ⟨fun s hs => ?_, fun s hs => ?_⟩
  · exact ⟨statusContent s, hs.replies (r := ⟨0x02#8, []⟩) (owner := fun _ s => Handled.ok s (statusContent s)) rfl rfl
      fun l s' h => ⟨s', by subst h; rfl, rfl⟩, status_figures s _ rfl⟩
  · exact ⟨identifyContent s, hs.replies (r := ⟨0x01#8, []⟩) (owner := fun _ s => Handled.ok s (identifyContent s)) rfl rfl
      fun l s' h => ⟨s', by subst h; rfl, rfl⟩, identify_figures s _ rfl⟩

end Sys2Proof.Machine
end

