-- ==== Sys2Proof/Proofs/Configuration.lean ====
section
/-!
PROOFS. Class sets and ATTN (O27), and CONFIG_SET judged in its order: the plain items, the encoder items and the two
trims (O28, O29, O31, O32).
-/
namespace Sys2Proof.Machine

-- One after another: each theorem as a task of its own takes a thread.
set_option Elab.async false

/-! ## Class sets -/

/-- Every bit of a class set is the bit of a class. -/
theorem PendClass.exists_number {i : Nat} (h : i < 15) : ∃ c : PendClass, c.number = i := by
  have hall : ∀ i < 15, ∃ c ∈ [PendClass.config, .lineFault, .motion, .frameState, .stopAdvice, .speed, .rogueLock,
      .pieceFailLock, .carriage, .rovingLow, .rovingOut, .rovingRunEnd, .article, .dofferFault, .shiftSaturated],
      c.number = i := by decide
  obtain ⟨c, _, hc⟩ := hall i h
  exact ⟨c, hc⟩

theorem hasClass_eq (m : ClassSet) (c : PendClass) : hasClass m c = m.getLsbD c.number := by
  have hbit : c.bit = BitVec.twoPow 15 c.number := by
    rw [PendClass.bit]
    cases c <;> decide
  rw [hasClass, hbit, BitVec.and_twoPow]
  have hne : BitVec.twoPow 15 c.number ≠ 0#15 := by cases c <;> decide
  split
  · next h => simpa [h] using hne
  · next h => simp [h]

/-- Two class sets have a class in common exactly where a bit stands in both. -/
theorem and_ne_zero_iff (m n : ClassSet) : m &&& n ≠ 0 ↔ ∃ c, hasClass m c = true ∧ hasClass n c = true := by
  simp only [hasClass_eq]
  constructor
  · intro h
    by_contra hno
    refine h (BitVec.eq_of_getLsbD_eq fun i hi => ?_)
    obtain ⟨c, rfl⟩ := PendClass.exists_number hi
    rw [BitVec.getLsbD_and]
    simpa using fun hm => by simpa [hm] using fun hn => hno ⟨c, hm, hn⟩
  · rintro ⟨c, hm, hn⟩ h
    have := congrArg (·.getLsbD c.number) h
    simp [hm, hn] at this

theorem attnLow_iff (s : State) : attnLow s = true ↔
    s.phase = .running ∧ ∃ c, hasClass s.line.pendingSet c = true ∧ hasClass s.doff.effective.mask c = true := by
  rw [← and_ne_zero_iff]
  simp [attnLow]

theorem setNormalMask_eq (m : ClassSet) (s : State) : setNormalMask m s =
    ⟨s.setDoff (match s.doff.saved with
      | some c => { s.doff with saved := some { c with mask := m } }
      | none => { s.doff with effective := { s.doff.effective with mask := m } }),
      if s.doff.saved.isSome then .deferred else .ok, []⟩ := by
  cases h : s.doff.saved <;> simp [setNormalMask, h]

/-! ## CONFIG_SET judged -/

section
variable {body : List Byte} {s : State}

/-- The seven CONFIG_SET commands are one request with one owner (R196). -/
theorem exec_configSet {i : Instr} (h : i ∈ [Instr.configSet body, .configSetSections body, .configSetEncoder body,
    .configSetLengthTrim body, .configSetSpeedTrim body, .configSetAttnMask body, .configSetDoffMask body]) :
    exec i s = .next (takeRequest 0x08#8 body configSet s) ∧ requestOf i = some ⟨0x08#8, body⟩ := by
  simp only [List.mem_cons, List.not_mem_nil, or_false] at h
  rcases h with rfl | rfl | rfl | rfl | rfl | rfl | rfl <;> exact ⟨rfl, rfl⟩

theorem isConfigCode_iff {code : Nat} : isConfigCode code = true ↔ 1 ≤ code ∧ code ≤ 0x19 := by simp [isConfigCode]

theorem isConfigCode_of_range {code v : Nat} (h : configRange code v = true) : isConfigCode code = true := by
  unfold configRange at h
  split at h <;> first | rfl | cases h

theorem crossCheck_eq_false_iff {code v : Nat} : crossCheck code v s = false ↔
    (code = 0x0E ∧ v < lockedCount s) ∨ (code = 0x0F ∧ s.articles.active.bobbin ≤ v + s.items.runoutMargin) ∨
      (code = 0x10 ∧ s.articles.active.bobbin ≤ s.items.rovingThreshold + v) ∨
      (code = 0x15 ∧ v ≤ s.items.govLow) ∨ (code = 0x16 ∧ s.items.govHigh ≤ v) := by
  unfold crossCheck
  split <;> simp_all

/-- A request past the refusals of R196. -/
theorem configSet_of_passes (hstop : stoppedOnly (byteAt body 0).toNat = true → s.doff.frame = .stopped)
    (hrange : configRange (byteAt body 0).toNat (numAt body 1 4) = true)
    (hcross : crossCheck (byteAt body 0).toNat (numAt body 1 4) s = true) :
    configSet body s = if (byteAt body 0).toNat = 0x18 then setNormalMask (BitVec.ofNat 15 (numAt body 1 4)) s
      else if (byteAt body 0).toNat = 0x19 then replaceDoffMask (BitVec.ofNat 15 (numAt body 1 4)) s
      else if s.items.value (byteAt body 0).toNat = numAt body 1 4 then Handled.ok s []
      else takeItem (byteAt body 0).toNat (numAt body 1 4) s := by
  have hrun : (stoppedOnly (byteAt body 0).toNat && s.doff.frame != .stopped) = false := by
    simpa [← Bool.not_eq_true] using hstop
  simp [configSet, isConfigCode_of_range hrange, hrun, hrange, hcross]

/-- The item code where the cross check has nothing to compare (R197). -/
theorem crossCheck_of_code {code v : Nat} (h : code ∉ [0x0E, 0x0F, 0x10, 0x15, 0x16]) : crossCheck code v s = true := by
  rw [← Bool.not_eq_false, crossCheck_eq_false_iff]
  simp only [List.mem_cons, List.not_mem_nil, or_false, not_or] at h
  omega

end

/-! ## The masks -/

section
variable {body : List Byte} {s : State} {v detail : Nat} {i : Instr} {r : HeldRequest} {owner : List Byte → State → Handled}

theorem ackEvents_eq (body : List Byte) (s : State) : ackEvents body s =
    if numAt body 0 2 < 2 ^ 15 then
      Handled.ok (clearClasses (BitVec.ofNat 15 (numAt body 0 2)) s)
        (classField (clearClasses (BitVec.ofNat 15 (numAt body 0 2)) s).line.pendingSet)
    else Handled.refuse s .badValue := by
  unfold ackEvents classSetOf
  split_ifs <;> rfl

theorem setMask_eq (body : List Byte) (s : State) : setMask body s =
    if numAt body 0 2 < 2 ^ 15 then setNormalMask (BitVec.ofNat 15 (numAt body 0 2)) s
    else Handled.refuse s .badValue := by
  unfold setMask classSetOf
  split_ifs <;> rfl

theorem setDoffMask_eq (body : List Byte) (s : State) : setDoffMask body s =
    if numAt body 0 2 < 2 ^ 15 then replaceDoffMask (BitVec.ofNat 15 (numAt body 0 2)) s
    else Handled.refuse s .badValue := by
  unfold setDoffMask classSetOf
  split_ifs <;> rfl

/-- The range of a mask is what a class set can name (R190, R191). -/
theorem configRange_mask {code : Nat} (hc : code = 0x18 ∨ code = 0x19) : configRange code v = true ↔ v < 2 ^ 15 := by
  rcases hc with rfl | rfl <;> simp [configRange] <;> omega

/-- CONFIG_SET of a mask is refused by its range alone (R191, R197). -/
theorem configSet_mask (hc : (byteAt body 0).toNat = 0x18 ∨ (byteAt body 0).toNat = 0x19) : configSet body s =
    if numAt body 1 4 < 2 ^ 15 then
      if (byteAt body 0).toNat = 0x18 then setNormalMask (BitVec.ofNat 15 (numAt body 1 4)) s
      else replaceDoffMask (BitVec.ofNat 15 (numAt body 1 4)) s
    else Handled.refuse s .badValue (byteAt body 0).toNat := by
  have hstop : stoppedOnly (byteAt body 0).toNat = false := by rcases hc with h | h <;> rw [h] <;> rfl
  split
  · next hv =>
    rw [configSet_of_passes (by simp [hstop]) ((configRange_mask hc).2 hv)
      (crossCheck_of_code (by rcases hc with h | h <;> rw [h] <;> decide))]
    rcases hc with h | h <;> simp [h]
  · next hv =>
    have hrange : configRange (byteAt body 0).toNat (numAt body 1 4) = false := by
      rw [← Bool.not_eq_true]
      exact mt (configRange_mask hc).1 hv
    have hcode : isConfigCode (byteAt body 0).toNat = true := by rcases hc with h | h <;> rw [h] <;> rfl
    simp [configSet, hcode, hstop, hrange]

/-- The normal mask is set in the context that is in force or saved (R105). -/
theorem Served.setsNormalMask (hs : Served i s) (hexec : exec i s = .next (takeRequest r.kind r.body owner s))
    (hreq : requestOf i = some r) (hdetail : detail < 256)
    (howner : ∀ s', owner r.body s' = if v < 2 ^ 15 then setNormalMask (BitVec.ofNat 15 v) s'
      else Handled.refuse s' .badValue detail) :
    if v < 2 ^ 15 then
      Replies i s (if s.doff.saved.isSome then .deferred else .ok) (fun _ => []) fun s' u =>
        OnlyChanges [.doff] s' u ∧
        u.doff = match s.doff.saved with
          | some c => { s.doff with saved := some { c with mask := BitVec.ofNat 15 v } }
          | none => { s.doff with effective := { s.doff.effective with mask := BitVec.ofNat 15 v } }
    else Refuses i s .badValue detail := by
  split
  · next hv =>
    refine hs.replies hexec hreq fun l s' e => ⟨_, ?_, setDoff_frame s' _, rfl⟩
    have hdoff : s'.doff = s.doff := by rw [e]; rfl
    rw [howner s', if_pos hv, setNormalMask_eq, hdoff]
  · next hv => exact hs.refuses hexec hreq hdetail fun l s' _ => (howner s').trans (if_neg hv)

/-- The doff mask is set (R106). -/
theorem Served.setsDoffMask (hs : Served i s) (hexec : exec i s = .next (takeRequest r.kind r.body owner s))
    (hreq : requestOf i = some r) (hdetail : detail < 256)
    (howner : ∀ s', owner r.body s' = if v < 2 ^ 15 then replaceDoffMask (BitVec.ofNat 15 v) s'
      else Handled.refuse s' .badValue detail) :
    if v < 2 ^ 15 then
      Replies i s .ok (fun _ => []) fun s' u =>
        OnlyChanges [.doff] s' u ∧ u.doff = { s.doff with doffMask := BitVec.ofNat 15 v }
    else Refuses i s .badValue detail := by
  split
  · next hv =>
    refine hs.replies hexec hreq fun l s' e => ⟨_, (howner s').trans (if_pos hv), setDoff_frame s' _, ?_⟩
    rw [e]
    rfl
  · next hv => exact hs.refuses hexec hreq hdetail fun l s' _ => (howner s').trans (if_neg hv)

end

/-- Settles O27: a number above 14 makes no class set, and a mask by CONFIG_SET is judged by its range alone. -/
theorem classSetsAreTaken : Obligations.ClassSetsAreTaken := by
  unfold Obligations.ClassSetsAreTaken
  refine ⟨fun s body hs => ?_, fun s i v detail hs hi => ?_, fun s i v detail hs hi => ?_, attnLow_iff⟩
  · split
    · next hv =>
      exact hs.replies (r := ⟨0x03#8, body⟩) rfl rfl fun l s' _ =>
        ⟨_, (ackEvents_eq body s').trans (if_pos hv), clearClasses_frame s' _, rfl⟩
    · next hv =>
      exact hs.refuses (r := ⟨0x03#8, body⟩) rfl rfl (by decide) fun l s' _ =>
        (ackEvents_eq body s').trans (if_neg hv)
  · rcases hi with ⟨body, rfl, rfl, rfl⟩ | ⟨body, rfl, hcode, rfl, rfl⟩
    · exact hs.setsNormalMask (r := ⟨0x04#8, body⟩) rfl rfl (by decide) (setMask_eq body)
    · refine hs.setsNormalMask (r := ⟨0x08#8, body⟩) (owner := configSet) rfl rfl (by decide) fun s' => ?_
      refine (configSet_mask (.inl (by rw [hcode]; rfl))).trans ?_
      simp [hcode]
  · rcases hi with ⟨body, rfl, rfl, rfl⟩ | ⟨body, rfl, hcode, rfl, rfl⟩
    · exact hs.setsDoffMask (r := ⟨0x05#8, body⟩) rfl rfl (by decide) (setDoffMask_eq body)
    · refine hs.setsDoffMask (r := ⟨0x08#8, body⟩) (owner := configSet) rfl rfl (by decide) fun s' => ?_
      refine (configSet_mask (.inr (by rw [hcode]; rfl))).trans ?_
      simp [hcode]

/-! ## Items -/

/-- Settles O28: no plain item is refused by its cross check under the bounds given, and its value is put. -/
theorem configSetPutsTheItem : Obligations.ConfigSetPutsTheItem := by
  unfold Obligations.ConfigSetPutsTheItem
  intro s body hs hcode hstop hrange hceiling hthreshold hmargin hhigh hlow
  have hplain : plainItem (byteAt body 0).toNat := by
    simp only [List.mem_cons, List.not_mem_nil, or_false] at hcode
    unfold plainItem
    omega
  have hbounds : 0x06 ≤ (byteAt body 0).toNat ∧ (byteAt body 0).toNat ≤ 0x16 := by
    unfold plainItem at hplain
    omega
  have hcross : crossCheck (byteAt body 0).toNat (numAt body 1 4) s = true := by
    rw [← Bool.not_eq_false, crossCheck_eq_false_iff]
    omega
  have hput := put_value_same (t := s.items) (c := (byteAt body 0).toNat) (v := numAt body 1 4) (by omega)
    hbounds.2 (by omega)
  have hown (s' : State) (l : List HeldRequest) (e : s' = s.setLine { s.line with holding := l }) : configSet body s' =
      if s.items.value (byteAt body 0).toNat = numAt body 1 4 then Handled.ok s' []
      else Handled.ok (s'.setItems (s.items.put (byteAt body 0).toNat (numAt body 1 4))) [] := by
    subst e
    refine (configSet_of_passes (s := s.setLine { s.line with holding := l }) hstop hrange hcross).trans ?_
    rw [if_neg (by omega), if_neg (by omega), takeItem_plain hplain]
    rfl
  by_cases heq : s.items.value (byteAt body 0).toNat = numAt body 1 4
  · refine hs.replies (r := ⟨0x08#8, body⟩) rfl rfl fun l s' e =>
      ⟨s', (hown s' l e).trans (if_pos heq), .refl _ s', ?_⟩
    have hitems : s'.items = s.items := by rw [e]; rfl
    rw [hitems]
    exact ⟨heq, fun _ _ _ => rfl, rfl, rfl, fun _ => rfl⟩
  · exact hs.replies (r := ⟨0x08#8, body⟩) rfl rfl fun l s' e =>
      ⟨_, (hown s' l e).trans (if_neg heq), setItems_frame s' _, hput, fun c _ hc => put_value_of_ne hc,
        put_lengthTrim_of_ne (by omega), put_speedTrim_of_ne (by omega), fun h => absurd h heq⟩

/-- Settles O29: the refusals stand in the order of R196, and the item code fits its byte. -/
theorem configSetIsRefusedInOrder : Obligations.ConfigSetIsRefusedInOrder := by
  unfold Obligations.ConfigSetIsRefusedInOrder
  intro s body i hi hs code v
  obtain ⟨hexec, hreq⟩ := exec_configSet hi
  have hrefuse {res : Result} (h : ∀ l, configSet body (s.setLine { s.line with holding := l }) =
      Handled.refuse (s.setLine { s.line with holding := l }) res code) : Refuses i s res code :=
    hs.refuses (r := ⟨0x08#8, body⟩) hexec hreq (byteAt body 0).isLt fun l s' e => by subst e; exact h l
  by_cases hcode : 1 ≤ code ∧ code ≤ 0x19
  case neg =>
    rw [if_pos hcode]
    rw [← isConfigCode_iff, Bool.not_eq_true] at hcode
    exact hrefuse fun l => by simp [configSet, code, show isConfigCode (byteAt body 0).toNat = false from hcode]
  rw [if_neg (not_not.2 hcode)]
  rw [← isConfigCode_iff] at hcode
  split_ifs with hstop hrange hcross
  · exact hrefuse fun l => by simp [configSet, code, hcode, hstop]
  all_goals
    have hruns : (stoppedOnly code && s.doff.frame != .stopped) = false := by simpa [← Bool.not_eq_true] using hstop
  · exact hrefuse fun l => by simp [configSet, code, v, hcode, hruns, hrange]
  all_goals
    rw [← crossCheck_eq_false_iff] at hcross
    rw [Bool.not_eq_false] at hrange
  · exact hrefuse fun l => by
      have hcross' : crossCheck code v (s.setLine { s.line with holding := l }) = false := hcross
      simp [configSet, code, v, hcode, hruns, hrange, hcross']
  rw [Bool.not_eq_false] at hcross
  · intro hmask hvalue
    refine hs.replies (r := ⟨0x08#8, body⟩) hexec hreq fun l s' e => ⟨s', ?_, rfl⟩
    subst e
    simp only [List.mem_cons, List.not_mem_nil, or_false, not_or] at hmask
    refine (configSet_of_passes (s := s.setLine { s.line with holding := l }) (by simpa using hstop) hrange hcross).trans ?_
    rw [if_neg hmask.1, if_neg hmask.2]
    exact if_pos hvalue

/-- A new value past the refusals is taken by the block that the item belongs to (R196). -/
theorem configSet_takes {body : List Byte} {s : State}
    (hstop : stoppedOnly (byteAt body 0).toNat = true → s.doff.frame = .stopped)
    (hrange : configRange (byteAt body 0).toNat (numAt body 1 4) = true)
    (hcross : crossCheck (byteAt body 0).toNat (numAt body 1 4) s = true)
    (hmask : (byteAt body 0).toNat ≠ 0x18 ∧ (byteAt body 0).toNat ≠ 0x19)
    (hnew : s.items.value (byteAt body 0).toNat ≠ numAt body 1 4) :
    configSet body s = takeItem (byteAt body 0).toNat (numAt body 1 4) s := by
  rw [configSet_of_passes hstop hrange hcross, if_neg hmask.1, if_neg hmask.2, if_neg hnew]

/-- Settles O31: both items are STOPPED-only, and N and D are formed from the set with the new value. -/
theorem encoderItemsFormNewConstants : Obligations.EncoderItemsFormNewConstants := by
  unfold Obligations.EncoderItemsFormNewConstants
  intro s body hs hcode
  have hstopped : stoppedOnly (byteAt body 0).toNat = true := by rcases hcode with h | h <;> rw [h] <;> rfl
  refine ⟨fun hframe => ?_, fun hframe hrange hnew => ?_⟩
  · have hconfig : isConfigCode (byteAt body 0).toNat = true := isConfigCode_iff.2 (by omega)
    exact hs.refuses (r := ⟨0x08#8, body⟩) rfl rfl (byteAt body 0).isLt fun l s' e => by
      subst e
      simp [configSet, hconfig, hstopped, hframe]
  · refine hs.replies (r := ⟨0x08#8, body⟩) rfl rfl fun l s' e =>
      ⟨takeEncoderItems (s.items.put (byteAt body 0).toNat (numAt body 1 4)) s', ?_, takeEncoderItems_frame s' _, ?_, ?_⟩
    · subst e
      refine (configSet_takes (s := s.setLine { s.line with holding := l }) (fun _ => hframe) hrange
        (crossCheck_of_code (by rcases hcode with h | h <;> rw [h] <;> decide)) (by omega) hnew).trans ?_
      rcases hcode with h | h <;> rw [h] <;> rfl
    · rcases hcode with h | h <;> rw [h] <;> rfl
    · subst e
      rcases hcode with h | h <;> rw [h] <;> rfl

/-! ## Trims -/

/-- A trim is brought to the nearest limit. -/
theorem clampTrim_eq {lo hi x : Int} (h : lo ≤ hi) : clampTrim lo hi x =
    (max lo (min hi x), if x = max lo (min hi x) then .ok else .clamped) := by
  unfold clampTrim
  split_ifs <;> simp <;> omega

theorem signedField_one (i : Int) : signedField 1 i = [BitVec.ofInt 8 i] := by
  change [BitVec.ofNat 8 ((i % (256 ^ 1 : Int)).toNat / 256 ^ 0)] = _
  rw [pow_zero, Nat.div_one, pow_one]
  refine congrArg (fun b : Byte => [b]) (BitVec.eq_of_toNat_eq ?_)
  rw [BitVec.toNat_ofNat, BitVec.toNat_ofInt]
  omega

theorem trimLength_eq (b : Byte) (s : State) : trimLength [b] s =
    ⟨takeLengthTrim (max (-64) (min 63 b.toInt)) s, if b.toInt = max (-64) (min 63 b.toInt) then .ok else .clamped,
      [BitVec.ofInt 8 (max (-64) (min 63 b.toInt))]⟩ := by
  change (⟨takeLengthTrim (clampTrim (-64) 63 b.toInt).1 s, (clampTrim (-64) 63 b.toInt).2,
    signedField 1 (clampTrim (-64) 63 b.toInt).1⟩ : Handled) = _
  rw [clampTrim_eq (by decide), signedField_one]

theorem trimSpeed_eq (b : Byte) (s : State) : trimSpeed [b] s =
    ⟨takeSpeedTrim (max (-16) (min 15 b.toInt)) s, if b.toInt = max (-16) (min 15 b.toInt) then .ok else .clamped,
      [BitVec.ofInt 8 (max (-16) (min 15 b.toInt))]⟩ := by
  change (⟨takeSpeedTrim (clampTrim (-16) 15 b.toInt).1 s, (clampTrim (-16) 15 b.toInt).2,
    signedField 1 (clampTrim (-16) 15 b.toInt).1⟩ : Handled) = _
  rw [clampTrim_eq (by decide), signedField_one]

theorem speedRaised_comm (old new : Nat) : speedRaised old new = if new = old then [] else [.speed] := by
  simp only [speedRaised, eq_comm]

/-- Settles O32: a trim by request is clamped, one by CONFIG_SET lies in its range, and both are taken alike. -/
theorem trimsAreTaken : Obligations.TrimsAreTaken := by
  unfold Obligations.TrimsAreTaken
  constructor
  · rintro s i v res content hs (⟨b, rfl, rfl, rfl, rfl⟩ | ⟨body, rfl, hcode, hlo, hhi, hnew, rfl, rfl, rfl⟩)
    · exact hs.replies (r := ⟨0x41#8, [b]⟩) rfl rfl fun l s' e =>
        ⟨_, trimLength_eq b s', takeLengthTrim_frame s' _, by subst e; rfl, by subst e; rfl⟩
    · refine hs.replies (r := ⟨0x08#8, body⟩) rfl rfl fun l s' e =>
        ⟨_, ?_, takeLengthTrim_frame s' (signed32 (numAt body 1 4)), by subst e; rfl, by subst e; rfl⟩
      subst e
      have hc : (byteAt body 0).toNat = 0x05 := by rw [hcode]; rfl
      refine (configSet_takes (s := s.setLine { s.line with holding := l }) (by simp [hc, stoppedOnly])
        (by simp [hc, configRange, hlo, hhi]) (crossCheck_of_code (by simp [hc])) (by simp [hc])
        (by rw [hc]; exact hnew)).trans ?_
      rw [hc]
      rfl
  · intro s i v res content hs hi sp
    have hspeed (s' : State) (l : List HeldRequest) (e : s' = s.setLine { s.line with holding := l }) :
        OnlyChanges [.items, .speed, .line] s' (takeSpeedTrim v s') ∧
          (takeSpeedTrim v s').items = { s.items with speedTrim := v } ∧
          (takeSpeedTrim v s').speed = { s.speed with setPoint := sp } ∧
          LineRaises (if sp = s.speed.setPoint then [] else [.speed]) s' (takeSpeedTrim v s') := by
      subst e
      refine ⟨takeSpeedTrim_frame _ v, ?_, recomputeSetPoint_speed _, ?_⟩
      · exact recomputeSetPoint_frame _ .items (by decide)
      · rw [← speedRaised_comm]
        exact recomputeSetPoint_lineRaises _
    obtain ⟨b, rfl, rfl, rfl, rfl⟩ | ⟨body, rfl, hcode, hlo, hhi, hnew, rfl, rfl, rfl⟩ := hi
    · exact hs.replies (r := ⟨0x40#8, [b]⟩) rfl rfl fun l s' e => ⟨_, trimSpeed_eq b s', hspeed s' l e⟩
    · refine hs.replies (r := ⟨0x08#8, body⟩) rfl rfl fun l s' e => ⟨_, ?_, hspeed s' l e⟩
      subst e
      have hc : (byteAt body 0).toNat = 0x17 := by rw [hcode]; rfl
      refine (configSet_takes (s := s.setLine { s.line with holding := l }) (by simp [hc, stoppedOnly])
        (by simp [hc, configRange, hlo, hhi]) (crossCheck_of_code (by simp [hc])) (by simp [hc])
        (by rw [hc]; exact hnew)).trans ?_
      rw [hc]
      rfl

end Sys2Proof.Machine
end

