-- ==== Sys2Proof/Proofs/FrameStates.lean ====
section
/-!
PROOFS. The raising of classes one after another, and the frame state: drive reports, the watch, the fill, the motion
window, and the doff begun, abandoned and failed (O20, O35, O37, O39, O40).
-/
namespace Sys2Proof.Machine

-- One after another: each theorem as a task of its own takes a thread.
set_option Elab.async false

/-! ## Classes raised one after another -/

theorem withClasses_append (cs ds : List PendClass) (m : ClassSet) :
    withClasses (cs ++ ds) m = withClasses ds (withClasses cs m) := List.foldl_append

/-- A bit stands where it stood, or where a class of the list has it. -/
theorem withClasses_getLsbD (cs : List PendClass) (m : ClassSet) (i : Nat) :
    (withClasses cs m).getLsbD i = (m.getLsbD i || cs.any fun c => c.bit.getLsbD i) := by
  induction cs generalizing m with
  | nil => simp
  | cons c cs ih => rw [withClasses_cons, ih, BitVec.getLsbD_or, List.any_cons, Bool.or_assoc]

/-- The pending set depends on which classes are raised, not on their order or number. -/
theorem withClasses_congr {cs ds : List PendClass} (h : ∀ c, c ∈ cs ↔ c ∈ ds) (m : ClassSet) :
    withClasses cs m = withClasses ds m := by
  refine BitVec.eq_of_getLsbD_eq fun i _ => ?_
  rw [withClasses_getLsbD, withClasses_getLsbD]
  congr 1
  rw [Bool.eq_iff_iff]
  simp [h]

section
variable {cs ds : List PendClass} {s t u v : State}

theorem LineRaises.trans (h1 : LineRaises cs s t) (h2 : LineRaises ds t u) : LineRaises (cs ++ ds) s u := by
  unfold LineRaises at *
  rw [h2, h1, withClasses_append]

theorem LineRaises.congr (h : LineRaises cs s t) (hmem : ∀ c, c ∈ cs ↔ c ∈ ds) : LineRaises ds s t := by
  unfold LineRaises at *
  rw [h, withClasses_congr hmem]

theorem LineRaises.of_same (h : t.line = s.line) : LineRaises [] s t := h

theorem LineRaises.from_same (h : LineRaises cs t u) (hs : t.line = s.line) : LineRaises cs s u := by
  unfold LineRaises at *
  rw [h, hs]

theorem LineRaises.to_same (h : LineRaises cs s t) (ht : u.line = t.line) : LineRaises cs s u := ht.trans h

/-- A step after which the line stands as it was. -/
theorem LineRaises.next {ps : List Part} (h : LineRaises cs s t) (hf : OnlyChanges ps t u)
    (hline : Part.line ∉ ps := by decide) : LineRaises cs s u := h.to_same (hf .line hline)

theorem raise_lineRaises (c : PendClass) (s : State) : LineRaises [c] s (raise c s) := raise_line c s

end

theorem mem_speedRaised {old new : Nat} {c : PendClass} : c ∈ speedRaised old new ↔ old ≠ new ∧ c = .speed := by
  unfold speedRaised
  split <;> simp_all

@[simp] theorem speedRaised_self (n : Nat) : speedRaised n n = [] := if_pos rfl

/-! ## A change of the frame state -/

section
variable (s : State)

/-- A change between states without the approach cap leaves the speed alone (R86). -/
theorem changeFrame_of_uncapped {f : FrameState} (hold : s.doff.frame.capped = false) (hnew : f.capped = false) :
    changeFrame f s = raise .frameState (s.setDoff { s.doff with frame := f }) := by
  simp [changeFrame, hold, hnew]

/-- The set-point after a halt: the approach cap is lifted where one stood (R16, R86). -/
def haltedSetPoint (s : State) : Nat := if s.doff.frame.capped = true then setPointIn s .halted else s.speed.setPoint

theorem changeFrame_halted_speed : (changeFrame .halted s).speed = { s.speed with setPoint := haltedSetPoint s } := by
  rw [changeFrame_speed]
  unfold haltedSetPoint
  cases s.doff.frame.capped <;> rfl

theorem changeFrame_halted_lineRaises :
    LineRaises (.frameState :: speedRaised s.speed.setPoint (haltedSetPoint s)) s (changeFrame .halted s) := by
  have h := changeFrame_lineRaises s .halted
  unfold haltedSetPoint
  cases hc : s.doff.frame.capped <;> rw [hc] at h
  · rw [if_neg Bool.false_ne_true, speedRaised_self]
    exact h
  · exact h

/-- A move to an approach state takes the set-point of that state (R86). -/
theorem changeFrame_capped_speed {f : FrameState} (h : f.capped = true) :
    (changeFrame f s).speed = { s.speed with setPoint := setPointIn s f } := by
  rw [changeFrame_speed, h, Bool.or_true, if_pos rfl]

theorem changeFrame_capped_lineRaises {f : FrameState} (h : f.capped = true) :
    LineRaises (.frameState :: speedRaised s.speed.setPoint (setPointIn s f)) s (changeFrame f s) := by
  have hraise := changeFrame_lineRaises s f
  rwa [h, Bool.or_true, if_pos rfl] at hraise

theorem haltFrame_speed : (haltFrame s).speed = { s.speed with setPoint := haltedSetPoint s } :=
  changeFrame_halted_speed _

theorem haltFrame_lineRaises :
    LineRaises (.frameState :: speedRaised s.speed.setPoint (haltedSetPoint s)) s (haltFrame s) :=
  changeFrame_halted_lineRaises (s.setDoff { s.doff with watchStart := none })

end

/-- The states that expect motion, and the one of them under the approach cap (R6, R14). -/
theorem FrameState.motionExpected_iff (f : FrameState) :
    f.motionExpected = true ↔ f = .startUp ∨ f = .spinning ∨ f = .doffPending := by cases f <;> decide

theorem haltedSetPoint_of_moving {s : State}
    (h : s.doff.frame = .startUp ∨ s.doff.frame = .spinning ∨ s.doff.frame = .doffPending) : haltedSetPoint s =
      if s.doff.frame = .doffPending then setPointIn s .halted else s.speed.setPoint := by
  unfold haltedSetPoint
  rcases h with h | h | h <;> rw [h] <;> rfl

/-- Settles O20: the window's expiry halts a frame in a state that expects motion. -/
theorem motionWindowExpiryCompletes : Obligations.MotionWindowExpiryCompletes := by
  unfold Obligations.MotionWindowExpiryCompletes
  refine fun s => ⟨fun h => by simp [exec, execMotionWindowExpiry, h], fun hw => ?_⟩
  obtain ⟨n, hn⟩ := Option.isSome_iff_exists.1 hw
  let v := s.setRoller { s.roller with window := none, winding := false }
  have hexec : exec .motionWindowExpiry s =
      .next (if v.doff.frame.motionExpected then haltFrame (raise .motion v) else v) := by
    simp only [exec, execMotionWindowExpiry, hn]
    rfl
  have hv : OnlyChanges [.roller] s v := setRoller_frame s _
  by_cases hframe : s.doff.frame = .startUp ∨ s.doff.frame = .spinning ∨ s.doff.frame = .doffPending
  · have hall : OnlyChanges [.roller, .doff, .speed, .line] s (haltFrame (raise .motion v)) :=
      (hv.wide.next (raise_frame _ _)).next (haltFrame_frame _)
    have hsp := haltedSetPoint_of_moving (s := raise .motion v) hframe
    refine ⟨_, hexec.trans (congrArg _ (if_pos ((FrameState.motionExpected_iff _).2 hframe))),
      haltFrame_frame _ .roller (by decide), ?_⟩
    rw [if_pos hframe]
    refine ⟨hall, haltFrame_doff _, ?_, ?_⟩
    · rw [haltFrame_speed, hsp]
      rfl
    · have hraise := ((raise_lineRaises .motion v).trans (haltFrame_lineRaises _)).from_same (s := s) rfl
      rw [hsp, speedRaised_comm] at hraise
      exact hraise
  · refine ⟨v, hexec.trans (congrArg _ (if_neg (mt (FrameState.motionExpected_iff _).1 hframe))), rfl, ?_⟩
    rw [if_neg hframe]
    exact hv

/-! ## Drive reports -/

theorem frameContent_eq (s : State) : frameContent s = [BitVec.ofNat 8 s.doff.frame.code] :=
  field_one _ (by cases s.doff.frame <;> decide)

section
variable {s : State} (body : List Byte)

/-- No state from which FRAME_RUN starts the frame has the approach cap (R87). -/
theorem startUp_of_standing (h : s.doff.frame = .stopped ∨ s.doff.frame = .halted ∨ s.doff.frame = .restartWait) :
    startUp s = raise .frameState (s.setDoff { s.doff with frame := .startUp, watchStart := some s.flmm }) :=
  changeFrame_of_uncapped (s.setDoff { s.doff with watchStart := some s.flmm })
    (by rcases h with h | h | h <;> exact congrArg FrameState.capped h) rfl

theorem dispatchBoth_doff (s : State) : (dispatchBoth s).doff = s.doff := dispatchBoth_frame s .doff (by decide)

theorem frameRun_of_standing (h : s.doff.frame = .stopped ∨ s.doff.frame = .halted ∨ s.doff.frame = .restartWait) :
    frameRun body s = ⟨dispatchBoth (startUp s), .ok, [1#8]⟩ := by
  have hcontent : frameContent (dispatchBoth (startUp s)) = [1#8] := by
    rw [frameContent_eq, dispatchBoth_doff, startUp_doff]
    rfl
  rw [← hcontent]
  unfold frameRun
  rcases h with h | h | h <;> rw [h] <;> rfl

theorem frameRun_of_moving (h : s.doff.frame = .startUp ∨ s.doff.frame = .spinning ∨ s.doff.frame = .doffPending) :
    frameRun body s = ⟨s, .ok, [BitVec.ofNat 8 s.doff.frame.code]⟩ := by
  rw [← frameContent_eq]
  unfold frameRun
  rcases h with h | h | h <;> rw [h] <;> rfl

theorem frameHalt_of_moving (h : s.doff.frame = .startUp ∨ s.doff.frame = .spinning ∨ s.doff.frame = .doffPending) :
    frameHalt body s = ⟨haltFrame s, .ok, [7#8]⟩ := by
  have hcontent : frameContent (haltFrame s) = [7#8] := by rw [frameContent_eq, haltFrame_doff]; rfl
  rw [← hcontent]
  unfold frameHalt
  rcases h with h | h | h <;> rw [h] <;> rfl

theorem frameHalt_of_standing
    (h : s.doff.frame = .stopped ∨ s.doff.frame = .halted ∨ s.doff.frame = .doffing ∨ s.doff.frame = .restartWait) :
    frameHalt body s = ⟨s, .ok, [BitVec.ofNat 8 s.doff.frame.code]⟩ := by
  rw [← frameContent_eq]
  unfold frameHalt
  rcases h with h | h | h | h <;> rw [h] <;> rfl

end

/-- Settles O35: no state that FRAME_RUN leaves or enters has the approach cap; FRAME_HALT is the halt of O20. -/
theorem driveReportsAreTaken : Obligations.DriveReportsAreTaken := by
  unfold Obligations.DriveReportsAreTaken
  refine ⟨fun s hs => ⟨fun hframe => ?_, fun hframe => ?_, fun hframe => ?_⟩, fun s hs => ⟨fun hframe => ?_, fun hframe => ?_⟩⟩
  · refine hs.replies (r := ⟨0x18#8, []⟩) (owner := frameRun) rfl rfl fun l s' e => ?_
    have hframe' : s'.doff.frame = .stopped ∨ s'.doff.frame = .halted ∨ s'.doff.frame = .restartWait := by rwa [e]
    have hdoff : (dispatchBoth (startUp s')).doff = (startUp s').doff := dispatchBoth_doff _
    refine ⟨_, frameRun_of_standing [] hframe', ?_, startUp s', rfl, ?_, hdoff.symm, ?_⟩
    · rw [hdoff, startUp_doff, e]
      rfl
    · rw [startUp_of_standing hframe']
      exact (setDoff_frame s' _).wide.next (raise_frame _ _)
    · rw [startUp_of_standing hframe']
      exact raise_lineRaises _ _
  · exact hs.replies (r := ⟨0x18#8, []⟩) rfl rfl fun l s' e =>
      ⟨s', frameRun_of_moving [] (by rw [e]; exact hframe), rfl⟩
  · refine hs.refuses (r := ⟨0x18#8, []⟩) (owner := frameRun) rfl rfl (by decide) fun l s' e => ?_
    subst e
    change frameRun [] _ = _
    unfold frameRun
    rcases hframe with h | h <;> simp [h]
  · intro sp
    refine hs.replies (r := ⟨0x19#8, []⟩) rfl rfl fun l s' e =>
      ⟨_, frameHalt_of_moving [] (by rw [e]; exact hframe), haltFrame_frame s', ?_, ?_, ?_⟩
    · rw [haltFrame_doff, e]
      rfl
    · rw [haltFrame_speed, haltedSetPoint_of_moving (by rw [e]; exact hframe), e]
      rfl
    · have hraise := haltFrame_lineRaises s'
      rw [haltedSetPoint_of_moving (by rw [e]; exact hframe)] at hraise
      subst e
      exact hraise
  · exact hs.replies (r := ⟨0x19#8, []⟩) rfl rfl fun l s' e =>
      ⟨s', frameHalt_of_standing [] (by rw [e]; exact hframe), rfl⟩

/-! ## The doff begun, abandoned and failed -/

theorem nextDoffNumber_lt (n : Nat) : nextDoffNumber n < 65536 := by
  unfold nextDoffNumber
  split <;> omega

theorem freedFromDoff_eq (c : Carriage) : ({ c with doffHold := false } : Carriage).nowFree = c.freedFromDoff := by
  unfold Carriage.nowFree Carriage.freedFromDoff
  by_cases h : c.state = .held ∧ c.hostHold = false
  · simp [h]
  · rw [if_neg (by simpa using h), if_neg h]

theorem clearDoffHolds_get (s : State) (side : Side) :
    (clearDoffHolds s).carriages.get side = (s.carriages.get side).freedFromDoff := by
  rw [← freedFromDoff_eq]
  cases side <;> rfl

/-- Beginning a doff and swapping the context move the Doff Controller alone (R92, R103). -/
theorem stopByRequest_after_change (s : State) : OnlyChanges [.doff] (changeFrame .doffStopping s) (stopByRequest s) := by
  unfold stopByRequest
  dsimp only
  split
  · exact (beginDoff_frame _ _).next (swapContext_frame _)
  · exact beginDoff_frame _ _

theorem stopByRequest_speed (s : State) :
    (stopByRequest s).speed = { s.speed with setPoint := setPointIn s .doffStopping } :=
  (stopByRequest_after_change s .speed (by decide)).trans (changeFrame_capped_speed s rfl)

theorem stopByRequest_lineRaises (s : State) :
    LineRaises (.frameState :: speedRaised s.speed.setPoint (setPointIn s .doffStopping)) s (stopByRequest s) :=
  (changeFrame_capped_lineRaises s rfl).next (stopByRequest_after_change s)

/-- The Doff Controller's state after DOFF_NOW, field by field (R92, R93). -/
theorem stopByRequest_doff_fields (s : State) : (stopByRequest s).doff = { s.doff with
    frame := .doffStopping
    number := nextDoffNumber s.doff.number
    last := some ⟨nextDoffNumber s.doff.number, .manual, s.speed.fill, 0, 0, none, none⟩
    done := ⟨[], []⟩
    effective := if s.doff.saved = none then ⟨s.doff.effective.mask &&& ~~~s.doff.doffMask, false⟩ else s.doff.effective
    saved := if s.doff.saved = none then some s.doff.effective else s.doff.saved } := by
  rw [stopByRequest_doff]
  cases h : s.doff.saved with
  | none => rfl
  | some c => simp [Doff.begun, h]

theorem doffNow_of_running {body : List Byte} {s : State}
    (h : s.doff.frame = .spinning ∨ s.doff.frame = .doffPending ∨ s.doff.frame = .halted) :
    doffNow body s = ⟨stopByRequest s, .ok, beBytes 2 (nextDoffNumber s.doff.number)⟩ := by
  have hfield : field 2 (stopByRequest s).doff.number = beBytes 2 (nextDoffNumber s.doff.number) := by
    rw [stopByRequest_doff_fields]
    exact if_pos (nextDoffNumber_lt _)
  rw [← hfield]
  unfold doffNow
  rcases h with h | h | h <;> rw [h] <;> rfl

/-- A doff is abandoned before the frame is halted: the doffer stopped where it is sent, the outcome recorded and the
holds cleared (R100). -/
theorem abortDoff_eq (s : State) : ∃ u, abortDoff s = changeFrame .halted u ∧ OnlyChanges [.carriages, .doff, .bus] s u ∧
    u.doff.frame = s.doff.frame ∧ (∀ side, u.carriages.get side = (s.carriages.get side).freedFromDoff) ∧
    u.bus = { s.bus with doffer := if s.doff.go = .sent then s.bus.doffer.appendDoffStop else s.bus.doffer } := by
  refine ⟨_, rfl, ?_, ?_, fun side => ?_, ?_⟩
  · refine OnlyChanges.next (OnlyChanges.next (OnlyChanges.next ?_ (setDoff_frame _ _)) (clearDoffHolds_frame _))
      (recordOutcome_frame _ _ _)
    split
    · exact (sendDoffStop_frame s).wide.next (setDoff_frame _ _)
    · exact .refl _ s
  · split <;> rfl
  · refine (clearDoffHolds_get _ side).trans ?_
    split <;> rfl
  · by_cases h : s.doff.go = .sent
    · rw [if_pos h, if_pos h]
      rfl
    · rw [if_neg h, if_neg h]
      rfl

theorem doffAbort_of_doff {body : List Byte} {s : State} (h : s.doff.frame = .doffStopping ∨ s.doff.frame = .doffing) :
    doffAbort body s = ⟨abortDoff s, .ok, [7#8]⟩ := by
  have hcontent : frameContent (abortDoff s) = [7#8] := by rw [frameContent_eq, abortDoff_doff]; rfl
  rw [← hcontent]
  unfold doffAbort
  rcases h with h | h <;> rw [h] <;> rfl

theorem haltedSetPoint_of_doff {s : State} (h : s.doff.frame = .doffStopping ∨ s.doff.frame = .doffing) :
    haltedSetPoint s = if s.doff.frame = .doffStopping then setPointIn s .halted else s.speed.setPoint := by
  unfold haltedSetPoint
  rcases h with h | h <;> rw [h] <;> rfl

theorem haltedSetPoint_congr {s u : State} {ps : List Part} (h : OnlyChanges ps s u) (hframe : u.doff.frame = s.doff.frame)
    (hart : Part.articles ∉ ps := by decide) (hsp : Part.speed ∉ ps := by decide)
    (hit : Part.items ∉ ps := by decide) : haltedSetPoint u = haltedSetPoint s := by
  have ha : u.articles = s.articles := h .articles hart
  have hv : u.speed = s.speed := h .speed hsp
  have hi : u.items = s.items := h .items hit
  unfold haltedSetPoint setPointIn
  rw [ha, hv, hi, hframe]

/-- Settles O37: DOFF_NOW enters an approach state, and DOFF_ABORT halts the frame after the doff is given up. -/
theorem doffIsBegunAndAbandoned : Obligations.DoffIsBegunAndAbandoned := by
  unfold Obligations.DoffIsBegunAndAbandoned
  refine ⟨fun s hs => ?_, fun s hs => ?_⟩
  · split
    · next hframe =>
      intro n sp
      refine hs.replies (r := ⟨0x1A#8, []⟩) rfl rfl fun l s' e =>
        ⟨_, (doffNow_of_running (by rw [e]; exact hframe)).trans (by rw [e]; rfl), stopByRequest_frame s', ?_, ?_, ?_⟩
      · rw [stopByRequest_doff_fields, e]
        rfl
      · rw [stopByRequest_speed, e]
        rfl
      · have hraise := stopByRequest_lineRaises s'
        subst e
        exact hraise
    · next hframe =>
      refine hs.refuses (r := ⟨0x1A#8, []⟩) (owner := doffNow) rfl rfl (by decide) fun l s' e => ?_
      subst e
      change doffNow [] _ = _
      unfold doffNow
      split
      all_goals first
        | rfl
        | (next h => exact absurd (by simp [show s.doff.frame = _ from h]) hframe)
  · split
    · next hframe =>
      intro sp
      have hsp : haltedSetPoint s = sp := haltedSetPoint_of_doff hframe
      refine hs.replies (r := ⟨0x1B#8, []⟩) rfl rfl fun l s' e =>
        ⟨_, doffAbort_of_doff (by rw [e]; exact hframe), ?_, ?_, ?_⟩
      · exact (abortDoff_frame s').wide
      · rw [abortDoff_doff, e]
        rfl
      · obtain ⟨u, hu, hf, hframe', hcar, hbus⟩ := abortDoff_eq s'
        have hsp' : haltedSetPoint u = sp := (haltedSetPoint_congr hf hframe').trans (by subst e; exact hsp)
        have hmove := changeFrame_frame u .halted
        have hspeed := changeFrame_halted_speed u
        have hraise := changeFrame_halted_lineRaises u
        have hspu : u.speed = s'.speed := hf .speed (by decide)
        rw [← hu, hsp', hspu] at hspeed
        rw [← hu, hsp', hspu] at hraise
        have hcars : (abortDoff s').carriages = u.carriages := by rw [hu]; exact hmove .carriages (by decide)
        have hbuss : (abortDoff s').bus = u.bus := by rw [hu]; exact hmove .bus (by decide)
        have hraise' := hraise.from_same (hf .line (by decide))
        subst e
        refine ⟨⟨?_, ?_⟩, hbuss.trans hbus, hspeed, hraise'⟩
        · rw [hcars]
          exact hcar .a
        · rw [hcars]
          exact hcar .b
    · next hframe =>
      refine hs.refuses (r := ⟨0x1B#8, []⟩) (owner := doffAbort) rfl rfl (by decide) fun l s' e => ?_
      subst e
      change doffAbort [] _ = _
      unfold doffAbort
      split
      all_goals first
        | rfl
        | (next h => exact absurd (by simp [show s.doff.frame = _ from h]) hframe)

/-! ## The doffer's timer and reports -/

/-- What a failed doff does while DOFFING, where no approach cap stands (R98). -/
theorem failDoff_of_doffing {s : State} (h : s.doff.frame = .doffing) (code : Option Nat) :
    OnlyChanges [.carriages, .doff, .line] s (failDoff code s) ∧
    (failDoff code s).doff = { s.doff with
      frame := .halted, go := .none, timer := none, ready := false
      last := s.doff.last.map fun r => { r with outcome := some .fault, faultCode := code } } ∧
    BothSides (fun side => (failDoff code s).carriages.get side = (s.carriages.get side).freedFromDoff) ∧
    LineRaises [.frameState, .dofferFault] s (failDoff code s) := by
  have hu : OnlyChanges [.carriages, .doff] s (recordOutcome .fault code (clearDoffHolds (endDoffer s))) :=
    ((endDoffer_frame s).wide.next (clearDoffHolds_frame _)).next (recordOutcome_frame _ _ _)
  have heq : failDoff code s = raise .dofferFault (raise .frameState
      ((recordOutcome .fault code (clearDoffHolds (endDoffer s))).setDoff
        { (recordOutcome .fault code (clearDoffHolds (endDoffer s))).doff with frame := .halted })) :=
    congrArg (raise .dofferFault) (changeFrame_of_uncapped _ (congrArg FrameState.capped h) rfl)
  refine ⟨?_, failDoff_doff s code, ?_, ?_⟩
  · rw [heq]
    exact ((hu.wide.next (setDoff_frame _ _)).next (raise_frame _ _)).next (raise_frame _ _)
  · rw [heq]
    exact ⟨clearDoffHolds_get (endDoffer s) .a, clearDoffHolds_get (endDoffer s) .b⟩
  · have hline := hu .line (by decide)
    rw [heq]
    generalize recordOutcome .fault code (clearDoffHolds (endDoffer s)) = u at hline ⊢
    have hraise := (raise_lineRaises .frameState (u.setDoff { u.doff with frame := .halted })).trans
      (raise_lineRaises .dofferFault _)
    exact hraise.from_same hline

/-- Settles O39: the go state decides which reports act. -/
theorem dofferTimerAndReportsAreTaken : Obligations.DofferTimerAndReportsAreTaken := by
  unfold Obligations.DofferTimerAndReportsAreTaken
  refine ⟨fun s hframe hgo htimer => ?_, fun s h => ?_, fun s code hframe hgo => ?_, fun s r hgo hr => ?_, fun s hgo => ?_,
    fun s hgo => ?_, fun s r hgo hr => ?_, fun s side sec hgo => ⟨?_, ?_⟩⟩
  · exact ⟨failDoff none s, by simp [exec, execDofferTimerExpiry, hgo, htimer], failDoff_of_doffing hframe none⟩
  · have hno : ¬(s.doff.go = .sent ∧ s.doff.timer.isSome) := by
      rintro ⟨hgo, htimer⟩
      rcases h with h | h
      · exact h hgo
      · simp [h] at htimer
    simp only [exec, execDofferTimerExpiry, if_neg hno]
  · split
    · next hcode =>
      have heq : dofferReport (.doffFault code) s = failDoff (some code) s := by
        unfold dofferReport
        rw [hgo]
        exact if_pos hcode
      rw [heq]
      exact failDoff_of_doffing hframe (some code)
    · next hcode =>
      unfold dofferReport
      rw [hgo]
      exact if_neg hcode
  · unfold dofferReport
    cases h : s.doff.go with
    | none => cases r <;> first | rfl | contradiction
    | waiting => cases r <;> first | rfl | contradiction
    | sent => exact absurd h hgo
  · unfold dofferReport
    rw [hgo]
  · have heq : dofferReport .ready s = startDoffer s := by
      unfold dofferReport
      rw [hgo]
    rw [heq]
    exact ⟨startDoffer_frame s, rfl, rfl⟩
  · unfold dofferReport
    rcases hr with rfl | rfl <;> rw [hgo] <;> rfl
  · unfold dofferReport
    rw [hgo]
  · split
    · next hsec =>
      have heq : dofferReport (.sectionDone (some side) sec) s = sectionDone side sec s := by
        unfold dofferReport
        rw [hgo]
        exact if_pos hsec
      intro old new
      have hnew : (if old.contains sec then old else old ++ [sec]) = new := by
        simp only [List.contains_iff_mem]
        rfl
      rw [heq, ← hnew]
      rfl
    · next hsec =>
      unfold dofferReport
      rw [hgo]
      exact if_neg hsec

/-! ## The watch and the fill -/

theorem setPointIn_congr {s u : State} {frame : FrameState} (ha : u.articles.active = s.articles.active)
    (hf : u.speed.fill = s.speed.fill) (ht : u.items.speedTrim = s.items.speedTrim) (hg : u.speed.step = s.speed.step) :
    setPointIn u frame = setPointIn s frame := by
  unfold setPointIn
  rw [ha, hf, ht, hg]

/-- Both approach states have the one cap, so they have the one set-point (R14). -/
theorem setPointIn_stopping (s : State) : setPointIn s .doffStopping = setPointIn s .doffPending := rfl

/-- Entry to DOFF_STOPPING by fill (R91). -/
theorem stopForFill_moves (s : State) :
    (stopForFill s).speed = { s.speed with setPoint := setPointIn s .doffStopping } ∧
      LineRaises (.frameState :: speedRaised s.speed.setPoint (setPointIn s .doffStopping) ++ [.stopAdvice]) s
        (stopForFill s) := by
  constructor
  · exact changeFrame_capped_speed s rfl
  · exact ((changeFrame_capped_lineRaises s rfl).next (beginDoff_frame _ .auto)).trans (raise_lineRaises _ _)

/-- Entry to DOFF_PENDING (R91, R103). -/
theorem enterPending_moves (s : State) :
    (swapContext (changeFrame .doffPending s)).speed = { s.speed with setPoint := setPointIn s .doffPending } ∧
      LineRaises (.frameState :: speedRaised s.speed.setPoint (setPointIn s .doffPending)) s
        (swapContext (changeFrame .doffPending s)) :=
  ⟨changeFrame_capped_speed s rfl, (changeFrame_capped_lineRaises s rfl).next (swapContext_frame _)⟩

theorem watchDone_iff (s : State) : watchDone s = true ↔ s.doff.frame = .startUp ∧
    ∃ w ∈ s.doff.watchStart, s.articles.active.watch * 1000 ≤ s.flmm - w := by
  unfold watchDone
  cases h : s.doff.watchStart <;> simp

theorem judgeFill_of_spinning {s : State} (h : s.doff.frame = .spinning) : judgeFill s =
    if s.articles.active.preDoff ≤ s.speed.fill then
      if s.speed.fill = 1024 then stopForFill (swapContext (changeFrame .doffPending s))
      else swapContext (changeFrame .doffPending s)
    else s := by
  have hfill : (swapContext (changeFrame .doffPending s)).speed.fill = s.speed.fill := changeFrame_fill s _
  unfold judgeFill
  rw [h]
  dsimp only
  rw [hfill]

theorem judgeFill_of_doffPending {s : State} (h : s.doff.frame = .doffPending) : judgeFill s =
    if s.speed.fill = 1024 then stopForFill s else s := by
  unfold judgeFill
  rw [h]

theorem judgeFill_of_other {s : State} (h1 : s.doff.frame ≠ .spinning) (h2 : s.doff.frame ≠ .doffPending) :
    judgeFill s = s := by
  unfold judgeFill
  split <;> first | rfl | contradiction

/-- At fill 1024 a SPINNING frame passes both approach states, with the one set-point (R91). -/
theorem stopForFill_from_pending (s : State) :
    (stopForFill (swapContext (changeFrame .doffPending s))).speed =
        { s.speed with setPoint := setPointIn s .doffStopping } ∧
      LineRaises (.frameState :: speedRaised s.speed.setPoint (setPointIn s .doffStopping) ++ [.stopAdvice]) s
        (stopForFill (swapContext (changeFrame .doffPending s))) := by
  obtain ⟨hspeed, hraise⟩ := enterPending_moves s
  obtain ⟨hspeed', hraise'⟩ := stopForFill_moves (swapContext (changeFrame .doffPending s))
  have hf : OnlyChanges [.doff, .speed, .line] s (swapContext (changeFrame .doffPending s)) :=
    (changeFrame_frame s _).next (swapContext_frame _)
  have hsp : setPointIn (swapContext (changeFrame .doffPending s)) .doffStopping = setPointIn s .doffStopping :=
    setPointIn_congr (congrArg _ (hf .articles (by decide))) (by rw [hspeed]) (congrArg _ (hf .items (by decide)))
      (by rw [hspeed])
  rw [hsp, hspeed] at hspeed' hraise'
  refine ⟨hspeed', (hraise.trans hraise').congr fun c => ?_⟩
  rw [setPointIn_stopping]
  simp only [List.mem_append, List.mem_cons, List.not_mem_nil, mem_speedRaised]
  tauto

/-- The end of the watch before the fill is judged: SPINNING with the saved context restored (R90, R104). -/
theorem endWatch_before_judging {s : State} (h : s.doff.frame = .startUp) : ∃ u, endWatch s = judgeFill u ∧
    OnlyChanges [.doff, .line] s u ∧ LineRaises [.frameState] s u ∧
    u.doff = ({ s.doff with frame := .spinning, watchStart := none } : Doff).restored := by
  have hchange : changeFrame .spinning (s.setDoff { s.doff with watchStart := none }) =
      raise .frameState (s.setDoff { s.doff with frame := .spinning, watchStart := none }) :=
    changeFrame_of_uncapped (s.setDoff { s.doff with watchStart := none }) (congrArg FrameState.capped h) rfl
  refine ⟨_, (endWatch_eq s).trans (by rw [hchange]), ?_, ?_, restoreContext_doff _⟩
  · exact ((setDoff_frame s _).wide.next (raise_frame _ _)).next (restoreContext_frame _)
  · exact ((raise_lineRaises .frameState _).next (restoreContext_frame _)).from_same rfl

/-- Settles O40: the fill is judged by the frame state, and the end of the watch judges it for a SPINNING frame with the
context restored. -/
theorem watchAndFillMoveTheFrame : Obligations.WatchAndFillMoveTheFrame := by
  unfold Obligations.WatchAndFillMoveTheFrame
  intro restored pending stopping judged judgedSpeed judgedClasses
  have hmoves (s : State) (hframe : (judged s s.doff).frame ≠ s.doff.frame) (hdoff : (judgeFill s).doff = judged s s.doff)
      (hspeed : (judgeFill s).speed = { s.speed with setPoint := setPointIn s (judged s s.doff).frame })
      (hraise : LineRaises (.frameState :: speedRaised s.speed.setPoint (setPointIn s (judged s s.doff).frame) ++
        if (judged s s.doff).frame = .doffStopping then [.stopAdvice] else []) s (judgeFill s)) :
      (judgeFill s).doff = judged s s.doff ∧ (judgeFill s).speed = judgedSpeed s s.doff ∧
        LineRaises (judgedClasses s s.doff) s (judgeFill s) := by
    refine ⟨hdoff, ?_, ?_⟩
    · simpa only [judgedSpeed, if_neg hframe] using hspeed
    · simpa only [judgedClasses, judgedSpeed, if_neg hframe] using hraise
  have hstays (s : State) (hj : judged s s.doff = s.doff) (he : judgeFill s = s) :
      (judgeFill s).doff = judged s s.doff ∧ (judgeFill s).speed = judgedSpeed s s.doff ∧
        LineRaises (judgedClasses s s.doff) s (judgeFill s) := by
    refine ⟨by rw [he, hj], ?_, ?_⟩
    · simp [judgedSpeed, hj, he]
    · simpa [judgedClasses, hj, he] using LineRaises.of_same rfl
  have hjudge (s : State) : OnlyChanges [.doff, .speed, .line] s (judgeFill s) ∧ (judgeFill s).doff = judged s s.doff ∧
      (judgeFill s).speed = judgedSpeed s s.doff ∧ LineRaises (judgedClasses s s.doff) s (judgeFill s) := by
    refine ⟨judgeFill_frame s, ?_⟩
    by_cases hspin : s.doff.frame = .spinning
    · have he := judgeFill_of_spinning hspin
      by_cases hfill : s.articles.active.preDoff ≤ s.speed.fill
      · rw [if_pos hfill] at he
        by_cases hfull : s.speed.fill = 1024
        · have hj : judged s s.doff = stopping s.speed.fill (pending s.doff) :=
            (if_pos ⟨hspin, hfill⟩).trans (if_pos hfull)
          rw [if_pos hfull] at he
          obtain ⟨hspeed, hraise⟩ := stopForFill_from_pending s
          rw [← he] at hspeed hraise
          refine hmoves s (by rw [hj, hspin]; exact (by decide : FrameState.doffStopping ≠ .spinning)) ?_
            (by rw [hj]; exact hspeed) (by rw [hj]; exact hraise)
          rw [hj, he, stopForFill_doff, swapContext_doff, changeFrame_doff,
            show (swapContext (changeFrame .doffPending s)).speed.fill = s.speed.fill from changeFrame_fill s _]
          rfl
        · have hj : judged s s.doff = pending s.doff := (if_pos ⟨hspin, hfill⟩).trans (if_neg hfull)
          rw [if_neg hfull] at he
          obtain ⟨hspeed, hraise⟩ := enterPending_moves s
          rw [← he] at hspeed hraise
          refine hmoves s (by rw [hj, hspin]; exact (by decide : FrameState.doffPending ≠ .spinning)) ?_
            (by rw [hj]; exact hspeed) ?_
          · rw [hj, he, swapContext_doff, changeFrame_doff]
            rfl
          · rw [hj, if_neg (by simp [pending]), List.append_nil]
            exact hraise
      · exact hstays s (by simp [judged, hspin, hfill]) (he.trans (if_neg hfill))
    · by_cases hpend : s.doff.frame = .doffPending
      · have he := judgeFill_of_doffPending hpend
        by_cases hfull : s.speed.fill = 1024
        · have hj : judged s s.doff = stopping s.speed.fill s.doff :=
            (if_neg fun h => hspin h.1).trans (if_pos ⟨hpend, hfull⟩)
          rw [if_pos hfull] at he
          obtain ⟨hspeed, hraise⟩ := stopForFill_moves s
          rw [← he] at hspeed hraise
          refine hmoves s (by rw [hj, hpend]; exact (by decide : FrameState.doffStopping ≠ .doffPending)) ?_
            (by rw [hj]; exact hspeed) (by rw [hj]; exact hraise)
          rw [hj, he, stopForFill_doff]
          rfl
        · exact hstays s (by simp [judged, hpend, hfull]) (he.trans (if_neg hfull))
      · exact hstays s (by simp [judged, hspin, hpend]) (judgeFill_of_other hspin hpend)
  refine ⟨hjudge, watchDone_iff, fun s hframe => ?_⟩
  obtain ⟨u, hu, hframe', hraise, hdoff⟩ := endWatch_before_judging hframe
  obtain ⟨hall, hdoff', hspeed', hraise'⟩ := hjudge u
  have hres : u.doff = restored s.doff := by
    rw [hdoff]
    cases h : s.doff.saved <;> simp [restored, Doff.restored, h]
  have hart : u.articles = s.articles := hframe' .articles (by decide)
  have hspeed : u.speed = s.speed := hframe' .speed (by decide)
  have hitems : u.items = s.items := hframe' .items (by decide)
  have hsp (f : FrameState) : setPointIn u f = setPointIn s f :=
    setPointIn_congr (by rw [hart]) (by rw [hspeed]) (by rw [hitems]) (by rw [hspeed])
  have hj : judged u (restored s.doff) = judged s (restored s.doff) := by simp only [judged, hart, hspeed]
  have hjs : judgedSpeed u (restored s.doff) = judgedSpeed s (restored s.doff) := by
    simp only [judgedSpeed, hj, hspeed, hsp]
  have hjc : judgedClasses u (restored s.doff) = judgedClasses s (restored s.doff) := by
    simp only [judgedClasses, hj, hspeed, hjs]
  rw [hu]
  rw [hres, hj] at hdoff'
  rw [hres, hjs] at hspeed'
  rw [hres, hjc] at hraise'
  exact ⟨hu ▸ endWatch_frame s, hdoff', hspeed', hraise.trans hraise'⟩

end Sys2Proof.Machine
end

