-- ==== Sys2Proof/Proofs/SideViews.lean ====
section
/-!
PROOFS. What one side of the frame shows after an operation: its tables, the record that a write makes, the spindle that
returns to its list, and the carriage with its commands.
-/
namespace Sys2Proof.Machine

-- One after another: each theorem as a task of its own takes a thread.
set_option Elab.async false

/-! ## The other side -/

/-- The parts that belong to a side of the frame. -/
def sidedParts : List Part := [.spindles, .breakList, .breakSeq, .carriages, .bus, .shift]

/-- What changes no part of a side leaves both sides alone. -/
theorem OnlyChanges.otherSide {ps : List Part} {s t : State} (h : OnlyChanges ps s t) (side : Side)
    (hps : ∀ p ∈ sidedParts, p ∉ ps := by decide) : OtherSideSame side s t := by
  intro sd _
  have hspindles : t.spindles = s.spindles := h .spindles (hps _ (by decide))
  have hlist : t.breakList = s.breakList := h .breakList (hps _ (by decide))
  have hseq : t.breakSeq = s.breakSeq := h .breakSeq (hps _ (by decide))
  have hcar : t.carriages = s.carriages := h .carriages (hps _ (by decide))
  have hbus : t.bus = s.bus := h .bus (hps _ (by decide))
  have hshift : t.shift = s.shift := h .shift (hps _ (by decide))
  rw [hspindles, hlist, hseq, hcar, hbus, hshift]
  exact ⟨rfl, rfl, rfl, rfl, rfl, rfl, rfl, rfl⟩

theorem OtherSideSame.refl (side : Side) (s : State) : OtherSideSame side s s :=
  fun _ _ => ⟨rfl, rfl, rfl, rfl, rfl, rfl, rfl, rfl⟩

theorem sendCarriage_otherSide (side : Side) (c : Command) (s : State) : OtherSideSame side s (sendCarriage side c s) :=
  fun sd hsd => by simp [sendCarriage, Sides.get_modify_other _ _ _ _ hsd]

theorem sendHome_otherSide (side : Side) (s : State) : OtherSideSame side s (sendHome side s) :=
  fun sd hsd => by simp [sendHome, Sides.get_modify_other _ _ _ _ hsd]

/-! ## The tables of a side -/

section
variable {side sd : Side} {s t u : State}

theorem TableSame.refl (side : Side) (s : State) : TableSame side s s := ⟨rfl, rfl, rfl⟩

theorem TableSame.trans (h1 : TableSame side s t) (h2 : TableSame side t u) : TableSame side s u :=
  ⟨h2.1.trans h1.1, h2.2.1.trans h1.2.1, h2.2.2.trans h1.2.2⟩

theorem OnlyChanges.tableSame {ps : List Part} (h : OnlyChanges ps s t) (side : Side)
    (hspindles : Part.spindles ∉ ps := by decide) (hlist : Part.breakList ∉ ps := by decide)
    (hbus : Part.bus ∉ ps := by decide) : TableSame side s t :=
  ⟨congrArg (·.get side) (h .spindles hspindles), congrArg (·.get side) (h .breakList hlist),
    congrArg (fun b : Bus => b.boards.get side) (h .bus hbus)⟩

theorem OtherSideSame.tableSame (h : OtherSideSame side s t) (hsd : sd ≠ side) : TableSame sd s t :=
  let ⟨hspindles, hlist, _, _, _, hboards, _⟩ := h sd hsd
  ⟨hspindles, hlist, hboards⟩

end

/-! ## The bus but for the boards -/

/-- Of the bus only the boards' entries change. -/
def BoardsOnly (s t : State) : Prop := ∃ b, t.bus = { s.bus with boards := b }

section
variable {s t u : State}

theorem BoardsOnly.refl (s : State) : BoardsOnly s s := ⟨s.bus.boards, rfl⟩

theorem BoardsOnly.trans (h1 : BoardsOnly s t) (h2 : BoardsOnly t u) : BoardsOnly s u := by
  obtain ⟨b, hb⟩ := h1
  obtain ⟨c, hc⟩ := h2
  exact ⟨c, by rw [hc, hb]⟩

theorem BoardsOnly.of_same (h : t.bus = s.bus) : BoardsOnly s t := ⟨s.bus.boards, h⟩

theorem OnlyChanges.boardsOnly {ps : List Part} (h : OnlyChanges ps s t) (hbus : Part.bus ∉ ps := by decide) :
    BoardsOnly s t := .of_same (h .bus hbus)

theorem BoardsOnly.rest (h : BoardsOnly s t) : t.bus.carriages = s.bus.carriages ∧ t.bus.doffer = s.bus.doffer ∧
    t.bus.train = s.bus.train ∧ t.bus.cycle = s.bus.cycle ∧ t.bus.awaiting = s.bus.awaiting := by
  obtain ⟨b, hb⟩ := h
  rw [hb]
  exact ⟨rfl, rfl, rfl, rfl, rfl⟩

theorem holdClamp_boardsOnly (side : Side) (pos : Nat) (c : Clamp) (s : State) : BoardsOnly s (holdClamp side pos c s) := by
  unfold holdClamp
  split
  · exact ⟨_, rfl⟩
  · exact .refl s

theorem writeSpindle_boardsOnly (side : Side) (pos : Nat) (new : Spindle) (s : State) :
    BoardsOnly s (writeSpindle side pos new s) := by
  unfold writeSpindle
  split
  · exact .refl s
  · dsimp only
    split
    · exact .of_same rfl
    · exact BoardsOnly.trans (.of_same rfl) (holdClamp_boardsOnly _ _ _ _)

end

/-! ## The record that a write makes -/

section
variable {side : Side} {pos : Nat} {new : Spindle} {s s' t u : State}

theorem State.spindle_congr (h : t.spindles.get side = s.spindles.get side) (p : Nat) : t.spindle side p = s.spindle side p := by
  simp only [State.spindle, h]

/-- What is held for a board of the side depends on the side's boards alone. -/
theorem holdClamp_boards_congr {c : Clamp} (h : t.bus.boards.get side = s.bus.boards.get side) :
    (holdClamp side pos c t).bus.boards.get side = (holdClamp side pos c s).bus.boards.get side := by
  have hb : t.bus.board side (sectionOf pos) = s.bus.board side (sectionOf pos) := by simp only [Bus.board, h]
  unfold holdClamp
  rw [hb]
  split
  · simp [Bus.setBoard, h]
  · exact h

theorem RecordBecomes.from_same (h : RecordBecomes side pos new s' t) (hs : s'.spindles.get side = s.spindles.get side)
    (hb : s'.bus.boards.get side = s.bus.boards.get side) : RecordBecomes side pos new s t := by
  obtain ⟨hnew, hother, hboards⟩ := h
  refine ⟨hnew, fun p hp => (hother p hp).trans (State.spindle_congr hs p), ?_⟩
  rw [hboards, State.spindle_congr hs, hb, holdClamp_boards_congr hb]

theorem RecordBecomes.to_same (h : RecordBecomes side pos new s t) (hs : u.spindles.get side = t.spindles.get side)
    (hb : u.bus.boards.get side = t.bus.boards.get side) : RecordBecomes side pos new s u := by
  obtain ⟨hnew, hother, hboards⟩ := h
  exact ⟨(State.spindle_congr hs pos).trans hnew, fun p hp => (State.spindle_congr hs p).trans (hother p hp),
    hb.trans hboards⟩

end

/-! ## The spindle that returns to its list -/

section
variable {side : Side} {s s' t u : State}

theorem State.pieceSpindle_congr (hs : t.spindles.get side = s.spindles.get side)
    (hc : t.carriages.get side = s.carriages.get side) : t.pieceSpindle side = s.pieceSpindle side := by
  simp only [State.pieceSpindle, hc, State.spindle_congr hs]

theorem State.pieceSpindle_of_target {pos : Nat} (h : (s.carriages.get side).pieceTarget = some pos) :
    s.pieceSpindle side = (s.spindle side pos).bind fun sp => if sp.state = .piecing then some (pos, sp) else none := by
  unfold State.pieceSpindle
  rw [h]
  dsimp only
  cases s.spindle side pos <;> rfl

theorem State.pieceSpindle_of_none (h : (s.carriages.get side).pieceTarget = none) : s.pieceSpindle side = none := by
  unfold State.pieceSpindle
  rw [h]

theorem returnsToList_of_none (h : s.pieceSpindle side = none) : ReturnsToList side s t ↔ TableSame side s t := by
  unfold ReturnsToList
  rw [h]

theorem returnsToList_of_some {pos : Nat} {sp : Spindle} (h : s.pieceSpindle side = some (pos, sp)) :
    ReturnsToList side s t ↔ RecordBecomes side pos { sp with state := .broken, clamp := .closed } s t ∧
      t.breakList.get side = insertByKey (seqAt (t.spindles.get side)) pos (s.breakList.get side) := by
  unfold ReturnsToList
  rw [h]

theorem ReturnsToList.from_same (h : ReturnsToList side s' t) (hs : TableSame side s s')
    (hc : s'.carriages.get side = s.carriages.get side) : ReturnsToList side s t := by
  have hp := State.pieceSpindle_congr hs.1 hc
  cases hsp : s.pieceSpindle side with
  | none =>
    rw [returnsToList_of_none (hp.trans hsp)] at h
    exact (returnsToList_of_none hsp).2 (hs.trans h)
  | some x =>
    obtain ⟨pos, sp⟩ := x
    rw [returnsToList_of_some (hp.trans hsp)] at h
    obtain ⟨hrec, hlist⟩ := h
    exact (returnsToList_of_some hsp).2 ⟨hrec.from_same hs.1 hs.2.2, by rw [hlist, hs.2.1]⟩

theorem ReturnsToList.to_same (h : ReturnsToList side s t) (ht : TableSame side t u) : ReturnsToList side s u := by
  cases hsp : s.pieceSpindle side with
  | none =>
    rw [returnsToList_of_none hsp] at h ⊢
    exact h.trans ht
  | some x =>
    obtain ⟨pos, sp⟩ := x
    rw [returnsToList_of_some hsp] at h ⊢
    obtain ⟨hrec, hlist⟩ := h
    exact ⟨hrec.to_same ht.1 ht.2.2, by rw [ht.2.1, hlist, ht.1]⟩

/-- A return writes the record of the piece order's spindle, and the list follows it (R53). -/
theorem returnSpindle_returns {pos : Nat} (h : (s.carriages.get side).pieceTarget = some pos) :
    ReturnsToList side s (returnSpindle side pos s) := by
  have hp := State.pieceSpindle_of_target h
  unfold returnSpindle
  cases hsp : s.spindle side pos with
  | none =>
    rw [hsp] at hp
    exact (returnsToList_of_none hp).2 (.refl side s)
  | some sp =>
    rw [hsp] at hp
    change s.pieceSpindle side = if sp.state = .piecing then some (pos, sp) else none at hp
    dsimp only
    split
    · next hst =>
      rw [if_pos hst] at hp
      refine (returnsToList_of_some hp).2 ⟨writeSpindle_recordBecomes side pos sp.returned hsp, ?_⟩
      rw [writeSpindle_breakList side pos _ hsp, writeSpindle_spindles side pos _ s sp hsp, Sides.get_modify_same,
        Sides.get_set_same, hst]
      rfl
    · next hst =>
      rw [if_neg hst] at hp
      exact (returnsToList_of_none hp).2 (.refl side s)

theorem returnSpindle_otherSide (pos : Nat) (s : State) : OtherSideSame side s (returnSpindle side pos s) := by
  unfold returnSpindle
  split
  · exact .refl side s
  · split
    · exact writeSpindle_otherSide side pos _ s
    · exact .refl side s

theorem returnSpindle_boardsOnly (pos : Nat) (s : State) : BoardsOnly s (returnSpindle side pos s) := by
  unfold returnSpindle
  split
  · exact .refl s
  · split
    · exact writeSpindle_boardsOnly side pos _ s
    · exact .refl s

theorem returnSpindle_carriages (pos : Nat) (s : State) : (returnSpindle side pos s).carriages = s.carriages :=
  returnSpindle_frame side pos s .carriages (by decide)

theorem modifyCarriage_tableSame (side sd : Side) (f : Carriage → Carriage) (s : State) :
    TableSame sd s (modifyCarriage side f s) := (modifyCarriage_frame side s f).tableSame sd

end

/-! ## Work dropped and orders cancelled -/

section
variable (side : Side) (s : State)

/-- The withdrawn spindle after work is dropped: a piece order's target (R69, R71, R77). -/
def Carriage.droppedTo (c : Carriage) : Option Nat :=
  match c.order with
  | some (.piece t _ _) => some t
  | _ => c.withdrawn

theorem Carriage.droppedTo_of_target {c : Carriage} {t : Nat} (h : c.pieceTarget = some t) : c.droppedTo = some t := by
  unfold Carriage.pieceTarget at h
  unfold Carriage.droppedTo
  split at h <;> simp_all

theorem Carriage.droppedTo_of_none {c : Carriage} (h : c.pieceTarget = none) : c.droppedTo = c.withdrawn := by
  unfold Carriage.pieceTarget at h
  unfold Carriage.droppedTo
  split at h <;> simp_all

theorem dropWork_carriage : (dropWork side s).carriages.get side =
    { s.carriages.get side with order := none, returning := false, withdrawn := (s.carriages.get side).droppedTo } := by
  unfold dropWork
  split
  · next t ht =>
    rw [modifyCarriage_get, returnSpindle_carriages, Carriage.droppedTo_of_target ht]
  · next ht =>
    rw [modifyCarriage_get, Carriage.droppedTo_of_none ht]

theorem dropWork_returns : ReturnsToList side s (dropWork side s) := by
  unfold dropWork
  split
  · next t ht => exact (returnSpindle_returns ht).to_same (modifyCarriage_tableSame side side _ _)
  · next ht =>
    exact (returnsToList_of_none (State.pieceSpindle_of_none ht)).2 (modifyCarriage_tableSame side side _ s)

theorem dropWork_otherSide : OtherSideSame side s (dropWork side s) := by
  unfold dropWork
  split
  · exact (returnSpindle_otherSide _ s).trans (modifyCarriage_otherSide side _ _)
  · exact modifyCarriage_otherSide side _ s

theorem dropWork_boardsOnly : BoardsOnly s (dropWork side s) := by
  unfold dropWork
  split
  · exact (returnSpindle_boardsOnly _ s).trans (modifyCarriage_frame side _ _).boardsOnly
  · exact (modifyCarriage_frame side s _).boardsOnly

theorem cancelOrder_carriage (w : Option Nat) : (cancelOrder side w s).carriages.get side =
    (s.carriages.get side).cancelled s w := modifyCarriage_get side _ s

theorem cancelOrder_bus (w : Option Nat) : (cancelOrder side w s).bus =
    { s.bus with carriages := s.bus.carriages.modify side (·.append .cancel) } := rfl

theorem cancelOrder_tableSame (w : Option Nat) (sd : Side) : TableSame sd s (cancelOrder side w s) := ⟨rfl, rfl, rfl⟩

theorem cancelOrder_otherSide (w : Option Nat) : OtherSideSame side s (cancelOrder side w s) :=
  (modifyCarriage_otherSide side _ s).trans (sendCarriage_otherSide side .cancel _)

end

/-! ## Counts and credits of a side -/

section
variable {side : Side} {fs : List SideFigure} {cs : List PendClass} {dl : Nat} {s t u : State}

theorem mem_saturates {c : PendClass} : c ∈ saturates side fs s ↔ c = .shiftSaturated ∧ s.shift.live.marker = false ∧
    ∃ f ∈ fs, (s.shift.live.sides.get side).counts.get f = 65534 := by
  unfold saturates
  split <;> simp_all

theorem saturates_nil (side : Side) (s : State) : saturates side [] s = [] := by simp [saturates]

/-- From one state to another, `dl` is credited to a side's run length, `fs` are counted once each, and the classes `cs`
and that of a saturation are raised. -/
structure Tallies (side : Side) (fs : List SideFigure) (cs : List PendClass) (dl : Nat) (s t : State) : Prop where
  credited : Credited side dl s t
  counted : Counted side fs s t
  raises : LineRaises (cs ++ saturates side fs s) s t

theorem Tallies.refl (side : Side) (s : State) : Tallies side [] [] 0 s s where
  credited := by simp [Credited]
  counted := by simp [Counted]
  raises := by rw [saturates_nil]; exact .of_same rfl

/-- A step that leaves the shift and the line alone. -/
theorem Tallies.next {ps : List Part} (h : Tallies side fs cs dl s t) (hf : OnlyChanges ps t u)
    (hshift : Part.shift ∉ ps := by decide) (hline : Part.line ∉ ps := by decide) : Tallies side fs cs dl s u := by
  have hs : u.shift = t.shift := hf .shift hshift
  refine ⟨?_, ?_, h.raises.next hf hline⟩
  · simpa only [Credited, hs] using h.credited
  · simpa only [Counted, hs] using h.counted

/-- A step before that leaves the shift, the line and the articles alone. -/
theorem Tallies.after {ps : List Part} (h : Tallies side fs cs dl t u) (hf : OnlyChanges ps s t)
    (hshift : Part.shift ∉ ps := by decide) (hline : Part.line ∉ ps := by decide)
    (hart : Part.articles ∉ ps := by decide) : Tallies side fs cs dl s u := by
  have hs : t.shift = s.shift := hf .shift hshift
  have ha : t.articles = s.articles := hf .articles hart
  obtain ⟨h1, h2, h3⟩ := h
  refine ⟨?_, ?_, ?_⟩
  · simpa only [Credited, hs, ha] using h1
  · simpa only [Counted, hs] using h2
  · simpa only [saturates, hs] using h3.from_same (hf .line hline)

theorem Tallies.raise (c : PendClass) (h : Tallies side fs cs dl s t) : Tallies side fs (cs ++ [c]) dl s (raise c t) where
  credited := h.credited
  counted := h.counted
  raises := (h.raises.trans (raise_lineRaises c t)).congr fun d => by
    simp only [List.mem_append]
    tauto

/-- One more figure is counted. -/
theorem Tallies.count {f : SideFigure} (h : Tallies side fs cs dl s t) (hf : f ∉ fs) :
    Tallies side (fs ++ [f]) cs dl s (countSide side f t) := by
  obtain ⟨hget, hmark, hposs, hdoffs, hex, hmarks, hhist, hseq⟩ := h.counted
  obtain ⟨kget, kmark, kposs, kdoffs, kex, kmarks, khist, kseq⟩ := countSide_counted side f t
  have hold : (t.shift.live.sides.get side).counts.get f = (s.shift.live.sides.get side).counts.get f := by
    rw [hget f, if_neg hf]
  refine ⟨?_, ⟨fun g => ?_, ?_, kposs.trans hposs, kdoffs.trans hdoffs, kex.trans hex, kmarks.trans hmarks,
    khist.trans hhist, kseq.trans hseq⟩, ?_⟩
  · obtain ⟨hrun, hmass⟩ := h.credited
    obtain ⟨krun, kmass⟩ := countSide_credited_zero side f t
    exact ⟨by rw [krun, hrun, Nat.add_zero], by rw [kmass, hmass, Nat.zero_mul, Nat.add_zero]⟩
  · rw [kget g, hget g]
    by_cases hg : g = f
    · subst hg
      simp [hf]
    · simp [hg]
  · rw [kmark, hmark, Bool.or_assoc, List.any_append, List.any_cons, List.any_nil, List.any_cons, List.any_nil, hold]
  · refine (h.raises.trans (countSide_lineRaises side f t)).congr fun c => ?_
    simp only [List.mem_append, mem_saturates, hmark, hold, Bool.or_eq_false_iff, List.any_eq_false, beq_iff_eq,
      List.mem_singleton, exists_eq_left, or_and_right, exists_or]
    by_cases hany : ∃ g ∈ fs, (s.shift.live.sides.get side).counts.get g = 65534
    · simp only [hany, true_or, and_true]
      tauto
    · have hnone : ∀ g ∈ fs, ¬(s.shift.live.sides.get side).counts.get g = 65534 := fun g hg e => hany ⟨g, hg, e⟩
      simp only [hany, false_or, and_false, or_false]
      tauto

end

end Sys2Proof.Machine
end

