-- ==== Sys2Proof/Proofs/Carriages.lean ====
section
/-!
PROOFS. The dispatch order, the host's requests on carriages, the carriage timers and the carriages' reports (O47 to
O51).
-/
namespace Sys2Proof.Machine

-- One after another: each theorem as a task of its own takes a thread.
set_option Elab.async false

/-! ## Carriage records -/

theorem modifyCarriage_carriages (side : Side) (f : Carriage → Carriage) (s : State) :
    (modifyCarriage side f s).carriages = s.carriages.set side (f (s.carriages.get side)) := rfl

theorem Carriage.nowHeld_eq (c : Carriage) :
    c.nowHeld = { c with state := if c.state = .ready then .held else c.state } := by
  unfold Carriage.nowHeld
  split <;> rfl

theorem Carriage.nowFree_eq (c : Carriage) : c.nowFree =
    { c with state := if c.state = .held ∧ c.hostHold = false ∧ c.doffHold = false then .ready else c.state } := by
  unfold Carriage.nowFree
  by_cases h : c.state = .held ∧ c.hostHold = false ∧ c.doffHold = false
  · rw [if_pos (by simpa using h), if_pos h]
  · rw [if_neg (by simpa using h), if_neg h]

theorem Carriage.settled_eq (c : Carriage) :
    c.settled = if c.hostHold = false ∧ c.doffHold = false then .ready else .held := by
  unfold Carriage.settled
  cases c.hostHold <;> cases c.doffHold <;> rfl

theorem carriageStateContent_eq (side : Side) (s : State) :
    carriageStateContent side s = [BitVec.ofNat 8 (s.carriages.get side).state.code] :=
  field_one _ (by cases (s.carriages.get side).state <;> decide)

/-- A carriage that settles at a position with a direction (R70, R73, R78). -/
theorem settleAt_eq (side : Side) (x : Option Nat) (d : Dir) (s : State) : settleAt side x d s =
    s.setCarriages (s.carriages.set side { (s.carriages.get side).endsAt x with d := d }) := by
  have hstate := ({ s.carriages.get side with d := d } : Carriage).settled_eq
  cases side
  all_goals
    change s.setCarriages _ = s.setCarriages _
    simp only [Carriage.endsAt]
    rw [← hstate]
    rfl

theorem startHoming_carriages (side : Side) (s : State) :
    (startHoming side s).carriages = s.carriages.set side ((s.carriages.get side).sentHome s) := rfl

theorem startHoming_bus (side : Side) (s : State) :
    (startHoming side s).bus = { s.bus with carriages := s.bus.carriages.modify side (·.appendHome) } := rfl

theorem startHoming_otherSide (side : Side) (s : State) : OtherSideSame side s (startHoming side s) :=
  (modifyCarriage_otherSide side _ s).trans (sendHome_otherSide side _)

theorem startHoming_tableSame (side sd : Side) (s : State) : TableSame sd s (startHoming side s) := ⟨rfl, rfl, rfl⟩

theorem carriageFaults_carriage (side : Side) (s : State) : (carriageFaults side s).carriages.get side =
    { s.carriages.get side with state := .fault, timer := none, order := none, returning := false } :=
  modifyCarriage_get side _ s

theorem carriageFaults_otherSide (side : Side) (s : State) : OtherSideSame side s (carriageFaults side s) :=
  (modifyCarriage_otherSide side _ s).trans ((raise_frame _ .carriage).otherSide side)

theorem carriageFaults_lineRaises (side : Side) (s : State) : LineRaises [.carriage] s (carriageFaults side s) :=
  (raise_lineRaises .carriage _).from_same rfl

/-! ## The host's requests -/

/-- Settles O48: a hold and its release act on the carriage of the side, and a reset is judged by its state. -/
theorem carriageRequestsAreTaken : Obligations.CarriageRequestsAreTaken := by
  unfold Obligations.CarriageRequestsAreTaken
  refine ⟨fun s body i hi hs hside => ?_, fun s body side hs hside => ?_, fun s body side hs hside => ?_,
    fun s body side hs hside => ⟨fun hc => ?_, fun hc => ?_, fun hc => ?_⟩⟩
  · rcases hi with rfl | rfl | rfl
    · exact hs.refuses (r := ⟨0x31#8, body⟩) (owner := carriageHold) rfl rfl (by decide) fun l s' _ => by
        simp [carriageHold, hside]
    · exact hs.refuses (r := ⟨0x32#8, body⟩) (owner := carriageRelease) rfl rfl (by decide) fun l s' _ => by
        simp [carriageRelease, hside]
    · exact hs.refuses (r := ⟨0x33#8, body⟩) (owner := carriageReset) rfl rfl (by decide) fun l s' _ => by
        simp [carriageReset, hside]
  · intro c new
    have hnew : ({ c with hostHold := true } : Carriage).nowHeld = new := Carriage.nowHeld_eq _
    refine hs.replies (r := ⟨0x31#8, body⟩) (owner := carriageHold) rfl rfl fun l s' e =>
      ⟨setHostHold side s', ?_, modifyCarriage_frame side s' _, ?_⟩
    · have hget : (setHostHold side s').carriages.get side = new := by
        rw [← hnew, e]
        exact modifyCarriage_get side _ _
      have hcontent : carriageStateContent side (setHostHold side s') = [BitVec.ofNat 8 new.state.code] := by
        rw [carriageStateContent_eq, hget]
      rw [← hcontent]
      change carriageHold body s' = _
      unfold carriageHold
      rw [hside]
      rfl
    · rw [← hnew, e]
      rfl
  · intro c
    refine hs.replies (r := ⟨0x32#8, body⟩) (owner := carriageRelease) rfl rfl fun l s' e =>
      ⟨clearHostHold side s', ?_, _, rfl, modifyCarriage_frame side s' _, ?_⟩
    · rw [← carriageStateContent_eq]
      change carriageRelease body s' = _
      unfold carriageRelease
      rw [hside]
      rfl
    · rw [modifyCarriage_carriages, Carriage.nowFree_eq, e]
      simp [c]
  · refine hs.replies (r := ⟨0x33#8, body⟩) (owner := carriageReset) rfl rfl fun l s' e =>
      ⟨startHoming side s', ?_, startHoming_frame side s', ?_, ?_⟩
    · change carriageReset body s' = _
      unfold carriageReset
      subst e
      rcases hc with h | h <;> simp [hside, h, Handled.ok]
    · rw [startHoming_carriages, e]
      rfl
    · rw [startHoming_bus, e]
      rfl
  · refine hs.refuses (r := ⟨0x33#8, body⟩) (owner := carriageReset) rfl rfl (by decide) fun l s' e => ?_
    change carriageReset body s' = _
    unfold carriageReset
    subst e
    simp [hside, hc]
  · refine hs.refuses (r := ⟨0x33#8, body⟩) (owner := carriageReset) rfl rfl (by decide) fun l s' e => ?_
    change carriageReset body s' = _
    unfold carriageReset
    subst e
    rcases hc with h | h | h | h <;> simp [hside, h]

/-! ## Timers -/

theorem timerRuns_iff {side : Side} {k : TimerKind} {s : State} :
    timerRuns side k s = true ↔ (s.carriages.get side).timer.map (·.kind) = some k := by
  unfold timerRuns
  cases (s.carriages.get side).timer <;> simp

/-- The four expiries are one operation of the timer's kind (R70, R73, R76 to R78). -/
theorem exec_carriageTimer {i : Instr} {side : Side} {kind : TimerKind}
    (h : (i = Instr.homingTimerExpiry side ∧ kind = TimerKind.homing) ∨ (i = .pieceTimerExpiry side ∧ kind = .piece) ∨
      (i = .legTimerExpiry side ∧ kind = .leg) ∨ (i = .returnTimerExpiry side ∧ kind = .returning)) (s : State) :
    exec i s = .next (carriageTimeout side kind s) := by
  rcases h with ⟨rfl, rfl⟩ | ⟨rfl, rfl⟩ | ⟨rfl, rfl⟩ | ⟨rfl, rfl⟩ <;> rfl

/-- Settles O49: an expiry drops the work and faults the carriage. -/
theorem carriageTimersExpire : Obligations.CarriageTimersExpire := by
  unfold Obligations.CarriageTimersExpire
  intro s i side kind hi c
  have hexec := exec_carriageTimer hi s
  refine ⟨fun hno => ?_, fun hruns => ?_⟩
  · rw [hexec]
    exact congrArg _ (if_neg (mt timerRuns_iff.1 hno))
  · have ht : carriageTimeout side kind s = carriageFaults side (dropWork side s) := if_pos (timerRuns_iff.2 hruns)
    have hfault := carriageFaults_frame side (dropWork side s)
    have hrest := ((dropWork_boardsOnly side s).trans hfault.boardsOnly).rest
    refine ⟨_, by rw [hexec, ht], ?_, ?_, ?_, ?_, ?_, hrest.1, hrest.2.1, hrest.2.2.1⟩
    · rw [← ht]
      exact carriageTimeout_frame side s kind
    · exact (dropWork_otherSide side s).trans (carriageFaults_otherSide side _)
    · exact (carriageFaults_lineRaises side _).from_same (dropWork_frame side s .line (by decide))
    · exact (dropWork_returns side s).to_same (hfault.tableSame side)
    · rw [carriageFaults_carriage, dropWork_carriage]
      rfl

/-! ## Reports of position -/

theorem carriageArrives_eq (side : Side) (s : State) : carriageArrives side s =
    if (s.carriages.get side).state = .absent ∨ (s.carriages.get side).state = .homing then
      startHoming side (dropWork side s)
    else raise .carriage (startHoming side (dropWork side s)) := rfl

/-- A report of arrival sends the carriage home with its work dropped (R69, R71). -/
theorem carriageArrives_moves (side : Side) (s : State) :
    OtherSideSame side s (carriageArrives side s) ∧ ReturnsToList side s (carriageArrives side s) ∧
    (carriageArrives side s).carriages.get side =
      { (s.carriages.get side).sentHome s with withdrawn := (s.carriages.get side).droppedTo } ∧
    (carriageArrives side s).bus.carriages.get side = (s.bus.carriages.get side).appendHome ∧
    LineRaises (if (s.carriages.get side).state = .absent ∨ (s.carriages.get side).state = .homing then []
      else [.carriage]) s (carriageArrives side s) := by
  have hother := (dropWork_otherSide side s).trans (startHoming_otherSide side _)
  have hreturns := (dropWork_returns side s).to_same (startHoming_tableSame side side _)
  have hitems : (dropWork side s).items = s.items := dropWork_frame side s .items (by decide)
  have hcar : (startHoming side (dropWork side s)).carriages.get side =
      { (s.carriages.get side).sentHome s with withdrawn := (s.carriages.get side).droppedTo } := by
    rw [startHoming_carriages, Sides.get_set_same, dropWork_carriage]
    simp [Carriage.sentHome, hitems]
  have hbus : (startHoming side (dropWork side s)).bus.carriages.get side = (s.bus.carriages.get side).appendHome := by
    rw [startHoming_bus, (dropWork_boardsOnly side s).rest.1, Sides.get_modify_same]
  have hline : (startHoming side (dropWork side s)).line = s.line :=
    ((dropWork_frame side s).wide.next (startHoming_frame side _) : OnlyChanges [.spindles, .breakList, .carriages, .bus] s _)
      .line (by decide)
  rw [carriageArrives_eq]
  split
  · exact ⟨hother, hreturns, hcar, hbus, .of_same hline⟩
  · have hraise := raise_frame (startHoming side (dropWork side s)) .carriage
    exact ⟨hother.trans (hraise.otherSide side), hreturns.to_same (hraise.tableSame side), hcar, hbus,
      (raise_lineRaises _ _).from_same hline⟩

theorem validPos_iff {side : Side} {pos : Nat} {s : State} :
    validPos side pos s = true ↔ 1 ≤ pos ∧ pos ≤ 48 * s.items.sections.get side := by
  rw [validPos, Bool.and_eq_true, decide_eq_true_eq, decide_eq_true_eq]
  rfl

/-- A position that is not fitted faults the carriage without one (R70, R73). -/
theorem loseCarriage_moves (side : Side) (s : State) :
    OnlyChanges [.carriages, .line] s (loseCarriage side s) ∧ LineRaises [.carriage] s (loseCarriage side s) ∧
    (loseCarriage side s).carriages = s.carriages.set side
      { s.carriages.get side with state := .fault, x := none, order := none, returning := false, timer := none } := by
  refine ⟨loseCarriage_frame side s, (carriageFaults_lineRaises side _).from_same rfl, ?_⟩
  cases side <;> rfl

theorem carriageHomed_of_homing {side : Side} {pos : Nat} {s : State} (h : (s.carriages.get side).state = .homing) :
    carriageHomed side pos s =
      if validPos side pos s = true then dispatchTest side (settleAt side (some pos) .up s) else loseCarriage side s := by
  unfold carriageHomed
  rw [if_pos h]
  rfl

theorem carriageArrived_of_leg {side : Side} {pos : Nat} {s : State} {o : Int}
    (h : (s.carriages.get side).state = .moving) (ho : (s.carriages.get side).order = some (.transit o)) :
    carriageArrived side pos s =
      if validPos side pos s = true then dispatchTest side (settleAt side (some pos) (s.carriages.get side).d s)
      else loseCarriage side s := by
  unfold carriageArrived
  rw [h, ho, ← carriageSettles_eq_settleAt]
  rfl

/-- Settles O50: PRESENT and silence drop the work, the other reports settle or fault the carriage where they are taken. -/
theorem carriageReportsAreTaken : Obligations.CarriageReportsAreTaken := by
  unfold Obligations.CarriageReportsAreTaken
  intro dropped ends faults
  have hdropped (side : Side) (s : State) : (s.carriages.get side).droppedTo = dropped side s := rfl
  have hends (side : Side) (x : Option Nat) (d : Dir) (s : State) : ends side x d s (dispatchTest side (settleAt side x d s)) :=
    congrArg _ (settleAt_eq side x d s)
  refine ⟨fun s side => ?_, fun s side pos => ⟨fun hst => ?_, fun hst h1 h2 => ?_, fun hst hpos => ?_⟩,
    fun s side pos => ⟨fun hleg => ?_, fun hleg h1 h2 => ?_, fun hleg hpos => ?_⟩, fun s side => ⟨fun h => ?_, fun h => ?_⟩,
    fun s side => ?_⟩
  · obtain ⟨hother, hreturns, hcar, hbus, hline⟩ := carriageArrives_moves side s
    exact ⟨carriageArrives_frame side s, hother, hreturns, hcar, hbus, hline⟩
  · exact if_neg hst
  · exact (carriageHomed_of_homing hst).trans ((if_pos (validPos_iff.2 ⟨h1, h2⟩)).trans (hends side _ _ s))
  · have heq : carriageReport side (.homed pos) s = loseCarriage side s :=
      (carriageHomed_of_homing hst).trans (if_neg (mt validPos_iff.1 hpos))
    rw [heq]
    exact loseCarriage_moves side s
  · change carriageArrived side pos s = s
    unfold carriageArrived
    split
    · next o hst ho => exact absurd ⟨hst, o, ho⟩ hleg
    · rfl
  · obtain ⟨hst, o, ho⟩ := hleg
    exact (carriageArrived_of_leg hst ho).trans ((if_pos (validPos_iff.2 ⟨h1, h2⟩)).trans (hends side _ _ s))
  · obtain ⟨hst, o, ho⟩ := hleg
    have heq : carriageReport side (.arrived pos) s = loseCarriage side s :=
      (carriageArrived_of_leg hst ho).trans (if_neg (mt validPos_iff.1 hpos))
    rw [heq]
    exact loseCarriage_moves side s
  · refine (if_pos h).trans ?_
    rw [carriageSettles_eq_settleAt]
    exact hends side _ _ s
  · exact if_neg h
  · have hmod := modifyCarriage_frame side (dropWork side s) fun c => { c with state := .absent, x := none, timer := none }
    have hraise := raise_frame (modifyCarriage side (fun c => { c with state := .absent, x := none, timer := none })
      (dropWork side s)) .carriage
    refine ⟨carriageSilent_frame side s, ?_, ?_, ?_, ?_, ?_⟩
    · exact ((dropWork_otherSide side s).trans (modifyCarriage_otherSide side _ _)).trans (hraise.otherSide side)
    · exact ((dropWork_returns side s).to_same (hmod.tableSame side)).to_same (hraise.tableSame side)
    · exact (((dropWork_boardsOnly side s).trans hmod.boardsOnly).trans hraise.boardsOnly).rest.1
    · exact (raise_lineRaises .carriage _).from_same (dropWork_frame side s .line (by decide))
    · rw [← hdropped]
      refine (modifyCarriage_get side _ _).trans ?_
      rw [dropWork_carriage]

/-! ## Dispatch -/

theorem FrameState.dispatches_iff (f : FrameState) :
    f.dispatches = true ↔ f = .spinning ∨ f = .doffPending ∨ f = .startUp := by cases f <;> decide

theorem canDispatch_iff {side : Side} {s : State} : canDispatch side s = true ↔
    (s.carriages.get side).state = .ready ∧ (s.carriages.get side).hostHold = false ∧
      (s.carriages.get side).doffHold = false ∧
      (s.doff.frame = .spinning ∨ s.doff.frame = .doffPending ∨ s.doff.frame = .startUp) ∧ s.breakList.get side ≠ [] := by
  rw [← FrameState.dispatches_iff]
  simp [canDispatch, and_assoc]

theorem dispatchTest_of_target {side : Side} {s : State} {x p : Nat} (h : canDispatch side s = true)
    (hx : (s.carriages.get side).x = some x)
    (hp : chooseTarget x (s.carriages.get side).d s.items.reach (s.breakList.get side) = some p) :
    dispatchTest side s = issueOrder side x p s := by
  unfold dispatchTest
  rw [if_pos h]
  dsimp only
  rw [hx]
  dsimp only
  rw [hp]

section
variable {side : Side} {s : State} {x p : Nat} {sp : Spindle} {kind : PieceKind}

theorem issueOrder_far (h : ¬(-128 ≤ (p : Int) - x ∧ (p : Int) - x ≤ 127)) :
    issueOrder side x p s = issueTransit side (if x < p then 127 else -127) s := if_neg h

theorem issueOrder_near (h : -128 ≤ (p : Int) - x ∧ (p : Int) - x ≤ 127) (hsp : s.spindle side p = some sp)
    (hst : sp.state = .broken) (hkind : sp.cause.bind Cause.pieceKind = some kind) :
    issueOrder side x p s = issuePiece side p ((p : Int) - x) kind sp s := by
  unfold issueOrder
  dsimp only
  rw [if_pos h, hsp]
  dsimp only
  rw [hst, hkind]

theorem issueTransit_otherSide (o : Int) (s : State) : OtherSideSame side s (issueTransit side o s) :=
  (sendCarriage_otherSide side _ s).trans (modifyCarriage_otherSide side _ _)

theorem issuePiece_otherSide (o : Int) (sp : Spindle) (s : State) : OtherSideSame side s (issuePiece side p o kind sp s) :=
  ((writeSpindle_otherSide side p _ s).trans (sendCarriage_otherSide side _ _)).trans (modifyCarriage_otherSide side _ _)

theorem issueOrder_otherSide (s : State) : OtherSideSame side s (issueOrder side x p s) := by
  unfold issueOrder
  dsimp only
  split
  · split
    · split
      · exact issuePiece_otherSide _ _ s
      · exact .refl side s
    · exact .refl side s
  · exact issueTransit_otherSide _ s

theorem dispatchTest_otherSide (side : Side) (s : State) : OtherSideSame side s (dispatchTest side s) := by
  unfold dispatchTest
  split
  · dsimp only
    split
    · split
      · exact issueOrder_otherSide s
      · exact .refl side s
    · exact .refl side s
  · exact .refl side s

/-- A PIECE order: the spindle leaves the list and becomes PIECING, and the carriage serves it (R60, R72). -/
theorem issuePiece_moves (o : Int) (hsp : s.spindle side p = some sp) (hst : sp.state = .broken) :
    RecordBecomes side p { sp with state := .piecing, clamp := .opened } s (issuePiece side p o kind sp s) ∧
    (issuePiece side p o kind sp s).breakList.get side = (s.breakList.get side).filter (· ≠ p) ∧
    (issuePiece side p o kind sp s).carriages.get side = { s.carriages.get side with
      state := .serving, d := (s.carriages.get side).d.after o, order := some (.piece p o kind), withdrawn := none
      timer := some ⟨.piece, s.items.pieceTimeout⟩ } ∧
    (issuePiece side p o kind sp s).bus.carriages.get side = (s.bus.carriages.get side).append (.piece o kind) ∧
    (issuePiece side p o kind sp s).bus.doffer = s.bus.doffer ∧ (issuePiece side p o kind sp s).bus.train = s.bus.train ∧
    (issuePiece side p o kind sp s).bus.cycle = s.bus.cycle ∧
    (issuePiece side p o kind sp s).bus.awaiting = s.bus.awaiting := by
  have hwrite := writeSpindle_frame side p s { sp with state := .piecing }
  obtain ⟨hbc, hbd, hbt, hbcy, hba⟩ := (writeSpindle_boardsOnly side p { sp with state := .piecing } s).rest
  have hcar : (writeSpindle side p { sp with state := .piecing } s).carriages = s.carriages := hwrite .carriages (by decide)
  refine ⟨(writeSpindle_recordBecomes side p { sp with state := .piecing } hsp).to_same rfl rfl, ?_, ?_, ?_, hbd, hbt, hbcy,
    hba⟩
  · change (writeSpindle side p { sp with state := .piecing } s).breakList.get side = _
    rw [writeSpindle_breakList side p _ hsp, Sides.get_modify_same, hst, syncBreakList_leaves _ _ _ (by simp)]
  · refine (modifyCarriage_get side _ _).trans ?_
    rw [show ∀ u, (sendCarriage side (.piece o kind) u).carriages = u.carriages from fun _ => rfl, hcar]
  · change ((writeSpindle side p { sp with state := .piecing } s).bus.carriages.modify side _).get side = _
    rw [Sides.get_modify_same, hbc]

end

/-- Settles O47: the test's conditions are those of R55, and the order is the one that the target's offset calls for. -/
theorem dispatchIssuesOneOrder : Obligations.DispatchIssuesOneOrder := by
  unfold Obligations.DispatchIssuesOneOrder
  intro s side c ready
  refine ⟨fun hno => if_neg (mt canDispatch_iff.1 hno), fun x p sp hready hx hp hsp hst => ?_⟩
  intro off
  have heq : dispatchTest side s = issueOrder side x p s := dispatchTest_of_target (canDispatch_iff.2 hready) hx hp
  refine ⟨dispatchTest_otherSide side s, fun kind hfar hk => ?_, fun kind hlo hhi hkind => ?_⟩
  · have hsign : kind = 127 ∨ kind = -127 := by rw [hk]; split <;> simp
    have hd : c.d.after kind = if 0 < kind then .up else .down := by
      rcases hsign with rfl | rfl <;> rfl
    rw [heq, issueOrder_far (by omega), ← hk]
    refine ⟨issueTransit_frame side s kind, ?_, rfl⟩
    rw [← hd]
    exact modifyCarriage_get side _ _
  · rw [heq, issueOrder_near ⟨hlo, hhi⟩ hsp hst hkind]
    obtain ⟨hrec, hlist, hcar, hrest⟩ := issuePiece_moves (kind := kind) off hsp hst
    exact ⟨issuePiece_frame side p s off kind sp, hrec, hlist, hcar, hrest⟩

/-! ## Outcomes -/

theorem Carriage.pieceTarget_iff {c : Carriage} {pos : Nat} :
    c.pieceTarget = some pos ↔ ∃ o k, c.order = some (.piece pos o k) := by
  unfold Carriage.pieceTarget
  split <;> simp_all

theorem Carriage.overtakenTarget_iff {c : Carriage} {pos : Nat} :
    c.overtakenTarget = some pos ↔ ∃ o k, c.order = some (.overtaken pos o k) := by
  unfold Carriage.overtakenTarget
  split <;> simp_all

theorem carriageSettles_carriage (side : Side) (x : Option Nat) (s : State) :
    (carriageSettles side x s).carriages.get side = (s.carriages.get side).endsAt x := by
  rw [carriageSettles_eq_settleAt, settleAt_eq]
  exact Sides.get_set_same _ _ _

/-- A record that enters and leaves no break list. -/
theorem writeSpindle_breakList_same {side : Side} {pos : Nat} {s : State} {old new : Spindle}
    (h : s.spindle side pos = some old) (ho : old.state ≠ .broken) (hn : new.state ≠ .broken) :
    (writeSpindle side pos new s).breakList = s.breakList := by
  rw [writeSpindle_breakList side pos new h]
  exact sidesModify_of_fixed (syncBreakList_outside _ _ _ ho hn)

section
variable {side : Side} {pos : Nat} {s w : State} {sp : Spindle} {fs : List SideFigure} {cs : List PendClass}

/-- What an outcome does before the carriage settles: the record, the counts and the classes of its side. -/
structure Outcome (side : Side) (fs : List SideFigure) (cs : List PendClass) (s w : State) : Prop where
  frame : OnlyChanges [.spindles, .breakList, .shift, .bus, .line] s w
  other : OtherSideSame side s w
  tallies : Tallies side fs cs 0 s w
  boards : BoardsOnly s w

/-- An outcome whose carriage record then changes. -/
theorem Outcome.then_carriage {ps : List Part} {v : State} (h : Outcome side fs cs s w) (hf : OnlyChanges ps w v)
    (ho : OtherSideSame side w v) (hps : ps = [.carriages]) :
    OnlyChanges [.spindles, .breakList, .carriages, .shift, .bus, .line] s v ∧ OtherSideSame side s v ∧
      Credited side 0 s v ∧ Counted side fs s v ∧ LineRaises (cs ++ saturates side fs s) s v ∧
      v.bus.carriages = s.bus.carriages ∧ v.bus.doffer = s.bus.doffer ∧ v.bus.train = s.bus.train := by
  subst hps
  have htally := h.tallies.next hf
  have hrest := (h.boards.trans hf.boardsOnly).rest
  exact ⟨h.frame.wide.next hf, h.other.trans ho, htally.credited, htally.counted, htally.raises, hrest.1, hrest.2.1,
    hrest.2.2.1⟩

theorem Outcome.settles (h : Outcome side fs cs s w) (x : Option Nat) :
    OnlyChanges [.spindles, .breakList, .carriages, .shift, .bus, .line] s (carriageSettles side x w) ∧
      OtherSideSame side s (carriageSettles side x w) ∧
      Credited side 0 s (carriageSettles side x w) ∧ Counted side fs s (carriageSettles side x w) ∧
      LineRaises (cs ++ saturates side fs s) s (carriageSettles side x w) ∧
      (carriageSettles side x w).bus.carriages = s.bus.carriages ∧
      (carriageSettles side x w).bus.doffer = s.bus.doffer ∧ (carriageSettles side x w).bus.train = s.bus.train :=
  h.then_carriage (carriageSettles_frame side w x) (modifyCarriage_otherSide side _ w) rfl

theorem Outcome.settles_carriage (h : Outcome side fs cs s w) (x : Option Nat) :
    (carriageSettles side x w).carriages.get side = (s.carriages.get side).endsAt x := by
  have hc : w.carriages = s.carriages := h.frame .carriages (by decide)
  rw [carriageSettles_carriage, hc]

theorem Outcome.refl (side : Side) (s : State) : Outcome side [] [] s s := ⟨.refl _ s, .refl side s, .refl side s, .refl s⟩

theorem Outcome.count {f : SideFigure} (h : Outcome side fs cs s w) (hf : f ∉ fs := by decide) :
    Outcome side (fs ++ [f]) cs s (countSide side f w) where
  frame := h.frame.next (countSide_frame side w f)
  other := h.other.trans (countSide_otherSide side f w)
  tallies := h.tallies.count hf
  boards := h.boards.trans (countSide_frame side w f).boardsOnly

theorem Outcome.raise (c : PendClass) (h : Outcome side fs cs s w) : Outcome side fs (cs ++ [c]) s (raise c w) where
  frame := h.frame.next (raise_frame w c)
  other := h.other.trans ((raise_frame w c).otherSide side)
  tallies := h.tallies.raise c
  boards := h.boards.trans (raise_frame w c).boardsOnly

theorem Outcome.write (new : Spindle) (h : Outcome side fs cs s w) : Outcome side fs cs s (writeSpindle side pos new w) where
  frame := h.frame.next (writeSpindle_frame side pos w new)
  other := h.other.trans (writeSpindle_otherSide side pos new w)
  tallies := h.tallies.next (writeSpindle_frame side pos w new)
  boards := h.boards.trans (writeSpindle_boardsOnly side pos new w)

theorem countSide_tableSame (f : SideFigure) (s : State) : TableSame side s (countSide side f s) :=
  (countSide_frame side s f).tableSame side

theorem countSide_spindle (f : SideFigure) (hsp : s.spindle side pos = some sp) :
    (countSide side f s).spindle side pos = some sp :=
  (State.spindle_congr (countSide_tableSame f s).1 pos).trans hsp

/-- The record that the judgement of a failed piece writes, after the failure is counted (R75). -/
theorem missed_record (hsp : s.spindle side pos = some sp) (f : Spindle) :
    RecordBecomes side pos { f with clamp := f.state.clamp } s (writeSpindle side pos f (countSide side .pieceFailure s)) :=
  (writeSpindle_recordBecomes side pos f (countSide_spindle _ hsp)).from_same (countSide_tableSame _ s).1
    (countSide_tableSame _ s).2.2

/-- A PIECING spindle back in its list with the record of the failed piece (R53, R75). -/
theorem missed_returns (hsp : s.spindle side pos = some sp) (hst : sp.state = .piecing) {f : Spindle}
    (hf : f.state = .broken) :
    let w := writeSpindle side pos f (countSide side .pieceFailure s)
    Outcome side [.pieceFailure] [] s w ∧ RecordBecomes side pos { f with clamp := .closed } s w ∧
      w.breakList.get side = insertByKey (seqAt (w.spindles.get side)) pos (s.breakList.get side) := by
  intro w
  have hsp' := countSide_spindle .pieceFailure hsp
  refine ⟨(Outcome.refl side s).count.write f, ?_, ?_⟩
  · have hrec := missed_record hsp f
    rwa [show f.state.clamp = .closed by rw [hf]; rfl] at hrec
  · change (writeSpindle side pos f (countSide side .pieceFailure s)).breakList.get side = _
    rw [writeSpindle_breakList side pos f hsp', Sides.get_modify_same, hst, hf, (countSide_tableSame _ s).2.1,
      show w.spindles = _ from writeSpindle_spindles side pos f _ sp hsp', Sides.get_set_same, hf]
    rfl

/-- The spindle mended by the carriage, its piece counted (R74, R79). -/
theorem mended_outcome (sp : Spindle) : Outcome side [.carriagePiece] [] s
    (countSide side .carriagePiece (writeSpindle side pos (sp.pieced s.flmm) s)) :=
  ((Outcome.refl side s).write _).count

theorem mended_record (hsp : s.spindle side pos = some sp) : RecordBecomes side pos { sp with
    state := .running, marker := some s.flmm, clamp := .opened, attempts := 0, seq := none, cause := none } s
    (countSide side .carriagePiece (writeSpindle side pos (sp.pieced s.flmm) s)) :=
  (pieced_recordBecomes hsp).then_frame (countSide_frame side _ .carriagePiece)

theorem mended_breakList : (countSide side .carriagePiece (writeSpindle side pos (sp.pieced s.flmm) s)).breakList =
    (writeSpindle side pos (sp.pieced s.flmm) s).breakList := countSide_frame side _ .carriagePiece .breakList (by decide)

/-- The carriage record after a late outcome: nothing is withdrawn any more (R79). -/
def clearWithdrawn (side : Side) (s : State) : State := modifyCarriage side (fun c => { c with withdrawn := none }) s

theorem clearWithdrawn_frame (side : Side) (s : State) : OnlyChanges [.carriages] s (clearWithdrawn side s) :=
  modifyCarriage_frame side s _

theorem clearWithdrawn_otherSide (side : Side) (s : State) : OtherSideSame side s (clearWithdrawn side s) :=
  modifyCarriage_otherSide side _ s

/-- A late success mends the withdrawn spindle where it is BROKEN still, and has no other effect (R79). -/
theorem lateOutcome_eq (side : Side) (pos : Nat) (ok : Bool) (s : State) : lateOutcome side pos ok s =
    match (s.spindle side pos).filter fun sp => ok && sp.state == .broken with
    | some sp => countSide side .carriagePiece (writeSpindle side pos (sp.pieced s.flmm) (clearWithdrawn side s))
    | none => clearWithdrawn side s := by
  have hspindle : (clearWithdrawn side s).spindle side pos = s.spindle side pos := rfl
  unfold lateOutcome
  dsimp only
  change (if ok = true then
    match (clearWithdrawn side s).spindle side pos with
    | some sp => if sp.state = .broken then
        countSide side .carriagePiece (writeSpindle side pos (sp.pieced s.flmm) (clearWithdrawn side s))
      else clearWithdrawn side s
    | none => clearWithdrawn side s
  else clearWithdrawn side s) = _
  rw [hspindle]
  cases ok with
  | false => cases s.spindle side pos <;> simp
  | true =>
    cases h : s.spindle side pos with
    | none => rfl
    | some sp => by_cases hst : sp.state = .broken <;> simp [Option.filter, hst]

theorem lateOutcome_carriage (side : Side) (pos : Nat) (ok : Bool) (s : State) :
    (lateOutcome side pos ok s).carriages.get side = { s.carriages.get side with withdrawn := none } := by
  have hclear : (clearWithdrawn side s).carriages.get side = { s.carriages.get side with withdrawn := none } :=
    modifyCarriage_get side _ s
  rw [lateOutcome_eq]
  split
  · next sp _ =>
    have hout := mended_outcome (side := side) (pos := pos) (s := clearWithdrawn side s) sp
    have hcar : (countSide side .carriagePiece (writeSpindle side pos (sp.pieced s.flmm) (clearWithdrawn side s))).carriages =
      (clearWithdrawn side s).carriages := hout.frame .carriages (by decide)
    rw [hcar, hclear]
  · exact hclear

theorem lateOutcome_moves (side : Side) (pos : Nat) (ok : Bool) (s : State) :
    if ok = true ∧ ∃ sp ∈ s.spindle side pos, sp.state = .broken then
      (OnlyChanges [.spindles, .breakList, .carriages, .shift, .bus, .line] s (lateOutcome side pos ok s) ∧
        OtherSideSame side s (lateOutcome side pos ok s) ∧ Credited side 0 s (lateOutcome side pos ok s) ∧
        Counted side [.carriagePiece] s (lateOutcome side pos ok s) ∧
        LineRaises ([] ++ saturates side [.carriagePiece] s) s (lateOutcome side pos ok s) ∧
        (lateOutcome side pos ok s).bus.carriages = s.bus.carriages ∧
        (lateOutcome side pos ok s).bus.doffer = s.bus.doffer ∧ (lateOutcome side pos ok s).bus.train = s.bus.train) ∧
      (lateOutcome side pos ok s).breakList.get side = (s.breakList.get side).filter (· ≠ pos) ∧
      ∀ sp ∈ s.spindle side pos, RecordBecomes side pos { sp with
        state := .running, marker := some s.flmm, clamp := .opened, attempts := 0, seq := none, cause := none } s
        (lateOutcome side pos ok s)
    else OnlyChanges [.carriages] s (lateOutcome side pos ok s) ∧ OtherSideSame side s (lateOutcome side pos ok s) := by
  have hclear := clearWithdrawn_frame side s
  split
  · next h =>
    obtain ⟨rfl, sp, hsp, hst⟩ := h
    have heq : lateOutcome side pos true s =
        countSide side .carriagePiece (writeSpindle side pos (sp.pieced s.flmm) (clearWithdrawn side s)) := by
      rw [lateOutcome_eq, Option.mem_def.1 hsp]
      simp [Option.filter, hst]
    have hsp' : (clearWithdrawn side s).spindle side pos = some sp := hsp
    have hout := mended_outcome (side := side) (pos := pos) (s := clearWithdrawn side s) sp
    have htally := hout.tallies.after hclear
    have hrest := (hclear.boardsOnly.trans hout.boards).rest
    rw [heq]
    refine ⟨⟨hclear.wide.next hout.frame, (clearWithdrawn_otherSide side s).trans hout.other, htally.credited,
      htally.counted, htally.raises, hrest.1, hrest.2.1, hrest.2.2.1⟩, ?_, fun r hr => ?_⟩
    · rw [(countSide_tableSame .carriagePiece _).2.1, writeSpindle_breakList side pos _ hsp', Sides.get_modify_same, hst,
        syncBreakList_leaves _ _ _ (by simp [Spindle.pieced])]
      rfl
    · obtain rfl : sp = r := Option.some.inj (hsp.symm.trans hr)
      exact (mended_record hsp').from_same rfl rfl
  · next h =>
    have heq : lateOutcome side pos ok s = clearWithdrawn side s := by
      rw [lateOutcome_eq]
      split
      · next sp hsp =>
        obtain ⟨hsp, hst⟩ := Option.filter_eq_some_iff.1 hsp
        rw [Bool.and_eq_true, beq_iff_eq] at hst
        exact absurd ⟨hst.1, sp, hsp, hst.2⟩ h
      · rfl
    rw [heq]
    exact ⟨hclear, clearWithdrawn_otherSide side s⟩

theorem carriagePieced_mine {ok : Bool} (h : (s.carriages.get side).state = .serving)
    (ho : (s.carriages.get side).pieceTarget = some pos) :
    carriagePieced side pos ok s = if ok = true then pieceSucceeds side pos s else pieceFails side pos s :=
  if_pos ⟨h, ho⟩

theorem carriagePieced_overtaken {ok : Bool} (h : (s.carriages.get side).state = .serving)
    (ho : (s.carriages.get side).overtakenTarget = some pos) : carriagePieced side pos ok s = overtakenEnds side pos ok s := by
  have hno : ¬((s.carriages.get side).state = .serving ∧ (s.carriages.get side).pieceTarget = some pos) := by
    rintro ⟨-, hp⟩
    obtain ⟨o, k, hp⟩ := Carriage.pieceTarget_iff.1 hp
    obtain ⟨o', k', ho⟩ := Carriage.overtakenTarget_iff.1 ho
    simp [hp] at ho
  exact (if_neg hno).trans (if_pos ⟨h, ho⟩)

end

/-- Settles O51: an outcome is taken by what the carriage holds, its record, counts and classes before the carriage
settles. -/
theorem pieceOutcomesAreTaken : Obligations.PieceOutcomesAreTaken := by
  unfold Obligations.PieceOutcomesAreTaken
  intro s side pos c mine overtaken frame running
  have hmine : mine → c.state = .serving ∧ c.pieceTarget = some pos := fun h => ⟨h.1, Carriage.pieceTarget_iff.2 h.2⟩
  refine ⟨fun sp hm hsp hst => ?_, fun sp hm hsp hst => ?_, fun ok ho => ?_, fun ok hm ho hw => ?_, fun ok hm ho hw => ?_⟩
  · obtain ⟨hserving, htarget⟩ := hmine hm
    have hout := mended_outcome (side := side) (pos := pos) (s := s) sp
    refine ⟨pieceDone side pos s, carriagePieced_mine (ok := true) hserving htarget, ?_⟩
    have hv : pieceDone side pos s =
        carriageSettles side (some pos) (countSide side .carriagePiece (writeSpindle side pos (sp.pieced s.flmm) s)) := by
      simp [pieceDone, hsp, hst]
    rw [hv]
    refine ⟨hout.settles _, (mended_record hsp).to_same rfl rfl, ?_, hout.settles_carriage _⟩
    exact mended_breakList.trans (writeSpindle_breakList_same hsp (by simp [hst]) (by simp [Spindle.pieced]))
  · obtain ⟨hserving, htarget⟩ := hmine hm
    refine ⟨pieceMissed side pos s, carriagePieced_mine (ok := false) hserving htarget, ?_⟩
    have hcount := countSide_frame side s .pieceFailure
    have hsps : (countSide side .pieceFailure s).spindles = s.spindles := hcount .spindles (by decide)
    have hitems : (countSide side .pieceFailure s).items = s.items := hcount .items (by decide)
    have hroom : lockRoom (countSide side .pieceFailure s) = true ↔ lockedCount s < s.items.lockCeiling := by
      rw [lockRoom, decide_eq_true_eq, lockedCount, hsps, hitems]
      rfl
    have hv : pieceMissed side pos s = carriageSettles side (some pos) (judgeAttempts side pos
        { sp with attempts := min 3 (sp.attempts + 1) } (countSide side .pieceFailure s)) := by
      simp [pieceMissed, hsp, hst]
    rw [hv]
    have hcar (x : State) (fs : List SideFigure) (cs : List PendClass) (hx : Outcome side fs cs s x) :
        (carriageSettles side (some pos) x).carriages.get side = c.endsAt (some pos) := hx.settles_carriage _
    unfold judgeAttempts
    rw [hitems]
    by_cases hfew : min 3 (sp.attempts + 1) < s.items.pieceAttempts
    · obtain ⟨hout, hrec, hlist⟩ := missed_returns hsp hst
        (f := ({ sp with attempts := min 3 (sp.attempts + 1) } : Spindle).returned) rfl
      rw [if_pos hfew]
      refine ⟨hcar _ _ _ hout, ?_⟩
      rw [if_pos hfew]
      exact ⟨hout.settles _, hrec.to_same rfl rfl, hlist⟩
    · rw [if_neg hfew]
      by_cases hlock : lockedCount s < s.items.lockCeiling
      · rw [if_pos (hroom.2 hlock)]
        have hout := ((((Outcome.refl side s).count (f := .pieceFailure)).write (pos := pos)
          (({ sp with attempts := min 3 (sp.attempts + 1) } : Spindle).locked .pieceFail)).raise .pieceFailLock).count
          (f := .pieceFailLock)
        refine ⟨hcar _ _ _ hout, ?_⟩
        rw [if_neg hfew, if_pos hlock]
        refine ⟨hout.settles _, ?_, ((missed_record hsp _).then_frame (raise_frame _ .pieceFailLock)).then_frame
          (countSide_frame side _ .pieceFailLock) |>.to_same rfl rfl⟩
        have hw := writeSpindle_breakList_same (new := ({ sp with attempts := min 3 (sp.attempts + 1) } : Spindle).locked .pieceFail)
          (countSide_spindle .pieceFailure hsp) (by simp [hst]) (by simp [Spindle.locked])
        exact (countSide_frame side _ .pieceFailLock .breakList (by decide)).trans
          (hw.trans (countSide_frame side s .pieceFailure .breakList (by decide)))
      · rw [if_neg (mt hroom.1 hlock)]
        obtain ⟨hout, hrec, hlist⟩ := missed_returns hsp hst
          (f := { ({ sp with attempts := min 3 (sp.attempts + 1) } : Spindle).returned with rogueUnlocked := true }) rfl
        refine ⟨hcar _ _ _ (hout.raise .pieceFailLock), ?_⟩
        rw [if_neg hfew, if_neg hlock]
        exact ⟨(hout.raise .pieceFailLock).settles _, hrec.to_same rfl rfl, hlist⟩
  · obtain ⟨hserving, htarget⟩ := ho
    refine ⟨overtakenDone side pos ok s,
      carriagePieced_overtaken hserving (Carriage.overtakenTarget_iff.2 htarget), ?_⟩
    cases ok with
    | true =>
      have hout : Outcome side [.carriagePiece] [] s (countSide side .carriagePiece s) := (Outcome.refl side s).count
      have hcount := countSide_frame side s .carriagePiece
      exact ⟨hcount .spindles (by decide), hcount .breakList (by decide), hcount .bus (by decide),
        hout.settles_carriage _, hout.settles _⟩
    | false => exact ⟨rfl, rfl, rfl, (Outcome.refl side s).settles_carriage _, (Outcome.refl side s).settles _⟩
  · intro t
    have hno : ¬(c.state = .serving ∧ c.pieceTarget = some pos) := fun h => hm ⟨h.1, Carriage.pieceTarget_iff.1 h.2⟩
    have hno' : ¬(c.state = .serving ∧ c.overtakenTarget = some pos) :=
      fun h => ho ⟨h.1, Carriage.overtakenTarget_iff.1 h.2⟩
    have ht : t = lateOutcome side pos ok s := (if_neg hno).trans ((if_neg hno').trans (if_pos hw))
    rw [ht]
    exact ⟨lateOutcome_carriage side pos ok s, lateOutcome_moves side pos ok s⟩
  · have hno : ¬(c.state = .serving ∧ c.pieceTarget = some pos) := fun h => hm ⟨h.1, Carriage.pieceTarget_iff.1 h.2⟩
    have hno' : ¬(c.state = .serving ∧ c.overtakenTarget = some pos) :=
      fun h => ho ⟨h.1, Carriage.overtakenTarget_iff.1 h.2⟩
    exact (if_neg hno).trans ((if_neg hno').trans (if_neg hw))

end Sys2Proof.Machine
end

