-- ==== Sys2Proof/Proofs/DoffEntry.lean ====
section
/-!
PROOFS. The entry to DOFFING: each order withdrawn, both doff holds set, and the doffer sent where it is ready (O36).
-/
namespace Sys2Proof.Machine

-- One after another: each theorem as a task of its own takes a thread.
set_option Elab.async false

section
variable (side : Side) (s : State)

/-- The carriage after the withdrawal at entry to DOFFING (R78). -/
def Carriage.recalled (c : Carriage) (s : State) : Carriage :=
  match c.order with
  | none => c
  | some (.transit _) => c.cancelled s c.withdrawn
  | some (.piece t _ _) => c.cancelled s (some t)
  | some (.overtaken t _ _) => c.cancelled s (some t)

theorem withdrawForDoff_carriage :
    (withdrawForDoff side s).carriages.get side = (s.carriages.get side).recalled s := by
  unfold withdrawForDoff Carriage.recalled
  dsimp only
  split <;> rename_i ho <;> rw [ho]
  · rw [cancelOrder_carriage]
  · rw [cancelOrder_carriage]
  · have hitems (pos : Nat) : (returnSpindle side pos s).items = s.items := returnSpindle_frame side pos s .items (by decide)
    rw [cancelOrder_carriage, returnSpindle_carriages]
    simp only [Carriage.cancelled, hitems]

/-- A withdrawal appends CANCEL on its side, and nothing else of the bus but the boards changes (R78). -/
theorem withdrawForDoff_bus : (withdrawForDoff side s).bus.carriages.get side =
      (if (s.carriages.get side).order = none then s.bus.carriages.get side
        else (s.bus.carriages.get side).append .cancel) ∧
    (withdrawForDoff side s).bus.doffer = s.bus.doffer ∧ (withdrawForDoff side s).bus.train = s.bus.train ∧
    (withdrawForDoff side s).bus.cycle = s.bus.cycle ∧ (withdrawForDoff side s).bus.awaiting = s.bus.awaiting := by
  have hcancel (w : Option Nat) (u : State) (hu : BoardsOnly s u) :
      (cancelOrder side w u).bus.carriages.get side = (s.bus.carriages.get side).append .cancel ∧
      (cancelOrder side w u).bus.doffer = s.bus.doffer ∧ (cancelOrder side w u).bus.train = s.bus.train ∧
      (cancelOrder side w u).bus.cycle = s.bus.cycle ∧ (cancelOrder side w u).bus.awaiting = s.bus.awaiting := by
    obtain ⟨hc, hd, ht, hcy, ha⟩ := hu.rest
    rw [cancelOrder_bus]
    exact ⟨by rw [← hc]; exact Sides.get_modify_same _ _ _, hd, ht, hcy, ha⟩
  unfold withdrawForDoff
  dsimp only
  split <;> rename_i ho
  · rw [if_pos ho]
    exact ⟨rfl, rfl, rfl, rfl, rfl⟩
  all_goals rw [if_neg (by simp [ho])]
  · exact hcancel _ s (.refl s)
  · exact hcancel _ s (.refl s)
  · exact hcancel _ _ (returnSpindle_boardsOnly _ s)

theorem withdrawForDoff_otherSide : OtherSideSame side s (withdrawForDoff side s) := by
  unfold withdrawForDoff
  dsimp only
  split
  · exact .refl side s
  · exact cancelOrder_otherSide side s _
  · exact cancelOrder_otherSide side s _
  · exact (returnSpindle_otherSide _ s).trans (cancelOrder_otherSide side _ _)

theorem withdrawForDoff_returns : ReturnsToList side s (withdrawForDoff side s) := by
  have hnone (u : State) (ht : (s.carriages.get side).pieceTarget = none) (hu : TableSame side s u) :
      ReturnsToList side s u := (returnsToList_of_none (State.pieceSpindle_of_none ht)).2 hu
  unfold withdrawForDoff
  dsimp only
  split <;> rename_i ho
  · exact hnone s (by simp [Carriage.pieceTarget, ho]) (.refl side s)
  · exact hnone _ (by simp [Carriage.pieceTarget, ho]) (cancelOrder_tableSame side s _ side)
  · exact hnone _ (by simp [Carriage.pieceTarget, ho]) (cancelOrder_tableSame side s _ side)
  · exact (returnSpindle_returns (Carriage.pieceTarget_of_order ho)).to_same (cancelOrder_tableSame side _ _ side)

end

/-- Both carriages withdrawn, one after the other, each on its own side (R94). -/
theorem withdrawBoth_sides (s : State) :
    let t := withdrawForDoff .b (withdrawForDoff .a s)
    BothSides (fun side =>
      t.carriages.get side = (s.carriages.get side).recalled s ∧
      (t.bus.carriages.get side = if (s.carriages.get side).order = none then s.bus.carriages.get side
        else (s.bus.carriages.get side).append .cancel) ∧ ReturnsToList side s t) ∧
    t.bus.doffer = s.bus.doffer ∧ t.bus.train = s.bus.train ∧ t.bus.cycle = s.bus.cycle ∧
    t.bus.awaiting = s.bus.awaiting := by
  intro t
  obtain ⟨hac, had, hat, hacy, haa⟩ := withdrawForDoff_bus .a s
  obtain ⟨hbc, hbd, hbt, hbcy, hba⟩ := withdrawForDoff_bus .b (withdrawForDoff .a s)
  have hother := withdrawForDoff_otherSide .a s
  have hother' := withdrawForDoff_otherSide .b (withdrawForDoff .a s)
  obtain ⟨-, -, -, hcb, hbb, -⟩ := hother .b (by decide)
  obtain ⟨-, -, -, hca, hba', -⟩ := hother' .a (by decide)
  have hitems : (withdrawForDoff .a s).items = s.items := withdrawForDoff_frame .a s .items (by decide)
  refine ⟨⟨⟨?_, hba'.trans hac, ?_⟩, ?_, ?_, ?_⟩, hbd.trans had, hbt.trans hat, hbcy.trans hacy, hba.trans haa⟩
  · exact hca.trans (withdrawForDoff_carriage .a s)
  · exact (withdrawForDoff_returns .a s).to_same (hother'.tableSame (by decide))
  · refine (withdrawForDoff_carriage .b _).trans ?_
    rw [hcb]
    simp only [Carriage.recalled, Carriage.cancelled, hitems]
  · rw [hbc, hcb, hbb]
  · exact (withdrawForDoff_returns .b _).from_same (hother.tableSame (by decide)) hcb

/-- The doff holds of both carriages set: READY becomes HELD (R80). -/
theorem setDoffHolds_get (s : State) (side : Side) : (setDoffHold .b (setDoffHold .a s)).carriages.get side =
    { s.carriages.get side with
      doffHold := true
      state := if (s.carriages.get side).state = .ready then .held else (s.carriages.get side).state } := by
  have h := ({ s.carriages.get side with doffHold := true } : Carriage).nowHeld_eq
  cases side <;> exact h

/-- The state at entry to DOFFING before the doffer is told (R94). -/
def readyToDoff (s : State) : State :=
  setDoffHold .b (setDoffHold .a (withdrawForDoff .b (withdrawForDoff .a (changeFrame .doffing s))))

theorem enterDoffing_eq (s : State) : enterDoffing s =
    if (readyToDoff s).doff.ready = true then startDoffer (readyToDoff s)
    else (readyToDoff s).setDoff { (readyToDoff s).doff with go := .waiting } := rfl

theorem readyToDoff_after_change (s : State) :
    OnlyChanges [.spindles, .breakList, .carriages, .bus] (changeFrame .doffing s) (readyToDoff s) :=
  (((withdrawForDoff_frame .a _).next (withdrawForDoff_frame .b _)).next (setDoffHold_frame .a _)).next
    (setDoffHold_frame .b _)

theorem readyToDoff_doff (s : State) : (readyToDoff s).doff = { s.doff with frame := .doffing } :=
  (readyToDoff_after_change s .doff (by decide)).trans (changeFrame_doff s .doffing)

/-- The entry to DOFFING leaves the tables, the carriages and their queues as the withdrawals and holds left them. -/
theorem enterDoffing_after_ready (s : State) : OnlyChanges [.doff, .bus] (readyToDoff s) (enterDoffing s) ∧
    (enterDoffing s).bus = { (readyToDoff s).bus with
      doffer := if s.doff.ready = true then
          (readyToDoff s).bus.doffer.append (.doffGo s.items.sections.a s.items.sections.b)
        else (readyToDoff s).bus.doffer } := by
  have hitems : (readyToDoff s).items = s.items :=
    ((changeFrame_frame s .doffing).wide.next (readyToDoff_after_change s) :
      OnlyChanges [.doff, .speed, .line, .spindles, .breakList, .carriages, .bus] s (readyToDoff s)) .items (by decide)
  rw [enterDoffing_eq, show (readyToDoff s).doff.ready = s.doff.ready by rw [readyToDoff_doff]]
  by_cases h : s.doff.ready = true
  · rw [if_pos h, if_pos h]
    exact ⟨startDoffer_frame _, by rw [← hitems]; rfl⟩
  · rw [if_neg h, if_neg h]
    exact ⟨(setDoff_frame _ _).wide, rfl⟩

/-- The carriage of a side after the entry to DOFFING: its order withdrawn and its doff hold set (R78, R80). -/
def Carriage.inDoffing (c : Carriage) (s : State) : Carriage :=
  { (match c.order with
      | none => { c with state := if c.state = .ready then .held else c.state }
      | some (.transit _) => c.cancelled s c.withdrawn
      | some (.piece t _ _) => c.cancelled s (some t)
      | some (.overtaken t _ _) => c.cancelled s (some t) : Carriage) with doffHold := true }

theorem Carriage.recalled_held (c : Carriage) (s : State) :
    ({ c.recalled s with
      doffHold := true, state := if (c.recalled s).state = .ready then .held else (c.recalled s).state } : Carriage) =
    c.inDoffing s := by
  obtain ⟨state, x, d, order, returning, hostHold, doffHold, timer, withdrawn⟩ := c
  cases order with
  | none => rfl
  | some o => cases o <;> rfl

/-- What the entry to DOFFING leaves of a side (R94). -/
structure EntersDoffing (side : Side) (s t : State) : Prop where
  carriage : t.carriages.get side = (s.carriages.get side).inDoffing s
  queue : t.bus.carriages.get side = if (s.carriages.get side).order = none then s.bus.carriages.get side
    else (s.bus.carriages.get side).append .cancel
  returns : ReturnsToList side s t

/-- What the entry to DOFFING does to each side and to the bus (R94). -/
theorem enterDoffing_sides (s : State) :
    BothSides (fun side => EntersDoffing side s (enterDoffing s)) ∧
    ((enterDoffing s).bus.doffer = if s.doff.ready = true then
        s.bus.doffer.append (.doffGo s.items.sections.a s.items.sections.b)
      else s.bus.doffer) ∧
    (enterDoffing s).bus.train = s.bus.train ∧ (enterDoffing s).bus.cycle = s.bus.cycle ∧
    (enterDoffing s).bus.awaiting = s.bus.awaiting := by
  have hchange := changeFrame_frame s .doffing
  have hcars : (changeFrame .doffing s).carriages = s.carriages := hchange .carriages (by decide)
  have hbus₀ : (changeFrame .doffing s).bus = s.bus := hchange .bus (by decide)
  have hitems : (changeFrame .doffing s).items = s.items := hchange .items (by decide)
  obtain ⟨⟨ha, hb⟩, hd, ht, hcy, haw⟩ := withdrawBoth_sides (changeFrame .doffing s)
  obtain ⟨hlast, hbus⟩ := enterDoffing_after_ready s
  have hside (side : Side) (h : (withdrawForDoff .b (withdrawForDoff .a (changeFrame .doffing s))).carriages.get side =
        ((changeFrame .doffing s).carriages.get side).recalled (changeFrame .doffing s) ∧
      ((withdrawForDoff .b (withdrawForDoff .a (changeFrame .doffing s))).bus.carriages.get side =
        if ((changeFrame .doffing s).carriages.get side).order = none then (changeFrame .doffing s).bus.carriages.get side
        else ((changeFrame .doffing s).bus.carriages.get side).append .cancel) ∧
      ReturnsToList side (changeFrame .doffing s) (withdrawForDoff .b (withdrawForDoff .a (changeFrame .doffing s)))) :
      EntersDoffing side s (enterDoffing s) := by
    obtain ⟨hcar, hqueue, hret⟩ := h
    have hrecalled : ((changeFrame .doffing s).carriages.get side).recalled (changeFrame .doffing s) =
        (s.carriages.get side).recalled s := by
      rw [hcars]
      simp only [Carriage.recalled, Carriage.cancelled, hitems]
    refine ⟨?_, ?_, ?_⟩
    · rw [show (enterDoffing s).carriages = (readyToDoff s).carriages from hlast .carriages (by decide),
        ← Carriage.recalled_held, ← hrecalled, ← hcar]
      exact setDoffHolds_get _ side
    · rw [hbus, ← hbus₀, ← hcars]
      exact hqueue
    · refine (hret.from_same (hchange.tableSame side) (by rw [hcars])).to_same ?_
      exact ⟨congrArg (·.get side) (hlast .spindles (by decide)), congrArg (·.get side) (hlast .breakList (by decide)),
        by rw [hbus]; rfl⟩
  refine ⟨⟨hside .a ha, hside .b hb⟩, ?_, ?_, ?_, ?_⟩
  · rw [hbus]
    have hdoffer : (readyToDoff s).bus.doffer = s.bus.doffer := hd.trans (by rw [hbus₀])
    rw [← hdoffer]
  · rw [hbus]
    exact ht.trans (by rw [hbus₀])
  · rw [hbus]
    exact hcy.trans (by rw [hbus₀])
  · rw [hbus]
    exact haw.trans (by rw [hbus₀])

theorem frameHalt_of_stopping (body : List Byte) {s : State} (h : s.doff.frame = .doffStopping) :
    frameHalt body s = ⟨enterDoffing s, .ok, [5#8]⟩ := by
  have hcontent : frameContent (enterDoffing s) = [5#8] := by
    rw [frameContent_eq, enterDoffing_doff]
    split <;> rfl
  rw [← hcontent]
  unfold frameHalt
  rw [h]
  rfl

/-- Settles O36: the frame state first, then each side's withdrawal and hold, then the doffer. -/
theorem haltInDoffStoppingEntersDoffing : Obligations.HaltInDoffStoppingEntersDoffing := by
  unfold Obligations.HaltInDoffStoppingEntersDoffing
  intro s hs hframe sp
  refine hs.replies (r := ⟨0x19#8, []⟩) rfl rfl fun l s' e =>
    ⟨_, frameHalt_of_stopping [] (by rw [e]; exact hframe), (enterDoffing_frame s').wide, ?_, ?_, ?_, ?_⟩
  · rw [enterDoffing_doff, e]
    by_cases h : s.doff.ready = true
    · rw [if_pos h]
      exact if_pos h
    · rw [if_neg h]
      exact if_neg h
  all_goals
    have hcap : s'.doff.frame.capped = true := by rw [e]; exact congrArg FrameState.capped hframe
    have hchange := changeFrame_frame s' .doffing
    have hready := readyToDoff_after_change s'
    obtain ⟨hlast, hbus⟩ := enterDoffing_after_ready s'
  · have hspeed := changeFrame_speed s' .doffing
    rw [hcap, Bool.true_or, if_pos rfl, e] at hspeed
    rw [show (enterDoffing s').speed = (readyToDoff s').speed from hlast .speed (by decide),
      show (readyToDoff s').speed = (changeFrame .doffing s').speed from hready .speed (by decide), e, hspeed]
    rfl
  · have hraise := changeFrame_lineRaises s' .doffing
    rw [hcap, Bool.true_or, if_pos rfl] at hraise
    have hall := (hraise.next hready).next hlast
    subst e
    exact hall
  · obtain ⟨hsides, hdoffer, hrest⟩ := enterDoffing_sides s'
    have hview (side : Side) (h : EntersDoffing side s' (enterDoffing s')) :
        (enterDoffing s').carriages.get side = (s.carriages.get side).inDoffing s ∧
        ((enterDoffing s').bus.carriages.get side = if (s.carriages.get side).order = none then s.bus.carriages.get side
          else (s.bus.carriages.get side).append .cancel) ∧ ReturnsToList side s (enterDoffing s') := by
      obtain ⟨hcar, hqueue, hret⟩ := h
      subst e
      exact ⟨hcar, hqueue, hret.from_same ((setLine_frame s _).tableSame side) rfl⟩
    refine ⟨⟨hview .a hsides.1, hview .b hsides.2⟩, ?_⟩
    rw [hdoffer]
    subst e
    exact ⟨rfl, hrest⟩

end Sys2Proof.Machine
end

