-- ==== Sys2Proof/Proofs/Exchange.lean ====
section
/-!
PROOFS. The split and its credits, the article exchange (O34), and the completion of a doff (O38).
-/
namespace Sys2Proof.Machine

-- One after another: each theorem as a task of its own takes a thread.
set_option Elab.async false

/-! ## The split -/

/-- The lengths credited by a split now fit their widths. -/
def RunsFit (s : State) : Prop := ∀ side,
  (s.shift.live.sides.get side).run + openSum (s.spindles.get side) s.flmm < 2 ^ 64 ∧
    (s.shift.live.sides.get side).mass + openSum (s.spindles.get side) s.flmm * s.articles.active.tex100 < 2 ^ 64

theorem CreditsFit.runsFit {s : State} (h : CreditsFit s) : RunsFit s := by
  obtain ⟨⟨_, ha⟩, _, hb⟩ := h
  intro side
  cases side
  · exact ha
  · exact hb

/-- Of the shift, only run lengths and masses change. -/
structure BooksKept (s t : State) : Prop where
  possible : ∀ side, (t.shift.live.sides.get side).possible = (s.shift.live.sides.get side).possible
  counts : ∀ side, (t.shift.live.sides.get side).counts = (s.shift.live.sides.get side).counts
  exchanges : t.shift.live.exchanges = s.shift.live.exchanges
  doffs : t.shift.live.doffs = s.shift.live.doffs
  marker : t.shift.live.marker = s.shift.live.marker
  marks : t.shift.marks = s.shift.marks
  history : t.shift.history = s.shift.history
  seq : t.shift.seq = s.shift.seq

section
variable {s t u : State}

theorem BooksKept.trans (h1 : BooksKept s t) (h2 : BooksKept t u) : BooksKept s u where
  possible side := (h2.possible side).trans (h1.possible side)
  counts side := (h2.counts side).trans (h1.counts side)
  exchanges := h2.exchanges.trans h1.exchanges
  doffs := h2.doffs.trans h1.doffs
  marker := h2.marker.trans h1.marker
  marks := h2.marks.trans h1.marks
  history := h2.history.trans h1.history
  seq := h2.seq.trans h1.seq

theorem BooksKept.of_shift (h : t.shift = s.shift) : BooksKept s t := by
  constructor <;> simp [h]

end

/-- A split closes each interval at the length in force and credits the sum of each side (R26). -/
theorem splitSide_credits {s : State} {side : Side}
    (hrun : (s.shift.live.sides.get side).run + openSum (s.spindles.get side) s.flmm < 2 ^ 64)
    (hmass : (s.shift.live.sides.get side).mass + openSum (s.spindles.get side) s.flmm * s.articles.active.tex100 < 2 ^ 64) :
    (splitSide side s).spindles.get side = (s.spindles.get side).map (·.close s.articles.active s.flmm) ∧
      Credited side (openSum (s.spindles.get side) s.flmm) s (splitSide side s) :=
  ⟨Sides.get_modify_same _ _ _, creditRun_credited side _ (s.setSpindles _) hrun hmass⟩

theorem splitSide_otherSide (side : Side) (s : State) : OtherSideSame side s (splitSide side s) := by
  intro sd hsd
  simp [splitSide, creditRun, Sides.get_modify_other _ _ _ _ hsd]

theorem split_credits {s : State} (h : RunsFit s) (side : Side) :
    (split s).spindles.get side = (s.spindles.get side).map (·.close s.articles.active s.flmm) ∧
      Credited side (openSum (s.spindles.get side) s.flmm) s (split s) := by
  have ha := splitSide_otherSide .a s
  have hb := splitSide_otherSide .b (splitSide .a s)
  obtain ⟨hrun, hmass⟩ := h side
  cases side with
  | a =>
    obtain ⟨hsp, hcr⟩ := splitSide_credits hrun hmass
    obtain ⟨hspb, -, -, -, -, -, hshb, -⟩ := hb .a (by decide)
    refine ⟨hspb.trans hsp, ?_⟩
    unfold Credited at hcr ⊢
    rw [show (split s).shift.live.sides.get .a = _ from hshb]
    exact hcr
  | b =>
    obtain ⟨hspa, -, -, -, -, -, hsha, -⟩ := ha .b (by decide)
    have hflmm : (splitSide .a s).flmm = s.flmm := (splitSide_frame .a s).flmm
    have hart : (splitSide .a s).articles = s.articles := splitSide_frame .a s .articles (by decide)
    obtain ⟨hsp, hcr⟩ := splitSide_credits (s := splitSide .a s) (side := .b)
      (by rw [hspa, hsha, hflmm]; exact hrun) (by rw [hspa, hsha, hflmm, hart]; exact hmass)
    rw [hspa, hflmm, hart] at hsp
    rw [hspa, hflmm] at hcr
    refine ⟨hsp, ?_⟩
    unfold Credited at hcr ⊢
    rw [hsha, hart] at hcr
    exact hcr

theorem split_booksKept (s : State) : BooksKept s (split s) := by
  constructor
  case possible => intro side; cases side <;> rfl
  case counts => intro side; cases side <;> rfl
  all_goals rfl

/-! ## Fill and set-point away from the approach -/

section
variable (s : State)

/-- In a frame state that no fill moves, a new fill is kept and the set-point follows it (R11). -/
theorem recomputeFill_of_still (h1 : s.doff.frame ≠ .spinning) (h2 : s.doff.frame ≠ .doffPending) : recomputeFill s =
    if fillOf s = s.speed.fill then s else recomputeSetPoint (s.setSpeed { s.speed with fill := fillOf s }) := by
  unfold recomputeFill
  split
  · rfl
  · exact congrArg _ (judgeFill_of_other h1 h2)

/-- The set-point for the fill of the length as it stands. -/
def filledSetPoint (s : State) : Nat :=
  setPointOf s.articles.active (fillOf s) s.items.speedTrim s.speed.step s.doff.frame

/-- A recomputation of fill and set-point leaves those of the inputs, with SPEED where the set-point differs (R11, R16). -/
theorem refill_moves (h1 : s.doff.frame ≠ .spinning) (h2 : s.doff.frame ≠ .doffPending) :
    OnlyChanges [.speed, .line] s (recomputeSetPoint (recomputeFill s)) ∧
    (recomputeSetPoint (recomputeFill s)).speed = { s.speed with fill := fillOf s, setPoint := filledSetPoint s } ∧
    LineRaises (speedRaised s.speed.setPoint (filledSetPoint s)) s (recomputeSetPoint (recomputeFill s)) := by
  rw [recomputeFill_of_still s h1 h2]
  split
  · next hfill =>
    have hsp : currentSetPoint s = filledSetPoint s := by rw [currentSetPoint, filledSetPoint, hfill]
    rw [← hsp, hfill]
    exact ⟨recomputeSetPoint_frame s, recomputeSetPoint_speed s, recomputeSetPoint_lineRaises s⟩
  · have hframe := recomputeSetPoint_frame (s.setSpeed { s.speed with fill := fillOf s })
    have hspeed := recomputeSetPoint_speed (s.setSpeed { s.speed with fill := fillOf s })
    have hraise : LineRaises (speedRaised s.speed.setPoint (filledSetPoint s)) s _ :=
      recomputeSetPoint_lineRaises (s.setSpeed { s.speed with fill := fillOf s })
    have hall : OnlyChanges [.speed, .line] s _ := (setSpeed_frame s { s.speed with fill := fillOf s }).wide.next hframe
    have hsp : currentSetPoint (recomputeSetPoint (s.setSpeed { s.speed with fill := fillOf s })) =
        (recomputeSetPoint (s.setSpeed { s.speed with fill := fillOf s })).speed.setPoint := by
      have ha : (recomputeSetPoint (s.setSpeed { s.speed with fill := fillOf s })).articles = s.articles :=
        hframe .articles (by decide)
      have hi : (recomputeSetPoint (s.setSpeed { s.speed with fill := fillOf s })).items = s.items :=
        hframe .items (by decide)
      rw [currentSetPoint, ha, hi, recomputeSetPoint_doff, hspeed]
      rfl
    have hagain : recomputeSetPoint (recomputeSetPoint (s.setSpeed { s.speed with fill := fillOf s })) =
        recomputeSetPoint (s.setSpeed { s.speed with fill := fillOf s }) := if_pos hsp
    rw [hagain]
    exact ⟨hall, hspeed, hraise⟩

/-- A recomputation of the fill alone does the same where the set-point was the one of the inputs (R16). -/
theorem recomputeFill_moves_speed (h1 : s.doff.frame ≠ .spinning) (h2 : s.doff.frame ≠ .doffPending)
    (hsp : s.speed.setPoint = currentSetPoint s) :
    OnlyChanges [.speed, .line] s (recomputeFill s) ∧
    (recomputeFill s).speed = { s.speed with fill := fillOf s, setPoint := filledSetPoint s } ∧
    LineRaises (speedRaised s.speed.setPoint (filledSetPoint s)) s (recomputeFill s) := by
  rw [recomputeFill_of_still s h1 h2]
  split
  · next hfill =>
    have hsp' : filledSetPoint s = s.speed.setPoint := by rw [hsp, currentSetPoint, filledSetPoint, hfill]
    rw [hsp', hfill, speedRaised_self]
    exact ⟨.refl _ s, rfl, .of_same rfl⟩
  · exact ⟨(setSpeed_frame s _).wide.next (recomputeSetPoint_frame _), recomputeSetPoint_speed _,
      recomputeSetPoint_lineRaises (s.setSpeed { s.speed with fill := fillOf s })⟩

end

/-! ## Counts of the frame -/

/-- A count of an exchange (R146, R147). -/
theorem countExchange_counts (s : State) :
    (countFrame .exchange s).shift = { s.shift with live := { s.shift.live with
      exchanges := oneMore s.shift.live.exchanges
      marker := s.shift.live.marker || s.shift.live.exchanges == 65534 } } ∧
    LineRaises (if s.shift.live.exchanges = 65534 ∧ s.shift.live.marker = false then [.shiftSaturated] else []) s
      (countFrame .exchange s) := by
  refine ⟨markSaturation_shift _ _, ?_⟩
  unfold countFrame markSaturation LineRaises
  by_cases hlimit : s.shift.live.exchanges = 65534
  · cases hmark : s.shift.live.marker <;> simp [hlimit, hmark, raise_line]
  · simp [hlimit]

/-- A count of a doff (R146, R147). -/
theorem countDoff_counts (s : State) :
    (countFrame .doff s).shift = { s.shift with live := { s.shift.live with
      doffs := oneMore s.shift.live.doffs
      marker := s.shift.live.marker || s.shift.live.doffs == 65534 } } ∧
    LineRaises (if s.shift.live.doffs = 65534 ∧ s.shift.live.marker = false then [.shiftSaturated] else []) s
      (countFrame .doff s) := by
  refine ⟨markSaturation_shift _ _, ?_⟩
  unfold countFrame markSaturation LineRaises
  by_cases hlimit : s.shift.live.doffs = 65534
  · cases hmark : s.shift.live.marker <;> simp [hlimit, hmark, raise_line]
  · simp [hlimit]

/-! ## The exchange -/

/-- The state in which an exchange recomputes the speed: split, with the new article active and g at 0 (R117). -/
def exchanged (a : Article) (s : State) : State :=
  ((split s).setArticles { (split s).articles with
    active := a, staged := some (split s).articles.active, request := false }).setSpeed { (split s).speed with step := 0 }

theorem makeExchange_eq (a : Article) (o : Occasion) (s : State) :
    ∃ v, makeExchange a o s = raise .article ((countFrame .exchange (recomputeSetPoint (recomputeFill (exchanged a s)))).setArticles
      v) := ⟨_, rfl⟩

/-- The set-point after an exchange, with g at 0 (R117). -/
def exchangedSetPoint (a : Article) (s : State) : Nat :=
  setPointOf a (min 1024 ((s.flmm - s.doff.copBase) * 1024 / (a.copLength * 1000))) s.items.speedTrim 0 s.doff.frame

theorem exchanged_frame (a : Article) (s : State) :
    OnlyChanges [.spindles, .speed, .articles, .shift] s (exchanged a s) :=
  ((split_frame s).wide.next (setArticles_frame _ _)).next (setSpeed_frame _ _)

theorem exchanged_active (a : Article) (s : State) : (exchanged a s).articles.active = a := rfl

theorem exchanged_speed (a : Article) (s : State) : (exchanged a s).speed = { s.speed with step := 0 } := rfl

theorem exchanged_fill (a : Article) (s : State) :
    fillOf (exchanged a s) = min 1024 ((s.flmm - s.doff.copBase) * 1024 / (a.copLength * 1000)) := by
  have hdoff : (exchanged a s).doff = s.doff := exchanged_frame a s .doff (by decide)
  rw [fillOf, (exchanged_frame a s).flmm, hdoff, exchanged_active]

theorem exchanged_setPoint (a : Article) (s : State) : filledSetPoint (exchanged a s) = exchangedSetPoint a s := by
  have hdoff : (exchanged a s).doff = s.doff := exchanged_frame a s .doff (by decide)
  have hitems : (exchanged a s).items = s.items := exchanged_frame a s .items (by decide)
  rw [filledSetPoint, exchanged_fill, hdoff, hitems, exchanged_active, exchanged_speed, exchangedSetPoint]

/-- What an exchange leaves, in a frame state that no fill moves (R117). -/
structure Exchanges (a : Article) (s t : State) : Prop where
  frame : OnlyChanges [.spindles, .speed, .articles, .shift, .line] s t
  speed : t.speed = { s.speed with
    fill := min 1024 ((s.flmm - s.doff.copBase) * 1024 / (a.copLength * 1000)), step := 0
    setPoint := exchangedSetPoint a s }
  spindles : ∀ side, t.spindles.get side = (s.spindles.get side).map (·.close s.articles.active s.flmm)
  credited : ∀ side, Credited side (openSum (s.spindles.get side) s.flmm) s t
  possible : ∀ side, (t.shift.live.sides.get side).possible = (s.shift.live.sides.get side).possible
  counts : ∀ side, (t.shift.live.sides.get side).counts = (s.shift.live.sides.get side).counts
  exchanges : t.shift.live.exchanges = oneMore s.shift.live.exchanges
  doffs : t.shift.live.doffs = s.shift.live.doffs
  marker : t.shift.live.marker = (s.shift.live.marker || s.shift.live.exchanges == 65534)
  marks : t.shift.marks = s.shift.marks
  history : t.shift.history = s.shift.history
  seq : t.shift.seq = s.shift.seq
  raises : LineRaises (speedRaised s.speed.setPoint (exchangedSetPoint a s) ++
    (if s.shift.live.exchanges = 65534 ∧ s.shift.live.marker = false then [.shiftSaturated] else []) ++ [.article]) s t

/-- The recomputation, the count and the record of an exchange, from the state with the new article (R117). -/
theorem reckon_exchange {e u : State} {v : ArticleStore} (h1 : e.doff.frame ≠ .spinning)
    (h2 : e.doff.frame ≠ .doffPending)
    (hu : u = raise .article ((countFrame .exchange (recomputeSetPoint (recomputeFill e))).setArticles v)) :
    OnlyChanges [.speed, .articles, .shift, .line] e u ∧
    u.speed = { e.speed with fill := fillOf e, setPoint := filledSetPoint e } ∧
    u.shift = { e.shift with live := { e.shift.live with
      exchanges := oneMore e.shift.live.exchanges
      marker := e.shift.live.marker || e.shift.live.exchanges == 65534 } } ∧
    LineRaises (speedRaised e.speed.setPoint (filledSetPoint e) ++
      (if e.shift.live.exchanges = 65534 ∧ e.shift.live.marker = false then [.shiftSaturated] else []) ++ [.article]) e u := by
  obtain ⟨hf, hs, hl⟩ := refill_moves e h1 h2
  generalize recomputeSetPoint (recomputeFill e) = r at hf hs hl hu
  obtain ⟨hcs, hcl⟩ := countExchange_counts r
  have hcf := countFrame_frame r .exchange
  have hshift : r.shift = e.shift := hf .shift (by decide)
  rw [hshift] at hcs hcl
  generalize countFrame .exchange r = c at hcs hcl hcf hu
  have hus : u.speed = c.speed := by rw [hu]; rfl
  have huh : u.shift = c.shift := by rw [hu]; rfl
  have hcspeed : c.speed = r.speed := hcf .speed (by decide)
  have hraise := ((hl.trans hcl).next (setArticles_frame _ v)).trans (raise_lineRaises .article _)
  rw [← hu] at hraise
  refine ⟨?_, by rw [hus, hcspeed, hs], huh.trans hcs, hraise⟩
  rw [hu]
  exact ((hf.wide.next hcf).next (setArticles_frame _ v)).next (raise_frame _ .article)

theorem makeExchange_exchanges {s : State} (a : Article) (o : Occasion) (h1 : s.doff.frame ≠ .spinning)
    (h2 : s.doff.frame ≠ .doffPending) (hfits : RunsFit s) : Exchanges a s (makeExchange a o s) := by
  obtain ⟨v, hv⟩ := makeExchange_eq a o s
  have hex := exchanged_frame a s
  have hdoff : (exchanged a s).doff = s.doff := hex .doff (by decide)
  obtain ⟨hf, hspeed, hshift, hraise⟩ := reckon_exchange (by rw [hdoff]; exact h1) (by rw [hdoff]; exact h2) hv
  have hspindles : (makeExchange a o s).spindles = (split s).spindles := hf .spindles (by decide)
  have hes : (exchanged a s).shift = (split s).shift := rfl
  have hbooks := split_booksKept s
  rw [hes] at hshift hraise
  rw [exchanged_fill, exchanged_setPoint, exchanged_speed] at hspeed
  rw [exchanged_setPoint, exchanged_speed, hbooks.exchanges, hbooks.marker] at hraise
  refine ⟨hex.wide.next hf, hspeed, fun side => ?_, fun side => ?_, fun side => ?_, fun side => ?_, ?_, ?_, ?_, ?_, ?_, ?_,
    hraise.from_same (hex .line (by decide))⟩
  · rw [hspindles]
    exact (split_credits hfits side).1
  · have h := (split_credits hfits side).2
    unfold Credited at h ⊢
    rw [hshift]
    exact h
  · rw [hshift]
    exact hbooks.possible side
  · rw [hshift]
    exact hbooks.counts side
  · rw [hshift, ← hbooks.exchanges]
  · rw [hshift, ← hbooks.doffs]
  · rw [hshift, ← hbooks.exchanges, ← hbooks.marker]
  · rw [hshift, ← hbooks.marks]
  · rw [hshift, ← hbooks.history]
  · rw [hshift, ← hbooks.seq]

theorem rovingCross_iff (items : Items) (a : Article) :
    rovingCross items a = true ↔ items.rovingThreshold + items.runoutMargin < a.bobbin := by
  rw [rovingCross, decide_eq_true_eq]
  omega

theorem refuseExchange_moves (r : ExchangeReason) (o : Occasion) (s : State) :
    OnlyChanges [.articles, .line] s (refuseExchange r o s) ∧ LineRaises [.article] s (refuseExchange r o s) ∧
      (refuseExchange r o s).articles = { s.articles with request := false, last := some ⟨r, o, s.flmm⟩ } :=
  ⟨refuseExchange_frame s r o, (raise_lineRaises .article _).from_same rfl, rfl⟩

section
variable {s : State} {a : Article} (body : List Byte)

theorem exchangeCheck_of_none (h : s.articles.staged = none) : exchangeCheck s = .error .noStaged := by
  unfold exchangeCheck
  rw [h]

theorem exchangeCheck_of_some (h : s.articles.staged = some a) : exchangeCheck s =
    if s.items.rovingThreshold + s.items.runoutMargin < a.bobbin then .ok a else .error .rovingMismatch := by
  unfold exchangeCheck
  rw [h]
  simp only [← rovingCross_iff]

theorem articleExchange_waits (h : s.doff.frame ≠ .stopped) :
    articleExchange body s = ⟨s.setArticles { s.articles with request := true }, .ok, [1#8]⟩ := by
  unfold articleExchange
  rw [if_neg h]
  rfl

theorem articleExchange_without (h : s.doff.frame = .stopped) (ha : s.articles.staged = none) :
    articleExchange body s = ⟨refuseExchange .noStaged .request s, .refusedState, [1#8]⟩ := by
  unfold articleExchange
  rw [if_pos h, exchangeCheck_of_none ha]
  rfl

theorem articleExchange_mismatch (h : s.doff.frame = .stopped) (ha : s.articles.staged = some a)
    (hx : a.bobbin ≤ s.items.rovingThreshold + s.items.runoutMargin) :
    articleExchange body s = ⟨refuseExchange .rovingMismatch .request s, .badValue, [2#8]⟩ := by
  unfold articleExchange
  rw [if_pos h, exchangeCheck_of_some ha, if_neg (by omega)]
  rfl

theorem articleExchange_made (h : s.doff.frame = .stopped) (ha : s.articles.staged = some a)
    (hx : s.items.rovingThreshold + s.items.runoutMargin < a.bobbin) :
    articleExchange body s = ⟨makeExchange a .request s, .ok, [0#8]⟩ := by
  unfold articleExchange
  rw [if_pos h, exchangeCheck_of_some ha, if_pos hx]
  rfl

end

/-- Settles O34: the frame state first, then the staged article and its cross check, then the exchange. -/
theorem exchangeIsAttempted : Obligations.ExchangeIsAttempted := by
  unfold Obligations.ExchangeIsAttempted
  refine fun s hs => ⟨fun hframe => ?_, fun hframe hnone => ?_, fun a hframe hsome hx => ?_, fun a hframe hsome hx hfits => ?_⟩
  · exact hs.replies (r := ⟨0x12#8, []⟩) rfl rfl fun l s' e =>
      ⟨_, articleExchange_waits [] (by rw [e]; exact hframe), setArticles_frame s' _, by rw [e]; rfl⟩
  · refine hs.replies (r := ⟨0x12#8, []⟩) rfl rfl fun l s' e =>
      ⟨_, articleExchange_without [] (by rw [e]; exact hframe) (by rw [e]; exact hnone), ?_⟩
    obtain ⟨hf, hl, ha⟩ := refuseExchange_moves .noStaged .request s'
    exact ⟨hf, hl, ha.trans (by rw [e]; rfl)⟩
  · refine hs.replies (r := ⟨0x12#8, []⟩) rfl rfl fun l s' e =>
      ⟨_, articleExchange_mismatch (a := a) [] (by rw [e]; exact hframe) (by rw [e]; exact hsome) (by rw [e]; exact hx), ?_⟩
    obtain ⟨hf, hl, ha⟩ := refuseExchange_moves .rovingMismatch .request s'
    exact ⟨hf, hl, ha.trans (by rw [e]; rfl)⟩
  · intro f sp
    refine hs.replies (r := ⟨0x12#8, []⟩) rfl rfl fun l s' e =>
      ⟨_, articleExchange_made (a := a) [] (by rw [e]; exact hframe) (by rw [e]; exact hsome) (by rw [e]; exact hx), ?_⟩
    have hframe' : s'.doff.frame = .stopped := by rw [e]; exact hframe
    have hfits' : RunsFit s' := by
      rw [e]
      exact hfits.runsFit
    have hmade := makeExchange_exchanges a .request (by simp [hframe']) (by simp [hframe']) hfits'
    have hart := makeExchange_articles s' a .request
    have hsp : exchangedSetPoint a s' = sp := by
      rw [exchangedSetPoint, hframe', e]
      rfl
    obtain ⟨hf, hspeed, hspindles, hcred, hposs, hcounts, hex, hdoffs, hmark, hmarks, hhist, hseq, hraise⟩ := hmade
    rw [hsp] at hspeed hraise
    have hraise' := hraise.congr (ds := speedRaised s'.speed.setPoint sp ++ [.article] ++
      if s'.shift.live.exchanges = 65534 ∧ s'.shift.live.marker = false then [.shiftSaturated] else []) fun c => by
        simp only [List.mem_append]
        tauto
    subst e
    exact ⟨hf, hart, hspeed, ⟨⟨hspindles .a, hcred .a, hposs .a, hcounts .a⟩, hspindles .b, hcred .b, hposs .b, hcounts .b⟩,
      hex, hdoffs, hmark, hmarks, hhist, hseq, hraise'⟩

end Sys2Proof.Machine
end

