-- ==== Sys2Proof/Proofs/RovingRun.lean ====
section
/-!
PROOFS. The roving run: its start, its abort and the slot timer, and what the train's NEXT, SKIPPED and PRESENT do
(chapter 7).
-/
namespace Sys2Proof.Machine

-- One after another: each theorem as a task of its own takes a thread.
set_option Elab.async false

/-! ## The slot spindle goes back to its segment -/

/-- A spindle put at the head or the tail of a segment. -/
def putAt (atHead : Bool) (x : SpRef) (l : List SpRef) : List SpRef := if atHead = true then x :: l else l ++ [x]

/-- The slot emptied, its spindle put where its state places it (R128). -/
def Roving.takenBack (r : Roving) (atHead : Bool) (x : SpRef) (found : Option Spindle) : Roving :=
  { r with
    slot := none
    timer := none
    urgent := if found.any (·.state = .waitRoving) then putAt atHead x r.urgent else r.urgent
    low := if found.any (fun sp => sp.state ≠ .waitRoving ∧ sp.state ≠ .parked) then putAt atHead x r.low else r.low }

/-- Taking back the slot spindle writes the roving record alone. -/
theorem takeBack_eq (atHead : Bool) (x : SpRef) (s : State) :
    returnToRovingList atHead x (emptySlot s) =
      s.setRoving (s.roving.takenBack atHead x (s.spindle x.side x.pos)) := by
  unfold returnToRovingList
  rw [show (emptySlot s).spindle x.side x.pos = s.spindle x.side x.pos from rfl]
  cases s.spindle x.side x.pos with
  | none => rfl
  | some sp =>
    obtain ⟨state⟩ := sp
    cases state <;> rfl

/-! ## The ends of a run -/

/-- A run end stands in the roving record and raises ROVING_RUN_END (R136). -/
theorem endRun_lineRaises (reason : EndReason) (s : State) : LineRaises [.rovingRunEnd] s (endRun reason s) :=
  raise_lineRaises .rovingRunEnd _

/-- Whether the ending test ends the run (R136). -/
def Roving.ends (r : Roving) : Bool := r.run == .ending || (r.run == .active && r.current == some 0)

/-- The roving record after the ending test (R136). -/
def Roving.tested (r : Roving) : Roving :=
  { r with
    run := if r.ends = true then .idle else r.run
    reason := if r.run = .ending then some .aborted else if r.ends = true then some .count else r.reason }

theorem Roving.tested_of_going {r : Roving} (h : r.ends = false) (hrun : r.run ≠ .ending) : r = r.tested := by
  simp [Roving.tested, h, hrun]

/-- What the ending test does: a run that ends has its reason and raises ROVING_RUN_END. -/
theorem endingTest_moves (s : State) :
    (endingTest s).roving = s.roving.tested ∧
      LineRaises (if s.roving.ends = true then [.rovingRunEnd] else []) s (endingTest s) := by
  cases hrun : s.roving.run with
  | idle =>
    have htest : endingTest s = s := by simp [endingTest, hrun]
    have hends : s.roving.ends = false := by simp [Roving.ends, hrun]
    rw [htest, hends, ← Roving.tested_of_going hends (by simp [hrun])]
    exact ⟨rfl, .of_same rfl⟩
  | ending =>
    have htest : endingTest s = endRun .aborted s := by simp [endingTest, hrun]
    have hends : s.roving.ends = true := by simp [Roving.ends, hrun]
    rw [htest, if_pos hends]
    exact ⟨by simp [endRun_roving, Roving.tested, hends, hrun], endRun_lineRaises .aborted s⟩
  | active =>
    by_cases hcur : s.roving.current = some 0
    · have htest : endingTest s = endRun .count s := by simp [endingTest, hrun, hcur]
      have hends : s.roving.ends = true := by simp [Roving.ends, hrun, hcur]
      rw [htest, if_pos hends]
      exact ⟨by simp [endRun_roving, Roving.tested, hends, hrun], endRun_lineRaises .count s⟩
    · have htest : endingTest s = s := by simp [endingTest, hrun, hcur]
      have hends : s.roving.ends = false := by simp [Roving.ends, hrun, hcur]
      rw [htest, hends, ← Roving.tested_of_going hends (by simp [hrun])]
      exact ⟨rfl, .of_same rfl⟩

/-! ## O52: the run is started and ended -/

theorem runContent_eq (s : State) : runContent s = [BitVec.ofNat 8 s.roving.run.code] :=
  field_one _ (by cases s.roving.run <;> decide)

theorem rovingRunStart_eq (b : Byte) (s : State) : rovingRunStart [b] s =
    if b.toNat < 1 ∨ 240 < b.toNat then Handled.refuse s .badValue
    else if s.roving.run ≠ .idle then Handled.refuse s .refusedState
    else if s.bus.train.link.status ≠ .answering then Handled.refuse s .notPresent
    else ⟨s.setRoving { s.roving with run := .active, base := some b.toNat, current := some b.toNat, reason := none },
      .ok, [1#8]⟩ := by
  have hlink : (!s.bus.train.link.present) = true ↔ s.bus.train.link.status ≠ .answering := by
    simp [Link.present]
  simp only [← ite_cond_congr (propext hlink), rovingRunStart, Handled.ok, runContent_eq]
  rfl

/-- The state after the slot timer's expiry, with the slot spindle taken back to the head (R137). -/
theorem slotTimeout_of_running {s : State} {x : SpRef} {secs : Nat} (hx : s.roving.slot = some x)
    (ht : s.roving.timer = some secs) : slotTimeout s =
      if s.roving.run = .ending ∨ s.roving.current = some 0 then
        endRun .timeout (s.setRoving (s.roving.takenBack true x (s.spindle x.side x.pos)))
      else s.setRoving (s.roving.takenBack true x (s.spindle x.side x.pos)) := by
  simp only [slotTimeout, hx, ht, takeBack_eq]
  rfl

theorem slotTimeout_of_idle {s : State} (h : s.roving.slot = none ∨ s.roving.timer = none) : slotTimeout s = s := by
  unfold slotTimeout
  split
  · next hx ht => simp [hx, ht] at h
  · rfl

/-- Settles O52: each request by the run state, and the timer by whether the run has to end. -/
theorem rovingRunIsStartedAndEnded : Obligations.RovingRunIsStartedAndEnded := by
  unfold Obligations.RovingRunIsStartedAndEnded
  refine ⟨fun s b hs => ?_, fun s hs => ?_, fun s h => congrArg _ (slotTimeout_of_idle h), fun s x secs hx ht => ?_⟩
  · have hrefuse (res : Result) (howner : ∀ l s', s' = s.setLine { s.line with holding := l } →
        rovingRunStart [b] s' = Handled.refuse s' res) : Refuses (.rovingRunStart [b]) s res 0 :=
      hs.refuses (r := ⟨0x38#8, [b]⟩) rfl rfl (by omega) howner
    by_cases hb : b.toNat < 1 ∨ 240 < b.toNat
    · rw [if_pos hb]
      exact hrefuse _ fun l s' e => by rw [rovingRunStart_eq, if_pos hb]
    rw [if_neg hb]
    by_cases hrun : s.roving.run ≠ .idle
    · rw [if_pos hrun]
      exact hrefuse _ fun l s' e => by rw [rovingRunStart_eq, if_neg hb, if_pos (by rw [e]; exact hrun)]
    rw [if_neg hrun]
    by_cases hlink : s.bus.train.link.status ≠ .answering
    · rw [if_pos hlink]
      exact hrefuse _ fun l s' e => by
        rw [rovingRunStart_eq, if_neg hb, if_neg (by rw [e]; exact hrun), if_pos (by rw [e]; exact hlink)]
    rw [if_neg hlink]
    refine hs.replies (r := ⟨0x38#8, [b]⟩) rfl rfl fun l s' e =>
      ⟨s'.setRoving { s'.roving with run := .active, base := some b.toNat, current := some b.toNat, reason := none }, ?_,
        setRoving_frame s' _, by rw [e]; rfl⟩
    rw [rovingRunStart_eq, if_neg hb, if_neg (by rw [e]; exact hrun), if_neg (by rw [e]; exact hlink)]
  · cases hrun : s.roving.run with
    | idle =>
      refine hs.refuses (r := ⟨0x39#8, []⟩) rfl rfl (by omega) fun l s' e => ?_
      simp [rovingRunAbort, show s'.roving.run = .idle by rw [e]; exact hrun]
    | ending =>
      refine hs.replies (r := ⟨0x39#8, []⟩) rfl rfl fun l s' e => ⟨s', ?_, rfl⟩
      have hrun' : s'.roving.run = .ending := by rw [e]; exact hrun
      simp only [rovingRunAbort, hrun', Handled.ok, runContent_eq]
      rfl
    | active =>
      dsimp only
      split
      · next hslot =>
        refine hs.replies (r := ⟨0x39#8, []⟩) rfl rfl fun l s' e =>
          ⟨endRun .aborted s', ?_, endRun_frame s' .aborted, endRun_lineRaises .aborted s', ?_⟩
        · have hrun' : s'.roving.run = .active := by rw [e]; exact hrun
          have hslot' : s'.roving.slot = none := by rw [e]; exact hslot
          simp only [rovingRunAbort, hrun', hslot', Handled.ok, runContent_eq]
          rfl
        · rw [endRun_roving, e]
          rfl
      · next hslot =>
        refine hs.replies (r := ⟨0x39#8, []⟩) rfl rfl fun l s' e =>
          ⟨s'.setRoving { s'.roving with run := .ending }, ?_, setRoving_frame s' _, by rw [e]; rfl⟩
        have hrun' : s'.roving.run = .active := by rw [e]; exact hrun
        have hslot' : s'.roving.slot.isSome = true := by rw [e]; exact Option.isSome_iff_ne_none.2 hslot
        simp only [rovingRunAbort, hrun', hslot', Handled.ok, runContent_eq]
        rfl
  · refine ⟨_, congrArg Host.Outcome.next (slotTimeout_of_running hx ht), ?_⟩
    by_cases h : s.roving.run = .ending ∨ s.roving.current = some 0
    · have hb : (s.roving.run == .ending || s.roving.current == some 0) = true := by simpa using h
      rw [if_pos h, hb]
      exact ⟨(setRoving_frame s _).wide.next (endRun_frame _ .timeout), endRun_lineRaises .timeout _, rfl⟩
    · have hb : (s.roving.run == .ending || s.roving.current == some 0) = false := by simpa using h
      rw [if_neg h, hb]
      exact ⟨(setRoving_frame s _).wide, .of_same rfl, rfl⟩

/-! ## O53: what the train is answered -/

/-- The position handed out from the head of the list (R132). -/
def handOut (x : SpRef) (urgent low : List SpRef) (s : State) : State :=
  sendTrain (.position x.side x.pos) (s.setRoving { s.roving with
    urgent := urgent, low := low, slot := some x, timer := some s.items.slotTimeout,
    current := s.roving.current.map (· - 1) })

theorem trainNext_of_waiting {s : State} (hrun : s.roving.run = .active) (hslot : s.roving.slot = none) {x : SpRef}
    {rest : List SpRef} (hl : s.roving.urgent ++ s.roving.low = x :: rest) :
    ∃ low, trainNext s = handOut x s.roving.urgent.tail low s ∧ s.roving.urgent.tail ++ low = rest := by
  cases hu : s.roving.urgent with
  | nil =>
    rw [hu, List.nil_append] at hl
    exact ⟨rest, by simp [trainNext, handOut, hrun, hslot, hu, hl], rfl⟩
  | cons y ys =>
    rw [hu, List.cons_append, List.cons.injEq] at hl
    obtain ⟨rfl, hrest⟩ := hl
    exact ⟨s.roving.low, by simp [trainNext, handOut, hrun, hslot, hu], hrest⟩

theorem trainNext_of_no_run {s : State} (h : s.roving.run ≠ .active) : trainNext s = sendTrain .noPosition s := by
  unfold trainNext
  cases hrun : s.roving.run with
  | active => exact absurd hrun h
  | idle | ending => rfl

/-- The slot spindle taken back with the ending test (R135, R140). -/
theorem takeBack_tested (atHead : Bool) (x : SpRef) (s : State) {t : State}
    (ht : t = endingTest (returnToRovingList atHead x (emptySlot s))) :
    OnlyChanges [.roving, .line] s t ∧ LineRaises (if s.roving.ends = true then [.rovingRunEnd] else []) s t ∧
    t.roving = (s.roving.takenBack atHead x (s.spindle x.side x.pos)).tested := by
  rw [takeBack_eq] at ht
  obtain ⟨hroving, hline⟩ := endingTest_moves (s.setRoving (s.roving.takenBack atHead x (s.spindle x.side x.pos)))
  rw [ht]
  exact ⟨(setRoving_frame s _).wide.next (endingTest_frame _), hline, hroving⟩

/-- Settles O53: NEXT by the run state, the slot and the lists; SKIPPED and PRESENT take the slot spindle back. -/
theorem trainIsAnswered : Obligations.TrainIsAnswered := by
  unfold Obligations.TrainIsAnswered
  intro sent emptied
  refine ⟨fun s => ⟨trainNext_frame s |>.wide, fun h => ?_, fun h hx => ?_, fun h hx hl => ?_, fun x rest h hx hl => ?_⟩,
    fun s side pos => ⟨fun h => ?_, fun h => if_neg h⟩, fun s => ⟨fun h => ?_, fun x h => ?_⟩⟩
  · rw [show trainReport .next s = _ from trainNext_of_no_run h]
    exact ⟨rfl, rfl, .of_same rfl⟩
  · obtain ⟨x, hx⟩ := Option.isSome_iff_exists.1 hx
    rw [show trainReport .next s = sendTrain .wait s by simp [trainReport, trainNext, h, hx]]
    exact ⟨rfl, rfl, .of_same rfl⟩
  · obtain ⟨hu, hlow⟩ := List.append_eq_nil_iff.1 hl
    rw [show trainReport .next s = endRun .empty (sendTrain .noPosition s) by
      simp [trainReport, trainNext, h, hx, hu, hlow]]
    exact ⟨rfl, endRun_lineRaises .empty _, rfl⟩
  · obtain ⟨low, ht, hrest⟩ := trainNext_of_waiting h hx hl
    rw [show trainReport .next s = _ from ht]
    exact ⟨rfl, .of_same rfl, rfl, hrest, rfl, rfl, rfl, h, rfl, rfl⟩
  · exact takeBack_tested false ⟨side, pos⟩ s (if_pos h)
  · simp [trainReport, trainPresent, h]
  · exact takeBack_tested true x s (by simp [trainReport, trainPresent, h])

end Sys2Proof.Machine
end

