-- ==== Sys2Proof/Proofs/Joins.lean ====
section
/-!
PROOFS. A spindle that joins the tail of its break list, with the sequence it takes (R50 to R52), and the closing of one
run interval with its credits (R25).
-/
namespace Sys2Proof.Machine

-- One after another: each theorem as a task of its own takes a thread.
set_option Elab.async false

/-! ## The sequences that a join finds -/

section
variable {side : Side} {pos : Nat} {s s' t u : State}

/-- Up to a sequence that is present there is it and those below it. -/
theorem countP_upTo {l : List Spindle} {q : Nat} (hone : (l.filterMap (·.seq)).Nodup) (hq : q ∈ l.filterMap (·.seq)) :
    l.countP (fun r => r.seq.any (· ≤ q)) = rankOf l q := by
  have hsplit (l : List Spindle) : l.countP (fun r => r.seq.any (· ≤ q)) =
      l.countP (fun r => r.seq == some q) + l.countP (·.below q) := by
    induction l with
    | nil => rfl
    | cons sp l ih =>
      simp only [List.countP_cons, ih, Spindle.below]
      cases h : sp.seq with
      | none => simp
      | some r =>
        rcases Nat.lt_trichotomy r q with hr | hr | hr
        · simp [hr, hr.le, hr.ne]
          omega
        · subst hr
          simp
          omega
        · simp [hr.not_ge, hr.ne', hr.not_gt]
  have hcount : l.countP (fun r => r.seq == some q) = 1 := by
    rw [← List.count_filterMap]
    exact List.count_eq_one_of_mem hone hq
  rw [hsplit, hcount, rankOf_eq]

/-- The counter after it has been advanced (R50, R51). -/
theorem advanceSeq_breakSeq (side : Side) (s : State) :
    (advanceSeq side s).breakSeq.get side = counterFound s side + 1 := by
  unfold advanceSeq counterFound
  dsimp only
  split
  · simp [renumber]
  · simp

/-- The records after the counter has been advanced: renumbered where it stood at its limit (R51). -/
theorem advanceSeq_asFound (h : s.Queued side) (p : Nat) :
    (advanceSeq side s).spindle side p = (s.spindle side p).map (asFound s side) := by
  unfold advanceSeq
  dsimp only
  split
  · next hlimit =>
    have htable : (renumber side s).spindle side p = (s.spindle side p).map fun sp =>
        { sp with seq := sp.seq.map (rankOf (s.spindles.get side)) } := by
      unfold State.spindle renumber
      split
      · rfl
      · simp
    refine Eq.trans htable (Option.map_congr fun sp hsp => ?_)
    have hseq : sp.seq.map (rankOf (s.spindles.get side)) =
        sp.seq.map fun q => (s.spindles.get side).countP fun r => r.seq.any (· ≤ q) := by
      refine Option.map_congr fun q hq => (countP_upTo (nodup_seqs_iff.2 h.unique) ?_).symm
      exact List.mem_filterMap.2 ⟨sp, State.mem_of_spindle hsp, hq⟩
    rw [asFound, if_pos hlimit, hseq]
  · next hlimit =>
    have hid : asFound s side = id := funext fun sp => if_neg hlimit
    rw [hid, Option.map_id]
    rfl

/-- No sequence that a join finds is above the counter that it finds. -/
theorem asFound_le_counter (h : s.Queued side) {p q : Nat} {sp : Spindle} (hsp : s.spindle side p = some sp)
    (hq : (asFound s side sp).seq = some q) : q ≤ counterFound s side := by
  unfold asFound at hq
  unfold counterFound
  split at hq
  · next hlimit =>
    rw [if_pos hlimit]
    obtain ⟨k, -, rfl⟩ := Option.map_eq_some_iff.1 hq
    exact List.countP_mono_left fun r _ hr => by cases hs : r.seq <;> simp [hs] at hr ⊢
  · next hlimit =>
    rw [if_neg hlimit]
    exact (h.bounds p sp.state q (by rw [State.queueView_of_some hsp, ← hq]; rfl)).2

theorem asFound_clamp (s : State) (side : Side) (sp : Spindle) : (asFound s side sp).clamp = sp.clamp := by
  unfold asFound
  split <;> rfl

theorem asFound_state (s : State) (side : Side) (sp : Spindle) : (asFound s side sp).state = sp.state := by
  unfold asFound
  split <;> rfl

/-- A spindle that is not BROKEN joins the tail of its list with the next sequence of its side (R50, R52). -/
theorem joinBreakList_joins {old new : Spindle} {c : Cause} (h : s.Queued side) (hold : s.spindle side pos = some old)
    (hst : old.state ≠ .broken) :
    JoinsList side pos { new with cause := some c } s (joinBreakList side pos c new s) := by
  have hcur : (advanceSeq side s).spindle side pos = some (asFound s side old) := by
    rw [advanceSeq_asFound h, hold]
    rfl
  have hframe := advanceSeq_frame side s
  have hlist : (advanceSeq side s).breakList = s.breakList := hframe .breakList (by decide)
  have hbus : (advanceSeq side s).bus = s.bus := hframe .bus (by decide)
  have hseq := advanceSeq_breakSeq side s
  have hpos : 1 ≤ pos := (State.spindle_isSome_iff.1 (by rw [hold]; rfl : (s.spindle side pos).isSome = true)).1
  unfold joinBreakList
  dsimp only
  rw [hseq]
  generalize hnew : ({ new with
    state := .broken, marker := none, seq := some (counterFound s side + 1), cause := some c
    lockCause := none } : Spindle) = rec'
  have hrec := writeSpindle_recordBecomes side pos rec' hcur
  obtain ⟨hsame, hother, hboards⟩ := hrec
  have hbroken : rec'.state = .broken := by rw [← hnew]
  refine ⟨?_, ?_, ?_, fun p hp => ?_, ?_⟩
  · rw [writeSpindle_breakSeq, hseq]
  · have htable : ((advanceSeq side s).spindles.get side).set (pos - 1) { rec' with clamp := rec'.state.clamp } =
        (writeSpindle side pos rec' (advanceSeq side s)).spindles.get side := by
      rw [writeSpindle_spindles side pos rec' _ _ hcur, Sides.get_set_same]
    rw [writeSpindle_breakList side pos rec' hcur, Sides.get_modify_same, hlist, htable]
    unfold syncBreakList
    rw [if_neg (by rw [asFound_state, hbroken]; exact hst), if_pos hbroken]
    refine insertByKey_last _ _ _ fun p hp => ?_
    obtain ⟨q, hq⟩ := (h.broken p).1 hp
    obtain ⟨sp, hsp, hshown⟩ := State.queueView_eq_some.1 hq
    have hne : p ≠ pos := by
      rintro rfl
      rw [hold, Option.some.injEq] at hsp
      exact hst (hsp ▸ congrArg Prod.fst hshown)
    have htop : seqAt ((writeSpindle side pos rec' (advanceSeq side s)).spindles.get side) pos =
        counterFound s side + 1 := by
      rw [seqAt_eq_key _ _ hpos, QueueView.key, State.queueView_of_some hsame, ← hnew]
      rfl
    have hlow : seqAt ((writeSpindle side pos rec' (advanceSeq side s)).spindles.get side) p =
        (asFound s side sp).seq.getD 0 := by
      rw [seqAt_eq_key _ _ (h.pos_of_mem hp), QueueView.key,
        State.queueView_of_some ((hother p hne).trans ((advanceSeq_asFound h p).trans (by rw [hsp]; rfl)))]
      rfl
    rw [htop, hlow]
    cases hs : (asFound s side sp).seq with
    | none => simp
    | some k => exact (asFound_le_counter h hsp hs).trans (Nat.le_succ _)
  · rw [hsame, hbroken, ← hnew]
    rfl
  · rw [hother p hp, advanceSeq_asFound h]
  · rw [hboards, hcur, hold, hbroken, hbus]
    simp only [Option.any_some, asFound_clamp]
    rw [holdClamp_boards_congr (s := s) (t := advanceSeq side s) (by rw [hbus])]
    rfl

/-! ## A join after a step that leaves the sequences -/

theorem counterFound_congr (hseq : (t.spindles.get side).map (·.seq) = (s.spindles.get side).map (·.seq))
    (htop : t.breakSeq.get side = s.breakSeq.get side) : counterFound t side = counterFound s side := by
  have hcount := congrArg (List.countP Option.isSome) hseq
  rw [List.countP_map, List.countP_map] at hcount
  unfold counterFound
  rw [htop]
  congr 1

theorem asFound_congr (hseq : (t.spindles.get side).map (·.seq) = (s.spindles.get side).map (·.seq))
    (htop : t.breakSeq.get side = s.breakSeq.get side) : asFound t side = asFound s side := by
  funext sp
  have hcount (q : Nat) : (t.spindles.get side).countP (fun r => r.seq.any (· ≤ q)) =
      (s.spindles.get side).countP fun r => r.seq.any (· ≤ q) := by
    have := congrArg (List.countP fun x : Option Nat => x.any (· ≤ q)) hseq
    rw [List.countP_map, List.countP_map] at this
    exact this
  unfold asFound
  rw [htop]
  simp only [hcount]

/-- Before the join only the record of its position changes, not its sequence or clamp. -/
theorem JoinsList.from_record {new : Spindle} (h : JoinsList side pos new s' t)
    (hseq : (s'.spindles.get side).map (·.seq) = (s.spindles.get side).map (·.seq))
    (htop : s'.breakSeq.get side = s.breakSeq.get side) (hlist : s'.breakList.get side = s.breakList.get side)
    (hother : ∀ p, p ≠ pos → s'.spindle side p = s.spindle side p)
    (hclamp : (s'.spindle side pos).map (·.clamp) = (s.spindle side pos).map (·.clamp))
    (hboards : s'.bus.boards.get side = s.bus.boards.get side) : JoinsList side pos new s t := by
  obtain ⟨h1, h2, h3, h4, h5⟩ := h
  rw [counterFound_congr hseq htop] at h1 h3
  rw [asFound_congr hseq htop] at h4
  refine ⟨h1, by rw [h2, hlist], h3, fun p hp => by rw [h4 p hp, hother p hp], ?_⟩
  have hany : (s'.spindle side pos).any (fun sp => decide (sp.clamp = .closed)) =
      (s.spindle side pos).any fun sp => decide (sp.clamp = .closed) := by
    have := congrArg (Option.any fun c : Clamp => decide (c = .closed)) hclamp
    rwa [Option.any_map, Option.any_map] at this
  rw [h5, hany, hboards, holdClamp_boards_congr hboards]

theorem JoinsList.from_same {new : Spindle} (h : JoinsList side pos new s' t)
    (hs : s'.spindles.get side = s.spindles.get side) (htop : s'.breakSeq.get side = s.breakSeq.get side)
    (hlist : s'.breakList.get side = s.breakList.get side)
    (hboards : s'.bus.boards.get side = s.bus.boards.get side) : JoinsList side pos new s t :=
  h.from_record (by rw [hs]) htop hlist (fun p _ => State.spindle_congr hs p) (by rw [State.spindle_congr hs]) hboards

theorem JoinsList.next {new : Spindle} {ps : List Part} (h : JoinsList side pos new s t) (hf : OnlyChanges ps t u)
    (hspindles : Part.spindles ∉ ps := by decide) (hlist : Part.breakList ∉ ps := by decide)
    (hseq : Part.breakSeq ∉ ps := by decide) (hbus : Part.bus ∉ ps := by decide) : JoinsList side pos new s u := by
  obtain ⟨h1, h2, h3, h4, h5⟩ := h
  have hsp : u.spindles.get side = t.spindles.get side := congrArg (·.get side) (hf .spindles hspindles)
  refine ⟨?_, ?_, ?_, fun p hp => ?_, ?_⟩
  · rw [show u.breakSeq = t.breakSeq from hf .breakSeq hseq, h1]
  · rw [show u.breakList = t.breakList from hf .breakList hlist, h2]
  · rw [State.spindle_congr hsp, h3]
  · rw [State.spindle_congr hsp, h4 p hp]
  · rw [show u.bus = t.bus from hf .bus hbus, h5]

end

/-! ## One interval closed -/

section
variable {side : Side} {pos : Nat} {s : State} {sp : Spindle}

theorem ClampLaw.clamp (h : ClampLaw s) (hsp : s.spindle side pos = some sp) : sp.clamp = sp.state.clamp := by
  have hrange : pos ∈ List.range' 1 (s.spindles.get side).length := by
    have := State.spindle_isSome_iff.1 (by rw [hsp]; rfl : (s.spindle side pos).isSome = true)
    exact List.mem_range'_1.2 (by omega)
  have hone : sp.clamp = .opened ↔ sp.state = .running ∨ sp.state = .piecing := by
    cases side
    · exact h.1 pos hrange sp hsp
    · exact h.2 pos hrange sp hsp
  cases hst : sp.state <;> cases hc : sp.clamp <;> simp [hst, hc, SpState.clamp] at hone ⊢

theorem State.getElem?_of_spindle (h : s.spindle side pos = some sp) : (s.spindles.get side)[pos - 1]? = some sp := by
  unfold State.spindle at h
  split at h
  · cases h
  · exact h

/-- One open interval is part of the sum of its side. -/
theorem openLength_le_openSum (x : Nat) (h : s.spindle side pos = some sp) :
    sp.openLength x ≤ openSum (s.spindles.get side) x :=
  List.single_le_sum (fun _ _ => Nat.zero_le _) _ (List.mem_map.2 ⟨sp, State.mem_of_spindle h, rfl⟩)

/-- The open interval of a spindle, where it has one, is closed: its record and its side's lengths change, and nothing
else (R25). -/
structure ClosesInterval (side : Side) (pos : Nat) (sp : Spindle) (s t : State) : Prop where
  frame : OnlyChanges [.spindles, .shift] s t
  other : OtherSideSame side s t
  books : BooksKept s t
  tallies : Tallies side [] [] (sp.openLength s.flmm) s t
  record : t.spindle side pos = some (sp.close s.articles.active s.flmm)
  others : ∀ p, p ≠ pos → t.spindle side p = s.spindle side p
  shown : (t.spindles.get side).map (·.shown) = (s.spindles.get side).map (·.shown)

theorem close_clamp (art : Article) (x : Nat) (sp : Spindle) : (sp.close art x).clamp = sp.clamp := by
  unfold Spindle.close
  split <;> rfl

/-- The closing of an interval leaves what the break list sees. -/
theorem close_shown (art : Article) (x : Nat) (sp : Spindle) : (sp.close art x).shown = sp.shown := by
  unfold Spindle.close
  split <;> rfl

theorem close_state (art : Article) (x : Nat) (sp : Spindle) : (sp.close art x).state = sp.state := by
  unfold Spindle.close
  split <;> rfl

theorem creditRun_books (side : Side) (dl : Nat) (s : State) : BooksKept s (creditRun side dl s) := by
  constructor
  case possible =>
    intro sd
    by_cases h : sd = side
    · subst h
      simp [creditRun]
    · simp [creditRun, Sides.get_modify_other _ _ _ _ h]
  case counts =>
    intro sd
    by_cases h : sd = side
    · subst h
      simp [creditRun]
    · simp [creditRun, Sides.get_modify_other _ _ _ _ h]
  all_goals rfl

theorem creditRun_otherSide (side : Side) (dl : Nat) (s : State) : OtherSideSame side s (creditRun side dl s) :=
  fun sd hsd => by simp [creditRun, Sides.get_modify_other _ _ _ _ hsd]

/-- A length credited where it fits, with no count and no class. -/
theorem creditRun_tallies {side : Side} {dl : Nat} {s : State} (hrun : (s.shift.live.sides.get side).run + dl < 2 ^ 64)
    (hmass : (s.shift.live.sides.get side).mass + dl * s.articles.active.tex100 < 2 ^ 64) :
    Tallies side [] [] dl s (creditRun side dl s) where
  credited := creditRun_credited side dl s hrun hmass
  counted := by
    obtain ⟨hposs, hcounts, hex, hdoffs, hmark, hmarks, hhist, hseq⟩ := creditRun_books side dl s
    exact ⟨fun f => by rw [hcounts]; simp, by simp [hmark], hposs side, hdoffs, hex, hmarks, hhist, hseq⟩
  raises := by
    rw [saturates_nil]
    exact .of_same rfl

/-- A write that keeps the state, where the clamp follows it, changes the record alone. -/
theorem writeSpindle_still {new : Spindle} (h : s.spindle side pos = some sp) (hst : new.state = sp.state)
    (hclamp : sp.clamp = sp.state.clamp) : OnlyChanges [.spindles] s (writeSpindle side pos new s) := by
  have hbus := writeSpindle_bus side pos new h
  rw [if_pos (by rw [hst, hclamp])] at hbus
  have hlist : (writeSpindle side pos new s).breakList = s.breakList := by
    rw [writeSpindle_breakList side pos new h]
    exact sidesModify_of_fixed (if_pos hst.symm)
  intro p hp
  by_cases hb : p = .bus
  · subst hb
    exact hbus
  by_cases hl : p = .breakList
  · subst hl
    exact hlist
  exact writeSpindle_frame side pos s new p (by simp_all)

theorem openLength_of_not_running (x : Nat) (hst : sp.state ≠ .running) : sp.openLength x = 0 := by
  unfold Spindle.openLength
  split
  · next hrun _ => exact absurd hrun hst
  · rfl

theorem closeInterval_of_not_running (h : s.spindle side pos = some sp) (hst : sp.state ≠ .running) :
    closeInterval side pos s = s := by simp [closeInterval, h, hst]

/-- The interval is closed where its lengths fit their widths. -/
theorem closeInterval_closes (h : s.spindle side pos = some sp) (hclamp : sp.clamp = sp.state.clamp)
    (hrun : (s.shift.live.sides.get side).run + sp.openLength s.flmm < 2 ^ 64)
    (hmass : (s.shift.live.sides.get side).mass + sp.openLength s.flmm * s.articles.active.tex100 < 2 ^ 64) :
    ClosesInterval side pos sp s (closeInterval side pos s) := by
  by_cases hst : sp.state = .running
  case neg =>
    rw [closeInterval_of_not_running h hst]
    refine ⟨.refl _ s, .refl side s, .of_shift rfl, ?_, by rw [h, Spindle.close, if_neg hst], fun _ _ => rfl, rfl⟩
    rw [openLength_of_not_running _ hst]
    exact .refl side s
  have hsame : ({ sp.close s.articles.active s.flmm with
      clamp := (sp.close s.articles.active s.flmm).state.clamp } : Spindle) = sp.close s.articles.active s.flmm := by
    rw [close_state, ← hclamp, ← close_clamp s.articles.active s.flmm sp]
  have hwrite := writeSpindle_still h (close_state s.articles.active s.flmm sp) hclamp
  have hshift : (writeSpindle side pos (sp.close s.articles.active s.flmm) s).shift = s.shift := hwrite .shift (by decide)
  have hart : (writeSpindle side pos (sp.close s.articles.active s.flmm) s).articles = s.articles :=
    hwrite .articles (by decide)
  rw [closeInterval_of_running h hst]
  have hcredit := creditRun_frame side (writeSpindle side pos (sp.close s.articles.active s.flmm) s) (sp.openLength s.flmm)
  refine ⟨hwrite.wide.next hcredit, (writeSpindle_otherSide side pos _ s).trans (creditRun_otherSide side _ _),
    (BooksKept.of_shift hshift).trans (creditRun_books side _ _), ?_, ?_, ?_, ?_⟩
  · refine (creditRun_tallies ?_ ?_).after hwrite
    · rw [hshift]
      exact hrun
    · rw [hshift, hart]
      exact hmass
  · exact (writeSpindle_same side pos _ s sp h).trans (congrArg some hsame)
  · exact fun p hp => writeSpindle_other side pos _ s side p fun e => hp e.2
  · change ((writeSpindle side pos (sp.close s.articles.active s.flmm) s).spindles.get side).map (·.shown) = _
    rw [writeSpindle_spindles side pos _ s sp h, Sides.get_set_same, hsame, List.map_set, close_shown]
    have hget : ((s.spindles.get side).map (·.shown))[pos - 1]? = some sp.shown := by
      rw [List.getElem?_map, State.getElem?_of_spindle h]
      rfl
    obtain ⟨hi, he⟩ := List.getElem?_eq_some_iff.1 hget
    rw [← he, List.set_getElem_self]

/-- One interval of a side whose sums fit. -/
theorem closeInterval_closes_of_laws (h : s.spindle side pos = some sp) (hclamp : ClampLaw s) (hfits : RunsFit s) :
    ClosesInterval side pos sp s (closeInterval side pos s) := by
  have hle := openLength_le_openSum s.flmm h
  obtain ⟨hrun, hmass⟩ := hfits side
  exact closeInterval_closes h (hclamp.clamp h) ((Nat.add_le_add_left hle _).trans_lt hrun)
    ((Nat.add_le_add_left (Nat.mul_le_mul_right _ hle) _).trans_lt hmass)

theorem ClosesInterval.seqs {t : State} (h : ClosesInterval side pos sp s t) :
    (t.spindles.get side).map (·.seq) = (s.spindles.get side).map (·.seq) := by
  have hseqs := congrArg (List.map Prod.snd) h.shown
  rw [List.map_map, List.map_map] at hseqs
  exact hseqs

/-- The break list sees nothing of the closing. -/
theorem ClosesInterval.queued {t : State} (h : ClosesInterval side pos sp s t) (hq : s.Queued side) : t.Queued side := by
  have hview : t.queueView side = s.queueView side := by
    funext p
    unfold State.queueView State.spindle
    split
    · rfl
    · rw [← List.getElem?_map, h.shown, List.getElem?_map]
  unfold State.Queued
  rw [hview, show t.breakList = s.breakList from h.frame .breakList (by decide),
    show t.breakSeq = s.breakSeq from h.frame .breakSeq (by decide)]
  exact hq

theorem ClosesInterval.lockedCount {t : State} (h : ClosesInterval side pos sp s t) :
    Machine.lockedCount t = Machine.lockedCount s := by
  have hone (sd : Side) : (t.spindles.get sd).countP (·.state == .locked) = (s.spindles.get sd).countP (·.state == .locked) := by
    by_cases hsd : sd = side
    · subst hsd
      have hcount := congrArg (List.countP fun x : SpState × Option Nat => x.1 == .locked) h.shown
      rwa [List.countP_map, List.countP_map] at hcount
    · rw [(h.other sd hsd).1]
  exact congrArg₂ (· + ·) (hone .a) (hone .b)

/-- A join of the spindle whose interval has just been closed. -/
theorem ClosesInterval.joins {t u : State} {new : Spindle} (h : ClosesInterval side pos sp s t)
    (hsp : s.spindle side pos = some sp) (hjoin : JoinsList side pos new t u) : JoinsList side pos new s u := by
  have hclamp : (t.spindle side pos).map (·.clamp) = (s.spindle side pos).map (·.clamp) := by
    rw [h.record, hsp]
    exact congrArg some (close_clamp _ _ sp)
  exact hjoin.from_record h.seqs (congrArg (·.get side) (h.frame .breakSeq (by decide)))
    (congrArg (·.get side) (h.frame .breakList (by decide))) h.others hclamp
    (congrArg (fun b : Bus => b.boards.get side) (h.frame .bus (by decide)))

/-- A write of the record whose interval has just been closed. -/
theorem ClosesInterval.becomes {t u : State} {new : Spindle} (h : ClosesInterval side pos sp s t)
    (hsp : s.spindle side pos = some sp) (hrec : RecordBecomes side pos new t u) : RecordBecomes side pos new s u := by
  obtain ⟨hnew, hother, hboards⟩ := hrec
  have hb : t.bus.boards.get side = s.bus.boards.get side :=
    congrArg (fun b : Bus => b.boards.get side) (h.frame .bus (by decide))
  refine ⟨hnew, fun p hp => (hother p hp).trans (h.others p hp), ?_⟩
  rw [hboards, h.record, hsp, hb, holdClamp_boards_congr hb]
  simp only [Option.any_some, close_clamp]

end

end Sys2Proof.Machine
end

