-- ==== Sys2Proof/Proofs/Spindles.lean ====
section
/-!
PROOFS. The spindle requests (O41 to O43) and YARN_LOST (O44).
-/
namespace Sys2Proof.Machine

-- One after another: each theorem as a task of its own takes a thread.
set_option Elab.async false

/-! ## The spindle a request names, and the state it shows -/

section
variable {side : Side} {pos : Nat} {s : State} {sp : Spindle} {body : List Byte}

theorem namedSpindle_of_spindle (hside : sideAt body 0 = some side) (h : s.spindle side (numAt body 1 2) = some sp) :
    namedSpindle body s = some (side, numAt body 1 2, sp) := by
  unfold namedSpindle
  rw [hside]
  simp [h]

theorem namedSpindle_of_none (h : ∀ side, sideAt body 0 = some side → s.spindle side (numAt body 1 2) = none) :
    namedSpindle body s = none := by
  unfold namedSpindle
  split
  · next side hside => simp [h side hside]
  · rfl

theorem spindleStateContent_of_fitted (h : (s.spindle side pos).isSome) :
    spindleStateContent side pos s = [BitVec.ofNat 8 (stateCodeAt s ⟨side, pos⟩)] := by
  obtain ⟨sp, hsp⟩ := Option.isSome_iff_exists.1 h
  simp only [spindleStateContent, stateCodeAt, hsp]
  exact field_one _ (by cases sp.state <;> decide)

theorem dispatchTest_isSome (h : (s.spindle side pos).isSome) : ((dispatchTest side s).spindle side pos).isSome := by
  obtain ⟨sp, hsp⟩ := Option.isSome_iff_exists.1 h
  obtain ⟨cur, hcur, -⟩ := (dispatchTest_records (x := 0) (cap := 0) (side := side) (s := s)).exists_of_old hsp
  rw [hcur]
  rfl

theorem JoinsList.isSome {new : Spindle} {t : State} (h : JoinsList side pos new s t) : (t.spindle side pos).isSome := by
  obtain ⟨-, -, hrec, -⟩ := h
  rw [hrec]
  rfl

end

/-! ## O42: a PARKED or LOCKED spindle joins the tail of its list -/

section
variable {side : Side} {pos : Nat} {s : State} {sp : Spindle}

theorem creditPossible_otherSide (side : Side) (s : State) : OtherSideSame side s (creditPossible side s) :=
  fun sd hsd => by simp [creditPossible, Sides.get_modify_other _ _ _ _ hsd, Sides.get_set_other _ _ _ _ hsd]

/-- A credit of possible length that fits its width (R149). -/
theorem creditPossible_shift (h : possibleNow s side < 2 ^ 64) : (creditPossible side s).shift = { s.shift with
    marks := s.shift.marks.set side s.flmm
    live := { s.shift.live with
      sides := s.shift.live.sides.modify side fun r => { r with possible := possibleNow s side } } } := by
  have hadd : add64 (s.shift.live.sides.get side).possible ((s.flmm - s.shift.marks.get side) * inService s side) =
      possibleNow s side := add64_exact _ _ h
  cases side <;> simpa [creditPossible, Sides.modify, Sides.get, Sides.set] using hadd

theorem CreditsFit.possible (h : CreditsFit s) (side : Side) : possibleNow s side < 2 ^ 64 := by
  cases side
  · exact h.1.1
  · exact h.2.1

/-- Settles O42: the record joins the list, and the reply shows what the dispatch test leaves of it. -/
theorem unparkAndReleaseJoinTheList : Obligations.UnparkAndReleaseJoinTheList := by
  unfold Obligations.UnparkAndReleaseJoinTheList
  refine ⟨fun s body side sp hs hside hsp => ⟨fun hst => ?_, fun hst hlaw hfits => ?_⟩,
    fun s body side sp hs hside hsp => ⟨fun hst => ?_, fun hst hlaw => ?_⟩, fun s body i hi hs hnone => ?_⟩
  · refine hs.refuses (r := ⟨0x22#8, body⟩) rfl rfl (by omega) fun l s' e => ?_
    have hsp' : s'.spindle side (numAt body 1 2) = some sp := by rw [e]; exact hsp
    simp [spindleUnpark, namedSpindle_of_spindle hside hsp', hst]
  · refine hs.replies (r := ⟨0x22#8, body⟩) rfl rfl fun l s' e => ?_
    have hsp' : s'.spindle side (numAt body 1 2) = some sp := by rw [e]; exact hsp
    have hq : (creditPossible side s').Queued side := by
      rw [e]
      exact (breakLaw_iff s).1 hlaw side
    have hroom : possibleNow s' side < 2 ^ 64 := by
      rw [e]
      exact hfits.possible side
    have hjoin : JoinsList side (numAt body 1 2) { sp with cause := some .release, attempts := 0 } s' _ :=
      (joinBreakList_joins (new := { sp with attempts := 0 }) (c := .release) hq hsp' (by simp [hst])).from_same
        rfl rfl rfl rfl
    have hframe := joinBreakList_frame side (numAt body 1 2) (creditPossible side s') .release { sp with attempts := 0 }
    refine ⟨dispatchTest side (joinBreakList side (numAt body 1 2) .release { sp with attempts := 0 }
      (creditPossible side s')), ?_, _, rfl, (creditPossible_frame side s').wide.next hframe,
      (creditPossible_otherSide side s').trans (joinBreakList_otherSide side _ _ _ _), hjoin, ?_⟩
    · rw [← spindleStateContent_of_fitted (dispatchTest_isSome hjoin.isSome)]
      simp [spindleUnpark, namedSpindle_of_spindle hside hsp', hst, Handled.ok]
    · rw [hframe .shift (by decide), creditPossible_shift hroom, e]
      rfl
  · refine hs.refuses (r := ⟨0x23#8, body⟩) rfl rfl (by omega) fun l s' e => ?_
    have hsp' : s'.spindle side (numAt body 1 2) = some sp := by rw [e]; exact hsp
    simp [spindleRelease, namedSpindle_of_spindle hside hsp', hst]
  · refine hs.replies (r := ⟨0x23#8, body⟩) rfl rfl fun l s' e => ?_
    have hsp' : s'.spindle side (numAt body 1 2) = some sp := by rw [e]; exact hsp
    have hq : s'.Queued side := by
      rw [e]
      exact (breakLaw_iff s).1 hlaw side
    have hjoin := joinBreakList_joins (new := { sp with attempts := 0, stamps := [], rogueUnlocked := false })
      (c := .release) hq hsp' (by simp [hst])
    refine ⟨dispatchTest side (joinBreakList side (numAt body 1 2) .release
      { sp with attempts := 0, stamps := [], rogueUnlocked := false } s'), ?_, _, rfl, joinBreakList_frame side _ s' _ _,
      joinBreakList_otherSide side _ _ _ s', hjoin⟩
    rw [← spindleStateContent_of_fitted (dispatchTest_isSome hjoin.isSome)]
    simp [spindleRelease, namedSpindle_of_spindle hside hsp', hst, Handled.ok]
  · have hno (s' : State) (l : List HeldRequest) (e : s' = s.setLine { s.line with holding := l }) :
        namedSpindle body s' = none := namedSpindle_of_none fun side h => by rw [e]; exact hnone side h
    rcases hi with rfl | rfl
    · exact hs.refuses (r := ⟨0x22#8, body⟩) rfl rfl (by omega) fun l s' e => by simp [spindleUnpark, hno s' l e]
    · exact hs.refuses (r := ⟨0x23#8, body⟩) rfl rfl (by omega) fun l s' e => by simp [spindleRelease, hno s' l e]

end

/-! ## O44: a break -/

section
variable {side : Side} {pos dl : Nat} {fs ds : List SideFigure} {cs : List PendClass} {s t u : State} {sp c : Spindle}

/-- The order in which figures are counted does not matter. -/
theorem Tallies.congr (h : Tallies side fs cs dl s t) (hmem : ∀ f, f ∈ fs ↔ f ∈ ds) : Tallies side ds cs dl s t := by
  obtain ⟨hcr, ⟨hget, hmark, hrest⟩, hraise⟩ := h
  have hany (P : SideFigure → Bool) : fs.any P = ds.any P := by
    rw [Bool.eq_iff_iff, List.any_eq_true, List.any_eq_true]
    exact exists_congr fun f => and_congr_left' (hmem f)
  have hsat : saturates side fs s = saturates side ds s := by rw [saturates, saturates, hany]
  refine ⟨hcr, ⟨fun f => ?_, by rw [hmark, hany], hrest⟩, hsat ▸ hraise⟩
  rw [hget f, if_congr (hmem f) rfl rfl]

/-- What a break leaves of its side, its bus entries and the rest of the state. -/
structure Breaks (side : Side) (fs : List SideFigure) (cs : List PendClass) (dl : Nat) (s t : State) : Prop where
  frame : OnlyChanges [.spindles, .breakList, .breakSeq, .speed, .roving, .shift, .bus, .line] s t
  other : OtherSideSame side s t
  tallies : Tallies side fs cs dl s t
  boards : BoardsOnly s t

theorem ClosesInterval.breaks (h : ClosesInterval side pos sp s t) : Breaks side [] [] (sp.openLength s.flmm) s t :=
  ⟨h.frame.wide, h.other, h.tallies, h.frame.boardsOnly⟩

theorem Breaks.next {ps : List Part} (h : Breaks side fs cs dl s t) (hf : OnlyChanges ps t u)
    (hother : OtherSideSame side t u) (hboards : BoardsOnly t u)
    (hps : ps ⊆ [.spindles, .breakList, .breakSeq, .speed, .roving, .shift, .bus, .line] := by decide)
    (hshift : Part.shift ∉ ps := by decide) (hline : Part.line ∉ ps := by decide) : Breaks side fs cs dl s u :=
  ⟨h.frame.next hf hps, h.other.trans hother, h.tallies.next hf hshift hline, h.boards.trans hboards⟩

theorem Breaks.count (f : SideFigure) (h : Breaks side fs cs dl s t) (hf : f ∉ fs := by decide) :
    Breaks side (fs ++ [f]) cs dl s (countSide side f t) :=
  ⟨h.frame.next (countSide_frame side t f), h.other.trans (countSide_otherSide side f t), h.tallies.count hf,
    h.boards.trans (countSide_frame side t f).boardsOnly⟩

theorem Breaks.raise (c : PendClass) (h : Breaks side fs cs dl s t) : Breaks side fs (cs ++ [c]) dl s (raise c t) :=
  ⟨h.frame.next (raise_frame t c), h.other.trans ((raise_frame t c).otherSide side), h.tallies.raise c,
    h.boards.trans (raise_frame t c).boardsOnly⟩

theorem Breaks.write (new : Spindle) (h : Breaks side fs cs dl s t) : Breaks side fs cs dl s (writeSpindle side pos new t) :=
  h.next (writeSpindle_frame side pos t new) (writeSpindle_otherSide side pos new t) (writeSpindle_boardsOnly side pos new t)

theorem Breaks.join (cause : Cause) (new : Spindle) (h : Breaks side fs cs dl s t) :
    Breaks side fs cs dl s (joinBreakList side pos cause new t) :=
  h.next (joinBreakList_frame side pos t cause new) (joinBreakList_otherSide side pos cause new t)
    ((advanceSeq_frame side t).boardsOnly.trans (writeSpindle_boardsOnly side pos _ _))

theorem Breaks.governor (h : Breaks side fs cs dl s t) : Breaks side fs cs dl s (countGovernor t) :=
  h.next (countGovernor_frame t) ((countGovernor_frame t).otherSide side) (countGovernor_frame t).boardsOnly

theorem ne_test {α : Type} [DecidableEq α] (x : α) : (fun y : α => y != x) = fun y => decide (y ≠ x) := by
  funext y
  rw [bne, beq_eq_decide, decide_not]

theorem addStamp_eq (x : Nat) (l : List Nat) : addStamp x l = if l.getLast? = some x then l
    else (if l.length < 15 then l else l.drop (l.length - 14)) ++ [x] := by
  unfold addStamp
  split
  · rfl
  · split
    · next h => rw [if_neg (by omega)]
    · next h => rw [if_pos (by omega)]

theorem runOut_iff : runOut s sp = true ↔ ∃ r ∈ sp.roving, r ≤ s.items.runoutMargin * 1000 := by
  unfold runOut
  cases sp.roving <;> simp

theorem isRogue_iff {items : Items} {x : Nat} {l : List Nat} : isRogue items x l = true ↔
    items.rogueBreaks ≤ l.countP fun t => x ≤ t + items.rogueSpan * 1000 := by simp [isRogue]

/-- YARN_LOST on a RUNNING spindle (R29). -/
theorem yarnLost_of_running (h : s.spindle side pos = some sp) (hst : sp.state = .running)
    (hc : c = sp.close s.articles.active s.flmm) (hu : u = closeInterval side pos s) : yarnLost side pos s =
      if runOut u c = true then takeRunOut side pos c u
      else if u.doff.frame = .startUp then dispatchTest side (takeStartUpBreak side pos c u)
      else dispatchTest side (takeEndBreak side pos c u) := by
  have hart : (closeInterval side pos s).articles = s.articles := closeInterval_frame side pos s .articles (by decide)
  have hx : (closeInterval side pos s).flmm = s.flmm := (closeInterval_frame side pos s).flmm
  subst hu hc
  simp only [yarnLost, h, hst, if_true, hart, hx]

/-- A run-out waits for roving at the urgent tail (R30, R125). -/
theorem takeRunOut_moves (hc : ClosesInterval side pos sp s u) (hsp : s.spindle side pos = some sp)
    (hst : sp.state = .running) (hrec : c = sp.close s.articles.active s.flmm) (ht : t = takeRunOut side pos c u) :
    Breaks side [.rovingOutBreak] [.rovingOut] (sp.openLength s.flmm) s t ∧
    RecordBecomes side pos { c with
      state := .waitRoving, marker := none, clamp := .closed, cause := some .rovingOut, attempts := 0, seq := none } s t ∧
    t.breakList = s.breakList ∧ t.breakSeq = s.breakSeq ∧ t.speed = s.speed ∧
    t.roving = if s.roving.slot = some ⟨side, pos⟩ ∨ (⟨side, pos⟩ : SpRef) ∈ s.roving.urgent then s.roving
      else { s.roving with
        low := s.roving.low.filter (· ≠ ⟨side, pos⟩), urgent := s.roving.urgent ++ [⟨side, pos⟩] } := by
  have hcur : u.spindle side pos = some c := by rw [hrec]; exact hc.record
  have hcst : c.state = .running := by rw [hrec, close_state, hst]
  unfold takeRunOut at ht
  generalize hnew : ({ c with
    state := .waitRoving, marker := none, cause := some .rovingOut, attempts := 0, seq := none } : Spindle) = new at ht
  have hwrite := writeSpindle_frame side pos u new
  have hplace := placeRunOut_frame (writeSpindle side pos new u) ⟨side, pos⟩
  have hafter : OnlyChanges [.roving, .shift, .line] (writeSpindle side pos new u) t := by
    rw [ht]
    exact (hplace.wide.next (raise_frame _ _)).next (countSide_frame side _ _)
  have hwaits : new.state = .waitRoving := by rw [← hnew]
  refine ⟨?_, ?_, ?_, ?_, ?_, ?_⟩
  · rw [ht]
    exact (((hc.breaks.write new).next hplace (hplace.otherSide side) hplace.boardsOnly).raise .rovingOut).count .rovingOutBreak
  · have hbecomes := (writeSpindle_recordBecomes side pos new hcur).then_frame hafter
    rw [hwaits, ← hnew] at hbecomes
    exact hc.becomes hsp hbecomes
  · rw [hafter .breakList (by decide), writeSpindle_breakList_same hcur (by simp [hcst]) (by simp [hwaits])]
    exact hc.frame .breakList (by decide)
  · exact (hafter .breakSeq (by decide)).trans ((hwrite .breakSeq (by decide)).trans (hc.frame .breakSeq (by decide)))
  · exact (hafter .speed (by decide)).trans ((hwrite .speed (by decide)).trans (hc.frame .speed (by decide)))
  · have hroving : (writeSpindle side pos new u).roving = s.roving :=
      (hwrite .roving (by decide)).trans (hc.frame .roving (by decide))
    have ht' : t.roving = (placeRunOut ⟨side, pos⟩ (writeSpindle side pos new u)).roving := by
      rw [ht]
      exact countSide_frame side _ .rovingOutBreak .roving (by decide)
    rw [ht', placeRunOut, hroving]
    split
    · exact hroving
    · rw [ne_test]
      rfl

/-- The speed record after a break that the governor window counts (R17, R36). -/
def State.governed (s : State) : Speed :=
  if s.doff.effective.governor = true then { s.speed with winCount := min 65535 (s.speed.winCount + 1) } else s.speed

theorem countGovernor_speed {s t : State} (hspeed : t.speed = s.speed) (hdoff : t.doff = s.doff) :
    (countGovernor t).speed = s.governed := by
  unfold countGovernor State.governed
  rw [hdoff]
  split
  · exact congrArg (fun v : Speed => { v with winCount := min 65535 (v.winCount + 1) }) hspeed
  · exact hspeed

/-- An END break below the ceiling of locks or short of the rogue test, by R33 and R34. -/
theorem takeEndBreak_moves (hc : ClosesInterval side pos sp s u) (hsp : s.spindle side pos = some sp)
    (hst : sp.state = .running) (hrec : c = sp.close s.articles.active s.flmm) (hq : s.Queued side)
    (hx : u.flmm = s.flmm) (hitems : u.items = s.items) (ht : t = takeEndBreak side pos c u)
    {stamps : List Nat} (hstamps : stamps = addStamp s.flmm sp.stamps) {rogue : Prop}
    (hrogue : rogue ↔ s.items.rogueBreaks ≤ stamps.countP fun x => s.flmm ≤ x + s.items.rogueSpan * 1000) :
    t.roving = s.roving ∧ t.speed = s.governed ∧
    (rogue → lockedCount s < s.items.lockCeiling →
      Breaks side [.endBreak, .rogueLock] [.rogueLock] (sp.openLength s.flmm) s t ∧ t.breakList = s.breakList ∧
      t.breakSeq = s.breakSeq ∧ RecordBecomes side pos { c with
        state := .locked, marker := none, clamp := .closed, seq := none, cause := none
        lockCause := some .rogue, attempts := 0, stamps := stamps, rogueUnlocked := false } s t) ∧
    (rogue → ¬lockedCount s < s.items.lockCeiling →
      Breaks side [.endBreak] [.rogueLock] (sp.openLength s.flmm) s t ∧ JoinsList side pos { c with
        cause := some .endBreak, attempts := 0, stamps := stamps, rogueUnlocked := true } s t) ∧
    (¬rogue → Breaks side [.endBreak] [] (sp.openLength s.flmm) s t ∧
      JoinsList side pos { c with cause := some .endBreak, attempts := 0, stamps := stamps } s t) := by
  have hcur : u.spindle side pos = some c := by rw [hrec]; exact hc.record
  have hcst : c.state = .running := by rw [hrec, close_state, hst]
  have hcstamps : c.stamps = sp.stamps := by
    rw [hrec]
    unfold Spindle.close
    split <;> rfl
  have hqu := hc.queued hq
  have hroom : lockRoom u = true ↔ lockedCount s < s.items.lockCeiling := by
    rw [lockRoom, decide_eq_true_eq, hc.lockedCount, hitems]
  have htest : isRogue u.items u.flmm (addStamp u.flmm c.stamps) = true ↔ rogue := by
    rw [isRogue_iff, hitems, hx, hcstamps, ← hstamps, hrogue]
  have hframe : OnlyChanges [.spindles, .shift] s u := hc.frame
  -- What is left alone by the break before the governor's count.
  have rest {w : State} (hw : OnlyChanges [.spindles, .breakList, .breakSeq, .bus, .shift, .line] u w)
      (htw : t = countGovernor w) : t.roving = s.roving ∧ t.speed = s.governed := by
    rw [htw]
    exact ⟨(countGovernor_frame w .roving (by decide)).trans ((hw .roving (by decide)).trans (hframe .roving (by decide))),
      countGovernor_speed ((hw .speed (by decide)).trans (hframe .speed (by decide)))
        ((hw .doff (by decide)).trans (hframe .doff (by decide)))⟩
  have joins (new : Spindle) : JoinsList side pos { new with cause := some .endBreak } s
      (joinBreakList side pos .endBreak new u) :=
    hc.joins hsp (joinBreakList_joins hqu hcur (by simp [hcst]))
  unfold takeEndBreak at ht
  rw [hx, hcstamps, ← hstamps] at ht htest
  dsimp only at ht
  by_cases hr : rogue
  · rw [if_pos (htest.2 hr)] at ht
    by_cases hl : lockedCount s < s.items.lockCeiling
    · rw [if_pos (hroom.2 hl)] at ht
      unfold lockSpindle at ht
      generalize hnew : (({ c with attempts := 0, stamps := stamps } : Spindle).locked .rogue) = new at ht
      have hlocked : new.state = .locked := by rw [← hnew]; rfl
      have hafter : OnlyChanges [.speed, .shift, .line] (writeSpindle side pos new u) t := by
        rw [ht]
        exact (((raise_frame (writeSpindle side pos new u) .rogueLock).wide.next (countSide_frame side _ .rogueLock)).next
          (countSide_frame side _ .endBreak)).next (countGovernor_frame _)
      have hwrite := writeSpindle_frame side pos u new
      obtain ⟨h1, h2⟩ := rest (((hwrite.wide.next (raise_frame _ .rogueLock)).next
        (countSide_frame side _ .rogueLock)).next (countSide_frame side _ .endBreak)) ht
      refine ⟨h1, h2, fun _ _ => ⟨?_, ?_, ?_, ?_⟩, fun _ h => absurd hl h, fun h => absurd hr h⟩
      · have hall := ((((hc.breaks.write (pos := pos) new).raise .rogueLock).count .rogueLock).count .endBreak).governor
        rw [ht]
        exact ⟨hall.frame, hall.other, hall.tallies.congr fun f => by simp [or_comm], hall.boards⟩
      · rw [hafter .breakList (by decide), writeSpindle_breakList_same hcur (by simp [hcst]) (by simp [hlocked])]
        exact hframe .breakList (by decide)
      · exact (hafter .breakSeq (by decide)).trans ((hwrite .breakSeq (by decide)).trans (hframe .breakSeq (by decide)))
      · have hbecomes := (writeSpindle_recordBecomes side pos new hcur).then_frame hafter
        rw [hlocked, ← hnew] at hbecomes
        exact hc.becomes hsp hbecomes
    · rw [if_neg (mt hroom.1 hl)] at ht
      have hjoin := joins { c with attempts := 0, stamps := stamps, rogueUnlocked := true }
      obtain ⟨h1, h2⟩ := rest (((joinBreakList_frame side pos u .endBreak _).wide.next (raise_frame _ .rogueLock)).next
        (countSide_frame side _ .endBreak)) ht
      refine ⟨h1, h2, fun _ h => absurd h hl, fun _ _ => ?_, fun h => absurd hr h⟩
      rw [ht]
      exact ⟨(((hc.breaks.join .endBreak _).raise .rogueLock).count .endBreak).governor,
        ((hjoin.next (raise_frame _ .rogueLock)).next (countSide_frame side _ .endBreak)).next (countGovernor_frame _)⟩
  · rw [if_neg (mt htest.1 hr)] at ht
    have hjoin := joins { c with attempts := 0, stamps := stamps }
    obtain ⟨h1, h2⟩ := rest ((joinBreakList_frame side pos u .endBreak _).wide.next (countSide_frame side _ .endBreak)) ht
    refine ⟨h1, h2, fun h => absurd h hr, fun h => absurd h hr, fun _ => ?_⟩
    rw [ht]
    exact ⟨((hc.breaks.join .endBreak _).count .endBreak).governor,
      (hjoin.next (countSide_frame side _ .endBreak)).next (countGovernor_frame _)⟩

end

/-- Settles O44: the interval is closed, and the record judged by the run-out margin, the frame state and the rogue
test. -/
theorem yarnLostIsABreak : Obligations.YarnLostIsABreak := by
  unfold Obligations.YarnLostIsABreak
  refine ⟨fun s side pos h => ?_, fun s side pos sp hsp hst hclamp hlaw hfits => ?_⟩
  · unfold yarnLost
    split
    · rfl
    · next sp hsp => exact if_neg (h sp hsp)
  intro c ref stamps rogue changed governor
  obtain ⟨u, hu⟩ : ∃ u, u = closeInterval side pos s := ⟨_, rfl⟩
  have hc : ClosesInterval side pos sp s u := hu ▸ closeInterval_closes_of_laws hsp hclamp hfits.runsFit
  have hitems : u.items = s.items := hc.frame .items (by decide)
  have hdoff : u.doff = s.doff := hc.frame .doff (by decide)
  have hq : s.Queued side := (breakLaw_iff s).1 hlaw side
  have hlost := yarnLost_of_running hsp hst (c := c) rfl hu
  have htaken {fs : List SideFigure} {cs : List PendClass} {v : State}
      (h : Breaks side fs cs (sp.openLength s.flmm) s v) : changed fs cs v := by
    obtain ⟨h1, h2, h3, h4, h5⟩ := h.boards.rest
    exact ⟨h.frame, h.other, h.tallies.credited, h.tallies.counted, h.tallies.raises, h1, h2, h3, h4, h5⟩
  by_cases hout : ∃ r ∈ c.roving, r ≤ s.items.runoutMargin * 1000
  · rw [if_pos hout]
    rw [if_pos (runOut_iff.2 (by rw [hitems]; exact hout))] at hlost
    obtain ⟨h1, h2, h3, h4, h5, h6⟩ := takeRunOut_moves hc hsp hst rfl hlost
    exact ⟨htaken h1, h2, h3, h4, h5, h6⟩
  rw [if_neg hout]
  rw [if_neg (mt runOut_iff.1 (by rw [hitems]; exact hout)), hdoff] at hlost
  by_cases hstart : s.doff.frame = .startUp
  · rw [if_pos hstart] at hlost
    have hjoin : JoinsList side pos { c with cause := some .startUp, attempts := 0 } s _ :=
      hc.joins hsp (joinBreakList_joins (new := { c with attempts := 0 }) (c := .startUp) (hc.queued hq) hc.record
        (by rw [close_state, hst]; decide))
    have hframe := (joinBreakList_frame side pos u .startUp { c with attempts := 0 }).wide.next
      (rs := [.spindles, .breakList, .breakSeq, .bus, .shift, .line]) (countSide_frame side _ .startUpBreak)
    refine ⟨_, hlost, (hframe .roving (by decide)).trans (hc.frame .roving (by decide)), ?_⟩
    rw [if_pos hstart]
    exact ⟨htaken ((hc.breaks.join .startUp _).count .startUpBreak),
      (hframe .speed (by decide)).trans (hc.frame .speed (by decide)), hjoin.next (countSide_frame side _ .startUpBreak)⟩
  · rw [if_neg hstart] at hlost
    obtain ⟨hroving, hspeed, hlocks, hfull, hends⟩ := takeEndBreak_moves hc hsp hst (c := c) rfl hq hc.frame.flmm hitems
      rfl (stamps := stamps) (addStamp_eq s.flmm sp.stamps).symm (rogue := rogue) Iff.rfl
    refine ⟨_, hlost, hroving, ?_⟩
    rw [if_neg hstart]
    by_cases hr : rogue
    · by_cases hl : lockedCount s < s.items.lockCeiling
      · rw [if_pos ⟨hr, hl⟩]
        obtain ⟨h1, h2, h3, h4⟩ := hlocks hr hl
        exact ⟨htaken h1, hspeed, h2, h3, h4⟩
      · rw [if_neg fun h => hl h.2, if_pos hr]
        obtain ⟨h1, h2⟩ := hfull hr hl
        exact ⟨htaken h1, hspeed, h2⟩
    · rw [if_neg fun h => hr h.1, if_neg hr]
      obtain ⟨h1, h2⟩ := hends hr
      exact ⟨htaken h1, hspeed, h2⟩

/-! ## O43: a range is seeded -/

/-- The open interval at a position, 0 where there is none. -/
def lengthAt (s : State) (side : Side) (p : Nat) : Nat := ((s.spindle side p).map (·.openLength s.flmm)).getD 0

/-- The open intervals of the positions from one on. -/
def lengthsFrom (s : State) (side : Side) (first n : Nat) : Nat := ((List.range' first n).map (lengthAt s side)).sum

/-- A record with its interval closed and its figure replaced (R123). -/
def Spindle.seeded (sp : Spindle) (s : State) (metres : Nat) : Spindle :=
  { sp.close s.articles.active s.flmm with roving := some (metres * 1000) }

/-- The positions from one on are seeded, the lengths of their intervals credited, and nothing else changes (R123). -/
structure Seeds (side : Side) (metres first n : Nat) (s t : State) : Prop where
  frame : OnlyChanges [.spindles, .shift] s t
  other : OtherSideSame side s t
  books : BooksKept s t
  records : ∀ p, t.spindle side p =
    if first ≤ p ∧ p < first + n then (s.spindle side p).map (·.seeded s metres) else s.spindle side p
  credited : Credited side (lengthsFrom s side first n) s t

section
variable {side : Side} {pos metres first n : Nat} {s t u : State} {sp : Spindle}

/-- The lengths of some positions fit the run length and the mass of their side. -/
def LengthFits (s : State) (side : Side) (dl : Nat) : Prop :=
  (s.shift.live.sides.get side).run + dl < 2 ^ 64 ∧
    (s.shift.live.sides.get side).mass + dl * s.articles.active.tex100 < 2 ^ 64

theorem lengthsFrom_one (s : State) (side : Side) (p : Nat) : lengthsFrom s side p 1 = lengthAt s side p := by
  simp [lengthsFrom]

theorem Credited.zero_of_shift (h : t.shift = s.shift) : Credited side 0 s t := by simp [Credited, h]

theorem Credited.congr_dl {dl dl' : Nat} (h : Credited side dl s t) (e : dl = dl') : Credited side dl' s t := e ▸ h

theorem Credited.trans {dl dl' : Nat} (h1 : Credited side dl s t) (h2 : Credited side dl' t u)
    (hart : t.articles = s.articles) : Credited side (dl + dl') s u := by
  obtain ⟨a, b⟩ := h1
  obtain ⟨c, d⟩ := h2
  exact ⟨by rw [c, a]; omega, by rw [d, b, hart]; ring⟩

/-- One position is seeded. -/
theorem seedRoving_seeds (h : s.spindle side pos = some sp) (hclamp : sp.clamp = sp.state.clamp)
    (hfit : LengthFits s side (lengthAt s side pos)) : Seeds side metres pos 1 s (seedRoving side metres s pos) := by
  have hlen : lengthAt s side pos = sp.openLength s.flmm := by simp [lengthAt, h]
  obtain ⟨c, hc⟩ : ∃ c, c = sp.close s.articles.active s.flmm := ⟨_, rfl⟩
  have hcc : c.clamp = c.state.clamp := by rw [hc, close_clamp, close_state, hclamp]
  obtain ⟨u, hu⟩ : ∃ u, u = closeInterval side pos s := ⟨_, rfl⟩
  obtain ⟨hrun, hmass⟩ := hlen ▸ hfit
  obtain ⟨hframe, hother, hbooks, ⟨hcredit, -, -⟩, hrec, hothers, -⟩ := hu ▸ closeInterval_closes h hclamp hrun hmass
  rw [← hc] at hrec
  rw [← hlen] at hcredit
  have ht : seedRoving side metres s pos = writeSpindle side pos { c with roving := some (metres * 1000) } u := by
    simp [seedRoving, ← hu, hrec]
  have hwrite := writeSpindle_still (new := { c with roving := some (metres * 1000) }) hrec rfl hcc
  rw [ht]
  refine ⟨hframe.next hwrite, hother.trans (writeSpindle_otherSide side pos _ u),
    hbooks.trans (.of_shift (hwrite .shift (by decide))), fun p => ?_, ?_⟩
  · by_cases hp : p = pos
    · subst hp
      rw [writeSpindle_same side p _ u c hrec, if_pos (by omega), h, ← hcc, hc]
      rfl
    · rw [writeSpindle_other side pos _ u side p fun e => hp e.2, hothers p hp, if_neg (by omega)]
  · rw [lengthsFrom_one]
    exact (hcredit.trans (.zero_of_shift (hwrite .shift (by decide))) (hframe .articles (by decide))).congr_dl
      (Nat.add_zero _)

theorem lengthsFrom_succ (s : State) (side : Side) (first n : Nat) :
    lengthsFrom s side first (n + 1) = lengthAt s side first + lengthsFrom s side (first + 1) n := by
  simp [lengthsFrom, List.range'_succ]

/-- A position seeded before the rest of its range. -/
theorem Seeds.cons (h1 : Seeds side metres first 1 s t) (h2 : Seeds side metres (first + 1) n t u)
    (hlen : lengthsFrom t side (first + 1) n = lengthsFrom s side (first + 1) n) : Seeds side metres first (n + 1) s u where
  frame := h1.frame.next h2.frame
  other := h1.other.trans h2.other
  books := h1.books.trans h2.books
  records p := by
    have hart : t.articles = s.articles := h1.frame .articles (by decide)
    have hseed (sp : Spindle) : sp.seeded t metres = sp.seeded s metres := by
      rw [Spindle.seeded, hart, h1.frame.flmm]
      rfl
    rw [h2.records p, h1.records p]
    by_cases hp : first ≤ p ∧ p < first + 1
    · rw [if_pos hp, if_neg (by omega), if_pos (by omega)]
    · rw [if_neg hp]
      by_cases hp' : first + 1 ≤ p ∧ p < first + 1 + n
      · rw [if_pos hp', if_pos (by omega)]
        exact Option.map_congr fun sp _ => hseed sp
      · rw [if_neg hp', if_neg (by omega)]
  credited := by
    refine (h1.credited.trans h2.credited (h1.frame .articles (by decide))).congr_dl ?_
    rw [hlen, lengthsFrom_one, lengthsFrom_succ]

/-- A range of fitted positions is seeded, one after another. -/
theorem seedRange_seeds (n : Nat) : ∀ (first : Nat) (s : State),
    (∀ p, first ≤ p → p < first + n → ∃ sp, s.spindle side p = some sp ∧ sp.clamp = sp.state.clamp) →
    LengthFits s side (lengthsFrom s side first n) →
    Seeds side metres first n s ((List.range' first n).foldl (seedRoving side metres) s) := by
  induction n with
  | zero =>
    intro first s _ _
    exact ⟨.refl _ s, .refl side s, .of_shift rfl, fun p => by rw [if_neg (by omega)]; rfl, .zero_of_shift rfl⟩
  | succ n ih =>
    intro first s hfitted hfit
    rw [lengthsFrom_succ] at hfit
    obtain ⟨hrun, hmass⟩ := hfit
    obtain ⟨sp, hsp, hclamp⟩ := hfitted first (Nat.le_refl _) (by omega)
    have hone := seedRoving_seeds (metres := metres) hsp hclamp
      ⟨by omega, by rw [Nat.add_mul] at hmass; omega⟩
    have hlater (p : Nat) (hp : first + 1 ≤ p) :
        (seedRoving side metres s first).spindle side p = s.spindle side p := by
      rw [hone.records p, if_neg (by omega)]
    have hlen : lengthsFrom (seedRoving side metres s first) side (first + 1) n = lengthsFrom s side (first + 1) n := by
      refine congrArg List.sum (List.map_congr_left fun p hp => ?_)
      rw [lengthAt, lengthAt, hlater p (List.mem_range'_1.1 hp).1, hone.frame.flmm]
    have hart : (seedRoving side metres s first).articles = s.articles := hone.frame .articles (by decide)
    obtain ⟨hrun', hmass'⟩ := hone.credited
    rw [lengthsFrom_one] at hrun' hmass'
    refine hone.cons (ih (first + 1) _ (fun p hp hlt => ?_) ⟨?_, ?_⟩) hlen
    · rw [hlater p hp]
      exact hfitted p (by omega) (by omega)
    · rw [hlen, hrun']
      omega
    · rw [hlen, hmass', hart]
      rw [Nat.add_mul] at hmass
      omega

/-- The open intervals of a range of positions are those of that part of the table. -/
theorem lengthsFrom_eq_openSum (h : 1 ≤ first) (n : Nat) :
    lengthsFrom s side first n = openSum (((s.spindles.get side).drop (first - 1)).take n) s.flmm := by
  induction n with
  | zero => simp [lengthsFrom, openSum]
  | succ n ih =>
    have hlast : lengthAt s side (first + n) =
        openSum (((s.spindles.get side).drop (first - 1))[n]?.toList) s.flmm := by
      rw [lengthAt, State.spindle, if_neg (by omega), List.getElem?_drop,
        show first - 1 + n = first + n - 1 by omega]
      cases (s.spindles.get side)[first + n - 1]? <;> simp [openSum]
    rw [List.take_add_one, openSum_append, ← ih, ← hlast, lengthsFrom, List.range'_1_concat, List.map_append,
      List.sum_append]
    simp [lengthsFrom]

theorem openSum_part_le (l : List Spindle) (i n x : Nat) : openSum ((l.drop i).take n) x ≤ openSum l x := by
  have hl : openSum l x = openSum (l.take i) x + (openSum ((l.drop i).take n) x + openSum ((l.drop i).drop n) x) := by
    rw [← openSum_append, ← openSum_append, List.take_append_drop, List.take_append_drop]
  omega

theorem fromBytes_lt (l : List Byte) : fromBytes l < 256 ^ l.length := by
  induction l using List.reverseRecOn with
  | nil => decide
  | append_singleton l b ih =>
    rw [fromBytes_append, List.length_append, List.length_singleton, pow_succ]
    have := b.isLt
    omega

theorem numAt_lt (body : List Byte) (i w : Nat) : numAt body i w < 256 ^ w :=
  (fromBytes_lt _).trans_le (Nat.pow_le_pow_right (by decide) (List.length_take_le _ _))

end

/-- Settles O43: the range is seeded from its first position on. -/
theorem setRovingSeedsTheRange : Obligations.SetRovingSeedsTheRange := by
  unfold Obligations.SetRovingSeedsTheRange
  intro s body hs first last metres
  refine ⟨fun hside => ?_, fun side hside hbad => ?_, fun side hside hfirst hlast hle hmetres hclamp hfits => ?_⟩
  · exact hs.refuses (r := ⟨0x24#8, body⟩) rfl rfl (by omega) fun l s' e => by simp [setRoving, hside]
  · refine hs.refuses (r := ⟨0x24#8, body⟩) rfl rfl (by omega) fun l s' e => ?_
    have hno : ¬((s'.spindle side first).isSome ∧ (s'.spindle side last).isSome ∧ first ≤ last ∧
        metres ≤ s'.articles.active.bobbin) := by
      have hspindle (p : Nat) : s'.spindle side p = s.spindle side p := by rw [e]; rfl
      have hart : s'.articles = s.articles := by rw [e]; rfl
      rw [hspindle, hspindle, hart]
      rintro ⟨h1, h2, h3, h4⟩
      rcases hbad with hb | hb | hb | hb
      · simp [hb] at h1
      · simp [hb] at h2
      · omega
      · omega
    simp only [setRoving, hside]
    exact if_neg hno
  · refine hs.replies (r := ⟨0x24#8, body⟩) rfl rfl fun l s' e => ?_
    have hfirst' := (State.spindle_isSome_iff.1 hfirst)
    have hlast' := (State.spindle_isSome_iff.1 hlast)
    have hrange : first + (last + 1 - first) = last + 1 := by omega
    obtain ⟨hrun, hmass⟩ := hfits.runsFit side
    have hpart := openSum_part_le (s.spindles.get side) (first - 1) (last + 1 - first) s.flmm
    have hlen := lengthsFrom_eq_openSum (s := s) (side := side) hfirst'.1 (last + 1 - first)
    have hfit : LengthFits s side (lengthsFrom s side first (last + 1 - first)) := by
      rw [hlen]
      exact ⟨(Nat.add_le_add_left hpart _).trans_lt hrun,
        (Nat.add_le_add_left (Nat.mul_le_mul_right _ hpart) _).trans_lt hmass⟩
    have hfitted (p : Nat) (hp : first ≤ p) (hlt : p < first + (last + 1 - first)) :
        ∃ sp, s.spindle side p = some sp ∧ sp.clamp = sp.state.clamp := by
      obtain ⟨sp, hsp⟩ := Option.isSome_iff_exists.1
        (State.spindle_isSome_iff.2 ⟨by omega, by omega⟩ : (s.spindle side p).isSome = true)
      exact ⟨sp, hsp, hclamp.clamp hsp⟩
    have hseeds := seedRange_seeds (metres := metres) (last + 1 - first) first s'
      (by rw [e]; exact hfitted) (by rw [e]; exact hfit)
    obtain ⟨hframe, hother, hbooks, hrec, hcredit⟩ := hseeds
    have hsmall : last + 1 - first < 256 ^ 2 := by
      have : last < 256 ^ 2 := numAt_lt body 3 2
      omega
    refine ⟨_, ?_, hframe, hother, fun p => ?_, hcredit.congr_dl ?_, ?_⟩
    · have hok : (s'.spindle side first).isSome ∧ (s'.spindle side last).isSome ∧ first ≤ last ∧
          metres ≤ s'.articles.active.bobbin := by
        rw [e]
        exact ⟨hfirst, hlast, hle, hmetres⟩
      simp only [setRoving, hside]
      rw [if_pos hok, field, if_pos hsmall]
      rfl
    · rw [hrec p, hrange]
      subst e
      by_cases hp : first ≤ p ∧ p ≤ last
      · rw [if_pos hp, if_pos (by omega)]
        rfl
      · rw [if_neg hp, if_neg (by omega)]
        rfl
    · rw [← hlen, e]
      rfl
    · obtain ⟨hposs, hcounts, hex, hdoffs, hmark, hmarks, hhist, hseq⟩ := hbooks
      rw [hposs, hcounts, hex, hdoffs, hmark, hmarks, hhist, hseq, e]
      exact ⟨rfl, rfl, rfl, rfl, rfl, rfl, rfl, rfl⟩

/-! ## O41: a spindle is parked -/

section
variable {side : Side} {pos : Nat} {s t u : State} {sp c : Spindle}

/-- The carriage that holds a piece or overtaken order for a parked spindle is withdrawn with CANCEL (R40, R78). -/
theorem withdrawForPark_moves (ht : t = withdrawForPark side pos s) :
    OtherSideSame side s t ∧ TableSame side s t ∧ t.bus.doffer = s.bus.doffer ∧ t.bus.train = s.bus.train ∧
    t.bus.cycle = s.bus.cycle ∧ t.bus.awaiting = s.bus.awaiting ∧
    (if (s.carriages.get side).pieceTarget = some pos then
      t.carriages.get side = (s.carriages.get side).cancelled s (some pos) ∧
      t.bus.carriages.get side = (s.bus.carriages.get side).append .cancel
    else if (s.carriages.get side).overtakenTarget = some pos then
      t.carriages.get side = (s.carriages.get side).cancelled s (s.carriages.get side).withdrawn ∧
      t.bus.carriages.get side = (s.bus.carriages.get side).append .cancel
    else t.carriages.get side = s.carriages.get side ∧ t.bus.carriages.get side = s.bus.carriages.get side) := by
  have hcancel (w : Option Nat) : (cancelOrder side w s).bus.carriages.get side =
      (s.bus.carriages.get side).append .cancel := by simp [cancelOrder_bus]
  unfold withdrawForPark at ht
  dsimp only at ht
  rw [ht]
  split
  · exact ⟨cancelOrder_otherSide side s _, cancelOrder_tableSame side s _ side, rfl, rfl, rfl, rfl,
      cancelOrder_carriage side s _, hcancel _⟩
  · split
    · exact ⟨cancelOrder_otherSide side s _, cancelOrder_tableSame side s _ side, rfl, rfl, rfl, rfl,
        cancelOrder_carriage side s _, hcancel _⟩
    · exact ⟨.refl side s, .refl side s, rfl, rfl, rfl, rfl, rfl, rfl⟩

theorem creditPossible_runMass (side : Side) (s : State) :
    ((creditPossible side s).shift.live.sides.get side).run = (s.shift.live.sides.get side).run ∧
    ((creditPossible side s).shift.live.sides.get side).mass = (s.shift.live.sides.get side).mass ∧
    ((creditPossible side s).shift.live.sides.get side).counts = (s.shift.live.sides.get side).counts := by
  simp [creditPossible]

/-- The break list without a position that leaves BROKEN or was never in the list (R54). -/
theorem syncBreakList_out (hq : s.Queued side) (hsp : s.spindle side pos = some sp) (recs : List Spindle) {st : SpState}
    (hne : sp.state ≠ st) (hnew : st ≠ .broken) :
    syncBreakList recs pos sp.state st (s.breakList.get side) = (s.breakList.get side).filter (· ≠ pos) := by
  unfold syncBreakList
  rw [if_neg hne, if_neg hnew]
  split
  · rw [ne_test]
  · next hst =>
    refine (List.filter_eq_self.2 fun p hp => ?_).symm
    obtain ⟨q, hq⟩ := (hq.broken p).1 hp
    obtain ⟨r, hr, hshown⟩ := State.queueView_eq_some.1 hq
    refine decide_eq_true fun e => hst ?_
    rw [e, hsp, Option.some.injEq] at hr
    exact hr ▸ congrArg Prod.fst hshown

/-- The record of a parked spindle (R41). -/
theorem Spindle.parked_eq (c : Spindle) : ({ c.parked with clamp := c.parked.state.clamp } : Spindle) = { c with
    state := .parked, marker := none, clamp := .closed, seq := none, cause := none, lockCause := none, attempts := 0
    rogueUnlocked := false } := rfl

/-- A park of a spindle that is not PARKED (R41): its side's possible length is credited and its interval closed, what
holds it releases it, and its record is written. -/
theorem parkSpindle_moves (hsp : s.spindle side pos = some sp) (hst : sp.state ≠ .parked) (hclamp : ClampLaw s)
    (hq : s.Queued side) (hfits : CreditsFit s) (hc : c = sp.close s.articles.active s.flmm) (ht : t = parkSpindle side pos s) :
    OtherSideSame side s t ∧ RecordBecomes side pos { c with
      state := .parked, marker := none, clamp := .closed, seq := none, cause := none, lockCause := none, attempts := 0
      rogueUnlocked := false } s t ∧
    t.breakList.get side = (s.breakList.get side).filter (· ≠ pos) ∧
    BooksKept (creditPossible side s) t ∧ Credited side (sp.openLength s.flmm) s t ∧
    t.bus.doffer = s.bus.doffer ∧ t.bus.train = s.bus.train ∧ t.bus.cycle = s.bus.cycle ∧
    t.bus.awaiting = s.bus.awaiting ∧
    (if (s.carriages.get side).pieceTarget = some pos then
      t.carriages.get side = (s.carriages.get side).cancelled s (some pos) ∧
      t.bus.carriages.get side = (s.bus.carriages.get side).append .cancel
    else if (s.carriages.get side).overtakenTarget = some pos then
      t.carriages.get side = (s.carriages.get side).cancelled s (s.carriages.get side).withdrawn ∧
      t.bus.carriages.get side = (s.bus.carriages.get side).append .cancel
    else t.carriages.get side = s.carriages.get side ∧ t.bus.carriages.get side = s.bus.carriages.get side) := by
  obtain ⟨hrun, hmass, -⟩ := creditPossible_runMass side s
  have hcredited : RunsFit s := hfits.runsFit
  have hle := openLength_le_openSum s.flmm hsp
  obtain ⟨hrunFits, hmassFits⟩ := hcredited side
  obtain ⟨u, hu⟩ : ∃ u, u = closeInterval side pos (creditPossible side s) := ⟨_, rfl⟩
  have hclosed : ClosesInterval side pos sp (creditPossible side s) u := by
    rw [hu]
    refine closeInterval_closes hsp (hclamp.clamp hsp) ?_ ?_
    · rw [hrun]
      exact (Nat.add_le_add_left hle _).trans_lt hrunFits
    · rw [hmass]
      exact (Nat.add_le_add_left (Nat.mul_le_mul_right _ hle) _).trans_lt hmassFits
  have hucar : u.carriages = s.carriages := hclosed.frame .carriages (by decide)
  have hubus : u.bus = s.bus := hclosed.frame .bus (by decide)
  have huitems : u.items = s.items := hclosed.frame .items (by decide)
  obtain ⟨v, hv⟩ : ∃ v, v = withdrawForPark side pos u := ⟨_, rfl⟩
  obtain ⟨hvother, hvtable, hdoffer, htrain, hcycle, hawaiting, hvcar⟩ := withdrawForPark_moves hv
  have hcur : (unlist ⟨side, pos⟩ v).spindle side pos = some c := by
    rw [hc]
    exact (State.spindle_congr hvtable.1 pos).trans hclosed.record
  have hcst : c.state = sp.state := by rw [hc, close_state]
  have htw : t = writeSpindle side pos c.parked (unlist ⟨side, pos⟩ v) := by
    rw [ht, parkSpindle, ← hu, ← hv, hcur]
  have hwrite := writeSpindle_frame side pos (unlist ⟨side, pos⟩ v) c.parked
  have hbus := writeSpindle_boardsOnly side pos c.parked (unlist ⟨side, pos⟩ v)
  rw [← htw] at hwrite hbus
  obtain ⟨hb1, hb2, hb3, hb4, hb5⟩ := hbus.rest
  have hshift : t.shift = u.shift := (hwrite .shift (by decide)).trans
    (by rw [hv]; exact withdrawForPark_frame side pos u .shift (by decide))
  have htable : TableSame side u (unlist ⟨side, pos⟩ v) := hvtable.trans ((unlist_frame v _).tableSame side)
  have hlist : u.breakList = s.breakList := hclosed.frame .breakList (by decide)
  refine ⟨?_, ?_, ?_, hclosed.books.trans (.of_shift hshift), ?_, ?_, ?_, ?_, ?_, ?_⟩
  · rw [htw]
    exact (((creditPossible_otherSide side s).trans hclosed.other).trans hvother).trans
      (((unlist_frame v _).otherSide side).trans (writeSpindle_otherSide side pos _ _))
  · have hrec := writeSpindle_recordBecomes side pos c.parked hcur
    rw [Spindle.parked_eq, ← htw] at hrec
    exact (hclosed.becomes hsp (hrec.from_same htable.1 htable.2.2)).from_same rfl rfl
  · rw [htw, writeSpindle_breakList side pos c.parked hcur, Sides.get_modify_same, htable.2.1, hlist, hcst]
    exact syncBreakList_out hq hsp _ (st := .parked) hst (by decide)
  · have hcr : Credited side (sp.openLength s.flmm) (creditPossible side s) u := hclosed.tallies.credited
    unfold Credited at hcr ⊢
    rwa [hshift, ← hrun, ← hmass]
  · rw [hb2, show (unlist ⟨side, pos⟩ v).bus.doffer = v.bus.doffer from rfl, hdoffer, hubus]
  · rw [hb3, show (unlist ⟨side, pos⟩ v).bus.train = v.bus.train from rfl, htrain, hubus]
  · rw [hb4, show (unlist ⟨side, pos⟩ v).bus.cycle = v.bus.cycle from rfl, hcycle, hubus]
  · rw [hb5, show (unlist ⟨side, pos⟩ v).bus.awaiting = v.bus.awaiting from rfl, hawaiting, hubus]
  · have htcar : t.carriages = v.carriages := hwrite .carriages (by decide)
    simp only [Carriage.cancelled, hucar, hubus, huitems] at hvcar ⊢
    rw [htcar, hb1]
    exact hvcar

end

/-- Settles O41: refused for a spindle that is not fitted, without change for a PARKED one. -/
theorem spindleParkCompletes : Obligations.SpindleParkCompletes := by
  unfold Obligations.SpindleParkCompletes
  intro s body hs pos
  refine ⟨fun hside => ?_, fun side hside hnone => ?_, fun side sp hside hsp hst => ?_,
    fun side sp hside hsp hst hclamp hlaw hfits => ?_⟩
  · refine hs.refuses (r := ⟨0x21#8, body⟩) rfl rfl (by omega) fun l s' e => ?_
    have hno : namedSpindle body s' = none := namedSpindle_of_none fun sd h => by rw [hside] at h; cases h
    simp [spindlePark, hno]
  · refine hs.refuses (r := ⟨0x21#8, body⟩) rfl rfl (by omega) fun l s' e => ?_
    have hno : namedSpindle body s' = none := namedSpindle_of_none fun sd h => by
      obtain rfl := Option.some.inj (hside.symm.trans h)
      rw [e]
      exact hnone
    simp [spindlePark, hno]
  · refine hs.replies (r := ⟨0x21#8, body⟩) rfl rfl fun l s' e => ⟨s', ?_, rfl⟩
    have hsp' : s'.spindle side pos = some sp := by rw [e]; exact hsp
    have hcontent : spindleStateContent side pos s' = [5#8] := by
      rw [spindleStateContent_of_fitted (by rw [hsp']; rfl), stateCodeAt, hsp', Option.map_some, hst]
      rfl
    rw [← hcontent]
    simp only [spindlePark, namedSpindle_of_spindle hside hsp']
    rw [if_pos hst]
    rfl
  · refine hs.replies (r := ⟨0x21#8, body⟩) rfl rfl fun l s' e => ⟨parkSpindle side pos s', ?_, ?_⟩
    all_goals
      have hsp' : s'.spindle side pos = some sp := by rw [e]; exact hsp
      have hmoves := parkSpindle_moves (s := s') (t := parkSpindle side pos s') hsp' hst (by rw [e]; exact hclamp)
        (by rw [e]; exact (breakLaw_iff s).1 hlaw side) (by rw [e]; exact hfits) rfl rfl
      obtain ⟨hother, hrec, hlist, hbooks, hcredit, hrest⟩ := hmoves
    · have hcontent : spindleStateContent side pos (parkSpindle side pos s') = [5#8] := by
        rw [spindleStateContent_of_fitted (by rw [hrec.1]; rfl), stateCodeAt, hrec.1]
        rfl
      rw [← hcontent]
      simp only [spindlePark, namedSpindle_of_spindle hside hsp']
      rw [if_neg hst]
      rfl
    · obtain ⟨hposs, hcounts, hex, hdoffs, hmark, hmarks, hhist, hseq⟩ := hbooks
      obtain ⟨-, -, hcounts'⟩ := creditPossible_runMass side s'
      have hroom : possibleNow s' side < 2 ^ 64 := by rw [e]; exact hfits.possible side
      have hroving := parkSpindle_roving side pos s'
      rw [ne_test] at hroving
      refine ⟨parkSpindle_frame side pos s', hother, ?_, ?_, ?_, ?_, ?_, ?_, ?_, ?_, ?_, ?_, ?_, ?_, ?_⟩
      · rw [e] at hrec ⊢
        exact hrec
      · rw [hlist, e]
        rfl
      · rw [hposs, creditPossible_possible side s' hroom, e]
        rfl
      · rw [hmarks, creditPossible_mark, e]
        rfl
      · rw [e] at hcredit ⊢
        exact hcredit
      · rw [hcounts, hcounts', e]
        rfl
      · rw [hdoffs, e]
        rfl
      · rw [hex, e]
        rfl
      · rw [hmark, e]
        rfl
      · rw [hhist, e]
        rfl
      · rw [hseq, e]
        rfl
      · rw [hroving, e]
        rfl
      · obtain ⟨h1, h2, h3, h4, h5⟩ := hrest
        rw [e] at h1 h2 h3 h4 h5 ⊢
        exact ⟨h5, h1, h2, h3, h4⟩

end Sys2Proof.Machine
end

