-- ==== Sys2Proof/Proofs/RovingSupply.lean ====
section
/-!
PROOFS. The replacement of a bobbin (O54), the roving audit and the governor window (O55).
-/
namespace Sys2Proof.Machine

-- One after another: each theorem as a task of its own takes a thread.
set_option Elab.async false

/-! ## Sides by their parts -/

theorem Sides.eq_set {α : Type} {p q : Sides α} {side : Side} {v : α} (h : q.get side = v)
    (hother : ∀ sd, sd ≠ side → q.get sd = p.get sd) : q = p.set side v := by
  obtain ⟨a, b⟩ := p
  obtain ⟨c, d⟩ := q
  cases side with
  | a => exact congrArg₂ Sides.mk h (hother .b (by decide))
  | b => exact congrArg₂ Sides.mk (hother .a (by decide)) h

/-! ## The bus after a join -/

section
variable {side : Side} {pos : Nat} {s t u v w : State} {sp old : Spindle}

/-- A join holds the clamp command CLOSED where the clamp was OPEN (R45). -/
theorem joinBreakList_bus {cause : Cause} {new : Spindle} (hq : s.Queued side) (h : s.spindle side pos = some old)
    (hclamp : old.clamp = .opened) :
    (joinBreakList side pos cause new s).bus = (holdClamp side pos .closed s).bus := by
  have hcur : (advanceSeq side s).spindle side pos = some (asFound s side old) := by
    rw [advanceSeq_asFound hq, h]
    rfl
  have hbus : (advanceSeq side s).bus = s.bus := advanceSeq_frame side s .bus (by decide)
  unfold joinBreakList
  dsimp only
  rw [writeSpindle_bus side pos _ hcur, if_neg (by rw [asFound_clamp, hclamp]; exact Clamp.noConfusion)]
  exact holdClamp_bus_congr hbus

/-! ## Counts after a step that keeps the books -/

theorem counted_of_books {f : SideFigure} (h : BooksKept s w) : Counted side [f] s (countSide side f w) := by
  obtain ⟨hposs, hcounts, hex, hdoffs, hmark, hmarks, hhist, hseq⟩ := h
  have hcounted := countSide_counted side f w
  unfold Counted at hcounted ⊢
  rwa [hposs, hcounts, hex, hdoffs, hmark, hmarks, hhist, hseq] at hcounted

theorem raises_of_books {f : SideFigure} (h : BooksKept s w) (hline : w.line = s.line) :
    LineRaises (saturates side [f] s) s (countSide side f w) := by
  have hraise := (countSide_lineRaises side f w).from_same hline
  unfold saturates at hraise ⊢
  rwa [h.counts, h.marker] at hraise

/-- A count credits no length on either side. -/
theorem countSide_credited (side sd : Side) (f : SideFigure) (s : State) : Credited sd 0 s (countSide side f s) := by
  by_cases h : sd = side
  · subst h
    exact countSide_credited_zero sd f s
  · obtain ⟨-, -, -, -, -, -, hshift, -⟩ := countSide_otherSide side f s sd h
    unfold Credited
    rw [hshift]
    simp

/-! ## The bobbin is replaced (R133, R134) -/

/-- What the replacement of a bobbin does to the records, the lists, the bus and the shift. -/
def RenewsBobbin (side : Side) (pos : Nat) (sp : Spindle) (s v : State) : Prop :=
  let full := s.articles.active.bobbin * 1000
  let art := s.articles.active
  Counted side [.replacement] s v ∧
  if sp.state = .running then
    BothSides (fun sd => Credited sd (openSum (s.spindles.get sd) s.flmm) s v) ∧
    (∀ sd p, ¬(sd = side ∧ p = pos) → v.spindle sd p =
      (s.spindle sd p).map fun r => (if sd = side then asFound s side r else r).close art s.flmm) ∧
    v.spindle side pos = some { sp.close art s.flmm with
      state := .broken, marker := none, clamp := .closed, roving := some full, attempts := 0
      seq := some (counterFound s side + 1), cause := some .rovingChange, lockCause := none } ∧
    v.breakList = s.breakList.set side (s.breakList.get side ++ [pos]) ∧
    v.breakSeq = s.breakSeq.set side (counterFound s side + 1) ∧
    v.bus = (holdClamp side pos .closed s).bus
  else BothSides (fun sd => Credited sd 0 s v) ∧ OtherSideSame side s v ∧
    if sp.state = .waitRoving then
      JoinsList side pos { sp with roving := some full, cause := some .rovingChange, attempts := 0 } s v
    else RecordBecomes side pos { sp with roving := some full } s v ∧ v.breakList = s.breakList ∧
      v.breakSeq = s.breakSeq

theorem Credited.next {ps : List Part} {dl : Nat} (h : Credited side dl s t) (hf : OnlyChanges ps t u)
    (hshift : Part.shift ∉ ps := by decide) : Credited side dl s u := by
  have hs : u.shift = t.shift := hf .shift hshift
  simpa only [Credited, hs] using h

theorem Counted.next {ps : List Part} {fs : List SideFigure} (h : Counted side fs s t) (hf : OnlyChanges ps t u)
    (hshift : Part.shift ∉ ps := by decide) : Counted side fs s u := by
  have hs : u.shift = t.shift := hf .shift hshift
  simpa only [Counted, hs] using h

theorem bothSides_iff {P : Side → Prop} : BothSides P ↔ ∀ side, P side :=
  ⟨fun ⟨ha, hb⟩ side => by cases side; exacts [ha, hb], fun h => ⟨h .a, h .b⟩⟩

/-- The run of the roving and the line go on after the replacement. -/
theorem RenewsBobbin.next (h : RenewsBobbin side pos sp s t) (hf : OnlyChanges [.roving, .line] t u) :
    RenewsBobbin side pos sp s u := by
  obtain ⟨hcount, hrest⟩ := h
  have hspindle (sd : Side) (p : Nat) : u.spindle sd p = t.spindle sd p :=
    State.spindle_congr (congrArg (·.get sd) (hf .spindles (by decide))) p
  refine ⟨hcount.next hf, ?_⟩
  by_cases hrun : sp.state = .running
  · rw [if_pos hrun] at hrest ⊢
    obtain ⟨hcr, hothers, hrec, hlist, hseq, hbus⟩ := hrest
    exact ⟨bothSides_iff.2 fun sd => (bothSides_iff.1 hcr sd).next hf,
      fun sd p hp => (hspindle sd p).trans (hothers sd p hp), (hspindle side pos).trans hrec,
      (hf .breakList (by decide)).trans hlist, (hf .breakSeq (by decide)).trans hseq, (hf .bus (by decide)).trans hbus⟩
  · rw [if_neg hrun] at hrest ⊢
    obtain ⟨hcr, hother, hrest⟩ := hrest
    refine ⟨bothSides_iff.2 fun sd => (bothSides_iff.1 hcr sd).next hf, hother.trans (hf.otherSide side), ?_⟩
    by_cases hwait : sp.state = .waitRoving
    · rw [if_pos hwait] at hrest ⊢
      exact hrest.next hf
    · rw [if_neg hwait] at hrest ⊢
      obtain ⟨hrec, hlist, hseq⟩ := hrest
      exact ⟨hrec.then_frame hf, (hf .breakList (by decide)).trans hlist, (hf .breakSeq (by decide)).trans hseq⟩

/-- The roving record is changed before the replacement. -/
theorem RenewsBobbin.from_roving {ρ : Roving} (h : RenewsBobbin side pos sp (s.setRoving ρ) v) :
    RenewsBobbin side pos sp s v := by
  obtain ⟨hcount, hrest⟩ := h
  refine ⟨hcount, ?_⟩
  by_cases hrun : sp.state = .running
  · rw [if_pos hrun] at hrest ⊢
    obtain ⟨hcr, hothers, hrec, hlist, hseq, hbus⟩ := hrest
    exact ⟨hcr, hothers, hrec, hlist, hseq, hbus.trans (holdClamp_bus_congr rfl)⟩
  · rw [if_neg hrun] at hrest ⊢
    obtain ⟨hcr, hother, hrest⟩ := hrest
    refine ⟨hcr, hother, ?_⟩
    by_cases hwait : sp.state = .waitRoving
    · rw [if_pos hwait] at hrest ⊢
      exact hrest.from_same rfl rfl rfl rfl
    · rw [if_neg hwait] at hrest ⊢
      obtain ⟨hrec, hlist, hseq⟩ := hrest
      exact ⟨hrec.from_same rfl rfl, hlist, hseq⟩

theorem split_shown (s : State) (sd : Side) :
    ((split s).spindles.get sd).map (·.shown) = (s.spindles.get sd).map (·.shown) := by
  have hget : (split s).spindles.get sd = (s.spindles.get sd).map (·.close s.articles.active s.flmm) := by
    cases sd <;> rfl
  rw [hget, List.map_map]
  exact List.map_congr_left fun sp _ => close_shown _ _ sp

/-- The break list of a side sees the states and sequences of its records alone. -/
theorem State.Queued.of_shown (h : s.Queued side)
    (hshown : (t.spindles.get side).map (·.shown) = (s.spindles.get side).map (·.shown))
    (hlist : t.breakList.get side = s.breakList.get side) (hseq : t.breakSeq.get side = s.breakSeq.get side) :
    t.Queued side := by
  have hview : t.queueView side = s.queueView side := by
    funext p
    unfold State.queueView State.spindle
    split
    · rfl
    · rw [← List.getElem?_map, hshown, List.getElem?_map]
  unfold State.Queued
  rw [hview, hlist, hseq]
  exact h

theorem asFound_close (s : State) (side : Side) (art : Article) (x : Nat) (r : Spindle) :
    asFound s side (r.close art x) = (asFound s side r).close art x := by
  unfold asFound Spindle.close
  split <;> split <;> rfl

/-- A RUNNING spindle makes the split, and joins the break list with its full bobbin. -/
theorem replaceBobbin_renews_running (hsp : s.spindle side pos = some sp) (hst : sp.state = .running)
    (hq : s.Queued side) (hfits : RunsFit s) (hclamp : sp.clamp = .opened) :
    RenewsBobbin side pos sp s (replaceBobbin ⟨side, pos⟩ s) ∧
      LineRaises (saturates side [.replacement] s) s (replaceBobbin ⟨side, pos⟩ s) := by
  have hsplit := split_frame s
  have hsplitSp : (split s).spindle side pos = some (sp.close s.articles.active s.flmm) := by
    rw [split_spindle, hsp]
    rfl
  have hseqs : ((split s).spindles.get side).map (·.seq) = (s.spindles.get side).map (·.seq) := by
    have hseqs := congrArg (List.map Prod.snd) (split_shown s side)
    rwa [List.map_map, List.map_map] at hseqs
  have hseq : (split s).breakSeq.get side = s.breakSeq.get side := congrArg (·.get side) (hsplit .breakSeq (by decide))
  have hlist : (split s).breakList = s.breakList := hsplit .breakList (by decide)
  have hqs : (split s).Queued side := hq.of_shown (split_shown s side) (by rw [hlist]) hseq
  have hcst : (sp.close s.articles.active s.flmm).state ≠ .broken := by
    rw [close_state, hst]
    decide
  rw [replaceBobbin_of_running hsp hst]
  generalize hnew : ({ (sp.close s.articles.active s.flmm).renewed s.articles.active with attempts := 0 } : Spindle) = new
  obtain ⟨w, hw⟩ : ∃ w, w = joinBreakList side pos .rovingChange new (split s) := ⟨_, rfl⟩
  have hjoinFrame := joinBreakList_frame side pos (split s) .rovingChange new
  have hjoin := joinBreakList_joins (new := new) (c := .rovingChange) hqs hsplitSp hcst
  have hbus := joinBreakList_bus (cause := .rovingChange) (new := new) hqs hsplitSp (by rw [close_clamp, hclamp])
  have hothers := joinBreakList_otherSide side pos .rovingChange new (split s)
  rw [← hw] at hjoinFrame hjoin hbus hothers
  obtain ⟨hjseq, hjlist, hjrec, hjother, -⟩ := hjoin
  rw [counterFound_congr hseqs hseq] at hjseq hjrec
  rw [asFound_congr hseqs hseq] at hjother
  have hcount := countSide_frame side w .replacement
  have hbooks : BooksKept s w := (split_booksKept s).trans (.of_shift (hjoinFrame .shift (by decide)))
  have hline : w.line = s.line := (hjoinFrame .line (by decide)).trans (hsplit .line (by decide))
  have hspindle (sd : Side) (p : Nat) : (countSide side .replacement w).spindle sd p = w.spindle sd p :=
    State.spindle_congr (congrArg (·.get sd) (hcount .spindles (by decide))) p
  rw [← hw]
  refine ⟨⟨counted_of_books hbooks, ?_⟩, raises_of_books hbooks hline⟩
  rw [if_pos hst]
  refine ⟨bothSides_iff.2 fun sd => ?_, fun sd p hp => ?_, ?_, ?_, ?_, ?_⟩
  · obtain ⟨-, hcr⟩ := split_credits hfits sd
    have hart : w.articles = s.articles := (hjoinFrame .articles (by decide)).trans (hsplit .articles (by decide))
    exact ((hcr.next hjoinFrame).trans (countSide_credited side sd .replacement w) hart).congr_dl (Nat.add_zero _)
  · rw [hspindle]
    by_cases hsd : sd = side
    · subst hsd
      rw [hjother p fun e => hp ⟨rfl, e⟩, split_spindle, Option.map_map]
      refine Option.map_congr fun r _ => ?_
      rw [Function.comp_apply, if_pos rfl, asFound_close]
    · rw [State.spindle_congr (hothers sd hsd).1, split_spindle]
      exact Option.map_congr fun r _ => by rw [if_neg hsd]
  · rw [hspindle, hjrec, ← hnew]
    rfl
  · rw [show (countSide side .replacement w).breakList = w.breakList from hcount .breakList (by decide), ← hlist]
    exact Sides.eq_set hjlist fun sd hsd => (hothers sd hsd).2.1
  · rw [show (countSide side .replacement w).breakSeq = w.breakSeq from hcount .breakSeq (by decide),
      ← show (split s).breakSeq = s.breakSeq from hsplit .breakSeq (by decide)]
    exact Sides.eq_set hjseq fun sd hsd => (hothers sd hsd).2.2.1
  · rw [show (countSide side .replacement w).bus = w.bus from hcount .bus (by decide), hbus]
    exact holdClamp_bus_congr (hsplit .bus (by decide))

/-- Another spindle has its figure replaced, and one that waits for roving joins the break list. -/
theorem replaceBobbin_renews_standing (hsp : s.spindle side pos = some sp) (hst : sp.state ≠ .running)
    (hq : s.Queued side) (hclamp : sp.clamp = sp.state.clamp) :
    RenewsBobbin side pos sp s (replaceBobbin ⟨side, pos⟩ s) ∧
      LineRaises (saturates side [.replacement] s) s (replaceBobbin ⟨side, pos⟩ s) := by
  -- The count that follows the record.
  have counts {ps : List Part} {w : State} (hw : OnlyChanges ps s w) (hshift : Part.shift ∉ ps) (hline : Part.line ∉ ps)
      (hother : OtherSideSame side s w) :
      (Counted side [.replacement] s (countSide side .replacement w) ∧
        LineRaises (saturates side [.replacement] s) s (countSide side .replacement w)) ∧
      BothSides (fun sd => Credited sd 0 s (countSide side .replacement w)) ∧
      OtherSideSame side s (countSide side .replacement w) := by
    have hbooks : BooksKept s w := .of_shift (hw .shift hshift)
    refine ⟨⟨counted_of_books hbooks, raises_of_books hbooks (hw .line hline)⟩, bothSides_iff.2 fun sd => ?_,
      hother.trans (countSide_otherSide side _ w)⟩
    have hcr := countSide_credited side sd .replacement w
    have hs : w.shift = s.shift := hw .shift hshift
    simpa only [Credited, hs, Nat.zero_mul] using hcr
  by_cases hwait : sp.state = .waitRoving
  · rw [replaceBobbin_of_waitRoving hsp hwait]
    generalize hnew : ({ sp.renewed s.articles.active with attempts := 0 } : Spindle) = new
    have hframe := joinBreakList_frame side pos s .rovingChange new
    obtain ⟨⟨h1, h2⟩, h3, h4⟩ := counts hframe (by decide) (by decide) (joinBreakList_otherSide side pos .rovingChange new s)
    have hjoin := (joinBreakList_joins (new := new) (c := .rovingChange) hq hsp (by simp [hwait])).next
      (countSide_frame side _ .replacement)
    refine ⟨⟨h1, ?_⟩, h2⟩
    rw [if_neg hst, if_pos hwait]
    rw [← hnew] at hjoin h3 h4 ⊢
    exact ⟨h3, h4, hjoin⟩
  · rw [replaceBobbin_of_other hsp hst hwait]
    have hwrite := writeSpindle_still (new := sp.renewed s.articles.active) hsp rfl hclamp
    obtain ⟨⟨h1, h2⟩, h3, h4⟩ := counts hwrite (by decide) (by decide)
      (writeSpindle_otherSide side pos (sp.renewed s.articles.active) s)
    have hrec := writeSpindle_recordBecomes side pos (sp.renewed s.articles.active) hsp
    rw [show (sp.renewed s.articles.active).state.clamp = sp.clamp from hclamp.symm] at hrec
    have hcount := countSide_frame side (writeSpindle side pos (sp.renewed s.articles.active) s) .replacement
    refine ⟨⟨h1, ?_⟩, h2⟩
    rw [if_neg hst, if_neg hwait]
    exact ⟨h3, h4, hrec.then_frame hcount, (hcount .breakList (by decide)).trans (hwrite .breakList (by decide)),
      (hcount .breakSeq (by decide)).trans (hwrite .breakSeq (by decide))⟩

theorem replaceBobbin_renews (hsp : s.spindle side pos = some sp) (hq : s.Queued side) (hfits : RunsFit s)
    (hclamp : sp.clamp = sp.state.clamp) :
    RenewsBobbin side pos sp s (replaceBobbin ⟨side, pos⟩ s) ∧
      LineRaises (saturates side [.replacement] s) s (replaceBobbin ⟨side, pos⟩ s) := by
  by_cases hst : sp.state = .running
  · exact replaceBobbin_renews_running hsp hst hq hfits (by rw [hclamp, hst]; rfl)
  · exact replaceBobbin_renews_standing hsp hst hq hclamp

end

/-- The reason of a run that the ending test ends. -/
theorem Roving.tested_eq (r : Roving) : r.tested = { r with
    run := if r.ends = true then .idle else r.run
    reason := if r.ends = true then some (if r.run = .ending then .aborted else .count) else r.reason } := by
  unfold Roving.tested
  by_cases h : r.run = .ending
  · simp [Roving.ends, h]
  · simp only [if_neg h]

/-- Settles O54: the slot or the segments give the spindle up, its bobbin is replaced, and the run is tested. -/
theorem replacementsAreTaken : Obligations.ReplacementsAreTaken := by
  unfold Obligations.ReplacementsAreTaken
  intro s side pos x
  have hlisted : s.roving.listed x = true ↔ x ∈ s.roving.urgent ∨ x ∈ s.roving.low := by
    simp [Roving.listed]
  refine ⟨fun h1 h2 h3 => ?_, fun sp hx hsp hlaw hfits hclamp => ?_⟩
  · have hno : ¬s.roving.listed x = true := by
      rw [hlisted]
      exact not_or.2 ⟨h2, h3⟩
    exact (if_neg h1).trans (if_neg hno)
  have hrenew (ρ : Roving) : RenewsBobbin side pos sp s (replaceBobbin x (s.setRoving ρ)) ∧
      LineRaises (saturates side [.replacement] s) s (replaceBobbin x (s.setRoving ρ)) :=
    have hboth := replaceBobbin_renews (s := s.setRoving ρ) hsp ((breakLaw_iff s).1 hlaw side) hfits.runsFit
      (hclamp.clamp hsp)
    ⟨hboth.1.from_roving, hboth.2⟩
  by_cases hslot : s.roving.slot = some x
  · obtain ⟨hrenews, hline⟩ := hrenew { s.roving with slot := none, timer := none }
    obtain ⟨hroving, hraise⟩ := endingTest_moves (replaceBobbin x (emptySlot s))
    rw [replaceBobbin_roving x (emptySlot s)] at hroving hraise
    refine ⟨endingTest (replaceBobbin x (emptySlot s)), if_pos hslot,
      ((emptySlot_frame s).wide.next (replaceBobbin_frame _ x)).next (endingTest_frame _), ?_⟩
    intro full art ended
    have hended : ended = (emptySlot s).roving.ends := by simp [ended, hslot, Roving.ends, emptySlot]
    refine ⟨?_, ?_, hrenews.next (endingTest_frame _)⟩
    · rw [if_pos hslot, hroving, hended, Roving.tested_eq]
      rfl
    · rw [hended]
      exact (hline.trans hraise).congr fun c => by rw [List.mem_append, List.mem_append, or_comm]
  · have hin : s.roving.listed x = true := hlisted.2 (hx.resolve_left hslot)
    obtain ⟨hrenews, hline⟩ := hrenew (unlist x s).roving
    refine ⟨replaceBobbin x (unlist x s), (if_neg hslot).trans (if_pos hin),
      (unlist_frame s x).wide.next (replaceBobbin_frame _ x), ?_⟩
    intro full art ended
    have hended : ended = false := by simp [ended, hslot]
    refine ⟨?_, ?_, hrenews⟩
    · rw [if_neg hslot, replaceBobbin_roving, unlist, ne_test]
      rfl
    · rw [hended]
      exact hline

/-! ## The order of the audit -/

/-- One spindle stands before another on the frame: side A before side B, and ascending positions (R126). -/
def StandsBefore (x y : SpRef) : Prop := (x.side = y.side → x.pos < y.pos) ∧ ¬(x.side = .b ∧ y.side = .a)

/-- The order of the audit: by the projected figure, then by place (R126). -/
def AuditedBefore (e f : SpRef × Nat) : Prop := e.2 < f.2 ∨ (e.2 = f.2 ∧ StandsBefore e.1 f.1)

theorem insertByRp_ordered {e : SpRef × Nat} {l : List (SpRef × Nat)} (hl : l.Pairwise AuditedBefore)
    (he : ∀ f ∈ l, StandsBefore f.1 e.1) : (insertByRp e l).Pairwise AuditedBefore := by
  induction l with
  | nil => exact List.pairwise_singleton _ e
  | cons f fs ih =>
    obtain ⟨hf, hfs⟩ := List.pairwise_cons.1 hl
    have hrest : ∀ g ∈ fs, StandsBefore g.1 e.1 := fun g hg => he g (List.mem_cons_of_mem f hg)
    unfold insertByRp
    split
    · next hlt =>
      refine List.pairwise_cons.2 ⟨fun g hg => .inl ?_, hl⟩
      rcases List.mem_cons.1 hg with rfl | hg
      · exact hlt
      · rcases hf g hg with h | ⟨h, -⟩ <;> omega
    · next hge =>
      refine List.pairwise_cons.2 ⟨fun g hg => ?_, ih hfs hrest⟩
      rcases List.mem_cons.1 ((insertByRp_perm e fs).mem_iff.1 hg) with rfl | hg
      · rcases Nat.lt_or_eq_of_le (Nat.le_of_not_lt hge) with h | h
        · exact .inl h
        · exact .inr ⟨h, he f List.mem_cons_self⟩
      · exact hf g hg

/-- Entries that stand in the order of the frame are sorted by figure, equal figures keeping that order. -/
theorem sortByRp_ordered {l : List (SpRef × Nat)} (hl : l.Pairwise fun e f => StandsBefore e.1 f.1) :
    (sortByRp l).Pairwise AuditedBefore := by
  have fold (l : List (SpRef × Nat)) : ∀ acc : List (SpRef × Nat), acc.Pairwise AuditedBefore →
      (∀ e ∈ acc, ∀ f ∈ l, StandsBefore e.1 f.1) → (l.Pairwise fun e f => StandsBefore e.1 f.1) →
      (l.foldl (fun acc e => insertByRp e acc) acc).Pairwise AuditedBefore := by
    induction l with
    | nil => exact fun acc hacc _ _ => hacc
    | cons e l ih =>
      intro acc hacc hbefore hl
      obtain ⟨he, hl⟩ := List.pairwise_cons.1 hl
      refine ih _ (insertByRp_ordered hacc fun f hf => hbefore f hf e List.mem_cons_self) (fun g hg f hf => ?_) hl
      rcases List.mem_cons.1 ((insertByRp_perm e acc).mem_iff.1 hg) with rfl | hg
      · exact he f hf
      · exact hbefore g hg f (List.mem_cons_of_mem e hf)
  exact fold l [] .nil (fun e he => absurd he List.not_mem_nil) hl

theorem auditSide_ordered (s : State) (side : Side) (pos : Nat) (l : List Spindle) :
    (auditSide s side pos l).Pairwise fun e f => StandsBefore e.1 f.1 := by
  induction l generalizing pos with
  | nil => exact .nil
  | cons sp rest ih =>
    unfold auditSide
    split
    · refine List.pairwise_cons.2 ⟨fun e he => ?_, ih _⟩
      obtain ⟨hside, hpos, -⟩ := mem_auditSide he
      exact ⟨fun _ => hpos, by rw [hside]; cases side <;> simp⟩
    · exact ih _

section
variable {s : State}

/-- The entries that the audit finds, in the order of the frame. -/
def auditEntries (s : State) : List (SpRef × Nat) := auditSide s .a 1 s.spindles.a ++ auditSide s .b 1 s.spindles.b

theorem auditEntries_ordered (s : State) : (auditEntries s).Pairwise fun e f => StandsBefore e.1 f.1 := by
  refine List.pairwise_append.2 ⟨auditSide_ordered s .a 1 _, auditSide_ordered s .b 1 _, fun e he f hf => ?_⟩
  have ha := (mem_auditSide he).1
  have hb := (mem_auditSide hf).1
  simp [StandsBefore, ha, hb]

/-- The audit finds each spindle that it selects. -/
theorem mem_auditSide_of_selects {side : Side} {pos i rp : Nat} {l : List Spindle} {sp : Spindle} (h : l[i]? = some sp)
    (hsel : auditSelects s ⟨side, pos + i⟩ sp = some rp) : (⟨side, pos + i⟩, rp) ∈ auditSide s side pos l := by
  induction l generalizing pos i with
  | nil => simp at h
  | cons r rest ih =>
    unfold auditSide
    cases i with
    | zero =>
      rw [List.getElem?_cons_zero, Option.some.injEq] at h
      rw [Nat.add_zero] at hsel ⊢
      rw [h, hsel]
      exact List.mem_cons_self
    | succ i =>
      rw [List.getElem?_cons_succ] at h
      have hpos : pos + (i + 1) = pos + 1 + i := by omega
      rw [hpos] at hsel ⊢
      split
      · exact List.mem_cons_of_mem _ (ih h hsel)
      · exact ih h hsel

theorem mem_auditEntries {x : SpRef} {rp : Nat} : (x, rp) ∈ auditEntries s ↔
    ∃ sp, s.spindle x.side x.pos = some sp ∧ auditSelects s x sp = some rp := by
  constructor
  · intro h
    have one (side : Side) (he : (x, rp) ∈ auditSide s side 1 (s.spindles.get side)) :
        ∃ sp, s.spindle x.side x.pos = some sp ∧ auditSelects s x sp = some rp := by
      obtain ⟨h1, h2, sp, h3, h4⟩ := mem_auditSide he
      dsimp only at h1 h2 h3 h4
      exact ⟨sp, by rw [State.spindle, h1, if_neg (by omega)]; exact h3, h4⟩
    rcases List.mem_append.1 h with h | h
    exacts [one .a h, one .b h]
  · rintro ⟨sp, hsp, hsel⟩
    obtain ⟨side, pos⟩ := x
    have hpos : 1 + (pos - 1) = pos := by
      have := (State.spindle_isSome_iff.1 (by rw [hsp]; rfl : (s.spindle side pos).isSome = true)).1
      omega
    have hmem := mem_auditSide_of_selects (pos := 1) (State.getElem?_of_spindle hsp) (rp := rp)
      (by rw [hpos]; exact hsel)
    rw [hpos] at hmem
    cases side with
    | a => exact List.mem_append_left _ hmem
    | b => exact List.mem_append_right _ hmem

/-- The projected figure at a place (R122). -/
def figureAt (s : State) (x : SpRef) : Option Nat := (s.spindle x.side x.pos).bind fun sp => sp.roving.map fun r =>
  r - (sp.openLength s.flmm * 100 + s.articles.active.draft100 - 1) / s.articles.active.draft100

/-- An audit selects a spindle that is not PARKED, listed or in the slot, by its projected figure (R126). -/
theorem auditSelects_iff {x : SpRef} {sp : Spindle} {rp : Nat} (hsp : s.spindle x.side x.pos = some sp) :
    auditSelects s x sp = some rp ↔ figureAt s x = some rp ∧ sp.state ≠ .parked ∧ x ∉ s.roving.urgent ∧
      x ∉ s.roving.low ∧ s.roving.slot ≠ some x ∧ rp < s.items.rovingThreshold * 1000 := by
  have hfigure : figureAt s x = sp.projected s.articles.active s.flmm := by
    rw [figureAt, hsp]
    rfl
  rw [hfigure]
  unfold auditSelects
  cases sp.projected s.articles.active s.flmm with
  | none => simp
  | some r =>
    by_cases hr : r = rp
    · subst hr
      simp [Roving.listed, and_assoc]
    · simp [hr]

theorem mem_auditFound_iff {x : SpRef} : x ∈ auditFound s ↔
    ∃ sp ∈ s.spindle x.side x.pos, sp.state ≠ .parked ∧ x ∉ s.roving.urgent ∧ x ∉ s.roving.low ∧
      s.roving.slot ≠ some x ∧ ∃ r ∈ figureAt s x, r < s.items.rovingThreshold * 1000 := by
  have hentry : x ∈ auditFound s ↔ ∃ rp, (x, rp) ∈ auditEntries s := by
    rw [(auditFound_perm s).mem_iff, List.mem_map]
    exact ⟨fun ⟨e, he, h⟩ => ⟨e.2, h ▸ he⟩, fun ⟨rp, h⟩ => ⟨_, h, rfl⟩⟩
  rw [hentry]
  constructor
  · rintro ⟨rp, h⟩
    obtain ⟨sp, hsp, hsel⟩ := mem_auditEntries.1 h
    obtain ⟨hfig, h1, h2, h3, h4, h5⟩ := (auditSelects_iff hsp).1 hsel
    exact ⟨sp, hsp, h1, h2, h3, h4, rp, hfig, h5⟩
  · rintro ⟨sp, hsp, h1, h2, h3, h4, rp, hfig, h5⟩
    exact ⟨rp, mem_auditEntries.2 ⟨sp, hsp, (auditSelects_iff hsp).2 ⟨hfig, h1, h2, h3, h4, h5⟩⟩⟩

theorem auditFound_ordered (s : State) : (auditFound s).Pairwise fun x y =>
    (figureAt s x).getD 0 < (figureAt s y).getD 0 ∨
      ((figureAt s x).getD 0 = (figureAt s y).getD 0 ∧ StandsBefore x y) := by
  refine List.pairwise_map.2 ((sortByRp_ordered (auditEntries_ordered s)).imp_of_mem fun {e f} he hf h => ?_)
  have figure {e : SpRef × Nat} (he : e ∈ sortByRp (auditEntries s)) : figureAt s e.1 = some e.2 := by
    obtain ⟨sp, hsp, hsel⟩ := mem_auditEntries.1 ((sortByRp_perm _).mem_iff.1 he)
    exact ((auditSelects_iff hsp).1 hsel).1
  rw [figure he, figure hf]
  exact h

/-! ## The governor window -/

/-- A window close sets the count to 0 after the governor has moved, and the set-point follows a new g (R18, R19). -/
theorem closeWindow_of_governor {v : Speed} (hset : v.setPoint = s.speed.setPoint)
    (hclose : closeWindow s = if v.step = s.speed.step then s.setSpeed { v with winCount := 0 }
      else recomputeSetPoint (s.setSpeed { v with winCount := 0 })) :
    OnlyChanges [.speed, .line] s (closeWindow s) ∧
    (closeWindow s).speed = { v with winCount := 0, setPoint := (closeWindow s).speed.setPoint } ∧
    ((closeWindow s).speed.setPoint =
      if (closeWindow s).speed.step = s.speed.step then s.speed.setPoint else currentSetPoint (closeWindow s)) ∧
    LineRaises (speedRaised s.speed.setPoint (closeWindow s).speed.setPoint) s (closeWindow s) := by
  by_cases hstep : v.step = s.speed.step
  · rw [if_pos hstep] at hclose
    have hsp : (closeWindow s).speed.setPoint = s.speed.setPoint := by rw [hclose]; exact hset
    rw [hsp, speedRaised_self, hclose]
    exact ⟨(setSpeed_frame s _).wide, by rw [← hset]; rfl, (if_pos hstep).symm, .of_same rfl⟩
  · rw [if_neg hstep] at hclose
    have hspeed := recomputeSetPoint_speed (s.setSpeed { v with winCount := 0 })
    have hraise := recomputeSetPoint_lineRaises (s.setSpeed { v with winCount := 0 })
    have hframe := recomputeSetPoint_frame (s.setSpeed { v with winCount := 0 })
    rw [← hclose] at hspeed hraise hframe
    have hcur : currentSetPoint (closeWindow s) = currentSetPoint (s.setSpeed { v with winCount := 0 }) := by
      have ha : (closeWindow s).articles = s.articles := hframe .articles (by decide)
      have hi : (closeWindow s).items = s.items := hframe .items (by decide)
      have hd : (closeWindow s).doff = s.doff := hframe .doff (by decide)
      rw [currentSetPoint, ha, hi, hd, hspeed]
      rfl
    refine ⟨(setSpeed_frame s _).wide.next hframe, by rw [hspeed]; rfl, ?_, ?_⟩
    · rw [hcur, hspeed]
      exact (if_neg hstep).symm
    · rw [hspeed, ← hset]
      exact hraise

end

/-- Settles O55: the audit by what it selects and its order, the window close by the three bands of the rate. -/
theorem auditAndWindowAct : Obligations.AuditAndWindowAct := by
  unfold Obligations.AuditAndWindowAct
  refine ⟨fun s => ?_, fun s => ?_⟩
  · intro rp selected
    refine ⟨auditFound s, ?_, ?_, ?_, auditFound_nodup s, fun x => mem_auditFound_iff, auditFound_ordered s⟩
    all_goals
      rw [rovingAudit_eq]
      by_cases h : auditFound s = []
    · rw [if_pos h]
      exact .refl _ s
    · rw [if_neg h]
      exact (setRoving_frame s _).wide.next (raise_frame _ .rovingLow)
    · rw [if_pos h, h, List.append_nil]
    · rw [if_neg h]
      rfl
    · rw [if_pos h, if_pos h]
      exact .of_same rfl
    · rw [if_neg h, if_neg h]
      exact raise_lineRaises .rovingLow _
  · intro n rate judged t
    by_cases hj : judged
    case neg =>
      obtain ⟨h1, h2, h3, h4⟩ := closeWindow_of_governor (s := s) (v := s.speed) rfl (by
        unfold closeWindow
        dsimp only
        rw [if_neg hj])
      rw [if_pos (by rw [h2])] at h3
      refine ⟨h1, by rw [h2], by rw [h2], fun _ => by rw [h2, h3], fun h => absurd h hj, fun h => absurd h hj,
        fun h => absurd h hj, ?_, h4⟩
      rw [if_pos (by rw [h2])]
      exact h3
    obtain ⟨h1, h2, h3, h4⟩ := closeWindow_of_governor (s := s) (v := stepGovernor s.items rate s.speed)
      (by unfold stepGovernor; split_ifs <;> rfl) (by
        simp only [closeWindow]
        rw [if_pos hj])
    have hv : t.speed = { stepGovernor s.items rate s.speed with winCount := 0, setPoint := t.speed.setPoint } := h2
    refine ⟨h1, by rw [hv], ?_, fun h => absurd hj h, fun _ hhigh => ?_, fun _ hlow hhigh => ?_, fun _ hhigh hlow => ?_,
      h3, h4⟩
    · rw [hv]
      unfold stepGovernor
      split_ifs <;> rfl
    · rw [hv, stepGovernor, if_pos hhigh]
      exact ⟨rfl, rfl⟩
    · rw [hv, stepGovernor, if_neg (by omega), if_neg (by omega)]
      exact ⟨rfl, rfl⟩
    · by_cases hstreak : s.speed.lowStreak < 2
      · rw [if_pos hstreak, hv, stepGovernor, if_neg (by omega), if_pos hlow, if_neg (by omega)]
        exact ⟨rfl, rfl⟩
      · rw [if_neg hstreak, hv, stepGovernor, if_neg (by omega), if_pos hlow, if_pos (by omega)]
        exact ⟨rfl, rfl⟩

end Sys2Proof.Machine
end

