-- ==== Sys2Proof/Proofs/FrameBus.lean ====
section
/-!
PROOFS. The frame bus: the poll and what it carries (O58), the missed poll (O59), and the judgement of an answer (O60).
-/
namespace Sys2Proof.Machine

-- One after another: each theorem as a task of its own takes a thread.
set_option Elab.async false

/-! ## O58: the poll -/

theorem boardStations_eq (side : Side) (n : Nat) :
    boardStations side n = (List.range' 1 n).map fun sec => .board side sec := by
  rw [boardStations, List.range'_eq_map_range, List.map_map]
  exact List.map_congr_left fun i _ => by rw [Function.comp_apply, Nat.add_comm]

/-- The held commands of a board by their positions. -/
theorem heldFrom_eq (l : List (Option Clamp)) (k : Nat) : heldFrom (k + 1) l =
    (List.range' (k + 1) l.length).filterMap fun p => (l[p - (k + 1)]?).join.map fun c => (p, c) := by
  induction l generalizing k with
  | nil => rfl
  | cons h rest ih =>
    have htail : (List.range' (k + 2) rest.length).filterMap
        (fun p => ((h :: rest)[p - (k + 1)]?).join.map fun c => (p, c)) = heldFrom (k + 2) rest := by
      rw [ih (k + 1)]
      refine List.filterMap_congr fun p hp => ?_
      have := (List.mem_range'_1.1 hp).1
      rw [show p - (k + 1) = (p - (k + 2)) + 1 by omega, List.getElem?_cons_succ]
    rw [List.length_cons, List.range'_succ, List.filterMap_cons, htail]
    cases h <;> simp [heldFrom]

/-- The cycle that a poll finds, begun anew where it has ended (R163). -/
def foundCycle (s : State) : List Station := if s.bus.cycle.isEmpty then fullCycle s else s.bus.cycle

theorem execPoll_of_cycle {s : State} {st : Station} {rest : List Station} (hrun : s.phase = .running)
    (hidle : s.bus.awaiting = none) (hcycle : foundCycle s = st :: rest) :
    exec .poll s = .next (pollStation st (s.setBus { s.bus with cycle := rest })) := by
  have hcond : s.phase = .running ∧ s.bus.awaiting.isNone := ⟨hrun, by rw [hidle]; rfl⟩
  change (if s.phase = .running ∧ s.bus.awaiting.isNone then _ else _) = _
  rw [if_pos hcond]
  change (match foundCycle s with | st :: rest => _ | [] => _) = _
  rw [hcycle]

theorem pollStation_machine {s : State} {st : Station} {e : MachineEntry} (h : s.bus.machine st = some e) :
    pollStation st s = s.setBus { s.bus.setMachine st (pollMachine st e).1 with
      awaiting := some (pollMachine st e).2 } := by
  cases st with
  | board side sec => cases h
  | carriage side => simp only [pollStation, h]
  | doffer => simp only [pollStation, h]
  | train => simp only [pollStation, h]

theorem pollStation_frame (st : Station) (s : State) : OnlyChanges [.bus] s (pollStation st s) := by
  cases h : s.bus.machine st with
  | some e =>
    rw [pollStation_machine h]
    exact setBus_frame s _
  | none =>
    cases st with
    | board side sec =>
      simp only [pollStation]
      split
      · exact setBus_frame s _
      · exact .refl _ s
    | _ => cases h

/-- Settles O58: the next station of the cycle, by its kind. -/
theorem pollCarriesWhatIsHeld : Obligations.PollCarriesWhatIsHeld := by
  unfold Obligations.PollCarriesWhatIsHeld
  refine fun s => ⟨fun h => ?_, fun hrun hidle => ?_⟩
  · refine if_neg ?_
    rintro ⟨h1, h2⟩
    rcases h with h | h
    · exact h h1
    · simp [Option.isNone_iff_eq_none.1 h2] at h
  obtain ⟨st, rest, hfound⟩ : ∃ st rest, foundCycle s = st :: rest := by
    unfold foundCycle
    split
    · exact ⟨_, _, rfl⟩
    · next h => exact List.exists_cons_of_ne_nil fun e => h (by rw [e]; rfl)
  refine ⟨_, execPoll_of_cycle hrun hidle hfound, (setBus_frame s _).next (pollStation_frame _ _), ?_⟩
  intro boards cycle st' rest' hcycle
  have hsame : cycle = foundCycle s := by
    simp only [cycle, boards, foundCycle, List.isEmpty_iff, fullCycle, boardStations_eq]
    rfl
  rw [hsame, hfound, List.cons.injEq] at hcycle
  obtain ⟨rfl, rfl⟩ := hcycle
  refine ⟨fun e he => ?_, fun side sec e hst he => ?_, fun side sec hst hnone => ?_⟩
  · have he' : (s.setBus { s.bus with cycle := rest }).bus.machine st = some e := by
      cases st <;> exact he
    rw [pollStation_machine he']
    cases st <;> rfl
  · subst hst
    have he' : (s.setBus { s.bus with cycle := rest }).bus.board side sec = some e := he
    intro held clamps
    have hclamps : clamps = if e.link.status = .silent then [] else clampsToCarry e := by
      simp only [clamps, held, clampsToCarry]
      rw [heldFrom_eq e.held 0]
    rw [hclamps]
    simp only [pollStation, he', pollBoard]
    generalize (if e.link.status = .silent then [] else clampsToCarry e) = l
    cases l.getLast? <;> rfl
  · subst hst
    have hnone' : (s.setBus { s.bus with cycle := rest }).bus.board side sec = none := hnone
    simp only [pollStation, hnone']
    rfl

/-! ## O59: the missed poll -/

/-- Settles O59: the miss of the station whose window closes, by its link. -/
theorem missedPollsEndInSilence : Obligations.MissedPollsEndInSilence := by
  unfold Obligations.MissedPollsEndInSilence
  have hexec {s : State} {m : PollMessage} (hm : s.bus.awaiting = some m) :
      exec .answerWindowExpiry s = .next (missPoll m.station (closeAnswerWindow s)) := by
    simp [exec, execAnswerWindowExpiry, hm]
  have hlink (s : State) (st : Station) : (closeAnswerWindow s).bus.link st = s.bus.link st := by cases st <;> rfl
  refine fun s => ⟨fun h => by simp [exec, execAnswerWindowExpiry, h], fun m hm hnone => ?_, fun m l hm hl => ?_⟩
  · rw [hexec hm, missPoll, hlink, hnone]
    rfl
  · have hmiss : missPoll m.station (closeAnswerWindow s) =
        if l.status = .silent then closeAnswerWindow s
        else if l.miss + 1 < 3 then (closeAnswerWindow s).setBus
          ((closeAnswerWindow s).bus.setLink m.station { l with miss := l.miss + 1 })
        else ownerToldSilent m.station (raise .lineFault ((closeAnswerWindow s).setBus
          ((closeAnswerWindow s).bus.setLink m.station { l with miss := 3, status := .silent, turn := none }))) := by
      rw [missPoll, hlink, hl]
    rw [hexec hm, hmiss]
    refine ⟨fun h => by rw [if_pos h]; rfl, fun h hlt => by rw [if_neg h, if_pos hlt]; rfl, fun h hge => ?_⟩
    rw [if_neg h, if_neg (by omega)]
    refine ⟨raise .lineFault ((closeAnswerWindow s).setBus
      ((closeAnswerWindow s).bus.setLink m.station { l with miss := 3, status := .silent, turn := none })), _, rfl,
      ((setBus_frame s _).wide.next (setBus_frame _ _)).next (raise_frame _ .lineFault), raise_lineRaises .lineFault _,
      rfl, ?_⟩
    cases m.station <;> rfl

/-! ## O60: the judgement of an answer -/

/-- An answer is accepted for its restart mark, for a first turn, or for a turn that is not the last one (R165). -/
theorem Link.accepts_eq (l : Link) (turn restart : Bool) : l.accepts turn restart =
    if restart = true ∧ ¬(l.restartSeen = true ∧ l.turn = some turn) then true
    else if l.turn = none then true else decide (l.turn ≠ some turn) := by
  unfold Link.accepts
  by_cases h : restart = true ∧ ¬(l.restartSeen = true ∧ l.turn = some turn)
  · obtain ⟨rfl, h⟩ := h
    have hmark : (true && !(l.restartSeen && l.turn == some turn)) = true := by
      simpa [Classical.or_iff_not_imp_left] using h
    rw [if_pos ⟨rfl, h⟩, hmark, Bool.true_or]
  · rw [if_neg h]
    have hmark : (restart && !(l.restartSeen && l.turn == some turn)) = false := by simpa using h
    rw [hmark, Bool.false_or]
    cases l.turn <;> simp [bne, beq_eq_decide]

theorem takeReceipt_eq (receipt : Option Bool) (q : List QueuedCommand) :
    takeReceipt receipt q = if q.head?.any (fun c => receipt = some c.turn) then q.tail else q := by
  cases q with
  | nil => rfl
  | cons c rest => simp [takeReceipt]

theorem execStationAnswer_taken {s : State} {a : Answer} {m : PollMessage} (hm : s.bus.awaiting = some m)
    (hok : a.checkOk = true) (hst : a.station = m.station) :
    exec (.stationAnswer a) s = .next (takeAnswer a (closeAnswerWindow s)) := by
  simp [exec, execStationAnswer, hm, hok, hst]

/-- Settles O60: an answer that is taken goes to the entry of its station, and its reports to their owners. -/
theorem answersAreJudged : Obligations.AnswersAreJudged := by
  unfold Obligations.AnswersAreJudged
  intro accepted link entry
  have haccepts (l : Link) (a : Answer) : l.accepts a.turn a.restart = accepted l a := l.accepts_eq a.turn a.restart
  have hlink (l : Link) (a : Answer) : l.answered a.turn a.restart = link l a := by
    simp only [Link.answered, haccepts, link]
  have hentry (e : MachineEntry) (a : Answer) (receipt : Option Bool) :
      e.answered a.turn a.restart receipt = entry e a receipt := by
    simp only [MachineEntry.answered, hlink, haccepts, takeReceipt_eq, entry, Bool.and_eq_true]
  have hstation {a : Answer} {st : Station} {p : Payload} (hp : a.payload = p)
      (h : (⟨a.checkOk, a.turn, a.restart, p⟩ : Answer).station = st) : a.station = st := by
    rw [← h, ← hp]
  refine ⟨fun s a h => by simp [exec, execStationAnswer, h], fun s a m hm hno => ?_,
    fun s a m receipt report hm hok hst hp => ?_, fun s a m receipt report hm hok hst hp => ?_,
    fun s a m side receipt report hm hok hst hp => ?_, fun s a m side sec items e hm hok hst hp he => ?_,
    fun s a m side sec items hm hok hst hp hnone => ?_, fun s side sec p c hp => ?_, fun s side sec p c e h1 h48 => ?_⟩
  · simp [exec, execStationAnswer, execAnswerWindowExpiry, hm, if_neg hno]
  · rw [execStationAnswer_taken hm hok ((hstation hp rfl).trans hst.symm)]
    simp only [takeAnswer, hp, trainAnswer, hentry, haccepts]
    rfl
  · rw [execStationAnswer_taken hm hok ((hstation hp rfl).trans hst.symm)]
    simp only [takeAnswer, hp, dofferAnswer, hentry, haccepts]
    rfl
  · rw [execStationAnswer_taken hm hok ((hstation hp rfl).trans hst.symm)]
    simp only [takeAnswer, hp, carriageAnswer, hentry, haccepts]
    rfl
  · rw [execStationAnswer_taken hm hok ((hstation hp rfl).trans hst.symm)]
    have he' : (closeAnswerWindow s).bus.board side sec = some e := he
    simp only [takeAnswer, hp, boardAnswer, he', haccepts, BoardEntry.answered, hlink, Bool.and_eq_true]
    rfl
  · rw [execStationAnswer_taken hm hok ((hstation hp rfl).trans hst.symm)]
    have hnone' : (closeAnswerWindow s).bus.board side sec = none := hnone
    simp only [takeAnswer, hp, boardAnswer, hnone']
    rfl
  · have hout : (decide (1 ≤ p) && decide (p ≤ 48)) = false := by simpa using hp
    simp [boardItem, hout]
  · have hin : (decide (1 ≤ p) && decide (p ≤ 48)) = true := by simp [h1, h48]
    refine ⟨by simp [boardItem, hin, sidePos], by simp [boardItem, hin, sidePos], fun he => ?_⟩
    simp [boardItem, hin, clampAck, he]

end Sys2Proof.Machine
end

