-- ==== Sys2Proof/Proofs/DoffCompleted.lean ====
section
/-!
PROOFS. The completion of a doff (O38): the cops and the fill, the exchange that is due, and the end of the doff.
-/
namespace Sys2Proof.Machine

-- One after another: each theorem as a task of its own takes a thread.
set_option Elab.async false

/-! ## The cops and the cop base -/

section
variable {s c e u : State}

/-- A record with its interval closed and its cop at 0 (R27). -/
def Spindle.doffed (s : State) (sp : Spindle) : Spindle := { sp.close s.articles.active s.flmm with cop := 0 }

/-- The set-point of a doff with the cops reset (R12 to R15). -/
def doffedSetPoint (s : State) : Nat := setPointOf s.articles.active 0 s.items.speedTrim s.speed.step .doffing

/-- What the split and the cop reset leave (R27). -/
structure CopsReset (s c : State) : Prop where
  frame : OnlyChanges [.spindles, .speed, .doff, .shift, .line] s c
  doff : c.doff = { s.doff with copBase := s.flmm }
  speed : c.speed = { s.speed with fill := 0, setPoint := doffedSetPoint s }
  spindles : ∀ side, c.spindles.get side = (s.spindles.get side).map (·.doffed s)
  credited : ∀ side, Credited side (openSum (s.spindles.get side) s.flmm) s c
  books : BooksKept s c
  raises : LineRaises (speedRaised s.speed.setPoint (doffedSetPoint s)) s c

theorem zeroCops_get (s : State) (side : Side) :
    (zeroCops s).spindles.get side = (s.spindles.get side).map fun sp => { sp with cop := 0 } := by
  cases side <;> rfl

theorem zeroCops_frame (s : State) : OnlyChanges [.spindles] s (zeroCops s) := setSpindles_frame _ _ |>.comp (setSpindles_frame s _)

theorem resetCops_resets (hframe : s.doff.frame = .doffing) (hsp : s.speed.setPoint = currentSetPoint s)
    (hfits : RunsFit s) : CopsReset s (resetCops s) := by
  have hsplit := split_frame s
  have hzero := zeroCops_frame (split s)
  obtain ⟨z, hz⟩ : ∃ z, z = (zeroCops (split s)).setDoff
    { (zeroCops (split s)).doff with copBase := (zeroCops (split s)).flmm } := ⟨_, rfl⟩
  have hzf : OnlyChanges [.spindles, .shift, .doff] s z := by
    rw [hz]
    exact (hsplit.wide.next hzero).next (setDoff_frame _ _)
  have hflmm : z.flmm = s.flmm := hzf.flmm
  have hdoff : z.doff = { s.doff with copBase := s.flmm } := by
    have hd : (zeroCops (split s)).doff = s.doff := (hzero .doff (by decide)).trans (hsplit .doff (by decide))
    have hx : (zeroCops (split s)).flmm = s.flmm := hzero.flmm.trans hsplit.flmm
    rw [hz, ← hx, ← hd]
    rfl
  have hspeed : z.speed = s.speed := hzf .speed (by decide)
  have hart : z.articles = s.articles := hzf .articles (by decide)
  have hitems : z.items = s.items := hzf .items (by decide)
  have hshift : z.shift = (split s).shift := by
    rw [hz]
    exact hzero .shift (by decide)
  have hzframe : z.doff.frame = .doffing := by rw [hdoff]; exact hframe
  have hcur : z.speed.setPoint = currentSetPoint z := by
    rw [hspeed, hsp, currentSetPoint, currentSetPoint, hart, hspeed, hitems, hzframe, hframe]
  have hfill : fillOf z = 0 := by
    rw [fillOf, hflmm, hdoff]
    simp
  have hset : filledSetPoint z = doffedSetPoint s := by
    rw [filledSetPoint, hfill, hart, hitems, hspeed, hzframe, doffedSetPoint]
  obtain ⟨hrf, hrs, hrl⟩ := recomputeFill_moves_speed z (by simp [hzframe]) (by simp [hzframe]) hcur
  have hc : resetCops s = recomputeFill z := by rw [resetCops_eq, hz]
  rw [hfill, hset, hspeed] at hrs
  rw [hset, hspeed] at hrl
  rw [hc]
  refine ⟨hzf.wide.next hrf, (hrf .doff (by decide)).trans hdoff, hrs, fun side => ?_, fun side => ?_,
    (split_booksKept s).trans (.of_shift ((hrf .shift (by decide)).trans hshift)), hrl.from_same (hzf .line (by decide))⟩
  · rw [show (recomputeFill z).spindles = z.spindles from hrf .spindles (by decide), hz]
    refine (zeroCops_get _ side).trans ?_
    rw [(split_credits hfits side).1, List.map_map]
    rfl
  · have hcr := (split_credits hfits side).2
    have hsh : (recomputeFill z).shift = (split s).shift := (hrf .shift (by decide)).trans hshift
    unfold Credited at hcr ⊢
    rw [hsh]
    exact hcr

/-! ## The exchange that is due -/

/-- The article that a due exchange makes active, where its cross check holds (R116). -/
def dueArticle (s : State) : Option Article :=
  if s.articles.request = true then
    s.articles.staged.filter fun a => s.items.rovingThreshold + s.items.runoutMargin < a.bobbin
  else none

/-- The articles after a due exchange (R111, R117). -/
def dueArticles (s : State) : ArticleStore :=
  match s.articles.request, dueArticle s with
  | false, _ => s.articles
  | true, some a => ⟨a, some s.articles.active, false, some ⟨.done, .doff s.doff.number, s.flmm⟩⟩
  | true, none => { s.articles with
      request := false
      last := some ⟨if s.articles.staged = none then .noStaged else .rovingMismatch, .doff s.doff.number,
        s.flmm⟩ }

/-- The set-point after the cop reset and a due exchange. -/
def dueSetPoint (s : State) : Nat :=
  match dueArticle s with
  | some a => setPointOf a 0 s.items.speedTrim 0 .doffing
  | none => doffedSetPoint s

/-- SHIFT_SATURATED, where the count of a due exchange sets the marker (R147). -/
def dueSaturates (s : State) : List PendClass :=
  if (dueArticle s).isSome = true ∧ s.shift.live.exchanges = 65534 ∧ s.shift.live.marker = false then [.shiftSaturated]
  else []

/-- What a due exchange leaves after the cop reset. -/
structure DueExchange (s c e : State) : Prop where
  frame : OnlyChanges [.spindles, .speed, .articles, .shift, .line] c e
  speed : e.speed = { s.speed with
    fill := 0, step := if (dueArticle s).isSome then 0 else s.speed.step, setPoint := dueSetPoint s }
  articles : e.articles = dueArticles s
  spindles : ∀ side, e.spindles.get side = c.spindles.get side
  run : ∀ side, (e.shift.live.sides.get side).run = (c.shift.live.sides.get side).run
  mass : ∀ side, (e.shift.live.sides.get side).mass = (c.shift.live.sides.get side).mass
  possible : ∀ side, (e.shift.live.sides.get side).possible = (s.shift.live.sides.get side).possible
  counts : ∀ side, (e.shift.live.sides.get side).counts = (s.shift.live.sides.get side).counts
  exchanges : e.shift.live.exchanges =
    if (dueArticle s).isSome then oneMore s.shift.live.exchanges else s.shift.live.exchanges
  doffs : e.shift.live.doffs = s.shift.live.doffs
  marker : e.shift.live.marker = (s.shift.live.marker || ((dueArticle s).isSome && s.shift.live.exchanges == 65534))
  marks : e.shift.marks = s.shift.marks
  history : e.shift.history = s.shift.history
  seq : e.shift.seq = s.shift.seq
  raises : LineRaises (speedRaised (doffedSetPoint s) (dueSetPoint s) ++ dueSaturates s ++
    if s.articles.request = true then [.article] else []) c e

/-- A closed record has nothing left to close. -/
theorem close_doffed (art : Article) (s : State) (sp : Spindle) : (sp.doffed s).close art s.flmm = sp.doffed s := by
  by_cases hst : sp.state = .running
  · have hceil (d : Nat) : ceilDiv 0 d = 0 := by
      unfold ceilDiv
      rcases Nat.eq_zero_or_pos d with rfl | hd
      · rfl
      · exact Nat.div_eq_of_lt (by omega)
    simp [Spindle.doffed, Spindle.close, hst, Spindle.openLength, debit, hceil, Option.map_map, Function.comp_def]
  · simp [Spindle.doffed, Spindle.close, hst]

theorem openSum_doffed (s : State) (l : List Spindle) : openSum (l.map (·.doffed s)) s.flmm = 0 := by
  unfold openSum
  rw [List.map_map, List.sum_eq_zero_iff]
  intro n hn
  obtain ⟨sp, -, rfl⟩ := List.mem_map.1 hn
  exact close_openLength s.articles.active s.flmm sp

/-- No exchange changes the shift: the records, the books and the speed stay those of the cop reset. -/
theorem CopsReset.without_exchange (h : CopsReset s c) (hnone : dueArticle s = none)
    (hframe : OnlyChanges [.articles, .line] c e) (harticles : e.articles = dueArticles s)
    (hraise : LineRaises (if s.articles.request = true then [.article] else []) c e) : DueExchange s c e := by
  have hshift : e.shift = c.shift := hframe .shift (by decide)
  have hset : dueSetPoint s = doffedSetPoint s := by rw [dueSetPoint, hnone]
  obtain ⟨hposs, hcounts, hex, hdoffs, hmark, hmarks, hhist, hseq⟩ := h.books
  constructor
  case frame => exact hframe.wide
  case speed => rw [hframe .speed (by decide), h.speed, hnone, hset]; rfl
  case articles => exact harticles
  case spindles => exact fun side => congrArg (·.get side) (hframe .spindles (by decide))
  case run => intro side; rw [hshift]
  case mass => intro side; rw [hshift]
  case possible => intro side; rw [hshift, hposs]
  case counts => intro side; rw [hshift, hcounts]
  case exchanges => rw [hshift, hex, hnone]; rfl
  case doffs => rw [hshift, hdoffs]
  case marker => rw [hshift, hmark, hnone]; simp
  case marks => rw [hshift, hmarks]
  case history => rw [hshift, hhist]
  case seq => rw [hshift, hseq]
  case raises =>
    rw [hset, speedRaised_self, dueSaturates, hnone]
    exact hraise

/-- The exchange after the cop reset finds every interval closed. -/
theorem CopsReset.with_exchange (h : CopsReset s c) (hframe : s.doff.frame = .doffing) (hfits : RunsFit s) {a : Article}
    (hsome : dueArticle s = some a) (hreq : s.articles.request = true)
    (hmade : e = makeExchange a (.doff c.doff.number) c) : DueExchange s c e := by
  have hflmm : c.flmm = s.flmm := h.frame.flmm
  have hart : c.articles = s.articles := h.frame .articles (by decide)
  have hitems : c.items = s.items := h.frame .items (by decide)
  have hcframe : c.doff.frame = .doffing := by rw [h.doff]; exact hframe
  have hzero (side : Side) : openSum (c.spindles.get side) c.flmm = 0 := by
    rw [h.spindles, hflmm, openSum_doffed]
  have hcfits : RunsFit c := by
    intro side
    obtain ⟨hrun, hmass⟩ := hfits side
    obtain ⟨hcrun, hcmass⟩ := h.credited side
    rw [hzero, hcrun, hcmass, Nat.zero_mul, Nat.add_zero, Nat.add_zero]
    exact ⟨hrun, hmass⟩
  have hex := makeExchange_exchanges a (.doff c.doff.number) (by simp [hcframe]) (by simp [hcframe]) hcfits
  have hstore := makeExchange_articles c a (.doff c.doff.number)
  rw [← hmade] at hex hstore
  obtain ⟨hposs, hcounts, hexs, hdoffs, hmark, hmarks, hhist, hseq⟩ := h.books
  have hfill : min 1024 ((c.flmm - c.doff.copBase) * 1024 / (a.copLength * 1000)) = 0 := by
    rw [hflmm, h.doff]
    simp
  have hset : exchangedSetPoint a c = dueSetPoint s := by
    rw [exchangedSetPoint, hfill, hitems, hcframe, dueSetPoint, hsome]
  constructor
  case frame => exact hex.frame
  case speed => rw [hex.speed, hfill, hset, h.speed, hsome]; rfl
  case articles =>
    rw [hstore, hart, hflmm, h.doff, dueArticles, hreq, hsome]
  case spindles =>
    intro side
    rw [hex.spindles, hflmm, h.spindles, List.map_map]
    exact List.map_congr_left fun sp _ => close_doffed _ s sp
  case run =>
    intro side
    rw [(hex.credited side).1, hzero, Nat.add_zero]
  case mass =>
    intro side
    rw [(hex.credited side).2, hzero, Nat.zero_mul, Nat.add_zero]
  case possible => intro side; rw [hex.possible, hposs]
  case counts => intro side; rw [hex.counts, hcounts]
  case exchanges => rw [hex.exchanges, hexs, hsome]; rfl
  case doffs => rw [hex.doffs, hdoffs]
  case marker => rw [hex.marker, hmark, hexs, hsome]; rfl
  case marks => rw [hex.marks, hmarks]
  case history => rw [hex.history, hhist]
  case seq => rw [hex.seq, hseq]
  case raises =>
    have hraise := hex.raises
    rw [hset, h.speed, hexs, hmark] at hraise
    rw [dueSaturates, hsome, if_pos hreq]
    simpa using hraise

/-- The exchange that is due at a completed doff, by the request, the staged article and its cross check (R115 to
R117). -/
theorem dueExchange_due (h : CopsReset s c) (hframe : s.doff.frame = .doffing) (hfits : RunsFit s) :
    DueExchange s c (dueExchange c) := by
  have hflmm : c.flmm = s.flmm := h.frame.flmm
  have hart : c.articles = s.articles := h.frame .articles (by decide)
  have hitems : c.items = s.items := h.frame .items (by decide)
  have hnumber : c.doff.number = s.doff.number := by rw [h.doff]
  by_cases hreq : s.articles.request = true
  case neg =>
    have hno : dueArticle s = none := if_neg hreq
    have hsame : dueExchange c = c := if_neg (by rw [hart]; exact hreq)
    have hreq' : s.articles.request = false := by simpa using hreq
    rw [hsame]
    refine h.without_exchange hno (.refl _ c) ?_ ?_
    · rw [hart, dueArticles, hreq']
    · rw [if_neg hreq]
      exact .of_same rfl
  have hdue : dueExchange c = attemptExchange (.doff c.doff.number) c := if_pos (by rw [hart]; exact hreq)
  have hrefused (r : ExchangeReason) (hno : dueArticle s = none)
      (hr : r = if s.articles.staged = none then .noStaged else .rovingMismatch)
      (hcheck : exchangeCheck c = .error r) : DueExchange s c (dueExchange c) := by
    obtain ⟨hf, hl, ha⟩ := refuseExchange_moves r (.doff c.doff.number) c
    have hsame : dueExchange c = refuseExchange r (.doff c.doff.number) c := by rw [hdue, attemptExchange, hcheck]
    rw [hsame]
    refine h.without_exchange hno hf ?_ (by rw [if_pos hreq]; exact hl)
    rw [ha, hart, hflmm, hnumber, dueArticles, hreq, hno, hr]
  cases hst : s.articles.staged with
  | none =>
    refine hrefused .noStaged ?_ (by rw [hst]; rfl) (exchangeCheck_of_none (by rw [hart]; exact hst))
    rw [dueArticle, if_pos hreq, hst]
    rfl
  | some a =>
    have hcheck := exchangeCheck_of_some (s := c) (by rw [hart]; exact hst)
    rw [hitems] at hcheck
    by_cases hx : s.items.rovingThreshold + s.items.runoutMargin < a.bobbin
    · rw [if_pos hx] at hcheck
      refine h.with_exchange hframe hfits (a := a) ?_ hreq (by rw [hdue, attemptExchange, hcheck])
      rw [dueArticle, if_pos hreq, hst, Option.filter_some, if_pos (by simpa using hx)]
    · rw [if_neg hx] at hcheck
      refine hrefused .rovingMismatch ?_ (by rw [hst]; rfl) hcheck
      rw [dueArticle, if_pos hreq, hst, Option.filter_some, if_neg (by simpa using hx)]

/-! ## The end of the doff -/

/-- DOFF_STOP for a doffer that has been sent, where the doff is completed by hand (R99). -/
theorem stopDoffer_bus (byHand : Bool) (s : State) : (stopDoffer byHand s).bus = { s.bus with
    doffer := if byHand = true ∧ s.doff.go = .sent then s.bus.doffer.appendDoffStop else s.bus.doffer } := by
  unfold stopDoffer
  split <;> rfl

/-- What the end of a doff leaves after the exchange (R99). -/
structure DoffEnds (byHand : Bool) (e u : State) : Prop where
  frame : OnlyChanges [.carriages, .doff, .shift, .bus, .line] e u
  doff : u.doff = { e.doff with
    frame := .restartWait, go := .none, ready := false, timer := none
    last := e.doff.last.map fun r => { r with outcome := some .done, faultCode := none } }
  carriages : ∀ side, u.carriages.get side = (e.carriages.get side).freedFromDoff
  shift : u.shift = { e.shift with live := { e.shift.live with
    doffs := oneMore e.shift.live.doffs
    marker := e.shift.live.marker || e.shift.live.doffs == 65534 } }
  bus : u.bus = { e.bus with
    doffer := if byHand = true ∧ e.doff.go = .sent then e.bus.doffer.appendDoffStop else e.bus.doffer }
  raises : LineRaises ((if e.shift.live.doffs = 65534 ∧ e.shift.live.marker = false then [.shiftSaturated] else []) ++
    [.frameState]) e u

theorem endOfDoff_ends (byHand : Bool) (hframe : e.doff.frame = .doffing)
    (hu : u = changeFrame .restartWait (endDoffer (stopDoffer byHand
      (countFrame .doff (recordOutcome .done none (clearDoffHolds e)))))) : DoffEnds byHand e u := by
  obtain ⟨d, hd⟩ : ∃ d, d = recordOutcome .done none (clearDoffHolds e) := ⟨_, rfl⟩
  have hde : OnlyChanges [.carriages, .doff] e d := by
    rw [hd]
    exact (clearDoffHolds_frame e).wide.next (recordOutcome_frame _ _ _)
  have hddoff : d.doff = e.doff.outcomeIs .done none := by rw [hd]; rfl
  obtain ⟨hcount, hcountLine⟩ := countDoff_counts d
  have hcountFrame := countFrame_frame d .doff
  rw [← hd] at hu
  obtain ⟨k, hk⟩ : ∃ k, k = countFrame .doff d := ⟨_, rfl⟩
  rw [← hk] at hu hcount hcountLine hcountFrame
  have hstop := stopDoffer_frame k byHand
  have hstopBus := stopDoffer_bus byHand k
  obtain ⟨w, hw⟩ : ∃ w, w = endDoffer (stopDoffer byHand k) := ⟨_, rfl⟩
  rw [← hw] at hu
  have hkdoff : k.doff = e.doff.outcomeIs .done none := (hcountFrame .doff (by decide)).trans hddoff
  have hwdoff : w.doff = { e.doff.outcomeIs .done none with timer := none, go := .none, ready := false } := by
    rw [hw, endDoffer_doff, show (stopDoffer byHand k).doff = k.doff from hstop .doff (by decide), hkdoff]
  have hkw : OnlyChanges [.doff, .bus] k w := by
    rw [hw]
    exact hstop.wide.next (endDoffer_frame _)
  have hchange : u = raise .frameState (w.setDoff { w.doff with frame := .restartWait }) := by
    rw [hu]
    exact changeFrame_of_uncapped w (by rw [hwdoff]; exact congrArg FrameState.capped hframe) rfl
  have hwu : OnlyChanges [.doff, .line] w u := by
    rw [hchange]
    exact (setDoff_frame w _).wide.next (raise_frame _ .frameState)
  have hdshift : d.shift = e.shift := hde .shift (by decide)
  rw [hdshift] at hcount hcountLine
  constructor
  case frame => exact ((hde.wide.next hcountFrame).next hkw).next hwu
  case doff =>
    rw [hchange]
    change { w.doff with frame := .restartWait } = _
    rw [hwdoff]
    rfl
  case carriages =>
    intro side
    have hcar : u.carriages = d.carriages :=
      (hwu .carriages (by decide)).trans ((hkw .carriages (by decide)).trans (hcountFrame .carriages (by decide)))
    rw [hcar, hd]
    exact clearDoffHolds_get e side
  case shift => rw [show u.shift = k.shift from (hwu .shift (by decide)).trans (hkw .shift (by decide)), hcount]
  case bus =>
    have hkbus : k.bus = e.bus := (hcountFrame .bus (by decide)).trans (hde .bus (by decide))
    have hwbus : w.bus = (stopDoffer byHand k).bus := by rw [hw]; rfl
    rw [show u.bus = w.bus from hwu .bus (by decide), hwbus, hstopBus, hkbus, hkdoff]
    rfl
  case raises =>
    rw [hchange]
    exact ((hcountLine.next hkw).next (setDoff_frame w _)).trans (raise_lineRaises .frameState _) |>.from_same
      (hde .line (by decide))

/-! ## The doff as a whole -/

/-- What a completed doff leaves (R99). -/
def DoffCompleted (byHand : Bool) (s u : State) : Prop :=
  let new := dueArticle s
  let sp1 := doffedSetPoint s
  let sp2 := dueSetPoint s
  OnlyChanges [.spindles, .speed, .carriages, .doff, .articles, .shift, .bus, .line] s u ∧
  u.doff = { s.doff with
    frame := .restartWait, copBase := s.flmm, go := .none, ready := false, timer := none
    last := s.doff.last.map fun r => { r with outcome := some .done, faultCode := none } } ∧
  u.speed = { s.speed with
    fill := 0, step := if new.isSome then 0 else s.speed.step, setPoint := sp2 } ∧
  u.articles = dueArticles s ∧
  BothSides (fun side =>
    u.spindles.get side =
      (s.spindles.get side).map (fun sp => { sp.close s.articles.active s.flmm with cop := 0 }) ∧
    Credited side (openSum (s.spindles.get side) s.flmm) s u ∧
    (u.shift.live.sides.get side).possible = (s.shift.live.sides.get side).possible ∧
    (u.shift.live.sides.get side).counts = (s.shift.live.sides.get side).counts ∧
    u.carriages.get side = (s.carriages.get side).freedFromDoff) ∧
  u.shift.live.doffs = oneMore s.shift.live.doffs ∧
  (u.shift.live.exchanges = if new.isSome then oneMore s.shift.live.exchanges else s.shift.live.exchanges) ∧
  u.shift.live.marker =
    (s.shift.live.marker || s.shift.live.doffs == 65534 || (new.isSome && s.shift.live.exchanges == 65534)) ∧
  u.shift.marks = s.shift.marks ∧ u.shift.history = s.shift.history ∧ u.shift.seq = s.shift.seq ∧
  u.bus = { s.bus with
    doffer := if byHand = true ∧ s.doff.go = .sent then s.bus.doffer.appendDoffStop else s.bus.doffer } ∧
  LineRaises (.frameState :: speedRaised s.speed.setPoint sp1 ++ speedRaised sp1 sp2 ++
    (if s.articles.request = true then [.article] else []) ++
    if s.shift.live.marker = false ∧
        (s.shift.live.doffs = 65534 ∨ (new.isSome ∧ s.shift.live.exchanges = 65534)) then [.shiftSaturated]
    else []) s u

/-- The counts of an exchange and of a doff raise SHIFT_SATURATED once between them (R147). -/
theorem mem_doffSaturates {k : PendClass} {marker : Bool} {new : Bool} {doffs exchanges : Nat} :
    (k ∈ (if new = true ∧ exchanges = 65534 ∧ marker = false then [PendClass.shiftSaturated] else []) ∨
      k ∈ (if doffs = 65534 ∧ (marker || (new && exchanges == 65534)) = false then [PendClass.shiftSaturated] else [])) ↔
    k ∈ (if marker = false ∧ (doffs = 65534 ∨ (new ∧ exchanges = 65534)) then [PendClass.shiftSaturated] else []) := by
  have hmem (p : Prop) [Decidable p] : k ∈ (if p then [PendClass.shiftSaturated] else []) ↔ p ∧ k = .shiftSaturated := by
    split <;> simp_all
  have hfree : (marker || (new && exchanges == 65534)) = false ↔ marker = false ∧ ¬(new = true ∧ exchanges = 65534) := by
    simp
  rw [hmem, hmem, hmem, hfree]
  tauto

theorem completeDoff_completes (byHand : Bool) (hframe : s.doff.frame = .doffing)
    (hsp : s.speed.setPoint = currentSetPoint s) (hfits : RunsFit s) : DoffCompleted byHand s (completeDoff byHand s) := by
  have hc := resetCops_resets hframe hsp hfits
  have hdue := dueExchange_due hc hframe hfits
  have hcframe : (resetCops s).doff.frame = .doffing := by rw [hc.doff]; exact hframe
  have heframe : (dueExchange (resetCops s)).doff.frame = .doffing := by
    rw [show (dueExchange (resetCops s)).doff = (resetCops s).doff from hdue.frame .doff (by decide)]
    exact hcframe
  have hend := endOfDoff_ends byHand heframe (completeDoff_eq byHand s)
  obtain ⟨u, hu⟩ : ∃ u, u = completeDoff byHand s := ⟨_, rfl⟩
  rw [← hu] at hend ⊢
  generalize dueExchange (resetCops s) = e at hdue hend
  generalize resetCops s = c at hc hdue
  have hcart : c.articles = s.articles := hc.frame .articles (by decide)
  have hcs : OnlyChanges [.spindles, .speed, .doff, .shift, .line, .articles] s e := hc.frame.wide.next hdue.frame
  have hebus : e.bus = s.bus := hcs .bus (by decide)
  have hecar : e.carriages = s.carriages := hcs .carriages (by decide)
  have hedoff : e.doff = { s.doff with copBase := s.flmm } := (hdue.frame .doff (by decide)).trans hc.doff
  have hside (side : Side) : u.spindles.get side =
        (s.spindles.get side).map (fun sp => { sp.close s.articles.active s.flmm with cop := 0 }) ∧
      Credited side (openSum (s.spindles.get side) s.flmm) s u ∧
      (u.shift.live.sides.get side).possible = (s.shift.live.sides.get side).possible ∧
      (u.shift.live.sides.get side).counts = (s.shift.live.sides.get side).counts ∧
      u.carriages.get side = (s.carriages.get side).freedFromDoff := by
    refine ⟨?_, ?_, ?_, ?_, ?_⟩
    · rw [show u.spindles = e.spindles from hend.frame .spindles (by decide), hdue.spindles, hc.spindles]
      rfl
    · obtain ⟨hrun, hmass⟩ := hc.credited side
      rw [← hdue.run] at hrun
      rw [← hdue.mass] at hmass
      unfold Credited
      rw [hend.shift]
      exact ⟨hrun, hmass⟩
    · rw [hend.shift]
      exact hdue.possible side
    · rw [hend.shift]
      exact hdue.counts side
    · rw [hend.carriages, hecar]
  refine ⟨hcs.wide.next hend.frame, ?_, ?_, ?_, ⟨hside .a, hside .b⟩, ?_, ?_, ?_, ?_, ?_, ?_, ?_, ?_⟩
  · rw [hend.doff, hedoff]
  · rw [show u.speed = e.speed from hend.frame .speed (by decide), hdue.speed]
  · rw [show u.articles = e.articles from hend.frame .articles (by decide), hdue.articles]
  · rw [hend.shift, ← hdue.doffs]
  · rw [hend.shift, ← hdue.exchanges]
  · rw [hend.shift, Bool.or_right_comm, ← hdue.marker, ← hdue.doffs]
  · rw [hend.shift, ← hdue.marks]
  · rw [hend.shift, ← hdue.history]
  · rw [hend.shift, ← hdue.seq]
  · rw [hend.bus, hebus, hedoff]
  · have hraise := (hc.raises.trans hdue.raises).trans hend.raises
    rw [hdue.doffs, hdue.marker] at hraise
    refine hraise.congr fun k => ?_
    simp only [List.mem_append, List.mem_cons, List.not_mem_nil, or_false]
    rw [← mem_doffSaturates, dueSaturates]
    tauto

end

/-- Settles O38: while DOFFING the doff is completed, by hand or by the doffer's report. -/
theorem doffIsCompleted : Obligations.DoffIsCompleted := by
  unfold Obligations.DoffIsCompleted
  intro completed
  have hcompletes {byHand : Bool} {s : State} (hframe : s.doff.frame = .doffing) (hrun : s.phase = .running)
      (hfits : CreditsFit s) (hspeed : SpeedLaw s) : completed byHand s (completeDoff byHand s) :=
    completeDoff_completes byHand hframe (hspeed.1 hrun).1 hfits.runsFit
  refine ⟨fun s hs => ⟨fun hframe => ?_, fun hframe hfits hspeed => ?_⟩, fun s hrun hframe hgo hfits hspeed => ?_⟩
  · refine hs.refuses (r := ⟨0x1C#8, []⟩) rfl rfl (by omega) fun l s' e => ?_
    have hframe' : s'.doff.frame ≠ .doffing := by rw [e]; exact hframe
    unfold doffManualDone
    split
    · next h => exact absurd h hframe'
    all_goals rfl
  · refine hs.replies (r := ⟨0x1C#8, []⟩) rfl rfl fun l s' e => ⟨completeDoff true s', ?_, ?_⟩
    all_goals
      have hframe' : s'.doff.frame = .doffing := by rw [e]; exact hframe
      have hdone : completed true s' (completeDoff true s') := hcompletes hframe' (by rw [e]; exact hs.1)
        (by rw [e]; exact hfits) (by rw [e]; exact hspeed)
    · obtain ⟨-, hdoff, -⟩ := hdone
      have hcontent : frameContent (completeDoff true s') = [6#8] := by
        rw [frameContent_eq, hdoff]
        rfl
      rw [← hcontent]
      unfold doffManualDone
      rw [hframe']
      rfl
    · exact hdone
  · have hreport : dofferReport .doffDone s = completeDoff false s := by
      unfold dofferReport
      rw [hgo]
    rw [hreport]
    exact hcompletes hframe hrun hfits hspeed

end Sys2Proof.Machine
end

