-- ==== Sys2Proof/Proofs/Pulses.lean ====
section
/-!
PROOFS. One ENCODER_PULSE and the readers of the advance that it makes (O18).
-/
namespace Sys2Proof.Machine

-- One after another: each theorem as a task of its own takes a thread.
set_option Elab.async false

/-! ## What each reader makes of the fill (R10, R11) -/

section
variable (s : State)

theorem judgeFill_fill : (judgeFill s).speed.fill = s.speed.fill :=
  judgeFill_keeps (P := fun u => u.speed.fill = s.speed.fill) s (fun u _ hu => (changeFrame_fill u .doffPending).trans hu)
    (fun u _ hu => (changeFrame_fill u .doffStopping).trans hu) rfl

theorem recomputeSetPoint_fill : (recomputeSetPoint s).speed.fill = s.speed.fill := by
  rw [recomputeSetPoint_speed]

theorem recomputeFill_fill : (recomputeFill s).speed.fill = fillOf s := by
  unfold recomputeFill
  split
  · next h => exact h.symm
  · rw [recomputeSetPoint_fill, judgeFill_fill, State.setSpeed_speed]

theorem stepGovernor_fill (items : Items) (rate : Nat) (v : Speed) : (stepGovernor items rate v).fill = v.fill := by
  unfold stepGovernor
  split_ifs <;> rfl

theorem closeWindow_fill : (closeWindow s).speed.fill = s.speed.fill := by
  unfold closeWindow
  dsimp only
  split_ifs <;> simp [recomputeSetPoint_fill, stepGovernor_fill]

theorem endWatch_fill : (endWatch s).speed.fill = s.speed.fill := by
  unfold endWatch
  rw [judgeFill_fill, restoreContext_frame _ .speed (by decide), changeFrame_fill]
  rfl

theorem endWatch_copBase : (endWatch s).doff.copBase = s.doff.copBase := by
  rw [endWatch_eq]
  exact judgeFill_doff_keeps (P := fun d => d.copBase = s.doff.copBase) _ (fun _ _ hd => hd) (fun _ _ _ hd => hd)
    (by simp [Doff.restored])

/-- The fill is recomputed by its own reader alone. -/
theorem runReader_fill (r : Reader) : (runReader s r).speed.fill = if r = .fill then fillOf s else s.speed.fill := by
  have still (f : FrameState) (u : State) : (dispatchOnEntry f u).speed = u.speed :=
    dispatchOnEntry_frame u f .speed (by decide)
  cases r with
  | fill => exact (congrArg Speed.fill (still _ _)).trans (recomputeFill_fill s)
  | window => exact closeWindow_fill s
  | audit => exact congrArg Speed.fill (rovingAudit_frame s .speed (by decide))
  | watch => exact (congrArg Speed.fill (still _ _)).trans (endWatch_fill s)

theorem runReader_copBase (r : Reader) : (runReader s r).doff.copBase = s.doff.copBase := by
  have still (f : FrameState) (u : State) : (dispatchOnEntry f u).doff = u.doff :=
    dispatchOnEntry_frame u f .doff (by decide)
  cases r with
  | fill =>
    exact (congrArg Doff.copBase (still _ _)).trans
      (recomputeFill_doff_keeps (P := fun d => d.copBase = s.doff.copBase) s (fun _ _ hd => hd) (fun _ _ _ hd => hd) rfl)
  | window => exact congrArg Doff.copBase (closeWindow_frame s .doff (by decide))
  | audit => exact congrArg Doff.copBase (rovingAudit_frame s .doff (by decide))
  | watch => exact (congrArg Doff.copBase (still _ _)).trans (endWatch_copBase s)

/-- No reader moves what the fill is formed of. -/
theorem runReader_fillOf (r : Reader) : fillOf (runReader s r) = fillOf s := by
  have hf := runReader_frame s r
  rw [fillOf, runReader_copBase, hf.flmm, hf .articles (by decide), fillOf]

theorem readers_fill (l : List Reader) (u : State) :
    (l.foldl runReader u).speed.fill = if .fill ∈ l then fillOf u else u.speed.fill := by
  induction l generalizing u with
  | nil => rfl
  | cons r l ih =>
    rw [List.foldl_cons, ih, runReader_fillOf, runReader_fill]
    by_cases hr : r = .fill
    · simp [hr]
    · simp [hr, Ne.symm hr]

/-! ## A class that is pending stays so -/

theorem LineRaises.hasClass_of {cs : List PendClass} {t : State} {c : PendClass} (h : LineRaises cs s t)
    (hc : hasClass s.line.pendingSet c = true ∨ c ∈ cs) : hasClass t.line.pendingSet c = true := by
  have hline : t.line.pendingSet = withClasses cs s.line.pendingSet := by rw [h]
  rw [hasClass_eq] at hc ⊢
  rw [hline, withClasses_getLsbD, Bool.or_eq_true, List.any_eq_true]
  refine hc.imp_right fun hmem => ⟨c, hmem, ?_⟩
  cases c <;> decide

/-- The class is pending in the state. -/
def State.HasPending (c : PendClass) (u : State) : Prop := hasClass u.line.pendingSet c = true

variable {s} {c : PendClass}

theorem LineRaises.hasPending {cs : List PendClass} {t : State} (h : LineRaises cs s t) (hs : s.HasPending c) :
    t.HasPending c := h.hasClass_of s (.inl hs)

theorem State.HasPending.next {ps : List Part} {t : State} (hs : s.HasPending c) (h : OnlyChanges ps s t)
    (hline : .line ∉ ps := by decide) : t.HasPending c := by
  unfold State.HasPending at *
  rwa [show t.line = s.line from h .line hline]

theorem State.HasPending.enterPending (hs : s.HasPending c) : (swapContext (changeFrame .doffPending s)).HasPending c :=
  (enterPending_moves s).2.hasPending hs

theorem State.HasPending.stopForFill (hs : s.HasPending c) : (stopForFill s).HasPending c :=
  (stopForFill_moves s).2.hasPending hs

theorem State.HasPending.recomputeSetPoint (hs : s.HasPending c) : (recomputeSetPoint s).HasPending c :=
  (recomputeSetPoint_lineRaises s).hasPending hs

theorem State.HasPending.judgeFill (hs : s.HasPending c) : (judgeFill s).HasPending c :=
  judgeFill_keeps s (fun _ _ hu => hu.enterPending) (fun _ _ hu => hu.stopForFill) hs

theorem State.HasPending.recomputeFill (hs : s.HasPending c) : (recomputeFill s).HasPending c :=
  recomputeFill_keeps s (fun _ _ hu => hu.enterPending) (fun _ _ hu => hu.stopForFill) (fun _ _ hu => hu)
    (fun _ hu => hu.recomputeSetPoint) hs

theorem State.HasPending.closeWindow (hs : s.HasPending c) : (closeWindow s).HasPending c := by
  have kept (v : Speed) : (s.setSpeed v).HasPending c := hs
  unfold Machine.closeWindow
  dsimp only
  split_ifs
  exacts [kept _, (kept _).recomputeSetPoint, kept _, (kept _).recomputeSetPoint]

theorem State.HasPending.endWatch (hs : s.HasPending c) : (endWatch s).HasPending c := by
  have hchanged : (changeFrame .spinning (s.setDoff { s.doff with watchStart := none })).HasPending c :=
    (changeFrame_lineRaises _ _).hasPending hs
  exact (hchanged.next (restoreContext_frame _)).judgeFill

theorem State.HasPending.runReader (hs : s.HasPending c) (r : Reader) : (runReader s r).HasPending c := by
  cases r with
  | fill => exact hs.recomputeFill.next (dispatchOnEntry_frame _ _)
  | window => exact hs.closeWindow
  | audit =>
    unfold Machine.runReader rovingAudit
    dsimp only
    split
    · exact hs
    · exact (raise_lineRaises _ _).hasPending hs
  | watch => exact hs.endWatch.next (dispatchOnEntry_frame _ _)

theorem State.HasPending.readers (hs : s.HasPending c) (l : List Reader) : (l.foldl Machine.runReader s).HasPending c := by
  induction l generalizing s with
  | nil => exact hs
  | cons r l ih => exact ih (hs.runReader r)

end

/-! ## The pulse (R2, R6) -/

/-- The pulse counted, and MOTION raised where the frame did not wind and no motion is expected (R6). -/
def pulseCounted (s : State) : State :=
  if (!s.roller.winding && s.doff.frame.motionNotExpected) = true then raise .motion (countPulse s) else countPulse s

section
variable (s : State)

theorem pulseCounted_frame : OnlyChanges [.roller, .line] s (pulseCounted s) := by
  have hcount : OnlyChanges [.roller, .line] s (countPulse s) := (setRoller_frame s _).wide
  unfold pulseCounted
  split
  · exact hcount.next (raise_frame _ _)
  · exact hcount

theorem pulseCounted_roller : (pulseCounted s).roller = (countPulse s).roller := by
  unfold pulseCounted
  split <;> rfl

theorem pulseCounted_flmm : (pulseCounted s).flmm = (countPulse s).flmm :=
  congrArg (fun r : Roller => r.flum / 1000) (pulseCounted_roller s)

theorem pulseCounted_lineRaises : LineRaises
    (if s.roller.winding = false ∧ s.doff.frame.motionNotExpected = true then [.motion] else []) s (pulseCounted s) := by
  have hiff : (!s.roller.winding && s.doff.frame.motionNotExpected) = true ↔
      s.roller.winding = false ∧ s.doff.frame.motionNotExpected = true := by simp
  unfold pulseCounted
  simp only [hiff]
  split
  · exact raise_lineRaises _ _
  · rfl

theorem countPulse_roller (hroom : LengthHasRoom s) : (countPulse s).roller = { s.roller with
    flum := s.roller.flum + (s.roller.acc + s.roller.num) / s.roller.den
    acc := (s.roller.acc + s.roller.num) % s.roller.den
    window := some s.items.motionWindow
    winding := true } := by
  simp only [countPulse, State.setRoller_roller, add64_exact _ _ hroom]

theorem encoderPulse_of_running (h : s.phase = .running) : exec .encoderPulse s =
    .next (if s.flmm < (pulseCounted s).flmm then advance s.flmm (pulseCounted s) else pulseCounted s) :=
  if_pos h

/-- A reader is due where a multiple of its step is reached, or where the watch length has been delivered. -/
theorem readerDue_iff (old : Nat) (r : Reader) : readerDue old s r = true ↔ match r with
    | .fill => True
    | .window => ∃ k, old < k * (s.items.govWindow * 1000) ∧ k * (s.items.govWindow * 1000) ≤ s.flmm
    | .audit => ∃ k, old < k * (s.items.auditStep * 1000) ∧ k * (s.items.auditStep * 1000) ≤ s.flmm
    | .watch => s.doff.frame = .startUp ∧ ∃ w ∈ s.doff.watchStart, s.articles.active.watch * 1000 ≤ s.flmm - w := by
  cases r with
  | fill => exact iff_of_true rfl trivial
  | window => exact passes_iff _ _ _
  | audit => exact passes_iff _ _ _
  | watch => exact watchDone_iff s

end

/-- Settles O18: the pulse is counted, and the readers that are due act one after another; none of them moves what the
fill is formed of, and none takes a class away. -/
theorem encoderPulseCompletes : Obligations.EncoderPulseCompletes := by
  unfold Obligations.EncoderPulseCompletes
  intro s
  refine ⟨fun h => if_neg h, fun hrun hroom => ?_⟩
  have hcounted := pulseCounted_frame s
  have hraises := pulseCounted_lineRaises s
  have hroller := (pulseCounted_roller s).trans (countPulse_roller s hroom)
  have hle : s.flmm ≤ (pulseCounted s).flmm := by
    rw [pulseCounted_flmm]
    exact countPulse_flmm_le hroom
  have hmotion (h : s.roller.winding = false ∧ s.doff.frame.motionNotExpected = true) :
      (pulseCounted s).HasPending .motion := by
    rw [if_pos h] at hraises
    exact hraises.hasClass_of s (.inr (by simp))
  rw [encoderPulse_of_running s hrun]
  refine ⟨_, rfl, ?_⟩
  rcases hle.eq_or_lt with heq | hlt
  · rw [if_neg (by omega)]
    exact ⟨hroller, hcounted.wide, hmotion, fun _ => ⟨hcounted, hraises⟩, fun h => absurd h (by omega)⟩
  · rw [if_pos hlt]
    obtain ⟨order, hnodup, hmem, hadv⟩ := advance_order s.flmm (pulseCounted s)
    have hframe := advance_frame (pulseCounted s) s.flmm
    have hflmm := hframe.flmm
    have hfree := setFreeCount_frame (pulseCounted s) ((pulseCounted s).freeCount + 1)
    have hadvRoller := advance_roller s.flmm (pulseCounted s)
    refine ⟨hadvRoller.trans hroller, hcounted.wide.next hframe, fun h => ?_, fun h => absurd h (by omega), fun _ => ?_⟩
    · rw [hadv]
      exact ((hmotion h).next hfree).readers order
    refine ⟨?fill, ?_⟩
    case fill =>
      rw [hadv, readers_fill, if_pos ((hmem .fill).2 rfl), ← hadv, hflmm]
      rw [fillOf, hfree.flmm, hfree .doff (by decide), hfree .articles (by decide), hcounted .doff (by decide),
        hcounted .articles (by decide)]
    intro reaches due tested act
    have hact : act = runReader := by
      funext v r
      cases r <;> rfl
    refine ⟨_, order, hcounted.wide.next hfree, ?_, ?_, hraises.next hfree, hnodup, fun r => ?_, ?_⟩
    · exact hadvRoller.symm
    · rw [State.setFreeCount_freeCount, hcounted .freeCount (by decide)]
    · have hdue := (hmem r).trans (readerDue_iff _ _ r)
      rw [hcounted .items (by decide), hcounted .doff (by decide), hcounted .articles (by decide), ← hflmm] at hdue
      refine hdue.trans ?_
      cases r <;> exact Iff.rfl
    · rw [hact]
      exact hadv

end Sys2Proof.Machine
end

