-- ==== Sys2Proof/Proofs/SectionChange.lean ====
section
/-!
PROOFS. A change of the fitted sections of a side, one equation for each thing that it moves (O30).
-/
namespace Sys2Proof.Machine

-- One after another: each theorem as a task of its own takes a thread.
set_option Elab.async false

section
variable (side : Side) (n keep : Nat) (s : State)

/-! ## The slot and the carriage of the side -/

/-- Whether the slot holds a removed spindle (R143). -/
def State.slotRemoved (side : Side) (keep : Nat) (s : State) : Bool :=
  s.roving.slot.any fun x => !staysWithin side keep x

/-- The roving record whose slot has been emptied. -/
def Roving.emptied (r : Roving) : Roving := { r with slot := none, timer := none }

/-- A removed spindle leaves the slot, and the ending test is made (R143). -/
theorem releaseSlot_eq : releaseSlot side keep s =
    if s.slotRemoved side keep = true then endingTest (emptySlot s) else s := by
  unfold releaseSlot State.slotRemoved
  cases s.roving.slot with
  | none => rfl
  | some x => simp [staysWithin]

theorem releaseSlot_moves :
    (releaseSlot side keep s).roving =
        (if s.slotRemoved side keep = true then s.roving.emptied.tested else s.roving) ∧
      LineRaises (if (s.slotRemoved side keep && s.roving.ends) = true then [.rovingRunEnd] else []) s
        (releaseSlot side keep s) := by
  rw [releaseSlot_eq]
  cases s.slotRemoved side keep with
  | false => exact ⟨rfl, .of_same rfl⟩
  | true =>
    obtain ⟨hroving, hraises⟩ := endingTest_moves (emptySlot s)
    exact ⟨hroving, hraises.from_same rfl⟩

/-- The carriage whose x lies beyond the new last position is sent home, or loses its x (R66). -/
theorem recallCarriage_eq : recallCarriage side keep s =
    if (s.carriages.get side).x.any (keep < ·) ∧
        ((s.carriages.get side).state = .ready ∨ (s.carriages.get side).state = .held) then startHoming side s
    else if (s.carriages.get side).x.any (keep < ·) ∧ (s.carriages.get side).state = .fault then
      modifyCarriage side (fun c => { c with x := none }) s
    else s := by
  unfold recallCarriage
  dsimp only
  cases hx : (s.carriages.get side).x with
  | none => simp
  | some x =>
    by_cases hle : x ≤ keep
    · simp [hle, Nat.not_lt.2 hle]
    · have hlt : keep < x := Nat.not_le.1 hle
      cases hstate : (s.carriages.get side).state <;> simp [hle, hlt]

theorem recallCarriage_otherSide : OtherSideSame side s (recallCarriage side keep s) := by
  rw [recallCarriage_eq]
  split_ifs
  exacts [startHoming_otherSide side s, modifyCarriage_otherSide side _ s, .refl side s]

theorem recallCarriage_bus : ∃ c, (recallCarriage side keep s).bus = { s.bus with carriages := c } := by
  rw [recallCarriage_eq]
  split_ifs
  exacts [⟨_, rfl⟩, ⟨_, rfl⟩, ⟨_, rfl⟩]

/-! ## The change cut at the records -/

/-- The side credited, its removed spindles released, and the slot emptied of one of them. -/
def sectionsReleased : State := releaseSlot side (48 * n) (releaseRemoved side (48 * n) (creditPossible side s))

/-- The tables of the side cut or formed, and the count put. -/
def sectionsFormed : State :=
  (resizeSide side n (sectionsReleased side n s)).setItems
    { (resizeSide side n (sectionsReleased side n s)).items with
      sections := (resizeSide side n (sectionsReleased side n s)).items.sections.set side n }

theorem changeSections_eq : changeSections side n s = recallCarriage side (48 * n) (sectionsFormed side n s) := rfl

theorem sectionsReleased_frame : OnlyChanges [.shift, .breakList, .roving, .line] s (sectionsReleased side n s) :=
  ((creditPossible_frame side s).wide.next (releaseRemoved_frame side _ _)).next (releaseSlot_frame side _ _)

theorem sectionsFormed_after :
    OnlyChanges [.spindles, .bus, .items] (sectionsReleased side n s) (sectionsFormed side n s) :=
  (resizeSide_frame side (sectionsReleased side n s) n).wide.next (setItems_frame _ _)

theorem sectionsFormed_bus : (sectionsFormed side n s).bus = { s.bus with
    boards := s.bus.boards.set side ((s.bus.boards.get side).take n ++
      List.replicate (n - (s.bus.boards.get side).length) BoardEntry.initial)
    cycle := s.bus.cycle.filter fun st => match st with
      | .board sd sec => sd != side || sec ≤ n
      | _ => true } := by
  have hbus : (sectionsReleased side n s).bus = s.bus := sectionsReleased_frame side n s .bus (by decide)
  have hcycle : s.bus.cycle.filter (fun st => match st with
        | .board sd sec => !(sd == side && decide (n < sec))
        | .carriage _ => true
        | .doffer => true
        | .train => true) = s.bus.cycle.filter fun st => match st with
        | .board sd sec => sd != side || sec ≤ n
        | _ => true := by
    refine List.filter_congr fun st _ => ?_
    cases st with
    | board sd sec =>
      rw [Bool.eq_iff_iff]
      simp
    | carriage _ => rfl
    | doffer => rfl
    | train => rfl
  rw [← hcycle, ← hbus]
  rfl

theorem sectionsFormed_items : (sectionsFormed side n s).items =
    { s.items with sections := s.items.sections.set side n } := by
  have hitems : (resizeSide side n (sectionsReleased side n s)).items = s.items :=
    (resizeSide_frame side _ n .items (by decide)).trans (sectionsReleased_frame side n s .items (by decide))
  rw [sectionsFormed, State.setItems_items, hitems]

theorem changeSections_otherSide : OtherSideSame side s (changeSections side n s) := by
  have hcredited := creditPossible_otherSide side s
  have hremoved (v : State) : OtherSideSame side v (releaseRemoved side (48 * n) v) := by
    intro sd hsd
    simp [releaseRemoved, creditRun, Sides.get_modify_other _ _ _ _ hsd]
  have hreleased : OtherSideSame side s (sectionsReleased side n s) :=
    (hcredited.trans (hremoved _)).trans ((releaseSlot_frame side _ _).otherSide side)
  have hformed : OtherSideSame side (sectionsReleased side n s) (sectionsFormed side n s) := fun sd hsd => by
    simp [sectionsFormed, resizeSide, Sides.get_set_other _ _ _ _ hsd]
  exact (hreleased.trans hformed).trans (recallCarriage_otherSide side _ _)

/-! ## The shift record and the roving unit -/

/-- The possible length is credited at the old in-service count, and the removed spindles' open lengths (R150, R198). -/
theorem changeSections_shift : (changeSections side n s).shift =
    (creditRun side (openSum ((s.spindles.get side).drop (48 * n)) s.flmm) (creditPossible side s)).shift := by
  have hrecall : (changeSections side n s).shift = (sectionsFormed side n s).shift :=
    recallCarriage_frame side _ _ .shift (by decide)
  have hformed : (sectionsFormed side n s).shift = (sectionsReleased side n s).shift :=
    sectionsFormed_after side n s .shift (by decide)
  exact (hrecall.trans hformed).trans (releaseSlot_frame side _ _ .shift (by decide))

/-- The possible length stands at the length of now, and the counts, the marker and the history are left alone. -/
theorem changeSections_books (h : possibleNow s side < 2 ^ 64) :
    ((changeSections side n s).shift.live.sides.get side).possible = possibleNow s side ∧
      (changeSections side n s).shift.marks.get side = s.flmm ∧
      ((changeSections side n s).shift.live.sides.get side).counts = (s.shift.live.sides.get side).counts ∧
      (changeSections side n s).shift.live.doffs = s.shift.live.doffs ∧
      (changeSections side n s).shift.live.exchanges = s.shift.live.exchanges ∧
      (changeSections side n s).shift.live.marker = s.shift.live.marker ∧
      (changeSections side n s).shift.history = s.shift.history ∧ (changeSections side n s).shift.seq = s.shift.seq := by
  obtain ⟨hposs, hcounts, hex, hdoffs, hmarker, hmarks, hhist, hseq⟩ := creditRun_books side
    (openSum ((s.spindles.get side).drop (48 * n)) s.flmm) (creditPossible side s)
  rw [changeSections_shift]
  exact ⟨(hposs side).trans (creditPossible_possible side s h), (congrArg (·.get side) hmarks).trans (creditPossible_mark side s),
    (hcounts side).trans (creditPossible_runMass side s).2.2, hdoffs, hex, hmarker, hhist, hseq⟩

/-- The roving record whose lists have lost the removed spindles (R143). -/
def Roving.cut (r : Roving) (side : Side) (keep : Nat) : Roving :=
  { r with urgent := r.urgent.filter (staysWithin side keep), low := r.low.filter (staysWithin side keep) }

/-- The record of the roving unit after the change: `gone` tells whether the slot held a removed spindle. -/
def Roving.afterCut (r : Roving) (side : Side) (keep : Nat) (gone : Bool) : Roving :=
  if gone = true then (r.cut side keep).emptied.tested else r.cut side keep

/-- The ending test is made with the slot just emptied, and its reason is by the run state (R136, R143). -/
theorem Roving.afterCut_run (r : Roving) (side : Side) (keep : Nat) (gone : Bool) :
    (r.afterCut side keep gone).run = (if (gone && r.ends) = true then .idle else r.run) ∧
      (r.afterCut side keep gone).reason =
        if (gone && r.ends) = true then some (if r.run = .ending then .aborted else .count) else r.reason := by
  cases gone with
  | false => exact ⟨rfl, rfl⟩
  | true =>
    have hends : (r.cut side keep).emptied.ends = r.ends := rfl
    have hending (h : r.run = .ending) : r.ends = true := by simp [Roving.ends, h]
    simp only [Roving.afterCut, Roving.tested, hends, Bool.true_and, if_true]
    refine ⟨rfl, ?_⟩
    change (if r.run = .ending then _ else _) = _
    by_cases hrun : r.run = .ending
    · rw [if_pos hrun, if_pos (hending hrun), if_pos hrun]
    · rw [if_neg hrun, if_neg hrun]
      rfl

theorem Roving.afterCut_slot (r : Roving) (side : Side) (keep : Nat) (gone : Bool) :
    (r.afterCut side keep gone).slot = (if gone = true then none else r.slot) ∧
      (r.afterCut side keep gone).timer = if gone = true then none else r.timer := by
  cases gone <;> exact ⟨rfl, rfl⟩

theorem Roving.afterCut_rest (r : Roving) (side : Side) (keep : Nat) (gone : Bool) :
    (r.afterCut side keep gone).urgent = r.urgent.filter (staysWithin side keep) ∧
      (r.afterCut side keep gone).low = r.low.filter (staysWithin side keep) ∧
      (r.afterCut side keep gone).base = r.base ∧ (r.afterCut side keep gone).current = r.current := by
  cases gone <;> exact ⟨rfl, rfl, rfl, rfl⟩

theorem changeSections_rovingMoves :
    (changeSections side n s).roving = s.roving.afterCut side (48 * n) (s.slotRemoved side (48 * n)) ∧
      LineRaises (if (s.slotRemoved side (48 * n) && s.roving.ends) = true then [.rovingRunEnd] else []) s
        (changeSections side n s) := by
  obtain ⟨hroving, hraises⟩ := releaseSlot_moves side (48 * n) (releaseRemoved side (48 * n) (creditPossible side s))
  have hformed := sectionsFormed_after side n s
  have hrecall := recallCarriage_frame side (sectionsFormed side n s) (48 * n)
  rw [changeSections_eq]
  constructor
  · exact ((hrecall .roving (by decide)).trans (hformed .roving (by decide))).trans hroving
  · exact ((hraises.from_same rfl).next hformed).next hrecall

end

/-! ## O30 -/

/-- The credit of the removed spindles fits where the credits of the whole side do. -/
theorem changeSections_credited {side : Side} {s : State} (n : Nat) (hfit : CreditsFit s) :
    Credited side (openSum ((s.spindles.get side).drop (48 * n)) s.flmm) s (changeSections side n s) := by
  obtain ⟨-, hrun, hmass⟩ := bothSides_iff.1 hfit side
  have hsum : openSum (s.spindles.get side) s.flmm = openSum ((s.spindles.get side).take (48 * n)) s.flmm +
      openSum ((s.spindles.get side).drop (48 * n)) s.flmm := by
    rw [← openSum_append, List.take_append_drop]
  obtain ⟨hrun0, hmass0, -⟩ := creditPossible_runMass side s
  have hle := Nat.mul_le_mul_right s.articles.active.tex100 (hsum ▸ Nat.le_add_left _ _ :
    openSum ((s.spindles.get side).drop (48 * n)) s.flmm ≤ openSum (s.spindles.get side) s.flmm)
  have hart : (creditPossible side s).articles = s.articles := rfl
  have h := creditRun_credited side (openSum ((s.spindles.get side).drop (48 * n)) s.flmm) (creditPossible side s)
    (by rw [hrun0]; unfold runNow at hrun; omega) (by rw [hmass0, hart]; omega)
  unfold Credited at h ⊢
  rw [changeSections_shift]
  rwa [hrun0, hmass0, hart] at h

/-- The carriage of the changed side and its commands (R66). -/
theorem changeSections_carriage (side : Side) (n : Nat) (s : State) :
    let c := s.carriages.get side
    if c.x.any (48 * n < ·) ∧ (c.state = .ready ∨ c.state = .held) then
      (changeSections side n s).carriages.get side = { c with
        state := .homing, x := none, order := none, returning := false
        timer := some ⟨.homing, s.items.homeTimeout⟩ } ∧
      (changeSections side n s).bus.carriages.get side = (s.bus.carriages.get side).appendHome
    else
      ((changeSections side n s).carriages.get side =
        if c.x.any (48 * n < ·) ∧ c.state = .fault then { c with x := none } else c) ∧
      (changeSections side n s).bus.carriages.get side = s.bus.carriages.get side := by
  intro c
  have hcar : (sectionsFormed side n s).carriages = s.carriages :=
    (sectionsFormed_after side n s .carriages (by decide)).trans (sectionsReleased_frame side n s .carriages (by decide))
  have hbus : (sectionsFormed side n s).bus.carriages = s.bus.carriages := by rw [sectionsFormed_bus]
  have hitems : (sectionsFormed side n s).items.homeTimeout = s.items.homeTimeout := by rw [sectionsFormed_items]
  rw [changeSections_eq, recallCarriage_eq, hcar]
  split_ifs with hhome hfault
  · rw [startHoming_carriages, startHoming_bus, hcar, hbus, Sides.get_set_same, Carriage.sentHome, hitems]
    exact ⟨rfl, Sides.get_modify_same _ _ _⟩
  · exact ⟨(modifyCarriage_get side _ _).trans (by rw [hcar]), congrArg (·.get side) hbus⟩
  · exact ⟨congrArg (·.get side) hcar, congrArg (·.get side) hbus⟩

/-- CONFIG_SET of a section count is the change of the sections of its side (R198). -/
theorem configSet_sections {body : List Byte} {s : State} {side : Side}
    (hcode : (byteAt body 0).toNat = (match side with | .a => 0x01 | .b => 0x02)) (h1 : 1 ≤ numAt body 1 4)
    (h20 : numAt body 1 4 ≤ 20) (hnew : s.items.sections.get side ≠ numAt body 1 4) (hframe : s.doff.frame = .stopped) :
    configSet body s = Handled.ok (changeSections side (numAt body 1 4) s) [] := by
  have hrange : configRange (byteAt body 0).toNat (numAt body 1 4) = true := by
    rw [hcode]
    cases side <;> simp [configRange, h1, h20]
  have hvalue : s.items.value (byteAt body 0).toNat ≠ numAt body 1 4 := by
    rw [hcode]
    cases side <;> exact hnew
  rw [configSet_takes (fun _ => hframe) hrange
    (crossCheck_of_code (by rw [hcode]; cases side <;> decide)) (by cases side <;> simp [hcode]) hvalue, hcode]
  cases side <;> rfl

/-- Settles O30: the change credits, releases, resizes and recalls in turn, each for its own parts. -/
theorem sectionChangeCompletes : Obligations.SectionChangeCompletes := by
  unfold Obligations.SectionChangeCompletes
  intro s body side hs hcode h1 h20 hnew hframe hfit n keep old stays emptied ended
  refine hs.replies (r := ⟨0x08#8, body⟩) rfl rfl fun l s' e => ⟨changeSections side n s', ?_, ?_⟩
  · subst e
    exact configSet_sections hcode h1 h20 hnew hframe
  subst e
  have hstays : stays = staysWithin side keep := by
    funext x
    rw [Bool.eq_iff_iff, staysWithin_iff]
    simp [stays, imp_iff_not_or]
  have hended : ended = (emptied && s.roving.ends) := rfl
  have hemptied : emptied = s.slotRemoved side keep := by
    simp only [emptied, hstays, State.slotRemoved]
  obtain ⟨hposs, hmarks, hcounts, hdoffs, hex, hmarker, hhist, hseq⟩ :=
    changeSections_books side n (s.setLine { s.line with holding := l }) (bothSides_iff.1 hfit side).1
  obtain ⟨hroving, hraises⟩ := changeSections_rovingMoves side n (s.setLine { s.line with holding := l })
  obtain ⟨hrun, hreason⟩ := s.roving.afterCut_run side keep (s.slotRemoved side keep)
  obtain ⟨hslot, htimer⟩ := s.roving.afterCut_slot side keep (s.slotRemoved side keep)
  obtain ⟨hurgent, hlow, hbase, hcurrent⟩ := s.roving.afterCut_rest side keep (s.slotRemoved side keep)
  have shown {α : Type} (f : Roving → α) {x : α} (h : f (s.roving.afterCut side keep (s.slotRemoved side keep)) = x) :
      f (changeSections side n (s.setLine { s.line with holding := l })).roving = x := (congrArg f hroving).trans h
  obtain ⟨c, hbus⟩ := recallCarriage_bus side (48 * n) (sectionsFormed side n (s.setLine { s.line with holding := l }))
  rw [sectionsFormed_bus] at hbus
  rw [hended, hemptied, hstays]
  refine ⟨changeSections_frame side _ n, changeSections_otherSide side n _, changeSections_items side n _,
    (congrArg (·.get side) (changeSections_spindles side n _)).trans (Sides.get_set_same _ _ _),
    (congrArg (·.get side) (changeSections_breakList side n _)).trans (Sides.get_modify_same _ _ _),
    hposs, hmarks, changeSections_credited n hfit, hdoffs, hex, hmarker, hhist, hseq, hcounts,
    shown Roving.urgent hurgent, shown Roving.low hlow, shown Roving.slot hslot, shown Roving.timer htimer,
    shown Roving.run hrun, shown Roving.reason hreason, shown Roving.base hbase, shown Roving.current hcurrent,
    hraises, ?_, (congrArg Bus.doffer hbus).trans rfl, (congrArg Bus.train hbus).trans rfl,
    (congrArg Bus.awaiting hbus).trans rfl, (congrArg Bus.cycle hbus).trans rfl,
    changeSections_carriage side n (s.setLine { s.line with holding := l })⟩
  exact (congrArg (fun b : Bus => b.boards.get side) hbus).trans (Sides.get_set_same _ _ _)

end Sys2Proof.Machine
end

