-- ==== Sys2Proof/Proofs/ShiftClose.lean ====
section
/-!
PROOFS. The close of a shift, and the reading of the live shift that shows what a close would record (O56).
-/
namespace Sys2Proof.Machine

-- One after another: each theorem as a task of its own takes a thread.
set_option Elab.async false

section
variable (s : State)

/-! ## The live figures of a close -/

/-- The split and both credits of possible length, which a close makes first (R152). -/
def creditedForClose : State := creditPossible .b (creditPossible .a (split s))

theorem creditedForClose_spindles (side : Side) :
    (creditedForClose s).spindles.get side = (s.spindles.get side).map (·.close s.articles.active s.flmm) := by
  cases side <;> rfl

/-- A close of the intervals leaves the in-service count (R149). -/
theorem inServiceOf_close (art : Article) (x : Nat) (l : List Spindle) :
    inServiceOf (l.map (·.close art x)) = inServiceOf l := by
  unfold inServiceOf
  rw [List.countP_map]
  refine List.countP_congr fun sp _ => ?_
  rw [Function.comp_apply, close_state]

/-- The figures that a close closes are the live ones as the reading shows them (R158). -/
theorem creditedForClose_side (side : Side) :
    closedSide ((creditedForClose s).shift.live.sides.get side) = liveSide s side := by
  have hservice (sd : Side) : inServiceOf ((s.spindles.get sd).map (·.close s.articles.active s.flmm)) = inService s sd :=
    inServiceOf_close _ _ _
  unfold liveSide
  dsimp only
  rw [← hservice side]
  cases side <;> rfl

/-- The live figures where the credits fit their 64 bits. -/
theorem liveSide_of_fits (hfit : CreditsFit s) (side : Side) : liveSide s side =
    ⟨runNow s side, possibleNow s side, massDg ((s.shift.live.sides.get side).mass +
      openSum (s.spindles.get side) s.flmm * s.articles.active.tex100),
      efficiencyOf (runNow s side) (possibleNow s side), (s.shift.live.sides.get side).counts⟩ := by
  obtain ⟨hposs, hrun, hmass⟩ := bothSides_iff.1 hfit side
  unfold runNow at hrun
  unfold possibleNow at hposs
  simp only [liveSide, add64_exact _ _ hrun, add64_exact _ _ hposs, add64_exact _ _ hmass]
  rfl

/-- The record that a close makes of the live figures (R155). -/
def shiftRecordNow (label stamp : Nat) : ClosedShift where
  seq := s.shift.seq
  label := label
  stamp := stamp
  flmm := s.flmm
  sides := ⟨liveSide s .a, liveSide s .b⟩
  doffs := s.shift.live.doffs
  exchanges := s.shift.live.exchanges
  marker := s.shift.live.marker

theorem closedRecord_creditedForClose (label stamp : Nat) :
    closedRecord label stamp (creditedForClose s) = shiftRecordNow s label stamp := by
  unfold shiftRecordNow
  rw [← creditedForClose_side s .a, ← creditedForClose_side s .b]
  rfl

/-- The shift after a close (R152, R156, R157). -/
theorem closeShift_shift (label stamp : Nat) : (closeShift label stamp s).shift =
    ⟨State.reset.shift.live, ⟨s.flmm, s.flmm⟩,
      s.shift.history.drop (s.shift.history.length - 7) ++ [shiftRecordNow s label stamp], nextShiftSeq s.shift.seq⟩ := by
  rw [← closedRecord_creditedForClose]
  rfl

end

/-! ## O56 -/

/-- Of 8 records the oldest leaves, and of fewer none (R156). -/
theorem drop_oldest {α : Type} {l : List α} (h : l.length ≤ 8) :
    l.drop (l.length - 7) = if l.length < 8 then l else l.tail := by
  split
  · rw [Nat.sub_eq_zero_of_le (by omega), List.drop_zero]
  · rw [show l.length - 7 = 1 by omega, List.drop_one]

/-- Settles O56: a close records the live figures as the reading shows them, each of them exact where its credit fits. -/
theorem shiftIsClosed : Obligations.ShiftIsClosed := by
  unfold Obligations.ShiftIsClosed
  refine ⟨fun s body hs hfit hlaw => ?_, fun s body label stamp r hs hbody hlast => ?_⟩
  · intro side
    obtain ⟨hlen, ⟨-, hseq⟩, -⟩ := hlaw
    have hfield : field 4 s.shift.seq = beBytes 4 s.shift.seq := if_pos (by omega)
    refine hs.replies (r := ⟨0x48#8, body⟩) rfl rfl fun l s' e =>
      ⟨closeShift (numAt body 0 2) (numAt body 2 4) s', ?_, closeShift_frame s' _ _, ?_, ?_⟩
    · rw [← hfield, e]
      rfl
    · exact bothSides_iff.2 fun sd => (creditedForClose_spindles s' sd).trans (by rw [e]; rfl)
    · have hside (sd : Side) : liveSide s' sd = side sd := by
        have hfit' : CreditsFit s' := by rw [e]; exact hfit
        rw [liveSide_of_fits s' hfit' sd, e]
        rfl
      rw [closeShift_shift, shiftRecordNow, hside, hside, e, ← drop_oldest hlen]
      exact ⟨rfl, rfl, rfl, rfl⟩
  · have hr : shiftRecordNow s label stamp = r := by
      rw [closeShift_shift, List.getLast?_append, List.getLast?_singleton, Option.some_or] at hlast
      exact Option.some.inj hlast
    refine hs.replies (r := ⟨0x49#8, body⟩) rfl rfl fun l s' e => ⟨s', ?_, rfl⟩
    rw [← hr, shiftGet_live s' hbody, e]
    simp only [liveContent, List.append_assoc]
    rfl

end Sys2Proof.Machine
end

