-- ==== Sys2Proof/Proofs/SoftReset.lean ====
section
/-!
PROOFS. The soft reset, block by block (O57).
-/
namespace Sys2Proof.Machine

-- One after another: each theorem as a task of its own takes a thread.
set_option Elab.async false

/-! ## Positions of a table that meet a test -/

/-- The positions from `pos` on whose records meet a test, with the first record taken off. -/
theorem filter_positions_cons (f : Spindle → Bool) (pos : Nat) (sp : Spindle) (rest : List Spindle) :
    (List.range' pos (sp :: rest).length).filter (fun p => ((sp :: rest)[p - pos]?).any f) =
      (if f sp = true then [pos] else []) ++
        (List.range' (pos + 1) rest.length).filter fun p => (rest[p - (pos + 1)]?).any f := by
  rw [List.length_cons, List.range'_succ, List.filter_cons]
  have hrest : (List.range' (pos + 1) rest.length).filter (fun p => ((sp :: rest)[p - pos]?).any f) =
      (List.range' (pos + 1) rest.length).filter fun p => (rest[p - (pos + 1)]?).any f := by
    refine List.filter_congr fun p hp => ?_
    have hle := (List.mem_range'_1.1 hp).1
    rw [show p - pos = (p - (pos + 1)) + 1 by omega, List.getElem?_cons_succ]
  rw [hrest]
  cases hf : f sp <;> simp [hf]

theorem brokenFrom_eq_filter (pos : Nat) (l : List Spindle) :
    brokenFrom pos l = (List.range' pos l.length).filter fun p => (l[p - pos]?).any (·.state == .broken) := by
  induction l generalizing pos with
  | nil => rfl
  | cons sp rest ih =>
    rw [filter_positions_cons, ← ih, brokenFrom]
    by_cases h : sp.state = .broken <;> simp [h]

theorem waitingFrom_eq_map (side : Side) (pos : Nat) (l : List Spindle) : waitingFrom side pos l =
    ((List.range' pos l.length).filter fun p => (l[p - pos]?).any (·.state == .waitRoving)).map fun p => ⟨side, p⟩ := by
  induction l generalizing pos with
  | nil => rfl
  | cons sp rest ih =>
    rw [filter_positions_cons, List.map_append, ← ih, waitingFrom]
    by_cases h : sp.state = .waitRoving <;> simp [h]

/-- The positions of a side, by the record that stands there. -/
theorem filter_positions_spindle {s : State} {side : Side} {l : List Spindle} (hl : s.spindles.get side = l)
    (f : Spindle → Bool) : (List.range' 1 l.length).filter (fun p => (l[p - 1]?).any f) =
      (List.range' 1 l.length).filter fun p => (s.spindle side p).any f := by
  refine List.filter_congr fun p hp => ?_
  have h0 : p ≠ 0 := by
    have := (List.mem_range'_1.1 hp).1
    omega
  rw [State.spindle, if_neg h0, hl]

/-! ## The records of a side (R48, R65) -/

/-- A spindle that stands in the break list after a soft reset: BROKEN, or given back from PIECING. -/
def Spindle.joins (sp : Spindle) : Bool := sp.state == .broken || sp.state == .piecing

theorem softReset_broken (sp : Spindle) : (sp.softReset.state == .broken) = sp.joins := by
  obtain ⟨state⟩ := sp
  cases state <;> rfl

/-- The records of a side after the soft reset: those given back, and each BROKEN one numbered by its position. -/
def softResetRecords (l : List Spindle) : List Spindle := renumberByPosition 0 (l.map (·.softReset))

theorem renumberByPosition_length (n : Nat) (l : List Spindle) : (renumberByPosition n l).length = l.length := by
  induction l generalizing n with
  | nil => rfl
  | cons sp rest ih =>
    unfold renumberByPosition
    split <;> simp [ih]

theorem softResetRecords_length (l : List Spindle) : (softResetRecords l).length = l.length := by
  rw [softResetRecords, renumberByPosition_length, List.length_map]

theorem countP_softReset (l : List Spindle) :
    (l.map (·.softReset)).countP (fun sp => decide (sp.state = .broken)) = l.countP Spindle.joins := by
  rw [List.countP_map]
  refine List.countP_congr fun sp _ => ?_
  rw [Function.comp_apply, ← softReset_broken, ← beq_eq_decide]

/-- The record at a position after the soft reset: its sequence is its place among those that join (R48). -/
theorem softResetRecords_getElem? (l : List Spindle) (i : Nat) : (softResetRecords l)[i]? = l[i]?.map fun sp =>
    if sp.joins = true then { sp with
      state := .broken
      clamp := if sp.state = .piecing then .closed else sp.clamp
      seq := some ((l.take (i + 1)).countP Spindle.joins) }
    else sp := by
  rw [softResetRecords, renumberByPosition_getElem?, List.getElem?_map, Option.map_map]
  refine Option.map_congr fun sp hsp => ?_
  have hcount : 0 + 1 + ((l.map (·.softReset)).take i).countP (fun sp => decide (sp.state = .broken)) =
      (l.take i).countP Spindle.joins + 1 := by
    rw [← List.map_take, countP_softReset]
    omega
  have htake : (l.take (i + 1)).countP Spindle.joins =
      (l.take i).countP Spindle.joins + if sp.joins = true then 1 else 0 := by
    rw [List.take_add_one, List.countP_append, Option.mem_def.1 hsp]
    simp [List.countP_cons]
  rw [Function.comp_apply, hcount, htake]
  obtain ⟨state⟩ := sp
  cases state <;> rfl

theorem softResetRecords_brokenAt (l : List Spindle) (i : Nat) :
    ((softResetRecords l)[i]?).any (·.state == .broken) = (l[i]?).any Spindle.joins := by
  rw [softResetRecords_getElem?, Option.any_map]
  refine congrArg (fun f => (l[i]?).any f) (funext fun sp => ?_)
  cases h : sp.joins with
  | true => simp
  | false => simpa [h] using (Bool.or_eq_false_iff.1 h).1

/-- The break list after the soft reset: the positions of those that join, ascending (R65). -/
theorem brokenFrom_softResetRecords (l : List Spindle) : brokenFrom 1 (softResetRecords l) =
    (List.range' 1 l.length).filter fun p => (l[p - 1]?).any Spindle.joins := by
  rw [brokenFrom_eq_filter, softResetRecords_length]
  exact List.filter_congr fun p _ => softResetRecords_brokenAt l (p - 1)

theorem brokenFrom_softResetRecords_length (l : List Spindle) :
    (brokenFrom 1 (softResetRecords l)).length = l.countP Spindle.joins := by
  rw [brokenFrom_length]
  have hsame : ∀ (n : Nat) (m : List Spindle), (renumberByPosition n m).countP (fun sp => decide (sp.state = .broken)) =
      m.countP (fun sp => decide (sp.state = .broken)) := by
    intro n m
    induction m generalizing n with
    | nil => rfl
    | cons sp rest ih =>
      unfold renumberByPosition
      split
      · next h => simp [ih, h]
      · next h => simp [ih, h]
  rw [softResetRecords, hsame, countP_softReset]

/-- A spindle waits for roving after the soft reset as before it. -/
theorem softResetRecords_waitingAt (l : List Spindle) (i : Nat) :
    ((softResetRecords l)[i]?).any (·.state == .waitRoving) = (l[i]?).any (·.state == .waitRoving) := by
  rw [softResetRecords_getElem?, Option.any_map]
  refine congrArg (fun f => (l[i]?).any f) (funext fun sp => ?_)
  obtain ⟨state⟩ := sp
  cases state <;> rfl

/-! ## The clamp commands of the PIECING spindles (R48) -/

/-- The list from position `pos` on has a PIECING record at position `q`. -/
def piecingAt (pos : Nat) (l : List Spindle) (q : Nat) : Bool := decide (pos ≤ q) && (l[q - pos]?).any (·.state == .piecing)

/-- A board's entry before and after: only the clamps of the named places are held CLOSED anew. -/
structure ClosesPlaces (named : Nat → Bool) (e e' : BoardEntry) : Prop where
  link : e'.link = e.link
  carryPoint : e'.carryPoint = e.carryPoint
  length : e'.held.length = e.held.length
  held : ∀ i < 48, i < e.held.length → e'.held[i]? = if named i = true then some (some .closed) else e.held[i]?

theorem ClosesPlaces.refl (e : BoardEntry) : ClosesPlaces (fun _ => false) e e := ⟨rfl, rfl, rfl, fun _ _ _ => rfl⟩

theorem ClosesPlaces.trans {f g : Nat → Bool} {a b c : BoardEntry} (h1 : ClosesPlaces f a b) (h2 : ClosesPlaces g b c) :
    ClosesPlaces (fun i => f i || g i) a c where
  link := h2.link.trans h1.link
  carryPoint := h2.carryPoint.trans h1.carryPoint
  length := h2.length.trans h1.length
  held i hi hlen := by
    rw [h2.held i hi (h1.length ▸ hlen), h1.held i hi hlen]
    cases f i <;> cases g i <;> rfl

/-- The entry of a section after a clamp command: the place of the position is held anew (R45). -/
theorem holdClamp_closes {side : Side} {pos sec : Nat} {s : State} {e : BoardEntry} (hpos : 1 ≤ pos)
    (he : s.bus.board side sec = some e) :
    ∃ e', (holdClamp side pos .closed s).bus.board side sec = some e' ∧
      ClosesPlaces (fun i => 48 * (sec - 1) + i + 1 == pos) e e' := by
  have hsec : sec ≠ 0 := fun h => by simp [Bus.board, h] at he
  have hget : (s.bus.boards.get side)[sec - 1]? = some e := by rwa [Bus.board, if_neg hsec] at he
  obtain ⟨hlt, -⟩ := List.getElem?_eq_some_iff.1 hget
  by_cases hsame : sec = sectionOf pos
  · have hplace (i : Nat) (hi : i < 48) : (48 * (sec - 1) + i + 1 == pos) = (placeInSection pos == i) := by
      rw [Bool.eq_iff_iff, beq_iff_eq, beq_iff_eq]
      unfold sectionOf at hsame
      unfold placeInSection
      omega
    refine ⟨{ e with held := e.held.set (placeInSection pos) (some .closed) }, ?_, rfl, rfl, List.length_set, ?_⟩
    · unfold holdClamp
      rw [← hsame, he]
      simp [Bus.board, Bus.setBoard, hsec, hlt]
    · intro i hi hlen
      rw [hplace i hi, List.getElem?_set]
      by_cases hp : placeInSection pos = i
      · simp [hp, hlen]
      · simp [hp]
  · have hother (i : Nat) (hi : i < 48) : (48 * (sec - 1) + i + 1 == pos) = false := by
      rw [beq_eq_false_iff_ne]
      unfold sectionOf at hsame
      omega
    refine ⟨e, ?_, rfl, rfl, rfl, fun i hi _ => by rw [hother i hi]; rfl⟩
    unfold holdClamp
    split
    · have hne : sectionOf pos - 1 ≠ sec - 1 := by
        unfold sectionOf at hsame ⊢
        omega
      simp [Bus.board, Bus.setBoard, hsec, List.getElem?_set_ne hne, hget]
    · exact he

theorem piecingAt_cons (pos : Nat) (sp : Spindle) (rest : List Spindle) (q : Nat) : piecingAt pos (sp :: rest) q =
    ((sp.state == .piecing && q == pos) || piecingAt (pos + 1) rest q) := by
  unfold piecingAt
  rcases Nat.lt_trichotomy q pos with h | h | h
  · simp [Nat.not_le.2 h, h.ne, Nat.not_le.2 (Nat.lt_succ_of_lt h)]
  · simp [h]
  · rw [show q - pos = (q - (pos + 1)) + 1 by omega, List.getElem?_cons_succ]
    simp [h.le, h.ne', Nat.succ_le_of_lt h]

/-- The entry of a section after the clamp commands of the soft reset. -/
theorem closePiecing_closes {side : Side} {sec : Nat} (l : List Spindle) {pos : Nat} {s : State} {e : BoardEntry}
    (hpos : 1 ≤ pos) (he : s.bus.board side sec = some e) :
    ∃ e', (closePiecing side pos l s).bus.board side sec = some e' ∧
      ClosesPlaces (fun i => piecingAt pos l (48 * (sec - 1) + i + 1)) e e' := by
  induction l generalizing pos s e with
  | nil => exact ⟨e, he, by simpa [piecingAt] using ClosesPlaces.refl e⟩
  | cons sp rest ih =>
    have hfirst : ∃ e', (if sp.state = .piecing then holdClamp side pos .closed s else s).bus.board side sec = some e' ∧
        ClosesPlaces (fun i => sp.state == .piecing && 48 * (sec - 1) + i + 1 == pos) e e' := by
      split
      · next h =>
        simp only [h, BEq.rfl, Bool.true_and]
        exact holdClamp_closes hpos he
      · next h =>
        simp only [beq_eq_false_iff_ne.2 h, Bool.false_and]
        exact ⟨e, he, .refl e⟩
    obtain ⟨e1, he1, hc1⟩ := hfirst
    obtain ⟨e2, he2, hc2⟩ := ih (Nat.le_succ_of_le hpos) he1
    simp only [piecingAt_cons]
    exact ⟨e2, he2, hc1.trans hc2⟩

theorem closePiecing_boardsOnly (side : Side) (pos : Nat) (l : List Spindle) (s : State) :
    BoardsOnly s (closePiecing side pos l s) := by
  induction l generalizing pos s with
  | nil => exact .refl s
  | cons sp rest ih =>
    refine BoardsOnly.trans ?_ (ih _ _)
    split
    · exact holdClamp_boardsOnly _ _ _ _
    · exact .refl s

theorem closePiecing_otherSide (side : Side) (pos : Nat) (l : List Spindle) (s : State) :
    OtherSideSame side s (closePiecing side pos l s) := by
  induction l generalizing pos s with
  | nil => exact .refl side s
  | cons sp rest ih =>
    refine OtherSideSame.trans ?_ (ih _ _)
    split
    · exact holdClamp_otherSide _ _ _ _
    · exact .refl side s

theorem closePiecing_boards_length (side sd : Side) (pos : Nat) (l : List Spindle) (s : State) :
    ((closePiecing side pos l s).bus.boards.get sd).length = (s.bus.boards.get sd).length :=
  (closePiecing_gentle side s pos l).bus.1 sd

/-! ## The tables of both sides -/

/-- What the soft reset makes of a side's records, break list and boards (R48, R65). -/
structure TableReset (side : Side) (s t : State) : Prop where
  records : t.spindles.get side = softResetRecords (s.spindles.get side)
  list : t.breakList.get side = brokenFrom 1 (softResetRecords (s.spindles.get side))
  seq : t.breakSeq.get side = (brokenFrom 1 (softResetRecords (s.spindles.get side))).length
  boardsLength : (t.bus.boards.get side).length = (s.bus.boards.get side).length
  boards : ∀ sec e, s.bus.board side sec = some e → ∃ e', t.bus.board side sec = some e' ∧
    ClosesPlaces (fun i => piecingAt 1 (s.spindles.get side) (48 * (sec - 1) + i + 1)) e e'

section
variable {side : Side} {s s' t t' : State}

theorem Bus.board_congr {b c : Bus} (h : c.boards.get side = b.boards.get side) (sec : Nat) :
    c.board side sec = b.board side sec := by
  simp only [Bus.board, h]

theorem TableReset.from_same (h : TableReset side s t) (hspindles : s.spindles.get side = s'.spindles.get side)
    (hboards : s.bus.boards.get side = s'.bus.boards.get side) : TableReset side s' t := by
  obtain ⟨hrecords, hlist, hseq, hlength, hclosed⟩ := h
  rw [hspindles] at hrecords hlist hseq
  simp only [hspindles, Bus.board_congr hboards] at hclosed
  rw [hboards] at hlength
  exact ⟨hrecords, hlist, hseq, hlength, hclosed⟩

theorem TableReset.to_same (h : TableReset side s t) (hspindles : t'.spindles.get side = t.spindles.get side)
    (hlist : t'.breakList.get side = t.breakList.get side) (hseq : t'.breakSeq.get side = t.breakSeq.get side)
    (hboards : t'.bus.boards.get side = t.bus.boards.get side) : TableReset side s t' where
  records := hspindles.trans h.records
  list := hlist.trans h.list
  seq := hseq.trans h.seq
  boardsLength := by rw [hboards, h.boardsLength]
  boards sec e he := by
    rw [Bus.board_congr hboards]
    exact h.boards sec e he

theorem softResetSpindles_resets (side : Side) (s : State) : TableReset side s (softResetSpindles side s) where
  records := by
    rw [softResetSpindles_spindles]
    exact Sides.get_set_same _ _ _
  list := Sides.get_set_same _ _ _
  seq := Sides.get_set_same _ _ _
  boardsLength := closePiecing_boards_length side side 1 _ s
  boards _ _ he := closePiecing_closes _ (Nat.le_refl 1) he

theorem softResetSpindles_sideSame (side : Side) (s : State) : OtherSideSame side s (softResetSpindles side s) :=
  (closePiecing_otherSide side 1 (s.spindles.get side) s).trans fun sd hsd => by
    simp [softResetSpindles, Sides.get_set_other _ _ _ _ hsd]

/-- Both sides' parts of the Spindle Table and the Dispatcher. -/
def softResetTables (s : State) : State := softResetSpindles .b (softResetSpindles .a s)

theorem softResetTables_resets (side : Side) (s : State) : TableReset side s (softResetTables s) := by
  cases side with
  | a =>
    obtain ⟨hspindles, hlist, hseq, -, -, hboards, -⟩ :=
      softResetSpindles_sideSame .b (softResetSpindles .a s) .a (by decide)
    exact (softResetSpindles_resets .a s).to_same hspindles hlist hseq hboards
  | b =>
    obtain ⟨hspindles, -, -, -, -, hboards, -⟩ := softResetSpindles_sideSame .a s .b (by decide)
    exact (softResetSpindles_resets .b (softResetSpindles .a s)).from_same hspindles hboards

theorem softResetTables_boardsOnly (s : State) : BoardsOnly s (softResetTables s) :=
  (closePiecing_boardsOnly .a 1 _ s).trans (closePiecing_boardsOnly .b 1 _ (softResetSpindles .a s))

theorem softResetTables_frame (s : State) :
    OnlyChanges [.spindles, .breakList, .breakSeq, .bus] s (softResetTables s) :=
  (softResetSpindles_frame .a s).next (softResetSpindles_frame .b _)

end

/-! ## The carriages of both sides (R84) -/

/-- A carriage without its orders and its doff hold; a piece order's spindle becomes the withdrawn one (R84). -/
def Carriage.droppedForReset (c : Carriage) : Carriage :=
  { c with
    order := none, returning := false, doffHold := false
    withdrawn := match c.order with
      | some (.piece target _ _) => some target
      | _ => c.withdrawn }

/-- What the soft reset makes of a side's carriage and of the commands held for it. -/
def CarriageReset (side : Side) (s t : State) : Prop :=
  t.carriages.get side = (if (s.carriages.get side).state = .absent then (s.carriages.get side).droppedForReset
    else (s.carriages.get side).droppedForReset.sentHome s) ∧
  t.bus.carriages.get side = if (s.carriages.get side).state = .absent then s.bus.carriages.get side
    else (s.bus.carriages.get side).appendHome

theorem softResetCarriage_eq (side : Side) (s : State) : softResetCarriage side s =
    if (s.carriages.get side).state = .absent then modifyCarriage side Carriage.droppedForReset s
    else startHoming side (modifyCarriage side Carriage.droppedForReset s) := by
  have hdropped : Carriage.droppedForReset = fun c => { c with
      order := none, returning := false, doffHold := false,
      withdrawn := match c.pieceTarget with
        | some t => some t
        | none => c.withdrawn } := by
    funext c
    unfold Carriage.droppedForReset Carriage.pieceTarget
    rcases c.order with _ | (_ | _ | _) <;> rfl
  have hstate : ((modifyCarriage side Carriage.droppedForReset s).carriages.get side).state =
      (s.carriages.get side).state := by
    rw [modifyCarriage_get]
    rfl
  rw [← hstate, hdropped]
  rfl

theorem softResetCarriage_resets (side : Side) (s : State) : CarriageReset side s (softResetCarriage side s) := by
  unfold CarriageReset
  rw [softResetCarriage_eq]
  split
  · exact ⟨modifyCarriage_get side _ s, rfl⟩
  · rw [startHoming_carriages, startHoming_bus, Sides.get_set_same, modifyCarriage_get]
    exact ⟨rfl, Sides.get_modify_same _ _ _⟩

theorem softResetCarriage_otherSide (side : Side) (s : State) : OtherSideSame side s (softResetCarriage side s) := by
  rw [softResetCarriage_eq]
  split
  · exact modifyCarriage_otherSide side _ s
  · exact (modifyCarriage_otherSide side _ s).trans (startHoming_otherSide side _)

theorem softResetCarriage_bus (side : Side) (s : State) :
    ∃ c, (softResetCarriage side s).bus = { s.bus with carriages := c } := by
  rw [softResetCarriage_eq]
  split
  exacts [⟨_, rfl⟩, ⟨_, rfl⟩]

/-- Both sides' parts of the Carriage Controller. -/
def softResetCarriages (s : State) : State := softResetCarriage .b (softResetCarriage .a s)

theorem softResetCarriages_frame (s : State) : OnlyChanges [.carriages, .bus] s (softResetCarriages s) :=
  (softResetCarriage_frame .a s).next (softResetCarriage_frame .b _)

theorem softResetCarriages_resets (side : Side) (s : State) : CarriageReset side s (softResetCarriages s) := by
  cases side with
  | a =>
    obtain ⟨-, -, -, hcar, hbus, -⟩ := softResetCarriage_otherSide .b (softResetCarriage .a s) .a (by decide)
    obtain ⟨hreset, hheld⟩ := softResetCarriage_resets .a s
    exact ⟨hcar.trans hreset, hbus.trans hheld⟩
  | b =>
    obtain ⟨-, -, -, hcar, hbus, -⟩ := softResetCarriage_otherSide .a s .b (by decide)
    have hitems : (softResetCarriage .a s).items = s.items := softResetCarriage_frame .a s .items (by decide)
    have h := softResetCarriage_resets .b (softResetCarriage .a s)
    simp only [CarriageReset, Carriage.sentHome, hcar, hbus, hitems] at h
    exact h

theorem softResetCarriages_bus (s : State) : ∃ c, (softResetCarriages s).bus = { s.bus with carriages := c } := by
  obtain ⟨c, hc⟩ := softResetCarriage_bus .a s
  obtain ⟨d, hd⟩ := softResetCarriage_bus .b (softResetCarriage .a s)
  exact ⟨d, by rw [softResetCarriages, hd, hc]⟩

/-! ## The Doff Controller, the roving unit, the train and the set-point -/

section
variable (s : State)

/-- The Doff Controller after the soft reset (R107). -/
def Doff.afterReset (d : Doff) : Doff :=
  { d with
    frame := .stopped, watchStart := none, go := .none, done := ⟨[], []⟩
    timer := if d.go = .sent then none else d.timer
    ready := if d.go = .sent then false else d.ready
    last := d.last.map fun r => if r.outcome = none then { r with outcome := some .aborted } else r
    effective := d.saved.getD d.effective
    saved := none }

theorem softResetDoff_resets : (softResetDoff s).doff = s.doff.afterReset := by
  have hlast : (fun r : DoffRecord => if r.outcome.isNone then { r with outcome := some .aborted } else r) =
      fun r => if r.outcome = none then { r with outcome := some .aborted } else r := by
    funext r
    simp only [Option.isNone_iff_eq_none]
  rw [softResetDoff_doff, hlast]
  unfold recallDoffer Doff.restored Doff.afterReset
  by_cases h : s.doff.go = .sent
  · simp only [h, if_true]
    rfl
  · simp only [h, if_false]

theorem softResetDoff_bus : (softResetDoff s).bus = { s.bus with
    doffer := if s.doff.go = .sent then s.bus.doffer.appendDoffStop else s.bus.doffer } := by
  have hbus : (softResetDoff s).bus = (recallDoffer s).bus := by
    have hstand : (standDoff (recallDoffer s)).bus = (recallDoffer s).bus := standDoff_frame _ .bus (by decide)
    rw [softResetDoff_eq]
    split
    · exact hstand
    · exact (raise_frame _ _ .bus (by decide)).trans hstand
  rw [hbus]
  unfold recallDoffer
  split <;> rfl

theorem softResetDoff_lineRaises :
    LineRaises (if s.doff.frame = .stopped then [] else [.frameState]) s (softResetDoff s) := by
  have hframe : (recallDoffer s).doff.frame = s.doff.frame := by
    unfold recallDoffer
    split <;> rfl
  have hstand : (standDoff (recallDoffer s)).line = s.line :=
    (standDoff_frame _ .line (by decide)).trans (recallDoffer_frame s .line (by decide))
  rw [softResetDoff_eq, hframe]
  split
  · exact .of_same hstand
  · exact (raise_lineRaises .frameState _).from_same hstand

/-- The roving unit after the soft reset, with the spindles that wait (R144). -/
def Roving.afterReset (r : Roving) (waiting : List SpRef) : Roving :=
  { r with
    urgent := waiting, low := []
    slot := if r.run = .idle then r.slot else none
    timer := if r.run = .idle then r.timer else none
    run := .idle
    reason := if r.run = .idle then r.reason else some .aborted }

theorem softResetRoving_resets :
    (softResetRoving s).roving =
        s.roving.afterReset (waitingFrom .a 1 s.spindles.a ++ waitingFrom .b 1 s.spindles.b) ∧
      LineRaises (if s.roving.run = .idle then [] else [.rovingRunEnd]) s (softResetRoving s) := by
  unfold softResetRoving Roving.afterReset
  dsimp only
  by_cases h : s.roving.run = .idle
  · rw [if_neg (not_not.2 h)]
    simp only [if_pos h]
    exact ⟨by rw [← h]; rfl, .of_same rfl⟩
  · rw [if_pos h]
    simp only [if_neg h]
    exact ⟨rfl, (endRun_lineRaises .aborted _).from_same rfl⟩

/-- The governor's figures at 0 and the set-point recomputed (R9, R20). -/
theorem softResetSpeed_resets (h : s.doff.frame = .stopped) :
    (softResetSpeed s).speed = { s.speed with
      step := 0, winCount := 0, lowStreak := 0
      setPoint := setPointOf s.articles.active s.speed.fill s.items.speedTrim 0 .stopped } ∧
    LineRaises (speedRaised s.speed.setPoint (setPointOf s.articles.active s.speed.fill s.items.speedTrim 0 .stopped)) s
      (softResetSpeed s) := by
  have hsp : currentSetPoint (s.setSpeed { s.speed with step := 0, winCount := 0, lowStreak := 0 }) =
      setPointOf s.articles.active s.speed.fill s.items.speedTrim 0 .stopped := by
    rw [← h]
    rfl
  unfold softResetSpeed
  rw [recomputeSetPoint_speed, hsp]
  have hraises := recomputeSetPoint_lineRaises (s.setSpeed { s.speed with step := 0, winCount := 0, lowStreak := 0 })
  rw [hsp] at hraises
  exact ⟨rfl, hraises.from_same rfl⟩

end

/-! ## The soft reset in two halves -/

section
variable (s : State)

/-- The first half: the carriages and the tables of both sides. -/
def softResetSides : State := softResetTables (softResetCarriages s)

/-- The doff and a pending exchange given up. -/
def softResetPlans : State := (softResetDoff s).setArticles { (softResetDoff s).articles with request := false }

/-- The second half: the frame's blocks, from the state that the first half leaves. -/
def softResetFrame : State := softResetSpeed (softResetTrain (softResetRoving (softResetPlans s)))

theorem softReset_eq : softReset s = (softResetFrame (softResetSides s)).setLine
    { (softResetFrame (softResetSides s)).line with resetDue := false } := by
  unfold softReset softResetFrame softResetPlans softResetSides softResetTables softResetCarriages
  rfl

theorem softResetSides_frame :
    OnlyChanges [.carriages, .spindles, .breakList, .breakSeq, .bus] s (softResetSides s) :=
  (softResetCarriages_frame s).wide.next (softResetTables_frame _)

theorem softResetPlans_frame : OnlyChanges [.doff, .bus, .line, .articles] s (softResetPlans s) :=
  (softResetDoff_frame s).wide.next (setArticles_frame _ _)

theorem softResetPlans_doff : (softResetPlans s).doff = s.doff.afterReset := softResetDoff_resets s

theorem softResetPlans_active : (softResetPlans s).articles.active = s.articles.active := by
  rw [softResetPlans, State.setArticles_articles, softResetDoff_frame s .articles (by decide)]

theorem softResetPlans_lineRaises :
    LineRaises (if s.doff.frame = .stopped then [] else [.frameState]) s (softResetPlans s) :=
  (softResetDoff_lineRaises s).next (setArticles_frame _ _)

theorem softResetFrame_after : OnlyChanges [.roving, .line, .bus, .speed] (softResetPlans s) (softResetFrame s) :=
  ((softResetRoving_frame _).wide.next (softResetTrain_frame _)).next (softResetSpeed_frame _)

theorem softResetFrame_doff : (softResetFrame s).doff = s.doff.afterReset :=
  (softResetFrame_after s .doff (by decide)).trans (softResetPlans_doff s)

theorem softResetFrame_bus : (softResetFrame s).bus = { s.bus with
    doffer := if s.doff.go = .sent then s.bus.doffer.appendDoffStop else s.bus.doffer
    train := { s.bus.train with queue := s.bus.train.queue.map (·.toNone) } } := by
  have hroving : (softResetRoving (softResetPlans s)).bus = (softResetPlans s).bus := softResetRoving_frame _ .bus (by decide)
  have hplans : (softResetPlans s).bus = (softResetDoff s).bus := rfl
  have hspeed : (softResetFrame s).bus = (softResetTrain (softResetRoving (softResetPlans s))).bus :=
    softResetSpeed_frame _ .bus (by decide)
  rw [hspeed, softResetTrain, State.setBus_bus, hroving, hplans, softResetDoff_bus]

theorem softResetFrame_roving : (softResetFrame s).roving =
    s.roving.afterReset (waitingFrom .a 1 s.spindles.a ++ waitingFrom .b 1 s.spindles.b) := by
  have hplans := softResetPlans_frame s
  have hspeed : (softResetFrame s).roving = (softResetRoving (softResetPlans s)).roving :=
    (softResetSpeed_frame _ .roving (by decide)).trans (softResetTrain_frame _ .roving (by decide))
  rw [hspeed, (softResetRoving_resets _).1, hplans .roving (by decide), hplans .spindles (by decide)]

theorem softResetFrame_speed : (softResetFrame s).speed = { s.speed with
      step := 0, winCount := 0, lowStreak := 0
      setPoint := setPointOf s.articles.active s.speed.fill s.items.speedTrim 0 .stopped } ∧
    LineRaises ((if s.doff.frame = .stopped then [] else [.frameState]) ++
      (if s.roving.run = .idle then [] else [.rovingRunEnd]) ++
      speedRaised s.speed.setPoint (setPointOf s.articles.active s.speed.fill s.items.speedTrim 0 .stopped)) s
      (softResetFrame s) := by
  have hplans := softResetPlans_frame s
  have hstopped : (softResetPlans s).doff.frame = .stopped := by
    rw [softResetPlans_doff]
    rfl
  have hraised := softResetPlans_lineRaises s
  have hactive := softResetPlans_active s
  unfold softResetFrame
  generalize softResetPlans s = u at *
  have hv : OnlyChanges [.roving, .line, .bus] u (softResetTrain (softResetRoving u)) :=
    (softResetRoving_frame u).wide.next (softResetTrain_frame _)
  have hended := (softResetRoving_resets u).2.next (softResetTrain_frame _)
  obtain ⟨hspeed, hlast⟩ := softResetSpeed_resets (softResetTrain (softResetRoving u))
    ((congrArg Doff.frame (hv .doff (by decide))).trans hstopped)
  rw [hv .speed (by decide), hv .articles (by decide), hv .items (by decide), hplans .speed (by decide), hactive,
    hplans .items (by decide)] at hspeed hlast
  rw [hplans .roving (by decide)] at hended
  exact ⟨hspeed, (hraised.trans hended).trans hlast⟩

end

/-! ## The state after the soft reset -/

section
variable (s : State)

/-- The second half leaves the records, the lists, the carriages and what is not named. -/
theorem softResetSides_after : OnlyChanges [.doff, .articles, .roving, .bus, .speed, .line] (softResetSides s) (softReset s) := by
  rw [softReset_eq]
  exact ((softResetPlans_frame (softResetSides s)).wide.next (softResetFrame_after _)).next (setLine_frame _ _)

theorem softReset_bus : (softReset s).bus = { (softResetSides s).bus with
    doffer := if s.doff.go = .sent then s.bus.doffer.appendDoffStop else s.bus.doffer
    train := { s.bus.train with queue := s.bus.train.queue.map (·.toNone) } } := by
  obtain ⟨c, hc⟩ := softResetCarriages_bus s
  obtain ⟨b, hb⟩ := softResetTables_boardsOnly (softResetCarriages s)
  have hsides : (softResetSides s).bus = { s.bus with carriages := c, boards := b } := by
    rw [softResetSides, hb, hc]
  have hdoff : (softResetSides s).doff = s.doff := softResetSides_frame s .doff (by decide)
  have hframe := softResetFrame_bus (softResetSides s)
  rw [hdoff, hsides] at hframe
  rw [softReset_eq, State.setLine_bus, hframe, hsides]

theorem softResetSides_polls :
    (softResetSides s).bus.cycle = s.bus.cycle ∧ (softResetSides s).bus.awaiting = s.bus.awaiting := by
  obtain ⟨c, hc⟩ := softResetCarriages_bus s
  obtain ⟨-, -, -, hcycle, hawaiting⟩ := (softResetTables_boardsOnly (softResetCarriages s)).rest
  exact ⟨hcycle.trans (by rw [hc]), hawaiting.trans (by rw [hc])⟩

/-- What each side shows after the soft reset. -/
theorem softReset_tables (side : Side) : TableReset side s (softReset s) := by
  obtain ⟨c, hc⟩ := softResetCarriages_bus s
  have hcar := softResetCarriages_frame s
  have hafter := softResetSides_after s
  have htables := (softResetTables_resets side (softResetCarriages s)).from_same (s' := s)
    (congrArg (·.get side) (hcar .spindles (by decide))) (by rw [hc])
  exact htables.to_same (congrArg (·.get side) (hafter .spindles (by decide)))
    (congrArg (·.get side) (hafter .breakList (by decide))) (congrArg (·.get side) (hafter .breakSeq (by decide)))
    (by rw [softReset_bus]; rfl)

theorem softReset_carriage (side : Side) : CarriageReset side s (softReset s) := by
  obtain ⟨hcar, hheld⟩ := softResetCarriages_resets side s
  have htables := softResetTables_frame (softResetCarriages s) .carriages (by decide)
  obtain ⟨hbus, -⟩ := (softResetTables_boardsOnly (softResetCarriages s)).rest
  refine ⟨?_, ?_⟩
  · rw [← hcar]
    exact congrArg (·.get side) ((softResetSides_after s .carriages (by decide)).trans htables)
  · rw [← hheld, softReset_bus]
    exact congrArg (·.get side) hbus

/-- The record at a fitted position after the soft reset (R48). -/
theorem softReset_spindle {side : Side} {pos : Nat} (hpos : 1 ≤ pos) : (softReset s).spindle side pos =
    (s.spindle side pos).map fun sp => if sp.joins = true then { sp with
      state := .broken
      clamp := if sp.state = .piecing then .closed else sp.clamp
      seq := some (((s.spindles.get side).take pos).countP Spindle.joins) }
    else sp := by
  have h0 : pos ≠ 0 := by omega
  have h := softResetRecords_getElem? (s.spindles.get side) (pos - 1)
  rw [show pos - 1 + 1 = pos by omega] at h
  rw [State.spindle, State.spindle, if_neg h0, if_neg h0, (softReset_tables s side).records, h]

/-- The spindles of a side that wait for roving, which the soft reset lists (R144). -/
theorem waitingFrom_softReset (side : Side) : waitingFrom side 1 ((softReset s).spindles.get side) =
    ((List.range' 1 (s.spindles.get side).length).filter fun pos =>
      (s.spindle side pos).any (·.state == .waitRoving)).map fun pos => ⟨side, pos⟩ := by
  rw [(softReset_tables s side).records, waitingFrom_eq_map, softResetRecords_length,
    ← filter_positions_spindle (s := s) rfl]
  simp only [softResetRecords_waitingAt]

theorem softReset_doff : (softReset s).doff = s.doff.afterReset := by
  have hdoff : (softResetSides s).doff = s.doff := softResetSides_frame s .doff (by decide)
  rw [softReset_eq, State.setLine_doff, softResetFrame_doff, hdoff]

theorem softReset_roving : (softReset s).roving = s.roving.afterReset
    (waitingFrom .a 1 ((softReset s).spindles.get .a) ++ waitingFrom .b 1 ((softReset s).spindles.get .b)) := by
  have hroving : (softResetSides s).roving = s.roving := softResetSides_frame s .roving (by decide)
  have hspindles : (softReset s).spindles = (softResetSides s).spindles := softResetSides_after s .spindles (by decide)
  rw [hspindles, softReset_eq, State.setLine_roving, softResetFrame_roving, hroving]
  rfl

/-- The set-point that the soft reset leaves, with the governor's step at 0 and the frame STOPPED (R9, R20). -/
def resetSetPoint : Nat := setPointOf s.articles.active s.speed.fill s.items.speedTrim 0 .stopped

theorem softReset_speed : (softReset s).speed =
      { s.speed with step := 0, winCount := 0, lowStreak := 0, setPoint := resetSetPoint s } ∧
    (softReset s).line = { s.line with
      resetDue := false
      pendingSet := withClasses ((if s.doff.frame = .stopped then [] else [.frameState]) ++
        (if s.roving.run = .idle then [] else [.rovingRunEnd]) ++ speedRaised s.speed.setPoint (resetSetPoint s))
        s.line.pendingSet } := by
  have hsides := softResetSides_frame s
  obtain ⟨hspeed, hraises⟩ := softResetFrame_speed (softResetSides s)
  rw [hsides .speed (by decide), hsides .articles (by decide), hsides .items (by decide)] at hspeed hraises
  rw [hsides .doff (by decide), hsides .roving (by decide)] at hraises
  have hline := hraises.from_same (hsides .line (by decide))
  rw [softReset_eq]
  refine ⟨hspeed, ?_⟩
  rw [State.setLine_line, show (softResetFrame (softResetSides s)).line = _ from hline]
  rfl

end

/-! ## O57 -/

/-- Settles O57: the carriages and tables of both sides first, then the frame's blocks from the state that those leave. -/
theorem softResetCompletes : Obligations.SoftResetCompletes := by
  unfold Obligations.SoftResetCompletes
  refine ⟨fun s hs => ?_, fun s h => ?_, fun s h => ?_⟩
  · exact hs.replies (r := ⟨0x7F#8, []⟩) (owner := fun _ u => Handled.ok u []) rfl rfl fun l s' _ => ⟨s', rfl, rfl⟩
  · exact if_neg (by simp [h])
  intro joins dropped waiting
  obtain ⟨hspeed, hline⟩ := softReset_speed s
  obtain ⟨hcycle, hawaiting⟩ := softResetSides_polls s
  have hbus := softReset_bus s
  have hroving := softReset_roving s
  rw [waitingFrom_softReset, waitingFrom_softReset] at hroving
  refine ⟨softReset s, if_pos h, softReset_frame s, bothSides_iff.2 fun side => ?_, softReset_doff s,
    softReset_articles s, hspeed, hroving, by rw [hbus], ?_, by rw [hbus]; exact hcycle, by rw [hbus]; exact hawaiting, ?_⟩
  · obtain ⟨hrecords, hlist, hseq, hlength, hboards⟩ := softReset_tables s side
    obtain ⟨hcar, hheld⟩ := softReset_carriage s side
    rw [brokenFrom_softResetRecords, filter_positions_spindle (s := s) rfl] at hlist
    rw [brokenFrom_softResetRecords_length] at hseq
    refine ⟨hseq, by rw [hrecords, softResetRecords_length], fun pos hpos => ?_, hlist, hcar, hheld, hlength,
      fun sec e he => ?_⟩
    · exact softReset_spindle s (List.mem_range'_1.1 hpos).1
    · obtain ⟨e', he', hlink, hpoint, hlen, hplaces⟩ := hboards sec e he
      refine ⟨e', he', hlink, hpoint, hlen, fun p hp hple => ?_⟩
      obtain ⟨hp1, hp48⟩ := List.mem_range'_1.1 hp
      have hpiecing : piecingAt 1 (s.spindles.get side) (48 * (sec - 1) + (p - 1) + 1) =
          (s.spindle side (48 * (sec - 1) + p)).any (·.state == .piecing) := by
        rw [show 48 * (sec - 1) + (p - 1) + 1 = 48 * (sec - 1) + p by omega, piecingAt, State.spindle,
          if_neg (by omega)]
        simp [show 1 ≤ 48 * (sec - 1) + p by omega]
      rw [hplaces (p - 1) (by omega) (by omega), hpiecing]
  · rw [hbus]
    rfl
  · rw [hline, hspeed]

end Sys2Proof.Machine
end
